-- ==== Sys2Proof/Word.lean ====
section
/-! DEFINITION. The word types of the block and their plainest arithmetic (00_scope.md R9, R10). -/

namespace Sys2Proof

/-- A byte (20_memory.md R70: "the byte is 8 bits"). -/
abbrev Byte := BitVec 8

/-- A 16-bit value: an ASID or VMID field of the simulated ASID (30_encoding.md R118). -/
abbrev U16 := BitVec 16

/-- `u64` (00_scope.md R10): virtual, guest-physical and physical addresses, keys, register words. -/
abbrev U64 := BitVec 64

/-- `allOnes = 2^64 - 1` (00_scope.md R10), as a number. -/
abbrev maxU64 : Nat := 2 ^ 64 - 1

/-- `Priv`: a subset of R, W, X as a 3-bit number with R = 1, W = 2, X = 4 (00_scope.md R12). -/
abbrev Priv := BitVec 3

/-- The privilege R. -/
abbrev Priv.R : Priv := 1
/-- The privilege W. -/
abbrev Priv.W : Priv := 2
/-- The privilege X. -/
abbrev Priv.X : Priv := 4
/-- All three privileges. -/
abbrev Priv.RWX : Priv := 7
/-- No privilege. -/
abbrev Priv.NONE : Priv := 0

end Sys2Proof
end

