-- ==== Sys2Proof/Syntax.lean ====
section
/-! DEFINITION. The names the spec uses for modes, TLBs, domains and walker errors, and the ONE inductive of the
block's instructions: the 21 commands of 30_encoding.md R130 and the internal operations R133 gives rows of the opcode
table (six walkers, four PMP region kinds, four PTE kinds). -/

namespace Sys2Proof

/-- The base privilege modes (00_scope.md R12). -/
inductive BaseMode where
  | user | supervisor | machine
deriving DecidableEq, Repr

/-- `Mode5` (00_scope.md R12): the base modes and the virtualized VU and VS. -/
inductive Mode5 where
  | user | supervisor | machine | vu | vs
deriving DecidableEq, Repr

/-- `TlbId` (00_scope.md R12): the three translation regimes. -/
inductive TlbId where
  | hs | vs1 | vs2
deriving DecidableEq, Repr

/-- `SvMode` (00_scope.md R12). -/
inductive SvMode where
  | sv32 | sv39 | sv48
deriving DecidableEq, Repr

/-- Domain class of a `MISS` (30_encoding.md R120). -/
inductive DomainClass where
  | other | phys | pmp | virt
deriving DecidableEq, Repr

/-- `WalkErr` (00_scope.md R12), in the order of 30_encoding.md R120 less its code 0 (OK). -/
inductive WalkErr where
  | vaextend | v0 | r0w1 | leaf | align | priv | a0 | d0 | read | write
deriving DecidableEq, Repr

/-- The pointer registers a stage-1 walker can be selected by (40_walker.md R142 to R144). -/
inductive Stage1Reg where
  | satp | vsatp
deriving DecidableEq, Repr

/-- The two page-table entry formats: 32 bits (30_encoding.md R107) and 64 bits (R108). -/
inductive PteFormat where
  | pte32 | pte64
deriving DecidableEq, Repr

/-- The instructions of the block: one constructor per mnemonic of spec/opcode_table.json (PTE_LEAF has two rows, one
for each of its bit patterns, and one constructor). -/
inductive Instr where
  -- the 21 commands, 30_encoding.md R130, operands R131
  | vmInit
  | vmFree
  | miss (cls : DomainClass) (mode : Mode5) (req : Priv) (va : U64) (bytes : Nat) (artifact : Bool)
  | invalAll
  | invalAllAsid (asid : U64)
  | invalVa (va : U64)
  | invalVaAsid (va asid : U64)
  | setAsid
  | refreshMprv
  | pmpcfgRead (w : Nat)
  | pmpcfgWrite (w : Nat) (value : U64)
  | pmpaddrRead (i : Nat)
  | pmpaddrWrite (i : Nat) (value : U64)
  | pmpReset
  | pmpNew
  | pmpFree
  | vmSave
  | vmRestore (stream : List Byte)
  | dumpTlb
  | dumpVs1Tlb
  | dumpVs2Tlb
  -- the six walkers, 40_walker.md R142 to R149, operands R140
  | walkSv32 (reg : Stage1Reg) (va : U64) (req : Priv) (mode : Mode5) (artifact : Bool)
  | walkSv39 (reg : Stage1Reg) (va : U64) (req : Priv) (mode : Mode5) (artifact : Bool)
  | walkSv48 (reg : Stage1Reg) (va : U64) (req : Priv) (mode : Mode5) (artifact : Bool)
  | walkSv32x4 (gpa : U64) (req : Priv) (mode : Mode5) (artifact : Bool)
  | walkSv39x4 (gpa : U64) (req : Priv) (mode : Mode5) (artifact : Bool)
  | walkSv48x4 (gpa : U64) (req : Priv) (mode : Mode5) (artifact : Bool)
  -- the four PMP region kinds: the L, X, W, R bits of the config byte (30_encoding.md R115) and the region index
  | pmpOff (l x w r : Bool) (i : Nat)
  | pmpTor (l x w r : Bool) (i : Nat)
  | pmpNa4 (l x w r : Bool) (i : Nat)
  | pmpNapot (l x w r : Bool) (i : Nat)
  -- the four PTE kinds: the free ones of the bits X, W, R (30_encoding.md R109), the PTE's bits 63:4, its format
  | pteInvalid (x w r : Bool) (upper : BitVec 60) (fmt : PteFormat)
  | pteReserved (x : Bool) (upper : BitVec 60) (fmt : PteFormat)
  | ptePointer (upper : BitVec 60) (fmt : PteFormat)
  | pteLeaf (x w r : Bool) (upper : BitVec 60) (fmt : PteFormat)
deriving DecidableEq, Repr

end Sys2Proof
end

