-- ==== Sys2Proof/Config.lean ====
section
/-! DEFINITION. What an implementation fixes (00_scope.md R6) and the values the spec leaves open. -/

namespace Sys2Proof

/-- Register width of the surrounding processor (00_scope.md R6). -/
inductive XLen where
  | x32 | x64
deriving DecidableEq, Repr

/-- Privileged-architecture version, "ordered enum containing 1.10 < 1.11 < 1.12" (00_scope.md R6). -/
inductive PrivVersion where
  | v1_10 | v1_11 | v1_12
deriving DecidableEq, Repr

/-- The parameters of one block instance, fixed for its life (00_scope.md R6). They are the read-only field `params` of
State so that every statement covers every value of them; no step changes them (log 4). -/
structure Params where
  /-- `XLEN`. -/
  xlen : XLen
  /-- `PMP_N`: number of PMP regions, 0 to 64. -/
  pmpN : Nat
  /-- `PMP_G`: PMP grain, 0 to 62. -/
  pmpG : Nat
  /-- `PA_BITS`: implemented external address bits, 1 to 64. -/
  paBits : Nat
  /-- `ASID_BITS`: 0 to 16; 0 means the ASID feature is absent. -/
  asidBits : Nat
  /-- `VMID_BITS`: 0 to 16. -/
  vmidBits : Nat
  /-- `HAS_H`: the regimes VS1 and VS2 exist. -/
  hasH : Bool
  /-- Sv32 is in `SV_MODES`. -/
  hasSv32 : Bool
  /-- Sv39 is in `SV_MODES`. -/
  hasSv39 : Bool
  /-- Sv48 is in `SV_MODES`. -/
  hasSv48 : Bool
  /-- `UPDATE_PTE_A`. -/
  updatePteA : Bool
  /-- `UPDATE_PTE_D`. -/
  updatePteD : Bool
  /-- `PRIV_VERSION`. -/
  privVersion : PrivVersion
  /-- `UNALIGNED`. -/
  unaligned : Bool
  /-- `WIDE_REGS`. -/
  wideRegs : Bool
  /-- `SPLIT_CODE_DATA`. -/
  splitCodeData : Bool
  /-- `MIN_MODE`: minimum implemented privilege mode. -/
  minMode : BaseMode
  /-- `VS1_PTW_VIA_S2` (20_memory.md R95). -/
  vs1PtwViaS2 : Bool
deriving DecidableEq, Repr

/-- The ranges 00_scope.md R6 gives the numeric parameters. -/
def Params.wf (p : Params) : Bool :=
  decide (p.pmpN ≤ 64) && decide (p.pmpG ≤ 62) && decide (1 ≤ p.paBits) && decide (p.paBits ≤ 64)
    && decide (p.asidBits ≤ 16) && decide (p.vmidBits ≤ 16)

/-- The default set of 95_test_vectors.md; the points it does not name (`UNALIGNED`, `WIDE_REGS`, `SPLIT_CODE_DATA`,
`MIN_MODE`, `SV_MODES`) are DESIGN CHOICE, log 4. -/
def Params.default : Params where
  xlen := .x64
  pmpN := 0
  pmpG := 0
  paBits := 56
  asidBits := 16
  vmidBits := 14
  hasH := true
  hasSv32 := true
  hasSv39 := true
  hasSv48 := true
  updatePteA := true
  updatePteD := true
  privVersion := .v1_12
  unaligned := false
  wideRegs := false
  splitCodeData := false
  minMode := .user
  vs1PtwViaS2 := false

/-- `CHUNK = 2^32` bytes, the cap on one installed mapping (00_scope.md R7). -/
abbrev chunkBits : Nat := 32

/-- Free values, one for each draw: no body, so nothing can be proved about them. `State.choice` counts the draws. Used for
the order a range query yields its entries (41_tlb.md R182, log 8) and for the privilege and mask of the identity
mapping of 42_translate.md R236 (log 15). -/
opaque Config.free : Nat → Nat

/-- `entryASID(e)` of a VS2 entry is "undefined and never used" (10_state.md R34); an unchecked restored VS2 entry with
`G = 0` reaches it (44_host_ops.md R313), so it is a free value of the entry's key (log 17). -/
opaque Config.vs2EntryAsid : U64 → U16

end Sys2Proof
end

