-- ==== Sys2Proof/WellFormed.lean ====
section
/-! DEFINITION. Well-formedness of an instruction: the operand domains of 30_encoding.md R131 and 40_walker.md R140, and what
the model's packet fields hold (log 1). What depends on a parameter (`HAS_H`, `MIN_MODE`) is checked when the
instruction runs (44_host_ops.md R319). -/

namespace Sys2Proof

/-- `req` is "exactly one of R, W, X" (40_walker.md R140). -/
def Priv.isSingleton (p : Priv) : Bool :=
  p == Priv.R || p == Priv.W || p == Priv.X

/-- `bytes` is "natural ≥ 1" (30_encoding.md R131) and fits the packet's 9-byte field, which holds every span R221 of
42_translate.md admits (`bytes ≤ 2^64`). -/
def wfBytes (n : Nat) : Bool :=
  decide (1 ≤ n) && decide (n < 2 ^ 72)

/-- A word or region index fits the packet's one-byte field; every index a rule gives an effect is below 64. -/
def wfIndex (i : Nat) : Bool :=
  decide (i < 256)

/-- A restore stream fits the packet's 4-byte length field. -/
def wfStream (bs : List Byte) : Bool :=
  decide (bs.length < 2 ^ 32)

/-- A 32-bit PTE has no bits 63:32 (30_encoding.md R107): bits 59:28 of the field `upper` are zero. -/
def wfUpper (upper : BitVec 60) (fmt : PteFormat) : Bool :=
  match fmt with
  | .pte32 => decide (upper.toNat < 2 ^ 28)
  | .pte64 => true

/-- The leaf patterns of 30_encoding.md R109 on `X W R V`: `?011`, `?111`, `1001`. -/
def wfLeaf (x w r : Bool) : Bool :=
  r || (x && !w)

/-- The well-formed instructions. -/
def Instr.wf : Instr → Bool
  | .vmInit | .vmFree | .invalAll | .invalAllAsid _ | .invalVa _ | .invalVaAsid _ _ | .setAsid | .refreshMprv => true
  | .miss _ _ req _ bytes _ => req.isSingleton && wfBytes bytes
  | .pmpcfgRead w => wfIndex w
  | .pmpcfgWrite w _ => wfIndex w
  | .pmpaddrRead i => wfIndex i
  | .pmpaddrWrite i _ => wfIndex i
  | .pmpReset | .pmpNew | .pmpFree | .vmSave | .dumpTlb | .dumpVs1Tlb | .dumpVs2Tlb => true
  | .vmRestore stream => wfStream stream
  | .walkSv32 _ _ req _ _ | .walkSv39 _ _ req _ _ | .walkSv48 _ _ req _ _ => req.isSingleton
  | .walkSv32x4 _ req _ _ | .walkSv39x4 _ req _ _ | .walkSv48x4 _ req _ _ => req.isSingleton
  | .pmpOff _ _ _ _ i | .pmpTor _ _ _ _ i | .pmpNa4 _ _ _ _ i | .pmpNapot _ _ _ _ i => wfIndex i
  | .pteInvalid _ _ _ upper fmt => wfUpper upper fmt
  | .pteReserved _ upper fmt => wfUpper upper fmt
  | .ptePointer upper fmt => wfUpper upper fmt
  | .pteLeaf x w r upper fmt => wfLeaf x w r && wfUpper upper fmt

end Sys2Proof
end

