-- ==== Sys2Proof/Decode.lean ====
section
/-! DEFINITION. Packets, the decoder and the encoder. The command codes are those of 30_encoding.md R130; the words of the
internal operations are the MODE field, the PMP config byte and the PTE bits of R109, R113, R115. Operands are abstract
values in the spec (R131); their packing into bytes, little-endian, is the model's (log 1). -/

namespace Sys2Proof

/-- The word formats of spec/opcode_table.json. They share bit patterns, so a packet names its format (log 2). -/
inductive WordFormat where
  /-- The 8-bit command code (30_encoding.md R130). -/
  | cmd8
  /-- `MODE` of a 32-bit pointer register, one bit (30_encoding.md R111 to R113). -/
  | mode1
  /-- `MODE` of a 64-bit pointer register, four bits (30_encoding.md R111 to R113). -/
  | mode4
  /-- A PMP config byte (30_encoding.md R115). -/
  | pmpcfg8
  /-- A page-table entry, whose bits 3:0 select its kind (30_encoding.md R109). -/
  | pte4
deriving DecidableEq, Repr

/-- One instruction as it is presented to the block: the format of its word and its bytes, the word first. -/
structure Packet where
  format : WordFormat
  bytes : List Byte
deriving DecidableEq, Repr

/-- Why a packet is no instruction. -/
inductive DecodeError where
  /-- The packet ends before its operands do. -/
  | truncated
  /-- A command code outside `0x01` to `0x15` (44_host_ops.md R319). -/
  | unknownCommand
  /-- A domain class code above 3 (30_encoding.md R120). -/
  | badClass
  /-- A mode code 2, 6 or above (30_encoding.md R120). -/
  | badMode
  /-- A `Priv` code above 7. -/
  | badPriv
  /-- A flag byte that is neither 0 nor 1. -/
  | badFlag
  /-- A pointer-register code above 2 (log 1). -/
  | badRegister
  /-- `MODE = 0`: Bare selects no walker (30_encoding.md R113). -/
  | bareMode
  /-- A `MODE` value of no walker (30_encoding.md R113). -/
  | reservedMode
  /-- A PTE format code above 1. -/
  | badPteFormat
  /-- A 32-bit PTE with bits above 31 set. -/
  | badPteUpper
deriving DecidableEq, Repr

/-! ### Codes -/

/-- `Mode5` codes (30_encoding.md R120). -/
def Mode5.code : Mode5 → Nat
  | .user => 0
  | .supervisor => 1
  | .machine => 3
  | .vu => 4
  | .vs => 5

/-- The mode of a code (30_encoding.md R120). -/
def Mode5.ofCode (n : Nat) : Option Mode5 :=
  if n = 0 then some .user else if n = 1 then some .supervisor else if n = 3 then some .machine
  else if n = 4 then some .vu else if n = 5 then some .vs else none

/-- Domain class codes (30_encoding.md R120). -/
def DomainClass.code : DomainClass → Nat
  | .other => 0
  | .phys => 1
  | .pmp => 2
  | .virt => 3

/-- The domain class of a code (30_encoding.md R120). -/
def DomainClass.ofCode (n : Nat) : Option DomainClass :=
  if n = 0 then some .other else if n = 1 then some .phys else if n = 2 then some .pmp
  else if n = 3 then some .virt else none

/-- `TlbId` codes (30_encoding.md R120). -/
def TlbId.code : TlbId → Nat
  | .hs => 0
  | .vs1 => 1
  | .vs2 => 2

/-- The TLB of a code (30_encoding.md R120). -/
def TlbId.ofCode (n : Nat) : Option TlbId :=
  if n = 0 then some .hs else if n = 1 then some .vs1 else if n = 2 then some .vs2 else none

/-- `WalkErr` codes (30_encoding.md R120). -/
def WalkErr.code : WalkErr → Nat
  | .vaextend => 1
  | .v0 => 2
  | .r0w1 => 3
  | .leaf => 4
  | .align => 5
  | .priv => 6
  | .a0 => 7
  | .d0 => 8
  | .read => 9
  | .write => 10

/-- The code of the `err` field of a response, OK = 0 (30_encoding.md R120, 42_translate.md R238). -/
def errCode : Option WalkErr → Nat
  | none => 0
  | some e => e.code

/-- A flag byte. -/
def flagOfCode (n : Nat) : Option Bool :=
  if n = 0 then some false else if n = 1 then some true else none

/-- The code of a PTE format (log 1). -/
def PteFormat.code : PteFormat → Nat
  | .pte64 => 0
  | .pte32 => 1

/-- The PTE format of a code (log 1). -/
def PteFormat.ofCode (n : Nat) : Option PteFormat :=
  if n = 0 then some .pte64 else if n = 1 then some .pte32 else none

/-! ### Little-endian fields of a packet -/

/-- The `n` low bytes of `v`, least significant first. -/
def leBytes : Nat → Nat → List Byte
  | 0, _ => []
  | n + 1, v => BitVec.ofNat 8 v :: leBytes n (v / 256)

/-- Read an `n`-byte little-endian field: its value and the bytes after it. -/
def takeLE : Nat → List Byte → Option (Nat × List Byte)
  | 0, bs => some (0, bs)
  | _ + 1, [] => none
  | n + 1, b :: bs =>
    match takeLE n bs with
    | some (v, rest) => some (b.toNat + 256 * v, rest)
    | none => none

/-- Read a field and go on with its value, or reject the packet as truncated. -/
def withField {α : Type} (n : Nat) (bs : List Byte) (k : Nat → List Byte → Except DecodeError α) :
    Except DecodeError α :=
  match takeLE n bs with
  | some (v, rest) => k v rest
  | none => .error .truncated

/-- Read a coded field and go on with what its code means, or reject the packet with `e`. -/
def withCode {α β : Type} (n : Nat) (ofCode : Nat → Option β) (e : DecodeError) (bs : List Byte)
    (k : β → List Byte → Except DecodeError α) : Except DecodeError α :=
  withField n bs fun v rest =>
    match ofCode v with
    | some b => k b rest
    | none => .error e

/-- A `Priv` code (30_encoding.md R120). -/
def privOfCode (n : Nat) : Option Priv :=
  if n < 8 then some (BitVec.ofNat 3 n) else none

/-! ### The decoder -/

/-- Operands of `MISS` (30_encoding.md R131): class, mode, req, artifact, VA, bytes. -/
def decodeMiss (bs : List Byte) : Except DecodeError Instr :=
  withCode 1 DomainClass.ofCode .badClass bs fun cls bs =>
  withCode 1 Mode5.ofCode .badMode bs fun mode bs =>
  withCode 1 privOfCode .badPriv bs fun req bs =>
  withCode 1 flagOfCode .badFlag bs fun artifact bs =>
  withField 8 bs fun va bs =>
  withField 9 bs fun n _ =>
  .ok (.miss cls mode req (BitVec.ofNat 64 va) n artifact)

/-- Operand of `VM_RESTORE`: a 4-byte length and that many bytes. -/
def decodeRestore (bs : List Byte) : Except DecodeError Instr :=
  withField 4 bs fun n rest =>
  if rest.length < n then .error .truncated else .ok (.vmRestore (rest.take n))

/-- A command: its code (30_encoding.md R130) and its operands (R131). -/
def decodeCommand (code : Nat) (bs : List Byte) : Except DecodeError Instr :=
  match code with
  | 0x01 => .ok .vmInit
  | 0x02 => .ok .vmFree
  | 0x03 => decodeMiss bs
  | 0x04 => .ok .invalAll
  | 0x05 => withField 8 bs fun asid _ => .ok (.invalAllAsid (BitVec.ofNat 64 asid))
  | 0x06 => withField 8 bs fun va _ => .ok (.invalVa (BitVec.ofNat 64 va))
  | 0x07 => withField 8 bs fun va bs => withField 8 bs fun asid _ =>
      .ok (.invalVaAsid (BitVec.ofNat 64 va) (BitVec.ofNat 64 asid))
  | 0x08 => .ok .setAsid
  | 0x09 => .ok .refreshMprv
  | 0x0A => withField 1 bs fun w _ => .ok (.pmpcfgRead w)
  | 0x0B => withField 1 bs fun w bs => withField 8 bs fun v _ => .ok (.pmpcfgWrite w (BitVec.ofNat 64 v))
  | 0x0C => withField 1 bs fun i _ => .ok (.pmpaddrRead i)
  | 0x0D => withField 1 bs fun i bs => withField 8 bs fun v _ => .ok (.pmpaddrWrite i (BitVec.ofNat 64 v))
  | 0x0E => .ok .pmpReset
  | 0x0F => .ok .pmpNew
  | 0x10 => .ok .pmpFree
  | 0x11 => .ok .vmSave
  | 0x12 => decodeRestore bs
  | 0x13 => .ok .dumpTlb
  | 0x14 => .ok .dumpVs1Tlb
  | 0x15 => .ok .dumpVs2Tlb
  | _ => .error .unknownCommand

/-- Operands of a walker after its `MODE` word: the pointer register (0 `satp`, 1 `vsatp`, 2 `hgatp`), the address, req,
mode, artifact (40_walker.md R140). `sv` is the scheme the `MODE` word names. -/
def decodeWalker (sv : SvMode) (bs : List Byte) : Except DecodeError Instr :=
  withCode 1 TlbId.ofCode .badRegister bs fun t bs =>
  withField 8 bs fun addr bs =>
  withCode 1 privOfCode .badPriv bs fun req bs =>
  withCode 1 Mode5.ofCode .badMode bs fun mode bs =>
  withCode 1 flagOfCode .badFlag bs fun artifact _ =>
  let a : U64 := BitVec.ofNat 64 addr
  match sv, t with
  | .sv32, .hs => .ok (.walkSv32 .satp a req mode artifact)
  | .sv32, .vs1 => .ok (.walkSv32 .vsatp a req mode artifact)
  | .sv32, .vs2 => .ok (.walkSv32x4 a req mode artifact)
  | .sv39, .hs => .ok (.walkSv39 .satp a req mode artifact)
  | .sv39, .vs1 => .ok (.walkSv39 .vsatp a req mode artifact)
  | .sv39, .vs2 => .ok (.walkSv39x4 a req mode artifact)
  | .sv48, .hs => .ok (.walkSv48 .satp a req mode artifact)
  | .sv48, .vs1 => .ok (.walkSv48 .vsatp a req mode artifact)
  | .sv48, .vs2 => .ok (.walkSv48x4 a req mode artifact)

/-- `MODE` of a 32-bit pointer register (30_encoding.md R113): 0 Bare, 1 Sv32 (Sv32x4 in `hgatp`). -/
def decodeMode1 (mode : Nat) (bs : List Byte) : Except DecodeError Instr :=
  match mode with
  | 0 => .error .bareMode
  | 1 => decodeWalker .sv32 bs
  | _ => .error .reservedMode

/-- `MODE` of a 64-bit pointer register (30_encoding.md R113): 0 Bare, 8 Sv39, 9 Sv48 (the x4 forms in `hgatp`). -/
def decodeMode4 (mode : Nat) (bs : List Byte) : Except DecodeError Instr :=
  match mode with
  | 0 => .error .bareMode
  | 8 => decodeWalker .sv39 bs
  | 9 => decodeWalker .sv48 bs
  | _ => .error .reservedMode

/-- A PMP config byte and a region index (30_encoding.md R115): bits 4:3 select the kind; bits 6:5 are ignored. -/
def decodePmpcfg (byte : Byte) (bs : List Byte) : Except DecodeError Instr :=
  withField 1 bs fun i _ =>
  let l := byte.getLsbD 7
  let x := byte.getLsbD 2
  let w := byte.getLsbD 1
  let r := byte.getLsbD 0
  match byte.getLsbD 4, byte.getLsbD 3 with
  | false, false => .ok (.pmpOff l x w r i)
  | false, true => .ok (.pmpTor l x w r i)
  | true, false => .ok (.pmpNa4 l x w r i)
  | true, true => .ok (.pmpNapot l x w r i)

/-- A page-table entry and its format: bits 3:0 select the kind, "decoded from bits 3:0 in this order": invalid, reserved,
leaf, pointer (30_encoding.md R109). -/
def decodePte (pte : U64) (fmt : PteFormat) : Except DecodeError Instr :=
  let v := pte.getLsbD 0
  let r := pte.getLsbD 1
  let w := pte.getLsbD 2
  let x := pte.getLsbD 3
  let upper : BitVec 60 := pte.extractLsb' 4 60
  if !wfUpper upper fmt then .error .badPteUpper
  else if !v then .ok (.pteInvalid x w r upper fmt)
  else if !r && w then .ok (.pteReserved x upper fmt)
  else if r || w || x then .ok (.pteLeaf x w r upper fmt)
  else .ok (.ptePointer upper fmt)

/-- The decoder, total on any packet. Bytes after the operands are ignored (log 1). -/
def decode (p : Packet) : Except DecodeError Instr :=
  match p.format with
  | .cmd8 => withField 1 p.bytes decodeCommand
  | .mode1 => withField 1 p.bytes decodeMode1
  | .mode4 => withField 1 p.bytes decodeMode4
  | .pmpcfg8 => withField 1 p.bytes fun b bs => decodePmpcfg (BitVec.ofNat 8 b) bs
  | .pte4 => withField 8 p.bytes fun v bs =>
      withCode 1 PteFormat.ofCode .badPteFormat bs fun fmt _ => decodePte (BitVec.ofNat 64 v) fmt

/-! ### The encoder -/

/-- A command packet: the code of 30_encoding.md R130 and the operand bytes. -/
def commandPacket (code : Byte) (operands : List Byte) : Packet :=
  { format := .cmd8, bytes := code :: operands }

/-- A flag as a byte. -/
def flagByte (b : Bool) : Byte :=
  if b then 1 else 0

/-- Operand bytes of a walker. -/
def walkerOperands (t : TlbId) (addr : U64) (req : Priv) (mode : Mode5) (artifact : Bool) : List Byte :=
  BitVec.ofNat 8 t.code :: (leBytes 8 addr.toNat
    ++ [BitVec.ofNat 8 req.toNat, BitVec.ofNat 8 mode.code, flagByte artifact])

/-- The packet of a walker: `MODE` 1 in a 32-bit register, 8 or 9 in a 64-bit one (30_encoding.md R113). -/
def walkerPacket (sv : SvMode) (operands : List Byte) : Packet :=
  match sv with
  | .sv32 => { format := .mode1, bytes := 0x01 :: operands }
  | .sv39 => { format := .mode4, bytes := 0x08 :: operands }
  | .sv48 => { format := .mode4, bytes := 0x09 :: operands }

/-- The TLB a stage-1 walker fills for a pointer register (40_walker.md R142). -/
def Stage1Reg.tlb : Stage1Reg → TlbId
  | .satp => .hs
  | .vsatp => .vs1

/-- A PMP config byte from its fields (30_encoding.md R115): `L 0 0 A A X W R`. -/
def pmpcfgByte (l : Bool) (a : BitVec 2) (x w r : Bool) : Byte :=
  BitVec.ofBool l ++ (0#2 ++ (a ++ (BitVec.ofBool x ++ (BitVec.ofBool w ++ BitVec.ofBool r))))

/-- The packet of a PMP region kind. -/
def pmpcfgPacket (byte : Byte) (i : Nat) : Packet :=
  { format := .pmpcfg8, bytes := [byte, BitVec.ofNat 8 i] }

/-- A page-table entry from its bits 63:4 and `X W R V` (30_encoding.md R107 to R109). -/
def pteWord (upper : BitVec 60) (x w r v : Bool) : U64 :=
  upper ++ (BitVec.ofBool x ++ (BitVec.ofBool w ++ (BitVec.ofBool r ++ BitVec.ofBool v)))

/-- The packet of a PTE kind. -/
def ptePacket (pte : U64) (fmt : PteFormat) : Packet :=
  { format := .pte4, bytes := leBytes 8 pte.toNat ++ [BitVec.ofNat 8 fmt.code] }

/-- The packet of a well-formed instruction. -/
def encode : Instr → Packet
  | .vmInit => commandPacket 0x01 []
  | .vmFree => commandPacket 0x02 []
  | .miss cls mode req va bytes artifact =>
      commandPacket 0x03 (BitVec.ofNat 8 cls.code :: BitVec.ofNat 8 mode.code :: BitVec.ofNat 8 req.toNat
        :: flagByte artifact :: (leBytes 8 va.toNat ++ leBytes 9 bytes))
  | .invalAll => commandPacket 0x04 []
  | .invalAllAsid asid => commandPacket 0x05 (leBytes 8 asid.toNat)
  | .invalVa va => commandPacket 0x06 (leBytes 8 va.toNat)
  | .invalVaAsid va asid => commandPacket 0x07 (leBytes 8 va.toNat ++ leBytes 8 asid.toNat)
  | .setAsid => commandPacket 0x08 []
  | .refreshMprv => commandPacket 0x09 []
  | .pmpcfgRead w => commandPacket 0x0A [BitVec.ofNat 8 w]
  | .pmpcfgWrite w value => commandPacket 0x0B (BitVec.ofNat 8 w :: leBytes 8 value.toNat)
  | .pmpaddrRead i => commandPacket 0x0C [BitVec.ofNat 8 i]
  | .pmpaddrWrite i value => commandPacket 0x0D (BitVec.ofNat 8 i :: leBytes 8 value.toNat)
  | .pmpReset => commandPacket 0x0E []
  | .pmpNew => commandPacket 0x0F []
  | .pmpFree => commandPacket 0x10 []
  | .vmSave => commandPacket 0x11 []
  | .vmRestore stream => commandPacket 0x12 (leBytes 4 stream.length ++ stream)
  | .dumpTlb => commandPacket 0x13 []
  | .dumpVs1Tlb => commandPacket 0x14 []
  | .dumpVs2Tlb => commandPacket 0x15 []
  | .walkSv32 reg va req mode artifact => walkerPacket .sv32 (walkerOperands reg.tlb va req mode artifact)
  | .walkSv39 reg va req mode artifact => walkerPacket .sv39 (walkerOperands reg.tlb va req mode artifact)
  | .walkSv48 reg va req mode artifact => walkerPacket .sv48 (walkerOperands reg.tlb va req mode artifact)
  | .walkSv32x4 gpa req mode artifact => walkerPacket .sv32 (walkerOperands .vs2 gpa req mode artifact)
  | .walkSv39x4 gpa req mode artifact => walkerPacket .sv39 (walkerOperands .vs2 gpa req mode artifact)
  | .walkSv48x4 gpa req mode artifact => walkerPacket .sv48 (walkerOperands .vs2 gpa req mode artifact)
  | .pmpOff l x w r i => pmpcfgPacket (pmpcfgByte l 0 x w r) i
  | .pmpTor l x w r i => pmpcfgPacket (pmpcfgByte l 1 x w r) i
  | .pmpNa4 l x w r i => pmpcfgPacket (pmpcfgByte l 2 x w r) i
  | .pmpNapot l x w r i => pmpcfgPacket (pmpcfgByte l 3 x w r) i
  | .pteInvalid x w r upper fmt => ptePacket (pteWord upper x w r false) fmt
  | .pteReserved x upper fmt => ptePacket (pteWord upper x true false true) fmt
  | .ptePointer upper fmt => ptePacket (pteWord upper false false false true) fmt
  | .pteLeaf x w r upper fmt => ptePacket (pteWord upper x w r true) fmt

/-! ### A word of the opcode table -/

/-- The format a word of spec/opcode_table.json is read in, from its width: one bit is a `MODE` bit; two to four bits are a
`MODE` field where a walker has that value and else PTE bits 3:0; a whole byte is a command code where R130 has that
code and else a PMP config byte (log 2). -/
def tableFormat (nbits w : Nat) : WordFormat :=
  if nbits ≤ 1 then .mode1
  else if nbits ≤ 4 then (if w = 8 ∨ w = 9 then .mode4 else .pte4)
  else if 1 ≤ w % 256 ∧ w % 256 ≤ 0x15 then .cmd8
  else .pmpcfg8

/-- The packet whose table bits are `w`: its bytes in order, then operand bytes of zeros (as many as the longest packet of
fixed length has). -/
def tablePacket (nbits w : Nat) : Packet :=
  { format := tableFormat nbits w
    bytes := leBytes ((nbits + 7) / 8) w ++ List.replicate 24 0 }

/-- The instruction the decoder reads from a word of the opcode table. -/
def decodeTableWord (nbits w : Nat) : Option Instr :=
  match decode (tablePacket nbits w) with
  | .ok i => some i
  | .error _ => none

end Sys2Proof
end

