-- ==== Sys2Proof/Machine/State.lean ====
section
/-! DEFINITION. The state of the block as plain data: everything 10_state.md gives it, the inputs it samples, the interface
records, and the state after reset. -/

namespace Sys2Proof.Machine

/-- Physical memory: address and byte pairs, addresses rising, no entry equal to what an unlisted address reads as
(`unlistedByte`, log 7). -/
abbrev Memory := List Host.Cell

/-- An inclusive range of physical addresses. -/
structure AddrRange where
  lo : Nat
  hi : Nat
deriving DecidableEq, Repr

/-- A TLB entry (10_state.md R30). `mapped` has bit n for the base mode numbered n (30_encoding.md R121); `lutEntry` is the
handle under which the entry is linked, none while it is not (log 21). -/
structure Entry where
  lowVA : U64
  highVA : U64
  pa : U64
  tlb : TlbId
  priv : Priv
  u : Bool
  g : Bool
  a : Bool
  d : Bool
  mapped : BitVec 4
  artifact : Bool
  simASID : U64
  lutEntry : Option Nat
deriving DecidableEq, Repr

/-- The three TLBs, each a set of entries held as a list (10_state.md R32). -/
structure Tlbs where
  hs : List Entry
  vs1 : List Entry
  vs2 : List Entry
deriving DecidableEq, Repr

/-- An alias (10_state.md R36); `from1` and `from2` are the handles of the entries it was built from. -/
structure Alias where
  lowVA : U64
  highVA : U64
  lowPA : U64
  priv : Priv
  mask : U64
  key : U64
  from1 : Nat
  from2 : Option Nat
deriving DecidableEq, Repr

/-- The alias store: one set for each Mode5 value (10_state.md R36). -/
structure AliasStore where
  u : List Alias
  s : List Alias
  m : List Alias
  vu : List Alias
  vs : List Alias
deriving DecidableEq, Repr

/-- One run of a permission map: the bytes `lo` to `hi` carry `priv`. -/
structure Grant where
  lo : Nat
  hi : Nat
  priv : Priv
deriving DecidableEq, Repr

/-- A map from physical byte address to a granted privilege, as the list of its maximal runs with a privilege other than
NONE, in rising order. -/
abbrev PermMap := List Grant

/-- The PMP permission cache (10_state.md R28): a map for each base mode and access kind. -/
structure PmpPerm where
  mData : PermMap
  mCode : PermMap
  sData : PermMap
  sCode : PermMap
  uData : PermMap
  uCode : PermMap
deriving DecidableEq, Repr

/-- The two access kinds of the permission cache (10_state.md R28). -/
inductive AccessKind where
  | data | code
deriving DecidableEq, Repr

/-- `AFault` (10_state.md R45). -/
inductive AFault where
  | none
  | pmp
deriving DecidableEq, Repr

/-- The pointer and status registers the block reads (10_state.md R40), as whole words; with `XLEN = 32` the low 32 bits. -/
structure Csrs where
  satp : U64
  vsatp : U64
  hgatp : U64
  mstatus : U64
  mstatush : U64
  vsstatus : U64
  dcsr : U64
deriving DecidableEq, Repr

/-- A range whose accesses the PMA hook denies for the privileges in `deny` (44_host_ops.md R322, log 13). -/
structure PmaDeny where
  lo : Nat
  hi : Nat
  deny : Priv
deriving DecidableEq, Repr

/-- The inputs sampled by every command and written by none (10_state.md R40, R41, R47). -/
structure Env where
  csr : Csrs
  curMode : Mode5
  inDebug : Bool
  /-- `ptwBigEndian(HS)` (20_memory.md R83). -/
  bigHs : Bool
  /-- `ptwBigEndian(VS1)`. -/
  bigVs1 : Bool
  /-- `ptwBigEndian(VS2)`. -/
  bigVs2 : Bool
  /-- Physical memory that does not respond (20_memory.md R80). -/
  absent : List AddrRange
  /-- The PMA hook's denials. -/
  pma : List PmaDeny
deriving DecidableEq, Repr

/-- A mapping record `(lowVA, highVA, lowPA, priv, mask)` (42_translate.md R222, R238). -/
structure Mapping where
  lowVA : U64
  highVA : U64
  lowPA : U64
  priv : Priv
  mask : U64
deriving DecidableEq, Repr

/-- The nine exception kinds (60_exceptions.md R332). -/
inductive ExcKind where
  | instructionAccessFault
  | loadAccessFault
  | storeAMOAccessFault
  | instructionPageFault
  | loadPageFault
  | storeAMOPageFault
  | instructionGuestPageFault
  | loadGuestPageFault
  | storeAMOGuestPageFault
deriving DecidableEq, Repr

/-- The report record of `takeMemoryException` (60_exceptions.md R340). -/
structure ExcReport where
  kind : ExcKind
  tval : U64
  gva : Bool
  gpa : Option U64
deriving DecidableEq, Repr

/-- Status of a `MISS` response (42_translate.md R238). -/
inductive MissStatus where
  | ok | exc | afault | probeFail | notMapped | refused
deriving DecidableEq, Repr

/-- The response record of `MISS` (42_translate.md R238); `err = none` is OK. `afault` is `AFault` as this command set it:
"It is returned in the response of the command that set it" (10_state.md R45, log 30). -/
structure MissResponse where
  status : MissStatus
  err : Option WalkErr
  exc : Option ExcReport
  mappings : List Mapping
  afault : AFault
deriving DecidableEq, Repr

/-- The spec of a PMP region as geometry (43_pmp.md R290). -/
inductive Region where
  | inactive
  | active (lo hi : Nat)
deriving DecidableEq, Repr

/-- The running bounds of PMP refinement (43_pmp.md R286): `lowMap`, `highMap`, `priv`, and the matching region. -/
structure Bounds where
  lowMap : Nat
  highMap : Nat
  priv : Priv
  hit : Option Nat
deriving DecidableEq, Repr

/-- What a page-table entry is (30_encoding.md R109, 40_walker.md R141 step 4). -/
inductive PteMeaning where
  /-- The walk fails with this error: `V0` or `R0W1`. -/
  | fails (e : WalkErr)
  /-- The base address of the next table. -/
  | pointer (next : U64)
  /-- A leaf: its privileges, flags and the physical address it names. -/
  | leaf (priv : Priv) (u g a d : Bool) (pa : U64)
deriving DecidableEq, Repr

/-- The leaf a walk's loop ends on (40_walker.md R141 steps 3, 4): its level, its value, the physical address it was read at
and the address the walk computed for it (the two differ only in the variant of 20_memory.md R95). -/
structure FoundLeaf where
  level : Nat
  pte : U64
  addr : U64
  pteAddr : U64
deriving DecidableEq, Repr

/-- The shape of a walker: VPN width `W`, level count `L`, sign-extension width `ext`, entry format, which fixes `B`
(40_walker.md R141). -/
structure WalkShape where
  w : Nat
  levels : Nat
  ext : Option Nat
  fmt : PteFormat
deriving DecidableEq, Repr

/-- The response of the last command or internal operation (30_encoding.md R131; log 23). -/
inductive Response where
  /-- "none": the command answers nothing. -/
  | noReply
  /-- The command was refused with no state change (44_host_ops.md R319). -/
  | refused
  /-- `MISS`. -/
  | miss (r : MissResponse)
  /-- `PMPCFG_READ`, `PMPADDR_READ`. -/
  | word (v : U64)
  /-- A word read refused: "the response is zero and nothing changes" (43_pmp.md R261). -/
  | refusedWord
  /-- `VM_SAVE`: the byte stream. -/
  | stream (bytes : List Byte)
  /-- `VM_RESTORE` stopped at a malformed record (44_host_ops.md R313). -/
  | restoreRefused
  /-- `DUMP_TLB`, `DUMP_VS1TLB`, `DUMP_VS2TLB`: text. -/
  | text (cs : List Char)
  /-- A walker: `ok(e)`. -/
  | walked (e : Entry)
  /-- A walker: `err(E)`, and `AFault` as this walk set it (10_state.md R45, log 30). -/
  | walkFailed (e : WalkErr) (afault : AFault)
  /-- A PMP region kind: the region's geometry, its privilege bits and its lock bit. -/
  | region (r : Region) (priv : Priv) (lock : Bool)
  /-- A PTE kind. -/
  | pte (p : PteMeaning)
deriving DecidableEq, Repr

/-- One page-table access on the bus, with the labels it carried (20_memory.md R94, 10_state.md R42, R43; log 23). -/
structure PteAccess where
  write : Bool
  addr : U64
  size : Nat
  /-- The value read or written, 0 for a read that failed. -/
  value : U64
  ok : Bool
  ptwActive : Bool
  s2Active : Bool
deriving DecidableEq, Repr

/-- The CSR fields a script's `csr` directive names (30_encoding.md R132, 10_state.md R40). -/
inductive CsrField where
  | satpMode | satpAsid | satpPpn
  | vsatpMode | vsatpAsid | vsatpPpn
  | hgatpMode | hgatpVmid | hgatpPpn
  | mstatusMxr | mstatusSum | mstatusMprv | mstatusMpp | mstatusMpv
  | vsstatusMxr | vsstatusSum
  | dcsrMprven
deriving DecidableEq, Repr

/-- The script's directives (30_encoding.md R132) and the model's own for the other inputs (log 24). -/
inductive Directive where
  /-- `csr <name>.<field>=<value>`. -/
  | csr (field : CsrField) (value : U64)
  /-- `mem<n> <addr>=<value>`: sets `n` bytes of physical memory, little-endian. -/
  | mem (n : Nat) (addr : U64) (value : Nat)
  /-- `mode <Mode5>`. -/
  | mode (mode : Mode5)
  /-- Enter or leave debug mode (10_state.md R41). -/
  | debug (on : Bool)
  /-- Set `ptwBigEndian(t)` (20_memory.md R83). -/
  | endian (t : TlbId) (big : Bool)
  /-- Set the memory that does not respond. -/
  | absent (ranges : List AddrRange)
  /-- Set the PMA hook's denials. -/
  | pma (denials : List PmaDeny)
deriving DecidableEq, Repr

/-- One line of the script that drives the block. -/
inductive Input where
  | command (p : Packet)
  | directive (d : Directive)
deriving DecidableEq, Repr

/-- The machine's state. -/
structure State where
  /-- The parameters of 00_scope.md R6; no step writes them. -/
  params : Params
  /-- `pmpcfg` (10_state.md R25). -/
  pmpcfg : List Byte
  /-- `pmpaddr` (10_state.md R26): the stored values. -/
  pmpaddr : List U64
  /-- `pmpPerm` (10_state.md R28). -/
  pmpPerm : PmpPerm
  /-- `TLB[HS]`, `TLB[VS1]`, `TLB[VS2]` (10_state.md R32). -/
  tlbs : Tlbs
  /-- The alias store (10_state.md R36). -/
  aliases : AliasStore
  /-- `pubKey` (10_state.md R38). -/
  pubKey : U64
  /-- `dataMode` (10_state.md R46). -/
  dataMode : Mode5
  /-- `PTWActive` (10_state.md R42). -/
  ptwActive : Bool
  /-- `s2Active` (10_state.md R43). -/
  s2Active : Bool
  /-- `s1VA` (10_state.md R44). -/
  s1VA : U64
  /-- `AFault` (10_state.md R45). -/
  afault : AFault
  /-- The inputs (10_state.md R40, R41). -/
  env : Env
  /-- Physical memory (20_memory.md R70). -/
  mem : Memory
  /-- The script still to run (log 3). -/
  input : List Input
  /-- The last response (log 23). -/
  response : Response
  /-- The page-table traffic of the last command, oldest first (log 23). -/
  traffic : List PteAccess
  /-- The model's own: number of free draws made (log 8). -/
  choice : Nat
  /-- The model's own: the next entry handle (log 21). -/
  nextHandle : Nat
deriving DecidableEq, Repr

/-- Why the machine stops. Each is a "stuck" of 93_implementation_defined.md or an input the spec does not allow. -/
inductive Fault where
  /-- A translation needed a walk in a regime whose `MODE` has no walker: "stuck" (93_implementation_defined.md U3). Raised
  by `MISS`. Safe: the model stops where the hardware has no defined behaviour (log 10). -/
  | modeWithoutWalker
  /-- `REFRESH_MPRV` read `mstatus.MPP = 2`: "stuck" (93_implementation_defined.md U7). Raised by `REFRESH_MPRV`. Safe
  (log 11). -/
  | reservedMpp
  /-- A `mem` directive names bytes outside the 64-bit address space. Raised by the step. Safe (log 24). -/
  | outsideAddressSpace
deriving DecidableEq, Repr

/-- Why an instruction has no meaning. No arm of exec answers one: every instruction is modelled. -/
inductive Refusal where
  /-- An instruction of the opcode table that has no meaning yet. Raised by exec's refused arms only; safe. -/
  | notModelled (mnemonic : String)
deriving DecidableEq, Repr

/-- A walker's failure: its error, and the guest-physical address of a page-table entry whose own stage-2 translation
failed, when that is what failed (20_memory.md R95). -/
structure WalkFailure where
  err : WalkErr
  pteGpa : Option U64
deriving DecidableEq, Repr

/-- A failed lookup of one chunk: the error, the TLB whose lookup failed, the original address (`tval`) and the
guest-physical address (42_translate.md R234). -/
structure ChunkFailure where
  err : WalkErr
  tlb : TlbId
  tval : U64
  gpa : Option U64
deriving DecidableEq, Repr

/-- Result of an internal operation: a value or an error, each with the state it leaves, or the machine stops. -/
inductive Res (ε α : Type) where
  | ok (a : α) (s : State)
  | err (e : ε) (s : State)
  | stuck (f : Fault)
deriving DecidableEq, Repr

/-- The CSR inputs at launch: all zero (log 5). -/
def Csrs.zero : Csrs where
  satp := 0
  vsatp := 0
  hgatp := 0
  mstatus := 0
  mstatush := 0
  vsstatus := 0
  dcsr := 0

/-- The inputs at launch: machine mode, not in debug mode, little-endian, all memory responding, PMA hook "allowed"
(log 5, log 13). -/
def Env.launch : Env where
  csr := Csrs.zero
  curMode := .machine
  inDebug := false
  bigHs := false
  bigVs1 := false
  bigVs2 := false
  absent := []
  pma := []

/-- An empty permission cache: no grant. -/
def PmpPerm.empty : PmpPerm where
  mData := []
  mCode := []
  sData := []
  sCode := []
  uData := []
  uCode := []

/-- Three empty TLBs. -/
def Tlbs.empty : Tlbs where
  hs := []
  vs1 := []
  vs2 := []

/-- An empty alias store. -/
def AliasStore.empty : AliasStore where
  u := []
  s := []
  m := []
  vu := []
  vs := []

/-- Power-on of a block with parameters `p`, inputs `env` and memory `mem` (10_state.md R48, 70_reset_and_hazards.md R370,
R371). `s1VA`, which the spec leaves unspecified, is 0 (log 6). -/
def State.powerOn (p : Params) (env : Env) (mem : Memory) : State where
  params := p
  pmpcfg := List.replicate p.pmpN 0
  pmpaddr := List.replicate p.pmpN 0
  pmpPerm := PmpPerm.empty
  tlbs := Tlbs.empty
  aliases := AliasStore.empty
  pubKey := 0
  dataMode := env.curMode
  ptwActive := false
  s2Active := false
  s1VA := 0
  afault := .none
  env := env
  mem := mem
  input := []
  response := .noReply
  traffic := []
  choice := 0
  nextHandle := 0

/-- The machine right after reset: power-on with the default parameters (log 4), the launch inputs (log 5) and memory
nothing has written (log 7). -/
def State.reset : State :=
  State.powerOn Params.default Env.launch []

end Sys2Proof.Machine
end

