-- ==== Sys2Proof/Machine/Operands.lean ====
section
/-! DEFINITION. Operand forms and bit fields: modes, addresses, page-table entries, the CSR inputs, PMP bytes and words, the
simulated ASID, and the operand domains a command is refused outside of. -/

namespace Sys2Proof.Machine

/-! ### Fields -/

/-- `v[lo+len-1:lo]` as a `u64` (00_scope.md R9). -/
def field (v : U64) (lo len : Nat) : U64 :=
  (v.extractLsb' lo len).setWidth 64

/-- `v` with its field of `len` bits at `lo` replaced by the low bits of `x`. -/
def setField (v : U64) (lo len : Nat) (x : U64) : U64 :=
  let m : U64 := (BitVec.allOnes len).setWidth 64 <<< lo
  (v &&& ~~~m) ||| ((x <<< lo) &&& m)

/-- `sext_N(v)` (00_scope.md R11). -/
def sext (n : Nat) (v : U64) : U64 :=
  (v.setWidth n).signExtend 64

/-! ### Modes (00_scope.md R12, 30_encoding.md R120) -/

/-- `base(m)`. -/
def baseOf : Mode5 → BaseMode
  | .machine => .machine
  | .supervisor => .supervisor
  | .vs => .supervisor
  | .user => .user
  | .vu => .user

/-- `virt(m)`. -/
def virtOf : Mode5 → Bool
  | .vs => true
  | .vu => true
  | .machine => false
  | .supervisor => false
  | .user => false

/-- The number of a base mode (30_encoding.md R120). -/
def baseNum : BaseMode → Nat
  | .user => 0
  | .supervisor => 1
  | .machine => 3

/-- The Mode5 of a base mode and a virtualization flag; machine mode is never virtualized. -/
def modeOf (b : BaseMode) (v : Bool) : Mode5 :=
  match b, v with
  | .machine, _ => .machine
  | .supervisor, false => .supervisor
  | .supervisor, true => .vs
  | .user, false => .user
  | .user, true => .vu

/-- Base mode `b` is in the `mapped` mask (30_encoding.md R121). -/
def inMapped (mapped : BitVec 4) (b : BaseMode) : Bool :=
  mapped.getLsbD (baseNum b)

/-- The `mapped` mask with base mode `b` added. -/
def addMapped (mapped : BitVec 4) (b : BaseMode) : BitVec 4 :=
  mapped ||| (1#4 <<< baseNum b)

/-! ### Virtual addresses and page-table entries -/

/-- `VPN_i(VA) = VA[12+(i+1)·W-1 : 12+i·W]` (40_walker.md R141). -/
def vpn (w i : Nat) (va : U64) : U64 :=
  field va (12 + i * w) w

/-- PTE bit `V` (30_encoding.md R107). -/
def pteV (pte : U64) : Bool := pte.getLsbD 0
/-- PTE bit `R`. -/
def pteR (pte : U64) : Bool := pte.getLsbD 1
/-- PTE bit `W`. -/
def pteW (pte : U64) : Bool := pte.getLsbD 2
/-- PTE bit `X`. -/
def pteX (pte : U64) : Bool := pte.getLsbD 3
/-- PTE bit `U`. -/
def pteU (pte : U64) : Bool := pte.getLsbD 4
/-- PTE bit `G`. -/
def pteG (pte : U64) : Bool := pte.getLsbD 5
/-- PTE bit `A`. -/
def pteA (pte : U64) : Bool := pte.getLsbD 6
/-- PTE bit `D`. -/
def pteD (pte : U64) : Bool := pte.getLsbD 7

/-- `pte.R·1 + pte.W·2 + pte.X·4` (40_walker.md R141 step 6). -/
def ptePriv (pte : U64) : Priv :=
  pte.extractLsb' 1 3

/-- `pte.PPN`: bits 31:10 of a 32-bit PTE (30_encoding.md R107), bits 53:10 of a 64-bit one (R108). -/
def ptePpn (fmt : PteFormat) (pte : U64) : U64 :=
  match fmt with
  | .pte32 => field pte 10 22
  | .pte64 => field pte 10 44

/-- `PPN << 12`, the physical address a PTE names (30_encoding.md R110). -/
def ptePa (fmt : PteFormat) (pte : U64) : U64 :=
  ptePpn fmt pte <<< 12

/-! ### CSR inputs (30_encoding.md R111 to R114) -/

/-- `MODE` of `satp`, `vsatp`, `hgatp` (R111, R112). -/
def atpMode (x : XLen) (v : U64) : U64 :=
  match x with
  | .x32 => field v 31 1
  | .x64 => field v 60 4

/-- `ASID` of `satp`, `vsatp` (R111). -/
def atpAsid (x : XLen) (v : U64) : U16 :=
  match x with
  | .x32 => (v.extractLsb' 22 9).setWidth 16
  | .x64 => v.extractLsb' 44 16

/-- `VMID` of `hgatp` (R112). -/
def atpVmid (x : XLen) (v : U64) : U16 :=
  match x with
  | .x32 => (v.extractLsb' 22 7).setWidth 16
  | .x64 => (v.extractLsb' 44 14).setWidth 16

/-- `PPN` of `satp`, `vsatp`, `hgatp` (R111, R112). -/
def atpPpn (x : XLen) (v : U64) : U64 :=
  match x with
  | .x32 => field v 0 22
  | .x64 => field v 0 44

/-- `satp.MODE`. -/
def State.satpMode (s : State) : U64 := atpMode s.params.xlen s.env.csr.satp
/-- `satp.ASID`. -/
def State.satpAsid (s : State) : U16 := atpAsid s.params.xlen s.env.csr.satp
/-- `satp.PPN`. -/
def State.satpPpn (s : State) : U64 := atpPpn s.params.xlen s.env.csr.satp
/-- `vsatp.MODE`. -/
def State.vsatpMode (s : State) : U64 := atpMode s.params.xlen s.env.csr.vsatp
/-- `vsatp.ASID`. -/
def State.vsatpAsid (s : State) : U16 := atpAsid s.params.xlen s.env.csr.vsatp
/-- `vsatp.PPN`. -/
def State.vsatpPpn (s : State) : U64 := atpPpn s.params.xlen s.env.csr.vsatp
/-- `hgatp.MODE`. -/
def State.hgatpMode (s : State) : U64 := atpMode s.params.xlen s.env.csr.hgatp
/-- `hgatp.VMID`. -/
def State.hgatpVmid (s : State) : U16 := atpVmid s.params.xlen s.env.csr.hgatp
/-- `hgatp.PPN`. -/
def State.hgatpPpn (s : State) : U64 := atpPpn s.params.xlen s.env.csr.hgatp

/-- `mstatus.MPP`, bits 12:11 (R114). -/
def State.mpp (s : State) : BitVec 2 := s.env.csr.mstatus.extractLsb' 11 2
/-- `mstatus.MPRV`, bit 17. -/
def State.mprv (s : State) : Bool := s.env.csr.mstatus.getLsbD 17
/-- `mstatus.SUM`, bit 18. -/
def State.sumHs (s : State) : Bool := s.env.csr.mstatus.getLsbD 18
/-- `mstatus.MXR`, bit 19. -/
def State.mxrHs (s : State) : Bool := s.env.csr.mstatus.getLsbD 19
/-- `MPV`: bit 39 of `mstatus` with `XLEN = 64`, bit 7 of `mstatush` with `XLEN = 32`. -/
def State.mpv (s : State) : Bool :=
  match s.params.xlen with
  | .x32 => s.env.csr.mstatush.getLsbD 7
  | .x64 => s.env.csr.mstatus.getLsbD 39
/-- `vsstatus.SUM`, bit 18. -/
def State.sumVs (s : State) : Bool := s.env.csr.vsstatus.getLsbD 18
/-- `vsstatus.MXR`, bit 19. -/
def State.mxrVs (s : State) : Bool := s.env.csr.vsstatus.getLsbD 19
/-- `dcsr.mprven`, bit 4. -/
def State.mprven (s : State) : Bool := s.env.csr.dcsr.getLsbD 4

/-- `ptwBigEndian(t)` (20_memory.md R83). -/
def State.bigEndian (s : State) : TlbId → Bool
  | .hs => s.env.bigHs
  | .vs1 => s.env.bigVs1
  | .vs2 => s.env.bigVs2

/-! ### PMP bytes and words (30_encoding.md R115 to R117) -/

/-- `cfg[i]`; a region outside the bank reads as zero (R116). -/
def State.cfg (s : State) (i : Nat) : Byte :=
  if i < s.params.pmpN then s.pmpcfg.getD i 0 else 0

/-- `addr[i]`, the stored value; a region outside the bank reads as zero. -/
def State.addr (s : State) (i : Nat) : U64 :=
  if i < s.params.pmpN then s.pmpaddr.getD i 0 else 0

/-- `cfg.A`, bits 4:3: 0 OFF, 1 TOR, 2 NA4, 3 NAPOT. -/
def cfgA (c : Byte) : BitVec 2 := c.extractLsb' 3 2
/-- `cfg.L`, bit 7. -/
def cfgL (c : Byte) : Bool := c.getLsbD 7
/-- `cfg[2:0]`, the privilege. -/
def cfgPriv (c : Byte) : Priv := c.extractLsb' 0 3

/-- Mode OFF. -/
abbrev aOff : BitVec 2 := 0
/-- Mode TOR. -/
abbrev aTor : BitVec 2 := 1
/-- Mode NA4. -/
abbrev aNa4 : BitVec 2 := 2
/-- Mode NAPOT. -/
abbrev aNapot : BitVec 2 := 3

/-- Config bytes per word: `XLEN / 8` (R116). -/
def cfgWordBytes : XLen → Nat
  | .x32 => 4
  | .x64 => 8

/-- The word index is one of R116: below 16, and even with `XLEN = 64`. -/
def cfgWordOk (x : XLen) (w : Nat) : Bool :=
  match x with
  | .x32 => decide (w < 16)
  | .x64 => decide (w < 16) && decide (w % 2 = 0)

/-- `2^n - 1` as a `u64`. -/
def lowMask (n : Nat) : U64 :=
  (BitVec.allOnes n).setWidth 64

/-- Bits of a PMP address word: physical bits 33:2 with `XLEN = 32`, 55:2 with `XLEN = 64` (R117). -/
def addrWordBits : XLen → Nat
  | .x32 => 32
  | .x64 => 54

/-- `EXT_MASK = (2^PA_BITS - 1) >> 2` (R117). -/
def extMask (p : Params) : U64 :=
  lowMask p.paBits >>> 2

/-! ### The simulated ASID (30_encoding.md R118, R119) -/

/-- Field `ASID_HS`, bits 15:0. -/
def keyAsidHs (k : U64) : U16 := k.extractLsb' 0 16
/-- Field `ASID_VS`, bits 31:16. -/
def keyAsidVs (k : U64) : U16 := k.extractLsb' 16 16
/-- Field `VMID`, bits 47:32. -/
def keyVmid (k : U64) : U16 := k.extractLsb' 32 16

/-- `M_ASID_HS`. -/
abbrev mAsidHs : U64 := 0x0000_0000_0000_FFFF
/-- `M_ASID_VS`. -/
abbrev mAsidVs : U64 := 0x0000_0000_FFFF_0000
/-- `M_VMID`. -/
abbrev mVmid : U64 := 0x0000_FFFF_0000_0000
/-- `M_MXR_HS`, bit 48. -/
abbrev mMxrHs : U64 := 0x0001_0000_0000_0000
/-- `M_SUM_HS`, bit 49. -/
abbrev mSumHs : U64 := 0x0002_0000_0000_0000
/-- `M_MXR_VS`, bit 50. -/
abbrev mMxrVs : U64 := 0x0004_0000_0000_0000
/-- `M_SUM_VS`, bit 51. -/
abbrev mSumVs : U64 := 0x0008_0000_0000_0000
/-- `M_S1`, bit 52. -/
abbrev mS1 : U64 := 0x0010_0000_0000_0000
/-- `M_S2`, bit 53. -/
abbrev mS2 : U64 := 0x0020_0000_0000_0000

/-- `entryASID(e)` (10_state.md R34); for a VS2 entry "undefined and never used", a free value here (log 17). -/
def entryAsid (e : Entry) : U16 :=
  match e.tlb with
  | .hs => keyAsidHs e.simASID
  | .vs1 => keyAsidVs e.simASID
  | .vs2 => Config.vs2EntryAsid e.simASID

/-- `entryVMID(e)` (10_state.md R34). -/
def entryVmid (e : Entry) : U16 :=
  keyVmid e.simASID

/-! ### Operand domains (44_host_ops.md R319) -/

/-- The mode exists on this block: not VS or VU when `HAS_H` is false, not below `MIN_MODE`. -/
def modeAllowed (p : Params) (m : Mode5) : Bool :=
  (p.hasH || !virtOf m) && decide (baseNum p.minMode ≤ baseNum (baseOf m))

/-- The operands of a `MISS` are in their domain. -/
def missOperandsOk (p : Params) (m : Mode5) (req : Priv) : Bool :=
  req.isSingleton && modeAllowed p m

/-- The operands of a walker filling `t` are in their domain (40_walker.md R140), and the regime exists (log 22). -/
def walkOperandsOk (p : Params) (t : TlbId) (m : Mode5) (req : Priv) : Bool :=
  missOperandsOk p m req && (p.hasH || decide (t = .hs))

/-- `Valid(VA, bytes)` (42_translate.md R221). -/
def validSpan (va : U64) (bytes : Nat) : Bool :=
  decide (1 ≤ bytes) && decide (va.toNat + bytes - 1 < 2 ^ 64)

end Sys2Proof.Machine
end

