-- ==== Sys2Proof/Machine/Flags.lean ====
section
/-! DEFINITION. Flags and status bits: the live key, key matching, the ASID mask, the permission check, the accessed and
dirty update, the active regime and GVA, the exception kinds. -/

namespace Sys2Proof.Machine

/-! ### The live key (41_tlb.md R193, R181, R195) -/

/-- `LiveKey()` (41_tlb.md R193) in the layout of 30_encoding.md R118; the virtualization fields are zero when `HAS_H` is
false. -/
def State.liveKey (s : State) : U64 :=
  let h := s.params.hasH
  let s2 : BitVec 1 := BitVec.ofBool (h && s.hgatpMode != 0)
  let s1 : BitVec 1 := BitVec.ofBool (h && s.vsatpMode != 0)
  let sumVs : BitVec 1 := BitVec.ofBool (h && s.sumVs)
  let mxrVs : BitVec 1 := BitVec.ofBool (h && s.mxrVs)
  let sumHs : BitVec 1 := BitVec.ofBool s.sumHs
  let mxrHs : BitVec 1 := BitVec.ofBool s.mxrHs
  let vmid : U16 := if h then s.hgatpVmid else 0
  let asidVs : U16 := if h then s.vsatpAsid else 0
  0#10 ++ (s2 ++ (s1 ++ (sumVs ++ (mxrVs ++ (sumHs ++ (mxrHs ++ (vmid ++ (asidVs ++ s.satpAsid))))))))

/-- `matchASID(e)` (41_tlb.md R181). -/
def State.matchAsid (s : State) (e : Entry) : Bool :=
  e.g || (entryAsid e == (match e.tlb with
    | .hs => s.satpAsid
    | .vs1 => s.vsatpAsid
    | .vs2 => s.vsatpAsid))

/-- `matchVMID(e)` (41_tlb.md R181). -/
def State.matchVmid (s : State) (e : Entry) : Bool :=
  decide (e.tlb = .hs) || (entryVmid e == s.hgatpVmid)

/-- `Match(e)` (41_tlb.md R181). -/
def State.matchEntry (s : State) (e : Entry) : Bool :=
  s.matchAsid e && s.matchVmid e

/-- `AsidMask(e, m)` (41_tlb.md R195). -/
def asidMask (e : Entry) (mode : Mode5) : U64 :=
  mMxrHs
    ||| (if e.g then 0 else if e.tlb = .hs then mAsidHs else mAsidVs)
    ||| (if e.u = true ∧ baseOf mode = .supervisor ∧ e.tlb ≠ .vs2 then
          (if e.tlb = .hs then mSumHs else mSumVs) else 0)
    ||| (if virtOf mode then mVmid ||| mMxrVs ||| mS1 ||| mS2 else 0)

/-! ### The permission check (40_walker.md R152, R153) -/

/-- Effective `MXR` (40_walker.md R153). -/
def State.effMxr (s : State) (t : TlbId) : Bool :=
  match t with
  | .hs => s.mxrHs
  | .vs1 => s.mxrHs || s.mxrVs
  | .vs2 => s.mxrHs

/-- Effective `SUM` (40_walker.md R153); it is not read for VS2. -/
def State.effSum (s : State) (t : TlbId) : Bool :=
  match t with
  | .hs => s.sumHs
  | .vs1 => s.sumVs
  | .vs2 => false

/-- The caller is treated as user (40_walker.md R153). -/
def asUser (mode : Mode5) (t : TlbId) : Bool :=
  decide (baseOf mode = .user) || decide (t = .vs2)

/-- `PRIV_VERSION ≥ 1.11`. -/
def fromVersion1_11 (p : Params) : Bool :=
  match p.privVersion with
  | .v1_10 => false
  | .v1_11 => true
  | .v1_12 => true

/-- The adjusted privilege `eff` of `PermCheck(m, e, req)`, steps 1 to 5 (40_walker.md R152). -/
def State.permEff (s : State) (mode : Mode5) (e : Entry) : Priv :=
  let eff : Priv := if (e.priv &&& Priv.X) = Priv.X ∧ s.effMxr e.tlb = true then e.priv ||| Priv.R else e.priv
  if asUser mode e.tlb then
    if e.u then eff else Priv.NONE
  else if e.u then
    if s.effSum e.tlb then
      if fromVersion1_11 s.params then eff &&& ~~~Priv.X else eff
    else Priv.NONE
  else eff

/-- A privilege satisfies what an access needs: `(eff & req) = req` (40_walker.md R152 step 6). -/
def satisfies (eff req : Priv) : Bool :=
  (eff &&& req) == req

/-- `PermCheck(m, e, req)` grants (40_walker.md R152). -/
def State.permGrants (s : State) (mode : Mode5) (e : Entry) (req : Priv) : Bool :=
  satisfies (s.permEff mode e) req

/-! ### Accessed and dirty (40_walker.md R150) -/

/-- `W ∈ req`. -/
def needsWrite (req : Priv) : Bool :=
  (req &&& Priv.W) == Priv.W

/-- Step 8 of the walk: the entry with its updated `A` and `D`, and whether either changed, or `A0` or `D0`. -/
def adUpdate (p : Params) (req : Priv) (e : Entry) : Except WalkErr (Entry × Bool) :=
  if !e.a && !p.updatePteA then .error .a0
  else if needsWrite req && !e.d && !p.updatePteD then .error .d0
  else .ok ({ e with a := true, d := e.d || needsWrite req }, !e.a || (needsWrite req && !e.d))

/-- The PTE as written back: `pte | (e.A << 6) | (e.D << 7)` (40_walker.md R151). -/
def pteWithAD (pte : U64) (a d : Bool) : U64 :=
  pte ||| ((BitVec.ofBool a).setWidth 64 <<< 6) ||| ((BitVec.ofBool d).setWidth 64 <<< 7)

/-! ### Regime and report flags -/

/-- `ActiveTLB(m)` (40_walker.md R154). -/
def State.activeTlb (s : State) (mode : Mode5) : Option TlbId :=
  if baseOf mode = .machine then none
  else if virtOf mode then
    if s.vsatpMode != 0 then some .vs1
    else if s.hgatpMode != 0 then some .vs2
    else none
  else if s.satpMode != 0 then some .hs
  else none

/-- `GVA`: the access ran under a guest regime (60_exceptions.md R341). -/
def State.gva (s : State) (mode : Mode5) : Bool :=
  decide (s.activeTlb mode = some .vs1) || decide (s.activeTlb mode = some .vs2)

/-- The error is one of the two bus errors, not of the eight page-fault errors (60_exceptions.md R331). -/
def isBusError : WalkErr → Bool
  | .read => true
  | .write => true
  | .vaextend => false
  | .v0 => false
  | .r0w1 => false
  | .leaf => false
  | .align => false
  | .priv => false
  | .a0 => false
  | .d0 => false

/-- From walker error to exception kind (60_exceptions.md R331): `e` is the error, `t` the TLB whose lookup failed, `req`
the required privilege of the original access. -/
def excKind (e : WalkErr) (t : TlbId) (req : Priv) : ExcKind :=
  if isBusError e then
    if req = Priv.R then .loadAccessFault
    else if req = Priv.W then .storeAMOAccessFault
    else .instructionAccessFault
  else if t = .vs2 then
    if req = Priv.R then .loadGuestPageFault
    else if req = Priv.W then .storeAMOGuestPageFault
    else .instructionGuestPageFault
  else
    if req = Priv.R then .loadPageFault
    else if req = Priv.W then .storeAMOPageFault
    else .instructionPageFault

/-- Cause codes (60_exceptions.md R332), informative: the block passes the kind. -/
def ExcKind.code : ExcKind → Nat
  | .instructionAccessFault => 1
  | .loadAccessFault => 5
  | .storeAMOAccessFault => 7
  | .instructionPageFault => 12
  | .loadPageFault => 13
  | .storeAMOPageFault => 15
  | .instructionGuestPageFault => 20
  | .loadGuestPageFault => 21
  | .storeAMOGuestPageFault => 23

/-- Severity of a walker error is "informational"; others are warnings (40_walker.md R157). Diagnostics only. -/
def isInformational : WalkErr → Bool
  | .v0 => true
  | .priv => true
  | .a0 => true
  | .d0 => true
  | .vaextend => false
  | .r0w1 => false
  | .leaf => false
  | .align => false
  | .read => false
  | .write => false

end Sys2Proof.Machine
end

