-- ==== Sys2Proof/Machine/Ops.lean ====
section
/-! DEFINITION. The named operations over memory, the permission maps, the TLBs, the alias store and the other fields of
State, the bus, and taking an exception. -/

namespace Sys2Proof.Machine

/-! ### Memory (20_memory.md R70, R83) -/

/-- What a byte nothing has written reads as (log 7). -/
abbrev unlistedByte : Byte := 0

/-- The byte at an address. -/
def Memory.readByte (a : Nat) : Memory → Byte
  | [] => unlistedByte
  | (b, v) :: rest => if a = b then v else Memory.readByte a rest

/-- Write a byte, keeping the canonical form. -/
def Memory.writeByte (a : Nat) (v : Byte) : Memory → Memory
  | [] => if v = unlistedByte then [] else [(a, v)]
  | (b, w) :: rest =>
    if a < b then (if v = unlistedByte then (b, w) :: rest else (a, v) :: (b, w) :: rest)
    else if a = b then (if v = unlistedByte then rest else (a, v) :: rest)
    else (b, w) :: Memory.writeByte a v rest

/-- An address is above a bound, if there is one. -/
def aboveBound : Option Nat → Nat → Bool
  | none, _ => true
  | some b, a => decide (b < a)

/-- Every address of the memory is above `bound`, rising, and no listed byte is what an unlisted one reads as. -/
def Memory.wfFrom (bound : Option Nat) : Memory → Bool
  | [] => true
  | (a, v) :: rest => aboveBound bound a && decide (v ≠ unlistedByte) && Memory.wfFrom (some a) rest

/-- The canonical form: addresses strictly rising, no entry equal to what an unlisted address reads as. -/
def Memory.wf (mem : Memory) : Bool :=
  Memory.wfFrom none mem

/-- The little-endian value of the `n` bytes at `a`. -/
def Memory.readLE (mem : Memory) : Nat → Nat → Nat
  | 0, _ => 0
  | n + 1, a => (Memory.readByte a mem).toNat + 256 * Memory.readLE mem n (a + 1)

/-- The big-endian value of the `n` bytes at `a`, with `acc` the bytes before them. -/
def Memory.readBE (mem : Memory) : Nat → Nat → Nat → Nat
  | 0, _, acc => acc
  | n + 1, a, acc => Memory.readBE mem n (a + 1) (256 * acc + (Memory.readByte a mem).toNat)

/-- Write bytes from address `a` up. -/
def Memory.writeBytes : Nat → List Byte → Memory → Memory
  | _, [], mem => mem
  | a, b :: bs, mem => Memory.writeBytes (a + 1) bs (Memory.writeByte a b mem)

/-- Read an `n`-byte value at `a` in the given byte order (20_memory.md R83). -/
def Memory.read (mem : Memory) (big : Bool) (a n : Nat) : Nat :=
  if big then Memory.readBE mem n a 0 else Memory.readLE mem n a

/-- Write an `n`-byte value at `a` in the given byte order (20_memory.md R83). -/
def Memory.write (mem : Memory) (big : Bool) (a n v : Nat) : Memory :=
  Memory.writeBytes a (if big then (leBytes n v).reverse else leBytes n v) mem

/-! ### Permission maps (10_state.md R28) -/

/-- The grant of a byte; "an address not in the map has grant NONE". -/
def PermMap.lookup (x : Nat) : PermMap → Priv
  | [] => Priv.NONE
  | g :: gs => if g.lo ≤ x ∧ x ≤ g.hi then g.priv else PermMap.lookup x gs

/-- The map cut to the bytes below `a`. -/
def PermMap.below (a : Nat) : PermMap → PermMap
  | [] => []
  | g :: gs =>
    if g.hi < a then g :: PermMap.below a gs
    else if g.lo < a then [{ g with hi := a - 1 }]
    else []

/-- The map cut to the bytes above `a`. -/
def PermMap.above (a : Nat) : PermMap → PermMap
  | [] => []
  | g :: gs =>
    if g.hi ≤ a then PermMap.above a gs
    else if g.lo ≤ a then { g with lo := a + 1 } :: gs
    else g :: gs

/-- Put a run before a map of higher bytes: dropped when it grants nothing, joined when it touches an equal run. -/
def PermMap.cons (g : Grant) : PermMap → PermMap
  | [] => if g.priv = Priv.NONE then [] else [g]
  | h :: t =>
    if g.priv = Priv.NONE then h :: t
    else if g.hi + 1 = h.lo ∧ g.priv = h.priv then { g with hi := h.hi } :: t
    else g :: h :: t

/-- Give the bytes `lo` to `hi` the grant `p`; NONE removes. -/
def PermMap.assign (lo hi : Nat) (p : Priv) (perms : PermMap) : PermMap :=
  if lo ≤ hi then
    (PermMap.below lo perms).foldr PermMap.cons (PermMap.cons { lo := lo, hi := hi, priv := p } (PermMap.above hi perms))
  else perms

/-- The canonical form: runs rising and disjoint, none empty or NONE, touching runs with different grants. -/
def PermMap.wf : PermMap → Bool
  | [] => true
  | [g] => decide (g.lo ≤ g.hi) && decide (g.priv ≠ Priv.NONE)
  | g :: h :: t =>
    decide (g.lo ≤ g.hi) && decide (g.priv ≠ Priv.NONE) && decide (g.hi < h.lo)
      && decide (g.hi + 1 = h.lo → g.priv ≠ h.priv) && PermMap.wf (h :: t)

/-- The map of a base mode and access kind. -/
def PmpPerm.get (p : PmpPerm) : BaseMode → AccessKind → PermMap
  | .machine, .data => p.mData
  | .machine, .code => p.mCode
  | .supervisor, .data => p.sData
  | .supervisor, .code => p.sCode
  | .user, .data => p.uData
  | .user, .code => p.uCode

/-- Replace the map of a base mode and access kind. -/
def PmpPerm.put (p : PmpPerm) (b : BaseMode) (k : AccessKind) (perms : PermMap) : PmpPerm :=
  match b, k with
  | .machine, .data => { p with mData := perms }
  | .machine, .code => { p with mCode := perms }
  | .supervisor, .data => { p with sData := perms }
  | .supervisor, .code => { p with sCode := perms }
  | .user, .data => { p with uData := perms }
  | .user, .code => { p with uCode := perms }

/-- Every map is in canonical form. -/
def PmpPerm.wf (p : PmpPerm) : Bool :=
  PermMap.wf p.mData && PermMap.wf p.mCode && PermMap.wf p.sData && PermMap.wf p.sCode
    && PermMap.wf p.uData && PermMap.wf p.uCode

/-! ### Field updates -/

/-- `AFault <- a`. -/
def State.setAFault (s : State) (a : AFault) : State := { s with afault := a }
/-- End an operation that began with `AFault` cleared but is no `MISS`: what it armed stays, else the `old` value is back
(10_state.md R45). -/
def State.keepAFault (s : State) (old : AFault) : State :=
  match s.afault with
  | .none => s.setAFault old
  | .pmp => s
/-- `PTWActive <- b`. -/
def State.setPtwActive (s : State) (b : Bool) : State := { s with ptwActive := b }
/-- `s2Active <- true ; s1VA <- va` (42_translate.md R222). -/
def State.beginStage2 (s : State) (va : U64) : State := { s with s2Active := true, s1VA := va }
/-- `s2Active <- false`. -/
def State.endStage2 (s : State) : State := { s with s2Active := false }
/-- `pubKey <- k`. -/
def State.setPubKey (s : State) (k : U64) : State := { s with pubKey := k }
/-- `dataMode <- mode`. -/
def State.setDataMode (s : State) (mode : Mode5) : State := { s with dataMode := mode }
/-- Answer a response. -/
def State.respond (s : State) (r : Response) : State := { s with response := r }
/-- Record a page-table access. -/
def State.logAccess (s : State) (a : PteAccess) : State := { s with traffic := s.traffic ++ [a] }
/-- Replace physical memory. -/
def State.setMem (s : State) (mem : Memory) : State := { s with mem := mem }
/-- Replace the inputs. -/
def State.setEnv (s : State) (env : Env) : State := { s with env := env }
/-- Count `n` free draws. -/
def State.draw (s : State) (n : Nat) : State := { s with choice := s.choice + n }
/-- Replace the config bytes. -/
def State.setPmpcfg (s : State) (cfgs : List Byte) : State := { s with pmpcfg := cfgs }
/-- Replace the address words. -/
def State.setPmpaddr (s : State) (addrs : List U64) : State := { s with pmpaddr := addrs }
/-- Replace the permission cache. -/
def State.setPmpPerm (s : State) (p : PmpPerm) : State := { s with pmpPerm := p }
/-- Replace the TLBs. -/
def State.setTlbs (s : State) (t : Tlbs) : State := { s with tlbs := t }
/-- Replace the alias store. -/
def State.setAliases (s : State) (a : AliasStore) : State := { s with aliases := a }
/-- Give out an entry handle. -/
def State.takeHandle (s : State) : State := { s with nextHandle := s.nextHandle + 1 }

/-- The state in which a line of the script begins to run: the rest of the script, an empty answer. -/
def State.begin (s : State) (rest : List Input) : State :=
  { s with input := rest, response := .noReply, traffic := [] }

/-! ### TLBs and the alias store as stores -/

/-- `TLB[t]`. -/
def Tlbs.get (t : Tlbs) : TlbId → List Entry
  | .hs => t.hs
  | .vs1 => t.vs1
  | .vs2 => t.vs2

/-- Replace `TLB[t]`. -/
def Tlbs.put (t : Tlbs) (i : TlbId) (es : List Entry) : Tlbs :=
  match i with
  | .hs => { t with hs := es }
  | .vs1 => { t with vs1 := es }
  | .vs2 => { t with vs2 := es }

/-- `alias[m]`. -/
def AliasStore.get (a : AliasStore) : Mode5 → List Alias
  | .user => a.u
  | .supervisor => a.s
  | .machine => a.m
  | .vu => a.vu
  | .vs => a.vs

/-- Replace `alias[m]`. -/
def AliasStore.put (a : AliasStore) (mode : Mode5) (l : List Alias) : AliasStore :=
  match mode with
  | .user => { a with u := l }
  | .supervisor => { a with s := l }
  | .machine => { a with m := l }
  | .vu => { a with vu := l }
  | .vs => { a with vs := l }

/-- `TLB[t]` of a state. -/
def State.tlb (s : State) (t : TlbId) : List Entry := s.tlbs.get t
/-- `TLB[t] <- es`. -/
def State.setTlb (s : State) (t : TlbId) (es : List Entry) : State := s.setTlbs (s.tlbs.put t es)
/-- `alias[m]` of a state. -/
def State.aliasesOf (s : State) (mode : Mode5) : List Alias := s.aliases.get mode
/-- `alias[m] <- l`. -/
def State.setAliasesOf (s : State) (mode : Mode5) (l : List Alias) : State := s.setAliases (s.aliases.put mode l)

/-! ### Free orders (41_tlb.md R182, log 8) -/

/-- Insert `x` into a list at the position a number names. -/
def freeInsert {α : Type} (k : Nat) (x : α) : List α → List α
  | [] => [x]
  | y :: ys =>
    (y :: ys).take (k % ((y :: ys).length + 1)) ++ x :: (y :: ys).drop (k % ((y :: ys).length + 1))

/-- The list in a free order, its draws numbered from `c` up: any permutation of it. -/
def freeOrder {α : Type} (c : Nat) : List α → List α
  | [] => []
  | x :: xs => freeInsert (Config.free (c + xs.length)) x (freeOrder c xs)

/-- Insert an entry into a list ascending in `lowVA`, after its equals. -/
def insertByLow (e : Entry) : List Entry → List Entry
  | [] => [e]
  | f :: fs => if e.lowVA < f.lowVA then e :: f :: fs else f :: insertByLow e fs

/-- Sort by ascending `lowVA`, equals in the order given. -/
def sortByLow (es : List Entry) : List Entry :=
  es.foldl (fun acc e => insertByLow e acc) []

/-- `TLB[t]` in ascending `lowVA`, "ties in any order" (44_host_ops.md R312). -/
def State.listing (s : State) (t : TlbId) : List Entry :=
  sortByLow (freeOrder s.choice (s.tlb t))

/-! ### The bus (20_memory.md R71, R80) -/

/-- Two inclusive ranges share a byte. -/
def overlaps (lo hi lo' hi' : Nat) : Bool :=
  decide (lo ≤ hi') && decide (lo' ≤ hi)

/-- The PMA hook allows an access (44_host_ops.md R322, log 13). -/
def State.pmaAllows (s : State) (req : Priv) (lo hi : Nat) : Bool :=
  s.env.pma.all fun d => !(overlaps lo hi d.lo d.hi && (d.deny &&& req) != 0)

/-- The physical memory responds: the bytes lie in the 64-bit space and in no absent range (20_memory.md R80, log 13). -/
def State.responds (s : State) (lo hi : Nat) : Bool :=
  decide (hi < 2 ^ 64) && s.env.absent.all fun r => !overlaps lo hi r.lo r.hi

/-! ### Taking an exception (60_exceptions.md R331, R340 to R343, 44_host_ops.md R321) -/

/-- The report of a failed lookup (60_exceptions.md R340): kind by R331, `GVA` by R341, `gpa` dropped for a bus error
(R342). -/
def State.excReport (s : State) (mode : Mode5) (req : Priv) (f : ChunkFailure) : ExcReport where
  kind := excKind f.err f.tlb req
  tval := f.tval
  gva := s.gva mode
  gpa := if isBusError f.err then none else f.gpa

/-- `takeMemoryException`: emit the report once and end the command with status EXC. The block saves nothing and switches
nothing (60_exceptions.md R343); there is no return from it in the block (R351). -/
def State.takeMemoryException (s : State) (err : WalkErr) (report : ExcReport) (mappings : List Mapping) : State :=
  s.respond (.miss { status := .exc, err := some err, exc := some report, mappings := mappings, afault := s.afault })

/-- `Fail(E, t, tval, gpa)` (42_translate.md R234): PROBE_FAIL for an artifact access, else the exception. -/
def State.failLookup (s : State) (mode : Mode5) (req : Priv) (artifact : Bool) (f : ChunkFailure)
    (mappings : List Mapping) : State :=
  if artifact then
    s.respond (.miss { status := .probeFail, err := some f.err, exc := none, mappings := mappings, afault := s.afault })
  else s.takeMemoryException f.err (s.excReport mode req f) mappings

end Sys2Proof.Machine
end

