-- ==== Sys2Proof/Machine/Directives.lean ====
section
/-! DEFINITION. The script's directives (30_encoding.md R132) and the model's own for the other inputs (log 24). -/

namespace Sys2Proof.Machine

/-- A pointer register with its `MODE` field set (30_encoding.md R111, R112). -/
def setAtpMode (x : XLen) (v m : U64) : U64 :=
  match x with
  | .x32 => setField v 31 1 m
  | .x64 => setField v 60 4 m

/-- A pointer register with its `PPN` field set. -/
def setAtpPpn (x : XLen) (v ppn : U64) : U64 :=
  match x with
  | .x32 => setField v 0 22 ppn
  | .x64 => setField v 0 44 ppn

/-- `satp` or `vsatp` with its `ASID` field set: "Only the low `ASID_BITS` bits of `ASID` can be non-zero"
(30_encoding.md R111). -/
def setAtpAsid (p : Params) (v asid : U64) : U64 :=
  match p.xlen with
  | .x32 => setField v 22 9 (asid &&& lowMask p.asidBits)
  | .x64 => setField v 44 16 (asid &&& lowMask p.asidBits)

/-- `hgatp` with its `VMID` field set: "Only the low `VMID_BITS` bits of `VMID` can be non-zero" (30_encoding.md R112). -/
def setAtpVmid (p : Params) (v vmid : U64) : U64 :=
  match p.xlen with
  | .x32 => setField v 22 7 (vmid &&& lowMask p.vmidBits)
  | .x64 => setField v 44 14 (vmid &&& lowMask p.vmidBits)

/-- `csr <name>.<field>=<value>` (30_encoding.md R132, R111 to R114). -/
def Csrs.set (p : Params) (c : Csrs) (f : CsrField) (v : U64) : Csrs :=
  match f with
  | .satpMode => { c with satp := setAtpMode p.xlen c.satp v }
  | .satpAsid => { c with satp := setAtpAsid p c.satp v }
  | .satpPpn => { c with satp := setAtpPpn p.xlen c.satp v }
  | .vsatpMode => { c with vsatp := setAtpMode p.xlen c.vsatp v }
  | .vsatpAsid => { c with vsatp := setAtpAsid p c.vsatp v }
  | .vsatpPpn => { c with vsatp := setAtpPpn p.xlen c.vsatp v }
  | .hgatpMode => { c with hgatp := setAtpMode p.xlen c.hgatp v }
  | .hgatpVmid => { c with hgatp := setAtpVmid p c.hgatp v }
  | .hgatpPpn => { c with hgatp := setAtpPpn p.xlen c.hgatp v }
  | .mstatusMxr => { c with mstatus := setField c.mstatus 19 1 v }
  | .mstatusSum => { c with mstatus := setField c.mstatus 18 1 v }
  | .mstatusMprv => { c with mstatus := setField c.mstatus 17 1 v }
  | .mstatusMpp => { c with mstatus := setField c.mstatus 11 2 v }
  | .mstatusMpv =>
    match p.xlen with
    | .x32 => { c with mstatush := setField c.mstatush 7 1 v }
    | .x64 => { c with mstatus := setField c.mstatus 39 1 v }
  | .vsstatusMxr => { c with vsstatus := setField c.vsstatus 19 1 v }
  | .vsstatusSum => { c with vsstatus := setField c.vsstatus 18 1 v }
  | .dcsrMprven => { c with dcsr := setField c.dcsr 4 1 v }

/-- The inputs with the endianness of one regime set. -/
def Env.setBig (e : Env) (t : TlbId) (big : Bool) : Env :=
  match t with
  | .hs => { e with bigHs := big }
  | .vs1 => { e with bigVs1 := big }
  | .vs2 => { e with bigVs2 := big }

/-- A directive's effect: an input changes, or memory. A `mem` directive beyond the 64-bit space faults (log 24). -/
def applyDirective (d : Directive) (s : State) : Host.Outcome State Fault Refusal :=
  match d with
  | .csr f v => .next (s.setEnv { s.env with csr := Csrs.set s.params s.env.csr f v })
  | .mem n a v =>
    if a.toNat + n ≤ 2 ^ 64 then .next (s.setMem (s.mem.write false a.toNat n v)) else .fault .outsideAddressSpace
  | .mode mode => .next (s.setEnv { s.env with curMode := mode })
  | .debug on => .next (s.setEnv { s.env with inDebug := on })
  | .endian t big => .next (s.setEnv (s.env.setBig t big))
  | .absent ranges => .next (s.setEnv { s.env with absent := ranges })
  | .pma denials => .next (s.setEnv { s.env with pma := denials })

end Sys2Proof.Machine
end

