-- ==== Sys2Proof/Machine/Tlb.lean ====
section
/-! DEFINITION. The TLB store, the alias store and the published key (41_tlb.md), and the meanings of the four invalidation
commands and of `SET_ASID`. -/

namespace Sys2Proof.Machine

/-! ### Aliases (41_tlb.md R200 to R203) -/

/-- An alias was built from the entry: `a.from1 = e` or `a.from2 = e` (41_tlb.md R184). -/
def builtFrom (a : Alias) (e : Entry) : Bool :=
  decide (e.lutEntry = some a.from1) || (decide (e.lutEntry ≠ none) && decide (a.from2 = e.lutEntry))

/-- Remove from `alias[m]` every alias built from the entry (41_tlb.md R184, R201). -/
def State.removeAliases (s : State) (mode : Mode5) (e : Entry) : State :=
  s.setAliasesOf mode ((s.aliasesOf mode).filter fun a => !builtFrom a e)

/-- The modes an entry's `mapped` set names: base `b` in `mapped`, virtualized iff the entry is not in `TLB[HS]` (41_tlb.md
R184). Machine mode has no regime and is never mapped (10_state.md R37). -/
def mappedModes (e : Entry) : List Mode5 :=
  (if inMapped e.mapped .user then [modeOf .user (decide (e.tlb ≠ .hs))] else [])
    ++ (if inMapped e.mapped .supervisor then [modeOf .supervisor (decide (e.tlb ≠ .hs))] else [])

/-- Replace the linked entry that has the handle of `e` by `e`. -/
def replaceEntry (e : Entry) (es : List Entry) : List Entry :=
  es.map fun f => if f.lutEntry = e.lutEntry then e else f

/-- Record that the entry under a handle is mapped in a base mode (41_tlb.md R200). -/
def markMapped (h : Nat) (b : BaseMode) (es : List Entry) : List Entry :=
  es.map fun f => if f.lutEntry = some h then { f with mapped := addMapped f.mapped b } else f

/-- Record in every TLB that the entry under a handle is mapped. Handles are unique over the three TLBs. -/
def State.markEntry (s : State) (t : TlbId) (h : Nat) (b : BaseMode) : State :=
  s.setTlb t (markMapped h b (s.tlb t))

/-- Two aliases' ranges, or an alias and a range, overlap. -/
def aliasOverlaps (a : Alias) (lo hi : U64) : Bool :=
  decide (a.lowVA ≤ hi) && decide (lo ≤ a.highVA)

/-- Alias install (41_tlb.md R200): drop what overlaps, add the alias under the live key, mark the entries mapped. `h1`
and `h2` are the handles of the entries, `t1` the TLB of the first. -/
def State.installAlias (s : State) (mode : Mode5) (mp : Mapping) (t1 : TlbId) (h1 : Nat) (h2 : Option Nat) : State :=
  let kept := (s.aliasesOf mode).filter fun a => !aliasOverlaps a mp.lowVA mp.highVA
  let a : Alias :=
    { lowVA := mp.lowVA, highVA := mp.highVA, lowPA := mp.lowPA, priv := mp.priv, mask := mp.mask
      key := s.liveKey, from1 := h1, from2 := h2 }
  let s1 := (s.setAliasesOf mode (a :: kept)).markEntry t1 h1 (baseOf mode)
  match h2 with
  | none => s1
  | some h => s1.markEntry .vs2 h (baseOf mode)

/-- An alias serves a byte at `x` needing `req`: it covers `x`, grants `req`, and its key agrees with `pubKey` under its
mask (41_tlb.md R202). -/
def State.aliasServes (s : State) (a : Alias) (x : U64) (req : Priv) : Bool :=
  decide (a.lowVA ≤ x) && decide (x ≤ a.highVA) && satisfies a.priv req
    && ((s.pubKey &&& a.mask) == (a.key &&& a.mask))

/-- Alias hit (41_tlb.md R202): the physical address an access of `mode` at `x` is forwarded to, none when it misses. The
memory runtime's side of the contract; no step reads it. -/
def State.aliasHit (s : State) (mode : Mode5) (x : U64) (req : Priv) : Option U64 :=
  match (s.aliasesOf mode).find? fun a => s.aliasServes a x req with
  | some a => some (a.lowPA + (x - a.lowVA))
  | none => none

/-- A multi-byte access hits "on every byte" (41_tlb.md R202). -/
def State.accessHits (s : State) (mode : Mode5) (va : U64) (bytes : Nat) (req : Priv) : Bool :=
  (List.range bytes).all fun k => (s.aliasHit mode (va + BitVec.ofNat 64 k) req).isSome

/-! ### Find, insert, delete (41_tlb.md R182 to R184) -/

/-- `TLB_DELETE(e)` (41_tlb.md R184): its aliases in every mode it is mapped in, then the entry. -/
def State.tlbDelete (s : State) (e : Entry) : State :=
  let s1 := (mappedModes e).foldl (fun st mode => st.removeAliases mode e) s
  s1.setTlb e.tlb ((s1.tlb e.tlb).filter fun f => decide (f.lutEntry ≠ e.lutEntry))

/-- The entry's range contains `x`. -/
def covers (e : Entry) (x : U64) : Bool :=
  decide (e.lowVA ≤ x) && decide (x ≤ e.highVA)

/-- The loop of `TLB_FIND` over the overlapping entries in the order the range structure yields them (41_tlb.md R182). -/
def tlbFindIn : List Entry → State → Option Entry × State
  | [], s => (none, s)
  | e :: es, s =>
    if e.artifact then tlbFindIn es (s.tlbDelete e)
    else if s.matchEntry e then (some e, s)
    else tlbFindIn es s

/-- The entries of `TLB[t]` that contain `x` (10_state.md R35). -/
def State.overlapping (s : State) (t : TlbId) (x : U64) : List Entry :=
  (s.tlb t).filter fun e => covers e x

/-- `TLB_FIND(t, x)` (41_tlb.md R182), in a free order of iteration (log 8). -/
def State.tlbFind (s : State) (t : TlbId) (x : U64) : Option Entry × State :=
  let hits := s.overlapping t x
  tlbFindIn (freeOrder s.choice hits) (s.draw hits.length)

/-- `TLB_INSERT(e)` (41_tlb.md R183): link the entry in `TLB[e.tlb]` under a fresh handle. -/
def State.tlbInsert (s : State) (e : Entry) : Entry × State :=
  let e' := { e with lutEntry := some s.nextHandle }
  (e', (s.takeHandle).setTlb e.tlb (s.tlb e.tlb ++ [e']))

/-! ### Invalidation (41_tlb.md R185 to R192) -/

/-- Invalidate mode ANY or ASID, with its operand (41_tlb.md R185). -/
inductive InvalMode where
  | any
  | asid (a : U64)
deriving DecidableEq, Repr

/-- Codes of the invalidate modes (30_encoding.md R120). -/
def InvalMode.code : InvalMode → Nat
  | .any => 0
  | .asid _ => 1

/-- `Pred(mode, asid, e)` (41_tlb.md R186, R187); the operand is truncated to `ASID_BITS`. -/
def State.invalPred (s : State) (im : InvalMode) (e : Entry) : Bool :=
  match im with
  | .any => true
  | .asid a =>
    if s.params.asidBits = 0 then true
    else !e.g && ((entryAsid e).setWidth 64 == a &&& lowMask s.params.asidBits)
      && (decide (e.tlb = .hs) || (entryVmid e == s.hgatpVmid))

/-- `TLB_INVALIDATE(t, lo, hi, mode, asid)` (41_tlb.md R185). -/
def State.tlbInvalidate (s : State) (t : TlbId) (lo hi : U64) (im : InvalMode) : State :=
  ((s.tlb t).filter fun e => decide (e.lowVA ≤ hi) && decide (lo ≤ e.highVA) && s.invalPred im e).foldl
    State.tlbDelete s

/-- The target of the four invalidation commands (41_tlb.md R192). -/
def State.invalTarget (s : State) : TlbId :=
  if virtOf s.env.curMode then .vs1 else .hs

/-- `INVAL_ALL` (41_tlb.md R188). -/
def execInvalAll (s : State) : Host.Outcome State Fault Refusal :=
  .next ((s.tlbInvalidate s.invalTarget 0 (BitVec.allOnes 64) .any).respond .noReply)

/-- `INVAL_ALL_ASID` (41_tlb.md R189). -/
def execInvalAllAsid (asid : U64) (s : State) : Host.Outcome State Fault Refusal :=
  .next ((s.tlbInvalidate s.invalTarget 0 (BitVec.allOnes 64) (.asid asid)).respond .noReply)

/-- `INVAL_VA` (41_tlb.md R190). -/
def execInvalVa (va : U64) (s : State) : Host.Outcome State Fault Refusal :=
  .next ((s.tlbInvalidate s.invalTarget va va .any).respond .noReply)

/-- `INVAL_VA_ASID` (41_tlb.md R191). -/
def execInvalVaAsid (va asid : U64) (s : State) : Host.Outcome State Fault Refusal :=
  .next ((s.tlbInvalidate s.invalTarget va va (.asid asid)).respond .noReply)

/-! ### Publishing the key -/

/-- `SET_ASID` (41_tlb.md R194): `pubKey <- LiveKey()`. -/
def execSetAsid (s : State) : Host.Outcome State Fault Refusal :=
  .next ((s.setPubKey s.liveKey).respond .noReply)

end Sys2Proof.Machine
end

