-- ==== Sys2Proof/Machine/HostOps.lean ====
section
/-! DEFINITION. Lifecycle, save and restore, and the debug dumps (44_host_ops.md): the meanings of `VM_INIT`, `VM_FREE`,
`VM_SAVE`, `VM_RESTORE`, `DUMP_TLB`, `DUMP_VS1TLB`, `DUMP_VS2TLB`. -/

namespace Sys2Proof.Machine

/-! ### Lifecycle (44_host_ops.md R310, R311) -/

/-- The reset of the translation part (44_host_ops.md R310): entries are discarded without alias events. -/
def State.initVm (s : State) : State :=
  { s with
    tlbs := Tlbs.empty, aliases := AliasStore.empty, pubKey := 0, ptwActive := false, s2Active := false
    afault := .none, dataMode := s.env.curMode }

/-- `VM_INIT` (44_host_ops.md R310). -/
def execVmInit (s : State) : Host.Outcome State Fault Refusal :=
  .next (s.initVm.respond .noReply)

/-- `TLB_DELETE(e)` for every entry of `TLB[t]`. -/
def State.freeTlb (s : State) (t : TlbId) : State :=
  (s.tlb t).foldl State.tlbDelete s

/-- `VM_FREE` (44_host_ops.md R311). -/
def execVmFree (s : State) : Host.Outcome State Fault Refusal :=
  .next ((((s.freeTlb .hs).freeTlb .vs1).freeTlb .vs2).respond .noReply)

/-! ### The save stream (30_encoding.md R122) -/

/-- The 9 ASCII bytes `TLB_ENTRY`. -/
def saveTag : List Byte :=
  [0x54, 0x4C, 0x42, 0x5F, 0x45, 0x4E, 0x54, 0x52, 0x59]

/-- The flags byte: bit 0 `U`, bit 1 `G`, bit 2 `A`, bit 3 `D`, bit 4 `artifact`. -/
def entryFlags (e : Entry) : Byte :=
  0#3 ++ (BitVec.ofBool e.artifact ++ (BitVec.ofBool e.d ++ (BitVec.ofBool e.a ++ (BitVec.ofBool e.g
    ++ BitVec.ofBool e.u))))

/-- The 44 payload bytes of an entry, `mapped` and `lutEntry` cleared. -/
def entryPayload (e : Entry) : List Byte :=
  leBytes 8 e.lowVA.toNat ++ (leBytes 8 e.highVA.toNat ++ (leBytes 8 e.pa.toNat ++ (leBytes 8 e.simASID.toNat
    ++ (BitVec.ofNat 8 e.tlb.code :: e.priv.setWidth 8 :: entryFlags e :: 0 :: leBytes 8 0))))

/-- The record of an entry. -/
def entryRecord (e : Entry) : List Byte :=
  saveTag ++ (leBytes 4 44 ++ entryPayload e)

/-- The terminator record: size 0, no payload. -/
def terminator : List Byte :=
  saveTag ++ leBytes 4 0

/-- The stream of a list of entries. -/
def streamOf (es : List Entry) : List Byte :=
  es.flatMap entryRecord ++ terminator

/-- The entries in the order they are saved: HS, VS1, VS2, each in ascending `lowVA` (44_host_ops.md R312). -/
def State.saveOrder (s : State) : List Entry :=
  let hs := s.listing .hs
  let vs1 := (s.draw hs.length).listing .vs1
  let vs2 := (s.draw (hs.length + vs1.length)).listing .vs2
  hs ++ (vs1 ++ vs2)

/-- `VM_SAVE` (44_host_ops.md R312). -/
def execVmSave (s : State) : Host.Outcome State Fault Refusal :=
  .next ((s.draw s.saveOrder.length).respond (.stream (streamOf s.saveOrder)))

/-! ### Restore (44_host_ops.md R313; log 19) -/

/-- The entry of a payload, not linked and not mapped, and the bytes after it; none when the payload is truncated or its
`tlb` code is above 2. -/
def parseEntry (bs : List Byte) : Option (Entry × List Byte) := do
  let (lo, bs) ← takeLE 8 bs
  let (hi, bs) ← takeLE 8 bs
  let (pa, bs) ← takeLE 8 bs
  let (key, bs) ← takeLE 8 bs
  let (tc, bs) ← takeLE 1 bs
  let (pc, bs) ← takeLE 1 bs
  let (fc, bs) ← takeLE 1 bs
  let (_, bs) ← takeLE 1 bs
  let (_, bs) ← takeLE 8 bs
  let t ← TlbId.ofCode tc
  let e : Entry :=
    { lowVA := BitVec.ofNat 64 lo
      highVA := BitVec.ofNat 64 hi
      pa := BitVec.ofNat 64 pa
      tlb := t
      priv := BitVec.ofNat 3 pc
      u := fc.testBit 0
      g := fc.testBit 1
      a := fc.testBit 2
      d := fc.testBit 3
      mapped := 0
      artifact := fc.testBit 4
      simASID := BitVec.ofNat 64 key
      lutEntry := none }
  return (e, bs)

/-- One record of a stream: the terminator, or an entry and the bytes after it; none when malformed. -/
inductive Record where
  | terminator
  | entry (e : Entry) (rest : List Byte)
deriving DecidableEq, Repr

/-- Read a record: its tag, its size (0 or 44), its payload. -/
def parseRecord (bs : List Byte) : Option Record :=
  if bs.take 9 = saveTag then
    match takeLE 4 (bs.drop 9) with
    | none => none
    | some (size, rest) =>
      if size = 0 then some .terminator
      else if size = 44 then (parseEntry rest).map fun r => .entry r.1 r.2
      else none
  else none

/-- Reinsert the records of a stream up to the terminator: whether the terminator was reached, and the state. The fuel
bounds the number of records. -/
def restoreLoop : Nat → List Byte → State → Bool × State
  | 0, _, s => (false, s)
  | n + 1, bs, s =>
    match parseRecord bs with
    | none => (false, s)
    | some .terminator => (true, s)
    | some (.entry e rest) => restoreLoop n rest (s.tlbInsert e).2

/-- ANY-mode invalidation of a TLB over the full address range. -/
def State.clearTlb (s : State) (t : TlbId) : State :=
  s.tlbInvalidate t 0 (BitVec.allOnes 64) .any

/-- ANY-mode invalidation of the three TLBs. -/
def State.clearTlbs (s : State) : State :=
  ((s.clearTlb .hs).clearTlb .vs1).clearTlb .vs2

/-- The restore: clear, then reinsert. -/
def State.restore (s : State) (stream : List Byte) : Bool × State :=
  restoreLoop (stream.length + 1) stream s.clearTlbs

/-- `VM_RESTORE` (44_host_ops.md R313): a malformed stream stops at the bad record, "the TLBs hold what was inserted so far
and the response reports the refusal". -/
def execVmRestore (stream : List Byte) (s : State) : Host.Outcome State Fault Refusal :=
  .next ((s.restore stream).2.respond (if (s.restore stream).1 then .noReply else .restoreRefused))

/-! ### Debug dumps (44_host_ops.md R314 to R316; log 20) -/

/-- A hexadecimal digit. -/
def hexDigit (n : Nat) : Char :=
  if n < 10 then Char.ofNat (48 + n) else Char.ofNat (55 + n)

/-- The `k` low hexadecimal digits of `v`, most significant first. -/
def hexChars : Nat → Nat → List Char
  | 0, _ => []
  | k + 1, v => hexChars k (v / 16) ++ [hexDigit (v % 16)]

/-- `v` in decimal, in at most `k` digits. -/
def decChars : Nat → Nat → List Char
  | 0, _ => []
  | k + 1, v => (if v < 10 then [] else decChars k (v / 10)) ++ [Char.ofNat (48 + v % 10)]

/-- `0x` and 16 hexadecimal digits. -/
def addrChars (v : U64) : List Char :=
  '0' :: 'x' :: hexChars 16 v.toNat

/-- A letter, or a dash. -/
def flagChar (b : Bool) (c : Char) : Char :=
  if b then c else '-'

/-- A range `0x<lo>:0x<hi>`. -/
def rangeChars (lo hi : U64) : List Char :=
  addrChars lo ++ ':' :: addrChars hi

/-- The `ASID=` part, present only for a non-global entry that has an ASID (44_host_ops.md R314, R316). -/
def asidChars (e : Entry) : List Char :=
  if e.g = true ∨ e.tlb = .vs2 then []
  else [' ', 'A', 'S', 'I', 'D', '='] ++ decChars 5 (entryAsid e).toNat

/-- The line of an entry (44_host_ops.md R314). -/
def dumpLine (e : Entry) : List Char :=
  ['V', 'A', ' '] ++ rangeChars e.lowVA e.highVA ++ [' ', 'P', 'A', ' ']
    ++ rangeChars e.pa (e.pa + e.highVA - e.lowVA)
    ++ [' ', flagChar (e.priv.getLsbD 0) 'r', flagChar (e.priv.getLsbD 1) 'w', flagChar (e.priv.getLsbD 2) 'x', ' ',
        flagChar e.u 'U', flagChar e.g 'G', flagChar e.a 'A', flagChar e.d 'D']
    ++ asidChars e ++ ['\n']

/-- The listing of a TLB. -/
def State.dump (s : State) (t : TlbId) : List Char :=
  (s.listing t).flatMap dumpLine

/-- `DUMP_TLB` (44_host_ops.md R314). -/
def execDumpTlb (s : State) : Host.Outcome State Fault Refusal :=
  .next ((s.draw (s.tlb .hs).length).respond (.text (s.dump .hs)))

/-- `DUMP_VS1TLB` (44_host_ops.md R315): nothing when `HAS_H` is false. -/
def execDumpVs1Tlb (s : State) : Host.Outcome State Fault Refusal :=
  .next ((s.draw (s.tlb .vs1).length).respond (.text (if s.params.hasH then s.dump .vs1 else [])))

/-- `DUMP_VS2TLB` (44_host_ops.md R316). -/
def execDumpVs2Tlb (s : State) : Host.Outcome State Fault Refusal :=
  .next ((s.draw (s.tlb .vs2).length).respond (.text (s.dump .vs2)))

end Sys2Proof.Machine
end

