-- ==== Sys2Proof/Machine/Pmp.lean ====
section
/-! DEFINITION. The PMP bank (43_pmp.md): effective addresses, region geometry, refinement, the permission cache, and the
meanings of the PMP commands and of the four region kinds. -/

namespace Sys2Proof.Machine

/-! ### Effective address and geometry -/

/-- The grain masking of a NAPOT address: bits `[G-2:0]` read as ones when `G ≥ 2` (43_pmp.md R264). -/
def napotAddr (p : Params) (a : U64) : U64 :=
  if 2 ≤ p.pmpG then a ||| lowMask (p.pmpG - 1) else a

/-- The grain masking of an OFF or TOR address: bits `[G-1:0]` read as zeros when `G ≥ 1` (43_pmp.md R264, R282). -/
def grainAddr (p : Params) (a : U64) : U64 :=
  if 1 ≤ p.pmpG then a &&& ~~~(lowMask p.pmpG) else a

/-- `EffAddr(i)` (43_pmp.md R264). -/
def State.effAddr (s : State) (i : Nat) : U64 :=
  if cfgA (s.cfg i) = aNapot then napotAddr s.params (s.addr i) else grainAddr s.params (s.addr i)

/-- `PMP_OFF`: inactive (43_pmp.md R281). -/
def regionOff : Region :=
  .inactive

/-- `PMP_TOR` (43_pmp.md R282), in unbounded integers (R280). -/
def State.regionTor (s : State) (i : Nat) : Region :=
  let low : Int := if i = 0 then 0 else ((grainAddr s.params (s.addr (i - 1))).toNat <<< 2 : Nat)
  let high : Int := ((grainAddr s.params (s.addr i)).toNat <<< 2 : Nat) - 1
  if low > high then .inactive else .active low.toNat high.toNat

/-- `PMP_NA4` (43_pmp.md R283). -/
def State.regionNa4 (s : State) (i : Nat) : Region :=
  .active ((s.addr i).toNat <<< 2) (((s.addr i).toNat <<< 2) + 3)

/-- Position of the lowest clear bit of `x`, looking at `n` bits. -/
def lowestClear : Nat → Nat → Nat
  | 0, _ => 0
  | n + 1, x => if x % 2 = 0 then 0 else lowestClear n (x / 2) + 1

/-- `PMP_NAPOT` (43_pmp.md R284): with `k` the lowest clear bit of `x` and `mask = 2^(k+1) - 1`, the range
`[x & ~mask, x | mask]`. -/
def State.regionNapot (s : State) (i : Nat) : Region :=
  let x := ((napotAddr s.params (s.addr i)).toNat <<< 2) ||| 3
  let k := lowestClear 67 x
  let base := (x >>> (k + 1)) <<< (k + 1)
  .active base (base + (2 ^ (k + 1) - 1))

/-- `Region(i)`: dispatch on `A(i)` (43_pmp.md R290). -/
def State.region (s : State) (i : Nat) : Region :=
  if cfgA (s.cfg i) = aTor then s.regionTor i
  else if cfgA (s.cfg i) = aNa4 then s.regionNa4 i
  else if cfgA (s.cfg i) = aNapot then s.regionNapot i
  else regionOff

/-- `L(i)`: region `i` is locked (10_state.md R27). -/
def State.locked (s : State) (i : Nat) : Bool :=
  cfgL (s.cfg i)

/-! ### The permission cache (43_pmp.md R291 to R296) -/

/-- Give a byte range a grant in one map of the cache. -/
def PmpPerm.assign (p : PmpPerm) (b : BaseMode) (k : AccessKind) (lo hi : Nat) (g : Priv) : PmpPerm :=
  p.put b k (PermMap.assign lo hi g (p.get b k))

/-- Remove the grants of both kinds of a base mode in a byte range. -/
def PmpPerm.remove (p : PmpPerm) (b : BaseMode) (lo hi : Nat) : PmpPerm :=
  (p.assign b .data lo hi Priv.NONE).assign b .code lo hi Priv.NONE

/-- The grant of one map of `Protect`: the refined range, then the boundary-byte guards (43_pmp.md R295). -/
def PmpPerm.protectMap (p : PmpPerm) (b : BaseMode) (k : AccessKind) (lo hi : Nat) (g : Priv) : PmpPerm :=
  let p1 := p.assign b k lo hi g
  let p2 := if 0 < lo then p1.assign b k (lo - 1) (lo - 1) Priv.NONE else p1
  if hi < maxU64 then p2.assign b k (hi + 1) (hi + 1) Priv.NONE else p2

/-- `Protect(mode, lowMap, highMap, priv)` (43_pmp.md R295). -/
def State.protect (s : State) (mode : Mode5) (lo hi : Nat) (priv : Priv) : State :=
  let b := baseOf mode
  let dGrant := if s.params.splitCodeData then priv &&& (Priv.R ||| Priv.W) else priv
  let cGrant := if s.params.splitCodeData then priv &&& Priv.X else priv
  s.setPmpPerm ((s.pmpPerm.protectMap b .data lo hi dGrant).protectMap b .code lo hi cGrant)

/-- Region `i` or a lower-priority (higher-index) region is locked (43_pmp.md R291). -/
def State.lockedAtOrBelow (s : State) (i : Nat) : Bool :=
  s.locked i || (List.range s.params.pmpN).any fun j => decide (i < j) && s.locked j

/-- `PmpInvalidate(i)` under the region's spec at the moment of the call (43_pmp.md R291, R296). -/
def State.pmpInvalidate (s : State) (i : Nat) : State :=
  match s.region i with
  | .inactive => s
  | .active lo hi =>
    let guard := s.params.unaligned || s.params.wideRegs
    let lo' := if guard then lo - 1 else lo
    let hi' := if guard then min (hi + 1) maxU64 else hi
    let p := (s.pmpPerm.remove .supervisor lo' hi').remove .user lo' hi'
    s.setPmpPerm (if s.lockedAtOrBelow i then p.remove .machine lo' hi' else p)

/-- An access of `mode` to the bytes `lo` to `hi` proceeds from the cache without a `MISS` (43_pmp.md R297, 10_state.md
R28): every byte carries a grant that includes `req`. The runtime's side; no step reads it. -/
def State.cacheGrants (s : State) (mode : Mode5) (req : Priv) (lo hi : Nat) : Bool :=
  let k : AccessKind := if req = Priv.X then .code else .data
  (List.range (hi + 1 - lo)).all fun j =>
    satisfies (PermMap.lookup (lo + j) (s.pmpPerm.get (baseOf mode) k)) req

/-! ### Refinement (43_pmp.md R286 to R289) -/

/-- One region's part in refinement, for a physical position `pa` (43_pmp.md R286). -/
def refineRegion (machine : Bool) (pa : Nat) (r : Region) (c : Byte) (i : Nat) (b : Bounds) : Bounds :=
  match r with
  | .inactive => b
  | .active rlo rhi =>
    if rlo ≤ pa ∧ pa ≤ rhi then
      { lowMap := rlo
        highMap := min rhi maxU64
        priv := if !machine || cfgL c then cfgPriv c else Priv.RWX
        hit := some i }
    else if rlo > pa then
      if rlo ≤ b.highMap then { b with highMap := rlo - 1 } else b
    else
      if rhi ≥ b.lowMap then { b with lowMap := rhi + 1 } else b

/-- The loop "for i from N-1 down to 0". -/
def State.refineLoop (s : State) (machine : Bool) (pa : Nat) : Nat → Bounds → Bounds
  | 0, b => b
  | i + 1, b => s.refineLoop machine pa i (refineRegion machine pa (s.region i) (s.cfg i) i b)

/-- The bounds and the privilege that decide an access of `mode` at `pa` (43_pmp.md R286, R288). -/
def State.refineBounds (s : State) (mode : Mode5) (pa : Nat) : Bounds :=
  let machine := decide (baseOf mode = .machine)
  s.refineLoop machine pa s.params.pmpN
    { lowMap := 0, highMap := maxU64, priv := if machine then Priv.RWX else Priv.NONE, hit := none }

/-- The bounds grant the access: enough privilege, and the bounds cover the extent (43_pmp.md R287). -/
def boundsGrant (b : Bounds) (req : Priv) (lo hi : Nat) : Bool :=
  satisfies b.priv req && decide (b.lowMap ≤ lo) && decide (hi ≤ b.highMap)

/-- `PmpRefine(mode, req, lo, hi)` grants (43_pmp.md R286); with no bank everything is granted (R288). -/
def State.pmpGrants (s : State) (mode : Mode5) (req : Priv) (lo hi : Nat) : Bool :=
  decide (s.params.pmpN = 0) || boundsGrant (s.refineBounds mode lo) req lo hi

/-- `PmpRefine(mode, req, lo, hi)`: whether it grants, and the state it leaves: `Protect` on a grant, `AFault <- PMP` on a
denial (43_pmp.md R286, R287). -/
def State.pmpRefine (s : State) (mode : Mode5) (req : Priv) (lo hi : Nat) : Bool × State :=
  if s.params.pmpN = 0 then (true, s)
  else
    let b := s.refineBounds mode lo
    if boundsGrant b req lo hi then (true, s.protect mode b.lowMap b.highMap b.priv)
    else (false, s.setAFault .pmp)

/-! ### Register access -/

/-- The config word: byte `k` is `cfg[4w + k]` (43_pmp.md R261). -/
def State.cfgWord (s : State) (w : Nat) : Nat → U64
  | 0 => 0
  | k + 1 => s.cfgWord w k ||| ((s.cfg (4 * w + k)).setWidth 64 <<< (8 * k))

/-- The value `WriteCfgByte(i, new)` stores over `old` (43_pmp.md R263): bits 6:5 zero, NA4 refused when `G ≥ 1`. -/
def canonCfg (p : Params) (old new : Byte) : Byte :=
  let n := new &&& 0x9F
  if 1 ≤ p.pmpG ∧ cfgA n = aNa4 then (n &&& 0xE7) ||| (old &&& 0x18) else n

/-- `WriteCfgByte(i, new)` (43_pmp.md R263). -/
def State.writeCfgByte (s : State) (i : Nat) (new : Byte) : State :=
  if s.locked i then s
  else
    let n := canonCfg s.params (s.cfg i) new
    if n = s.cfg i then s
    else
      let s1 := s.pmpInvalidate i
      (s1.setPmpcfg (s1.pmpcfg.set i n)).pmpInvalidate i

/-- "iterate the contained bytes highest-index-to-lowest" (43_pmp.md R262): the `k` low bytes of the word. -/
def State.writeCfgWord (s : State) (w : Nat) (value : U64) : Nat → State
  | 0 => s
  | k + 1 =>
    let s1 := if 4 * w + k < s.params.pmpN then s.writeCfgByte (4 * w + k) (value.extractLsb' (8 * k) 8) else s
    s1.writeCfgWord w value k

/-- `addr[i]` may not be written: region `i` is locked, or region `i+1` exists, is locked and is TOR (43_pmp.md R265). -/
def State.addrLocked (s : State) (i : Nat) : Bool :=
  s.locked i || (decide (i + 1 < s.params.pmpN) && s.locked (i + 1) && decide (cfgA (s.cfg (i + 1)) = aTor))

/-- The value `PMPADDR_WRITE` stores (43_pmp.md R265): masked to the implemented address bits that the word of `XLEN` holds
(30_encoding.md R117, R125, log 31). -/
def canonAddr (p : Params) (value : U64) : U64 :=
  let v := value &&& extMask p &&& lowMask (addrWordBits p.xlen)
  if 1 ≤ p.pmpG then v &&& ~~~(lowMask (p.pmpG - 1)) else v

/-- Invalidate region `i` and, when it exists and is TOR, region `i+1` (43_pmp.md R265, R294). -/
def State.invalidateWithTor (s : State) (i : Nat) : State :=
  let s1 := s.pmpInvalidate i
  if i + 1 < s1.params.pmpN ∧ cfgA (s1.cfg (i + 1)) = aTor then s1.pmpInvalidate (i + 1) else s1

/-- The write of an address word (43_pmp.md R265). -/
def State.writeAddr (s : State) (i : Nat) (value : U64) : State :=
  if ¬ i < s.params.pmpN then s
  else if s.addrLocked i then s
  else
    let v := canonAddr s.params value
    if v = s.addr i then s
    else
      let s1 := s.invalidateWithTor i
      (s1.setPmpaddr (s1.pmpaddr.set i v)).invalidateWithTor i

/-- The bank all zero and the cache empty (43_pmp.md R266). -/
def State.clearBank (s : State) : State :=
  ((s.setPmpcfg (List.replicate s.params.pmpN 0)).setPmpaddr (List.replicate s.params.pmpN 0)).setPmpPerm PmpPerm.empty

/-! ### The commands -/

/-- `PMPCFG_READ` (43_pmp.md R261). -/
def execPmpcfgRead (w : Nat) (s : State) : Host.Outcome State Fault Refusal :=
  if cfgWordOk s.params.xlen w then .next (s.respond (.word (s.cfgWord w (cfgWordBytes s.params.xlen))))
  else .next (s.respond .refusedWord)

/-- `PMPCFG_WRITE` (43_pmp.md R262). -/
def execPmpcfgWrite (w : Nat) (value : U64) (s : State) : Host.Outcome State Fault Refusal :=
  if cfgWordOk s.params.xlen w then
    .next ((s.writeCfgWord w value (cfgWordBytes s.params.xlen)).respond .noReply)
  else .next (s.respond .refused)

/-- `PMPADDR_READ` (43_pmp.md R264). -/
def execPmpaddrRead (i : Nat) (s : State) : Host.Outcome State Fault Refusal :=
  .next (s.respond (.word (if i < s.params.pmpN then s.effAddr i else 0)))

/-- `PMPADDR_WRITE` (43_pmp.md R265): "A rejected or ignored write changes nothing and reports nothing". -/
def execPmpaddrWrite (i : Nat) (value : U64) (s : State) : Host.Outcome State Fault Refusal :=
  .next ((s.writeAddr i value).respond .noReply)

/-- `PMP_RESET` (43_pmp.md R266). -/
def execPmpReset (s : State) : Host.Outcome State Fault Refusal :=
  .next (s.clearBank.respond .noReply)

/-- `PMP_NEW` (44_host_ops.md R317): the same effect as `PMP_RESET`. -/
def execPmpNew (s : State) : Host.Outcome State Fault Refusal :=
  .next (s.clearBank.respond .noReply)

/-- `PMP_FREE` (44_host_ops.md R318): the bank reads as all zero afterwards and the cache is empty. -/
def execPmpFree (s : State) : Host.Outcome State Fault Refusal :=
  .next (s.clearBank.respond .noReply)

/-! ### The region kinds (43_pmp.md R281 to R284; log 22) -/

/-- A `Priv` from its X, W, R bits (30_encoding.md R115). -/
def privOfBits (x w r : Bool) : Priv :=
  BitVec.ofBool x ++ (BitVec.ofBool w ++ BitVec.ofBool r)

/-- Answer a region's spec, or refuse an index outside the bank (log 22). -/
def State.answerRegion (s : State) (i : Nat) (r : Region) (priv : Priv) (lock : Bool) : State :=
  if i < s.params.pmpN then s.respond (.region r priv lock) else s.respond .refused

/-- `PMP_OFF` (43_pmp.md R281). -/
def execPmpOff (l x w r : Bool) (i : Nat) (s : State) : Host.Outcome State Fault Refusal :=
  .next (s.answerRegion i regionOff (privOfBits x w r) l)

/-- `PMP_TOR` (43_pmp.md R282). -/
def execPmpTor (l x w r : Bool) (i : Nat) (s : State) : Host.Outcome State Fault Refusal :=
  .next (s.answerRegion i (s.regionTor i) (privOfBits x w r) l)

/-- `PMP_NA4` (43_pmp.md R283): "selectable only when `G = 0`" (R270), refused otherwise (log 22). -/
def execPmpNa4 (l x w r : Bool) (i : Nat) (s : State) : Host.Outcome State Fault Refusal :=
  if s.params.pmpG = 0 then .next (s.answerRegion i (s.regionNa4 i) (privOfBits x w r) l)
  else .next (s.respond .refused)

/-- `PMP_NAPOT` (43_pmp.md R284). -/
def execPmpNapot (l x w r : Bool) (i : Nat) (s : State) : Host.Outcome State Fault Refusal :=
  .next (s.answerRegion i (s.regionNapot i) (privOfBits x w r) l)

end Sys2Proof.Machine
end

