-- ==== Sys2Proof/Machine/Walk.lean ====
section
/-! DEFINITION. Page-table entry access (20_memory.md), the generic walk, the six walkers, lookup-or-walk (40_walker.md,
42_translate.md R223 to R225), and the meanings of the walkers and of the PTE kinds. -/

namespace Sys2Proof.Machine

/-- Go on with the value of a result. -/
def Res.bind {ε α β : Type} (r : Res ε α) (k : α → State → Res ε β) : Res ε β :=
  match r with
  | .ok a s => k a s
  | .err e s => .err e s
  | .stuck f => .stuck f

/-! ### Page-table entry access (20_memory.md R80 to R83) -/

/-- `B`: the entry width in bytes. -/
def pteBytes : PteFormat → Nat
  | .pte32 => 4
  | .pte64 => 8

/-- A page-table access of `n` bytes at `addr` is served: PMP refinement as a supervisor access, the PMA hook, and the
memory responding; a denial of any counts as BusError (20_memory.md R80). -/
def State.ptwCheck (s : State) (req : Priv) (addr : U64) (n : Nat) : Bool × State :=
  let hi := addr.toNat + n - 1
  let r := s.pmpRefine .supervisor req addr.toNat hi
  (r.1 && r.2.pmaAllows req addr.toNat hi && r.2.responds addr.toNat hi, r.2)

/-- `MemRead(addr, n)` in the endianness of regime `t`: the value, or none for BusError (20_memory.md R80, R83). -/
def State.memRead (s : State) (t : TlbId) (addr : U64) (n : Nat) : Option U64 × State :=
  let c := (s.setPtwActive true).ptwCheck Priv.R addr n
  let v : U64 := BitVec.ofNat 64 (c.2.mem.read (c.2.bigEndian t) addr.toNat n)
  let a : PteAccess :=
    { write := false, addr := addr, size := n, value := if c.1 then v else 0, ok := c.1
      ptwActive := c.2.ptwActive, s2Active := c.2.s2Active }
  (if c.1 then some v else none, (c.2.logAccess a).setPtwActive false)

/-- `MemWrite(addr, n, v)` in the endianness of regime `t`: whether it succeeded; a failed write writes nothing (20_memory.md
R82, 60_exceptions.md R343). -/
def State.memWrite (s : State) (t : TlbId) (addr : U64) (n : Nat) (v : U64) : Bool × State :=
  let c := (s.setPtwActive true).ptwCheck Priv.W addr n
  let a : PteAccess :=
    { write := true, addr := addr, size := n, value := v, ok := c.1
      ptwActive := c.2.ptwActive, s2Active := c.2.s2Active }
  let s1 := if c.1 then c.2.setMem (c.2.mem.write (c.2.bigEndian t) addr.toNat n v.toNat) else c.2
  (c.1, (s1.logAccess a).setPtwActive false)

/-! ### Page-table entry kinds (30_encoding.md R109) -/

/-- What a page-table entry means to a walk, decided in the order of 30_encoding.md R109. -/
def pteMeaning (fmt : PteFormat) (pte : U64) : PteMeaning :=
  if !pteV pte then .fails .v0
  else if !pteR pte && pteW pte then .fails .r0w1
  else if pteR pte || pteW pte || pteX pte then
    .leaf (ptePriv pte) (pteU pte) (pteG pte) (pteA pte) (pteD pte) (ptePa fmt pte)
  else .pointer (ptePa fmt pte)

/-- `PTE_INVALID`: `V = 0`, error `V0` whatever the other bits (30_encoding.md R109). -/
def execPteInvalid (x w r : Bool) (upper : BitVec 60) (fmt : PteFormat) (s : State) :
    Host.Outcome State Fault Refusal :=
  .next (s.respond (.pte (pteMeaning fmt (pteWord upper x w r false))))

/-- `PTE_RESERVED`: `V = 1, R = 0, W = 1`, error `R0W1` (30_encoding.md R109). -/
def execPteReserved (x : Bool) (upper : BitVec 60) (fmt : PteFormat) (s : State) :
    Host.Outcome State Fault Refusal :=
  .next (s.respond (.pte (pteMeaning fmt (pteWord upper x true false true))))

/-- `PTE_POINTER`: the base of the next table, `PPN << 12` (30_encoding.md R109, R110). -/
def execPtePointer (upper : BitVec 60) (fmt : PteFormat) (s : State) : Host.Outcome State Fault Refusal :=
  .next (s.respond (.pte (pteMeaning fmt (pteWord upper false false false true))))

/-- `PTE_LEAF`: its privileges, flags and physical address (30_encoding.md R109, 40_walker.md R141 steps 5, 6). -/
def execPteLeaf (x w r : Bool) (upper : BitVec 60) (fmt : PteFormat) (s : State) :
    Host.Outcome State Fault Refusal :=
  .next (s.respond (.pte (pteMeaning fmt (pteWord upper x w r true))))

/-! ### The generic walk (40_walker.md R141) -/

/-- How the address of a page-table entry is turned into a physical address: as it is, but for the variant of 20_memory.md
R95. -/
abbrev PteTranslator := U64 → Priv → State → Res WalkFailure U64

/-- PTE addresses are supervisor-physical (20_memory.md R81). -/
def directPte : PteTranslator :=
  fun a _ s => .ok a s

/-- Fail with a walker error. -/
def failWalk {α : Type} (e : WalkErr) (s : State) : Res WalkFailure α :=
  .err { err := e, pteGpa := none } s

/-- Steps 3 and 4: the loop, `n` levels to go and table base `a`; no level left is a pointer at level 0, `LEAF`. -/
def walkLoop (tr : PteTranslator) (sh : WalkShape) (t : TlbId) (va : U64) :
    Nat → U64 → State → Res WalkFailure FoundLeaf
  | 0, _, s => failWalk .leaf s
  | n + 1, a, s =>
    let pteAddr := a + vpn sh.w n va * BitVec.ofNat 64 (pteBytes sh.fmt)
    (tr pteAddr Priv.R s).bind fun addr s1 =>
      match s1.memRead t addr (pteBytes sh.fmt) with
      | (none, s2) => failWalk .read s2
      | (some pte, s2) =>
        match pteMeaning sh.fmt pte with
        | .fails e => failWalk e s2
        | .pointer next => walkLoop tr sh t va n next s2
        | .leaf _ _ _ _ _ _ => .ok { level := n, pte := pte, addr := addr, pteAddr := pteAddr } s2

/-- Step 6: the entry a leaf gives, before the accessed and dirty update; `G` is forced on for stage 2 and when ASIDs are
absent (40_walker.md R146). -/
def State.leafEntry (s : State) (sh : WalkShape) (t : TlbId) (va : U64) (artifact : Bool) (level : Nat) (pte : U64) :
    Entry :=
  let mask := lowMask (level * sh.w + 12)
  { lowVA := va &&& ~~~mask
    highVA := (va &&& ~~~mask) + mask
    pa := ptePa sh.fmt pte
    tlb := t
    priv := ptePriv pte
    u := pteU pte
    g := pteG pte || decide (t = .vs2) || decide (s.params.asidBits = 0)
    a := pteA pte
    d := pteD pte
    mapped := 0
    artifact := artifact
    simASID := s.liveKey
    lutEntry := none }

/-- Step 9: the write-back of a changed PTE, suppressed for an artifact access (40_walker.md R151). -/
def writeBack (tr : PteTranslator) (sh : WalkShape) (t : TlbId) (artifact : Bool) (leaf : FoundLeaf) (e : Entry)
    (changed : Bool) (s : State) : Res WalkFailure Entry :=
  if changed && !artifact then
    (tr leaf.pteAddr Priv.W s).bind fun addr s1 =>
      match s1.memWrite t addr (pteBytes sh.fmt) (pteWithAD leaf.pte e.a e.d) with
      | (true, s2) => .ok e s2
      | (false, s2) => failWalk .write s2
  else .ok e s

/-- Steps 5 to 9 on the leaf the loop found. -/
def finishWalk (tr : PteTranslator) (sh : WalkShape) (t : TlbId) (va : U64) (req : Priv) (mode : Mode5)
    (artifact : Bool) (leaf : FoundLeaf) (s : State) : Res WalkFailure Entry :=
  if ptePa sh.fmt leaf.pte &&& lowMask (leaf.level * sh.w + 12) != 0 then failWalk .align s
  else
    let e := s.leafEntry sh t va artifact leaf.level leaf.pte
    if !s.permGrants mode e req then failWalk .priv s
    else
      match adUpdate s.params req e with
      | .error err => failWalk err s
      | .ok (e', changed) => writeBack tr sh t artifact leaf e' changed s

/-- Step 1: the address sign-extends correctly; skipped for 4-byte entries and when `ext` is none. -/
def extensionOk (sh : WalkShape) (va : U64) : Bool :=
  match sh.fmt, sh.ext with
  | .pte64, some n => sext n va == va
  | .pte64, none => true
  | .pte32, _ => true

/-- `Walk(W, L, B, ext, t, root, VA, req, m, artifact)` (40_walker.md R141). -/
def walk (tr : PteTranslator) (sh : WalkShape) (t : TlbId) (root va : U64) (req : Priv) (mode : Mode5)
    (artifact : Bool) (s : State) : Res WalkFailure Entry :=
  if !extensionOk sh va then failWalk .vaextend s
  else
    (walkLoop tr sh t va sh.levels root s).bind fun leaf s1 => finishWalk tr sh t va req mode artifact leaf s1

/-- `W = 10`, `L = 2`, `B = 4`, `ext = none` (40_walker.md R142). -/
def shapeSv32 : WalkShape := { w := 10, levels := 2, ext := none, fmt := .pte32 }
/-- `W = 9`, `L = 3`, `B = 8`, `ext = 39` (40_walker.md R143). -/
def shapeSv39 : WalkShape := { w := 9, levels := 3, ext := some 39, fmt := .pte64 }
/-- `W = 9`, `L = 4`, `B = 8`, `ext = 48` (40_walker.md R144). -/
def shapeSv48 : WalkShape := { w := 9, levels := 4, ext := some 48, fmt := .pte64 }

/-- The shape of a stage-1 walker. -/
def shapeOf : SvMode → WalkShape
  | .sv32 => shapeSv32
  | .sv39 => shapeSv39
  | .sv48 => shapeSv48

/-- The walker a `MODE` value selects (30_encoding.md R113, 40_walker.md R156), none for a value with no walker. -/
def walkerOf (p : Params) (mode : U64) : Option SvMode :=
  match p.xlen with
  | .x32 => if mode = 1 ∧ p.hasSv32 = true then some .sv32 else none
  | .x64 =>
    if mode = 8 ∧ p.hasSv39 = true then some .sv39
    else if mode = 9 ∧ p.hasSv48 = true then some .sv48
    else none

/-! ### Stage 2 (40_walker.md R145 to R149) -/

/-- The address bits below the extra bits: 32, 39, 48 (40_walker.md R147 to R149). -/
def x4Bits : SvMode → Nat
  | .sv32 => 32
  | .sv39 => 39
  | .sv48 => 48

/-- Reinstate the extra bits into the range of a stage-2 entry (40_walker.md R145). -/
def reinstate (extra : U64) (bits : Nat) (e : Entry) : Entry :=
  { e with lowVA := e.lowVA ||| (extra <<< bits), highVA := e.highVA ||| (extra <<< bits) }

/-- `WalkX4(bits, W, L, B, GPA, req, m, artifact)` (40_walker.md R145): the inner walk runs with the sign-extension check
off. -/
def walkX4 (sv : SvMode) (gpa : U64) (req : Priv) (mode : Mode5) (artifact : Bool) (s : State) :
    Res WalkFailure Entry :=
  let bits := x4Bits sv
  let extra := gpa >>> bits
  if 3#64 < extra then failWalk .vaextend s
  else
    let root := (s.hgatpPpn <<< 12) + extra * 4096
    (walk directPte { shapeOf sv with ext := none } .vs2 root (gpa &&& lowMask bits) req mode artifact s).bind
      fun e s1 => .ok (reinstate extra bits e) s1

/-- `WalkFor(VS2, …)` by `hgatp.MODE` (40_walker.md R156); a `MODE` with no walker is stuck (log 10). -/
def walkForStage2 (gpa : U64) (req : Priv) (mode : Mode5) (artifact : Bool) (s : State) : Res WalkFailure Entry :=
  match walkerOf s.params s.hgatpMode with
  | some sv => if s.params.hasH then walkX4 sv gpa req mode artifact s else .stuck .modeWithoutWalker
  | none => .stuck .modeWithoutWalker

/-! ### Lookup or walk (42_translate.md R223 to R225) -/

/-- Dirty upgrade: a found entry with `D = 0` under a write is deleted (42_translate.md R224). -/
def State.dirtyUpgrade (s : State) (req : Priv) (found : Option Entry) : Option Entry × State :=
  match found with
  | none => (none, s)
  | some e => if needsWrite req && !e.d then (none, s.tlbDelete e) else (some e, s)

/-- Re-keying of a hit (41_tlb.md R203). -/
def State.rekey (s : State) (mode : Mode5) (e : Entry) : Entry × State :=
  let mask := asidMask e mode
  if inMapped e.mapped (baseOf mode) && (s.liveKey &&& mask) != (e.simASID &&& mask) then
    let e' := { e with simASID := s.liveKey }
    let s1 := s.removeAliases mode e
    (e', s1.setTlb e.tlb (replaceEntry e' (s1.tlb e.tlb)))
  else (e, s)

/-- `FindOrCreate(t, x, req, m, artifact)` with the walker of the regime given (42_translate.md R223). -/
def findOrCreateWith (walker : State → Res WalkFailure Entry) (t : TlbId) (x : U64) (req : Priv) (mode : Mode5)
    (s : State) : Res WalkFailure Entry :=
  let f := s.tlbFind t x
  match f.2.dirtyUpgrade req f.1 with
  | (some e, s1) =>
    if !s1.permGrants mode e req then failWalk .priv s1
    else .ok (s1.rekey mode e).1 (s1.rekey mode e).2
  | (none, s1) =>
    (walker s1).bind fun e s2 => .ok (s2.tlbInsert e).1 (s2.tlbInsert e).2

/-- The stage-2 lookup of a guest-physical address (42_translate.md R226). -/
def lookupStage2 (gpa : U64) (req : Priv) (mode : Mode5) (artifact : Bool) (s : State) : Res WalkFailure Entry :=
  findOrCreateWith (walkForStage2 gpa req mode artifact) .vs2 gpa req mode s

/-! ### Stage 1 (40_walker.md R142 to R144, R155, R156) -/

/-- `RootBase(t)` (40_walker.md R155): of a stage-1 regime. -/
def State.rootBase (s : State) (reg : Stage1Reg) : U64 :=
  match reg with
  | .satp => s.satpPpn <<< 12
  | .vsatp => s.vsatpPpn <<< 12

/-- The variant `VS1_PTW_VIA_S2` (20_memory.md R95): with stage 2 on, a VS1 page-table address is a guest-physical address,
translated by the VS2 lookup; a failure names that address. `va` is the address whose walk this is (log 16). -/
def pteViaStage2 (va : U64) (mode : Mode5) (artifact : Bool) : PteTranslator :=
  fun addr req s =>
    if s.hgatpMode = 0 then .ok addr s
    else
      match lookupStage2 addr req mode artifact (s.beginStage2 va) with
      | .ok e s1 => .ok (e.pa + (addr - e.lowVA)) s1.endStage2
      | .err f s1 => .err { err := f.err, pteGpa := some addr } s1.endStage2
      | .stuck f => .stuck f

/-- How a stage-1 walk reaches its page tables (20_memory.md R81, R95). -/
def stage1Translator (p : Params) (reg : Stage1Reg) (va : U64) (mode : Mode5) (artifact : Bool) : PteTranslator :=
  match reg with
  | .satp => directPte
  | .vsatp => if p.vs1PtwViaS2 then pteViaStage2 va mode artifact else directPte

/-- A stage-1 walker on the tables of a pointer register (40_walker.md R142 to R144). -/
def walkStage1 (sv : SvMode) (reg : Stage1Reg) (va : U64) (req : Priv) (mode : Mode5) (artifact : Bool) (s : State) :
    Res WalkFailure Entry :=
  walk (stage1Translator s.params reg va mode artifact) (shapeOf sv) reg.tlb (s.rootBase reg) va req mode artifact s

/-- `MODE` of the pointer register of a stage-1 regime. -/
def State.stage1Mode (s : State) (reg : Stage1Reg) : U64 :=
  match reg with
  | .satp => s.satpMode
  | .vsatp => s.vsatpMode

/-- `WalkFor(t, …)` of a stage-1 regime by its `MODE` (40_walker.md R156); a `MODE` with no walker is stuck (log 10). -/
def walkForStage1 (reg : Stage1Reg) (va : U64) (req : Priv) (mode : Mode5) (artifact : Bool) (s : State) :
    Res WalkFailure Entry :=
  match walkerOf s.params (s.stage1Mode reg) with
  | some sv => walkStage1 sv reg va req mode artifact s
  | none => .stuck .modeWithoutWalker

/-- `FindOrCreate(t, x, req, m, artifact)` (42_translate.md R223). -/
def findOrCreate (t : TlbId) (x : U64) (req : Priv) (mode : Mode5) (artifact : Bool) (s : State) :
    Res WalkFailure Entry :=
  match t with
  | .hs => findOrCreateWith (walkForStage1 .satp x req mode artifact) .hs x req mode s
  | .vs1 => findOrCreateWith (walkForStage1 .vsatp x req mode artifact) .vs1 x req mode s
  | .vs2 => lookupStage2 x req mode artifact s

/-! ### The walkers as operations -/

/-- Answer what a walker returns (40_walker.md R140), with the `AFault` a failed walk set; `old` is `AFault` before the walk
(10_state.md R45, log 30). -/
def answerWalk (old : AFault) (r : Res WalkFailure Entry) : Host.Outcome State Fault Refusal :=
  match r with
  | .ok e s => .next ((s.keepAFault old).respond (.walked e))
  | .err f s => .next ((s.keepAFault old).respond (.walkFailed f.err s.afault))
  | .stuck f => .fault f

/-- A stage-1 walker, or a refusal of operands outside their domain. -/
def runStage1 (sv : SvMode) (reg : Stage1Reg) (va : U64) (req : Priv) (mode : Mode5) (artifact : Bool) (s : State) :
    Host.Outcome State Fault Refusal :=
  if walkOperandsOk s.params reg.tlb mode req then
    answerWalk s.afault (walkStage1 sv reg va req mode artifact (s.setAFault .none))
  else .next (s.respond .refused)

/-- A stage-2 walker, or a refusal of operands outside their domain. -/
def runStage2 (sv : SvMode) (gpa : U64) (req : Priv) (mode : Mode5) (artifact : Bool) (s : State) :
    Host.Outcome State Fault Refusal :=
  if walkOperandsOk s.params .vs2 mode req then
    answerWalk s.afault (walkX4 sv gpa req mode artifact (s.setAFault .none))
  else .next (s.respond .refused)

/-- `WALK_SV32` (40_walker.md R142). -/
def execWalkSv32 (reg : Stage1Reg) (va : U64) (req : Priv) (mode : Mode5) (artifact : Bool) (s : State) :
    Host.Outcome State Fault Refusal :=
  runStage1 .sv32 reg va req mode artifact s

/-- `WALK_SV39` (40_walker.md R143). -/
def execWalkSv39 (reg : Stage1Reg) (va : U64) (req : Priv) (mode : Mode5) (artifact : Bool) (s : State) :
    Host.Outcome State Fault Refusal :=
  runStage1 .sv39 reg va req mode artifact s

/-- `WALK_SV48` (40_walker.md R144). -/
def execWalkSv48 (reg : Stage1Reg) (va : U64) (req : Priv) (mode : Mode5) (artifact : Bool) (s : State) :
    Host.Outcome State Fault Refusal :=
  runStage1 .sv48 reg va req mode artifact s

/-- `WALK_SV32X4` (40_walker.md R147). -/
def execWalkSv32x4 (gpa : U64) (req : Priv) (mode : Mode5) (artifact : Bool) (s : State) :
    Host.Outcome State Fault Refusal :=
  runStage2 .sv32 gpa req mode artifact s

/-- `WALK_SV39X4` (40_walker.md R148). -/
def execWalkSv39x4 (gpa : U64) (req : Priv) (mode : Mode5) (artifact : Bool) (s : State) :
    Host.Outcome State Fault Refusal :=
  runStage2 .sv39 gpa req mode artifact s

/-- `WALK_SV48X4` (40_walker.md R149). -/
def execWalkSv48x4 (gpa : U64) (req : Priv) (mode : Mode5) (artifact : Bool) (s : State) :
    Host.Outcome State Fault Refusal :=
  runStage2 .sv48 gpa req mode artifact s

end Sys2Proof.Machine
end

