-- ==== Sys2Proof/Machine/Translate.lean ====
section
/-! DEFINITION. The translation orchestrator (42_translate.md): mappings, two-stage composition, the span loop, and the
meanings of `MISS` and `REFRESH_MPRV`. -/

namespace Sys2Proof.Machine

/-! ### Mappings (42_translate.md R228 to R230) -/

/-- `Single(e, m, req)` (42_translate.md R229): `W` is withheld while `D = 0`. -/
def State.single (s : State) (mode : Mode5) (e : Entry) : Mapping where
  lowVA := e.lowVA
  highVA := e.highVA
  lowPA := e.pa
  priv := if e.d then s.permEff mode e else s.permEff mode e &&& ~~~Priv.W
  mask := asidMask e mode

/-- `off1` of 42_translate.md R228: from the virtual space of `M1` to the guest-physical space. -/
def mappingOffset (m : Mapping) : Int :=
  (m.lowPA.toNat : Int) - (m.lowVA.toNat : Int)

/-- `high` of 42_translate.md R228, in integers. -/
def composedHigh (m1 m2 : Mapping) : Int :=
  min (m1.highVA.toNat : Int) ((m2.highVA.toNat : Int) - mappingOffset m1)

/-- `Compose(M1, M2, e1, e2)` (42_translate.md R228), in integers, its results held in 64 bits (log 28). -/
def compose (m1 m2 : Mapping) : Mapping :=
  let off1 := mappingOffset m1
  let off2 := mappingOffset m2
  let low : Int := max (m1.lowVA.toNat : Int) ((m2.lowVA.toNat : Int) - off1)
  { lowVA := BitVec.ofInt 64 low
    highVA := BitVec.ofInt 64 (composedHigh m1 m2)
    lowPA := BitVec.ofInt 64 (low + off1 + off2)
    priv := m1.priv &&& m2.priv
    mask := m1.mask ||| m2.mask }

/-- The composition for a chunk at `lo`, with `low ≤ lo ≤ high` (42_translate.md R228). Where unchecked restored entries give a
`high` below `lo`, the bound is a free value, draw `c`, of those the rules leave: not below `lo` and not above `M1`'s
(log 12). -/
def composeAt (c : Nat) (lo : U64) (m1 m2 : Mapping) : Mapping :=
  if composedHigh m1 m2 < (lo.toNat : Int) then
    { compose m1 m2 with
      highVA := lo + BitVec.ofNat 64 (Config.free c % (m1.highVA.toNat - lo.toNat + 1)) }
  else compose m1 m2

/-- `Cap(M, lo)` (42_translate.md R230): cut to the aligned 4-GiB window of `lo`. -/
def cap (m : Mapping) (lo : U64) : Mapping :=
  let wLo := lo &&& ~~~(lowMask chunkBits)
  let wHi := wLo + lowMask chunkBits
  let newLow := if m.lowVA < wLo then wLo else m.lowVA
  let newHigh := if wHi < m.highVA then wHi else m.highVA
  { m with lowVA := newLow, highVA := newHigh, lowPA := m.lowPA + (newLow - m.lowVA) }

/-! ### One chunk (42_translate.md R222, R226, R227) -/

/-- The entries that translate one chunk: the stage-1 or only one, and the VS2 one when stage 2 is applied. -/
structure Chunk where
  e1 : Entry
  e2 : Option Entry
deriving DecidableEq, Repr

/-- The failure of the first lookup of a chunk at `lo`: in `TLB[t1]`, or, for a page-table entry that could not be
translated by stage 2, in `TLB[VS2]` with that entry's address (20_memory.md R95). -/
def firstFailure (t1 : TlbId) (lo : U64) (f : WalkFailure) : ChunkFailure :=
  match f.pteGpa with
  | some g => { err := f.err, tlb := .vs2, tval := lo, gpa := some g }
  | none => { err := f.err, tlb := t1, tval := lo, gpa := if t1 = .vs2 then some lo else none }

/-- `GPA <- lo + e1.PA - e1.lowVA` (42_translate.md R226). -/
def guestPhysical (lo : U64) (e1 : Entry) : U64 :=
  lo + e1.pa - e1.lowVA

/-- The nested VS2 lookup of a two-stage translation; `tval` of a failure is `s1VA` (42_translate.md R226, R227). -/
def lookupNested (lo : U64) (e1 : Entry) (req : Priv) (mode : Mode5) (artifact : Bool) (s : State) :
    Res ChunkFailure Chunk :=
  let gpa := guestPhysical lo e1
  match findOrCreate .vs2 gpa req mode artifact (s.beginStage2 lo) with
  | .ok e2 s1 => .ok { e1 := e1, e2 := some e2 } s1.endStage2
  | .err f s1 => .err { err := f.err, tlb := .vs2, tval := s1.s1VA, gpa := some gpa } s1.endStage2
  | .stuck f => .stuck f

/-- The lookups of one chunk: stage 1 or the only stage, then stage 2 iff the regime is VS1 and `hgatp.MODE ≠ 0`
(42_translate.md R226). -/
def lookupChunk (t1 : TlbId) (lo : U64) (req : Priv) (mode : Mode5) (artifact : Bool) (s : State) :
    Res ChunkFailure Chunk :=
  match findOrCreate t1 lo req mode artifact s with
  | .ok e1 s1 =>
    if t1 = .vs1 ∧ s1.hgatpMode ≠ 0 then lookupNested lo e1 req mode artifact s1
    else .ok { e1 := e1, e2 := none } s1
  | .err f s1 => .err (firstFailure t1 lo f) s1
  | .stuck f => .stuck f

/-- The capped mapping of a chunk at `lo`; `choice` numbers the draw of `composeAt`. -/
def State.chunkMapping (s : State) (mode : Mode5) (lo : U64) (c : Chunk) : Mapping :=
  match c.e2 with
  | none => cap (s.single mode c.e1) lo
  | some e2 => cap (composeAt s.choice lo (s.single mode c.e1) (s.single mode e2)) lo

/-- An entry of the chunk is an artifact entry. -/
def Chunk.artifact (c : Chunk) : Bool :=
  c.e1.artifact || (match c.e2 with
    | none => false
    | some e2 => e2.artifact)

/-- `AliasInstall(mode, M, e1, e2)`, skipped for artifact entries (42_translate.md R231, R235). A linked entry has a
handle. -/
def State.installChunk (s : State) (mode : Mode5) (c : Chunk) (m : Mapping) : State :=
  if c.artifact then s
  else
    match c.e1.lutEntry with
    | some h1 => s.installAlias mode m c.e1.tlb h1 (c.e2.bind fun e2 => e2.lutEntry)
    | none => s

/-! ### The physical access (42_translate.md R232, R239, 44_host_ops.md R322) -/

/-- PMP refinement, then the PMA hook: whether the physical access `[lo, hi]` may proceed, and the state refinement
leaves. A PMA denial has the "same outcome shape" and is not recorded in `AFault` (log 14). -/
def State.checkPhysical (s : State) (mode : Mode5) (req : Priv) (lo hi : Nat) : Bool × State :=
  ((s.pmpRefine mode req lo hi).1 && (s.pmpRefine mode req lo hi).2.pmaAllows req lo hi, (s.pmpRefine mode req lo hi).2)

/-! ### Responses of `MISS` (42_translate.md R238) -/

/-- A response without error and exception. `MISS` has cleared `AFault`, so its value is what this command set. -/
def State.respondMiss (s : State) (status : MissStatus) (mappings : List Mapping) : State :=
  s.respond (.miss { status := status, err := none, exc := none, mappings := mappings, afault := s.afault })

/-- REFUSED: "no state change" (42_translate.md R221, 44_host_ops.md R319). -/
def State.refuseMiss (s : State) : State :=
  s.respond (.miss { status := .refused, err := none, exc := none, mappings := [], afault := .none })

/-! ### The span loop (42_translate.md R222, R233) -/

/-- What follows a chunk's mapping: install, refine the part of the access in the chunk, and go on with `rest` or end. -/
def finishChunk (req : Priv) (mode : Mode5) (last lo : U64) (done : List Mapping) (c : Chunk) (m : Mapping) (s : State)
    (rest : U64 → List Mapping → State → Host.Outcome State Fault Refusal) : Host.Outcome State Fault Refusal :=
  let hiC := if last < m.highVA then last else m.highVA
  let pLo := m.lowPA + (lo - m.lowVA)
  let pHi := m.lowPA + (hiC - m.lowVA)
  match (s.installChunk mode c m).checkPhysical mode req pLo.toNat pHi.toNat with
  | (false, s1) => .next (s1.respondMiss .afault done)
  | (true, s1) =>
    if last ≤ m.highVA then .next (s1.respondMiss .ok (done ++ [m]))
    else rest (m.highVA + 1) (done ++ [m]) s1

/-- The loop "while lo ≤ end". Every chunk's mapping reaches its `lo`, so the access has no more chunks than bytes, which the
count bounds; each pass counts one draw (log 12). -/
def spanLoop (t1 : TlbId) (req : Priv) (mode : Mode5) (artifact : Bool) (last : U64) :
    Nat → U64 → List Mapping → State → Host.Outcome State Fault Refusal
  | 0, _, done, s => .next (s.respondMiss .ok done)
  | n + 1, lo, done, s =>
    match lookupChunk t1 lo req mode artifact s with
    | .stuck f => .fault f
    | .err f s1 => .next (s1.failLookup mode req artifact f done)
    | .ok c s1 =>
      finishChunk req mode last lo done c (s1.chunkMapping mode lo c) (s1.draw 1) (spanLoop t1 req mode artifact last n)

/-! ### The kinds of miss -/

/-- The last byte of a span. -/
def lastByte (va : U64) (bytes : Nat) : U64 :=
  BitVec.ofNat 64 (va.toNat + bytes - 1)

/-- `PhysMiss(mode, req, PA, bytes)` (42_translate.md R239). -/
def State.physMiss (s : State) (mode : Mode5) (req : Priv) (pa : U64) (bytes : Nat) : State :=
  match s.checkPhysical mode req pa.toNat (pa.toNat + bytes - 1) with
  | (true, s1) => s1.respondMiss .ok []
  | (false, s1) => s1.respondMiss .afault []

/-- The identity mapping of `NoRegime`; its privilege and mask are not stated and are free values (log 15). -/
def identityMapping (c : Nat) (va : U64) (bytes : Nat) : Mapping where
  lowVA := va
  highVA := lastByte va bytes
  lowPA := va
  priv := BitVec.ofNat 3 (Config.free c)
  mask := BitVec.ofNat 64 (Config.free (c + 1))

/-- `NoRegime(mode, req, VA, bytes)` (42_translate.md R236). -/
def State.noRegime (s : State) (mode : Mode5) (req : Priv) (va : U64) (bytes : Nat) : State :=
  match s.checkPhysical mode req va.toNat (va.toNat + bytes - 1) with
  | (true, s1) => (s1.draw 2).respondMiss .ok [identityMapping s1.choice va bytes]
  | (false, s1) => s1.respondMiss .afault []

/-- `VirtMiss(mode, req, VA, bytes, artifact)` (42_translate.md R222). -/
def virtMiss (mode : Mode5) (req : Priv) (va : U64) (bytes : Nat) (artifact : Bool) (s : State) :
    Host.Outcome State Fault Refusal :=
  match s.activeTlb mode with
  | none => .next (s.noRegime mode req va bytes)
  | some t1 => spanLoop t1 req mode artifact (lastByte va bytes) bytes va [] s

/-- `MISS` (42_translate.md R220). Operands outside their domain, and a span R221 refuses, change nothing (log 9). -/
def execMiss (cls : DomainClass) (mode : Mode5) (req : Priv) (va : U64) (bytes : Nat) (artifact : Bool) (s : State) :
    Host.Outcome State Fault Refusal :=
  if missOperandsOk s.params mode req && validSpan va bytes then
    match cls with
    | .other => .next ((s.setAFault .none).respondMiss .notMapped [])
    | .phys => .next ((s.setAFault .none).physMiss mode req va bytes)
    | .pmp => .next ((s.setAFault .none).physMiss mode req va bytes)
    | .virt => virtMiss mode req va bytes artifact (s.setAFault .none)
  else .next s.refuseMiss

/-! ### Data-mode selection (42_translate.md R237) -/

/-- `MPP` as a base mode: 0 U, 1 S, 3 M; 2 is reserved (93_implementation_defined.md U7). -/
def mppBase (m : BitVec 2) : Option BaseMode :=
  if m = 0 then some .user
  else if m = 1 then some .supervisor
  else if m = 3 then some .machine
  else none

/-- `b`, "raised to MIN_MODE if below it". -/
def raiseToMin (p : Params) (b : BaseMode) : BaseMode :=
  if baseNum b < baseNum p.minMode then p.minMode else b

/-- `MPRV` is effective: set, and not in debug mode unless `dcsr.mprven` is set. -/
def State.mprvEffective (s : State) : Bool :=
  s.mprv && (!s.env.inDebug || s.mprven)

/-- `REFRESH_MPRV` (42_translate.md R237). `MPP = 2` matters only when it is read (log 11). -/
def execRefreshMprv (s : State) : Host.Outcome State Fault Refusal :=
  if s.mprvEffective then
    match mppBase s.mpp with
    | some b => .next ((s.setDataMode (modeOf (raiseToMin s.params b) (s.params.hasH && s.mpv))).respond .noReply)
    | none => .fault .reservedMpp
  else .next ((s.setDataMode s.env.curMode).respond .noReply)

end Sys2Proof.Machine
end

