-- ==== Sys2Proof/Machine/Dispatch.lean ====
section
/-! DEFINITION. One arm per instruction: a direct call of its meaning. -/

namespace Sys2Proof.Machine

def exec (i : Instr) (s : State) : Host.Outcome State Fault Refusal :=
  match i with
  | .vmInit => Sys2Proof.Machine.execVmInit s
  | .vmFree => Sys2Proof.Machine.execVmFree s
  | .miss cls mode req va bytes artifact => Sys2Proof.Machine.execMiss cls mode req va bytes artifact s
  | .invalAll => Sys2Proof.Machine.execInvalAll s
  | .invalAllAsid asid => Sys2Proof.Machine.execInvalAllAsid asid s
  | .invalVa va => Sys2Proof.Machine.execInvalVa va s
  | .invalVaAsid va asid => Sys2Proof.Machine.execInvalVaAsid va asid s
  | .setAsid => Sys2Proof.Machine.execSetAsid s
  | .refreshMprv => Sys2Proof.Machine.execRefreshMprv s
  | .pmpcfgRead w => Sys2Proof.Machine.execPmpcfgRead w s
  | .pmpcfgWrite w value => Sys2Proof.Machine.execPmpcfgWrite w value s
  | .pmpaddrRead idx => Sys2Proof.Machine.execPmpaddrRead idx s
  | .pmpaddrWrite idx value => Sys2Proof.Machine.execPmpaddrWrite idx value s
  | .pmpReset => Sys2Proof.Machine.execPmpReset s
  | .pmpNew => Sys2Proof.Machine.execPmpNew s
  | .pmpFree => Sys2Proof.Machine.execPmpFree s
  | .vmSave => Sys2Proof.Machine.execVmSave s
  | .vmRestore stream => Sys2Proof.Machine.execVmRestore stream s
  | .dumpTlb => Sys2Proof.Machine.execDumpTlb s
  | .dumpVs1Tlb => Sys2Proof.Machine.execDumpVs1Tlb s
  | .dumpVs2Tlb => Sys2Proof.Machine.execDumpVs2Tlb s
  | .walkSv32 reg va req mode artifact => Sys2Proof.Machine.execWalkSv32 reg va req mode artifact s
  | .walkSv39 reg va req mode artifact => Sys2Proof.Machine.execWalkSv39 reg va req mode artifact s
  | .walkSv48 reg va req mode artifact => Sys2Proof.Machine.execWalkSv48 reg va req mode artifact s
  | .walkSv32x4 gpa req mode artifact => Sys2Proof.Machine.execWalkSv32x4 gpa req mode artifact s
  | .walkSv39x4 gpa req mode artifact => Sys2Proof.Machine.execWalkSv39x4 gpa req mode artifact s
  | .walkSv48x4 gpa req mode artifact => Sys2Proof.Machine.execWalkSv48x4 gpa req mode artifact s
  | .pmpOff l x w r idx => Sys2Proof.Machine.execPmpOff l x w r idx s
  | .pmpTor l x w r idx => Sys2Proof.Machine.execPmpTor l x w r idx s
  | .pmpNa4 l x w r idx => Sys2Proof.Machine.execPmpNa4 l x w r idx s
  | .pmpNapot l x w r idx => Sys2Proof.Machine.execPmpNapot l x w r idx s
  | .pteInvalid x w r upper fmt => Sys2Proof.Machine.execPteInvalid x w r upper fmt s
  | .pteReserved x upper fmt => Sys2Proof.Machine.execPteReserved x upper fmt s
  | .ptePointer upper fmt => Sys2Proof.Machine.execPtePointer upper fmt s
  | .pteLeaf x w r upper fmt => Sys2Proof.Machine.execPteLeaf x w r upper fmt s

end Sys2Proof.Machine
end

