-- ==== Sys2Proof/Machine/Step.lean ====
section
/-! DEFINITION. One step: the next line of the script. The block has no program counter (10_state.md R21); it accepts one
command at a time (30_encoding.md R130), from the script held in `input` (log 3). -/

namespace Sys2Proof.Machine

/-- A packet that is no instruction is refused: "no state changes and the response says so" (44_host_ops.md R319). -/
def runPacket (p : Packet) (s : State) : Host.Outcome State Fault Refusal :=
  match decode p with
  | .ok i => exec i s
  | .error _ => .next (s.respond .refused)

/-- Run the next line of the script; with no line left the block waits (log 25). -/
def step (s : State) : Host.Outcome State Fault Refusal :=
  match s.input with
  | [] => .next s
  | .command p :: rest => runPacket p (s.begin rest)
  | .directive d :: rest => applyDirective d (s.begin rest)

/-- The state with the instruction of a table word as the next line of its script (log 3). -/
def State.withFetchWord (s : State) (nbits w : Nat) : State :=
  { s with input := .command (tablePacket nbits w) :: s.input }

end Sys2Proof.Machine
end

