-- ==== Sys2Proof/Safety.lean ====
section
/-! DEFINITION. What a sound state of the block is (the invariants the rules of spec/ state over all states) and what a safe
step is. -/

namespace Sys2Proof.Machine

/-! ### Memory and the PMP bank -/

/-- Memory is in canonical form and lies in the 64-bit space. -/
def State.memoryOk (s : State) : Prop :=
  s.mem.wf = true ∧ ∀ c ∈ s.mem, c.1 < 2 ^ 64

/-- A stored config byte: bits 6:5 zero, and never NA4 when `PMP_G ≥ 1` (10_state.md R25, 43_pmp.md R270). -/
def cfgCanonical (p : Params) (c : Byte) : Prop :=
  c &&& 0x60 = 0 ∧ (1 ≤ p.pmpG → cfgA c ≠ aNa4)

/-- A stored address word: below `2^(PA_BITS-2)`, within the word of `XLEN`, its low `PMP_G - 1` bits zero when `PMP_G ≥ 1`
(10_state.md R26, 30_encoding.md R117). -/
def addrCanonical (p : Params) (a : U64) : Prop :=
  4 * a.toNat < 2 ^ p.paBits ∧ a.toNat < 2 ^ (match p.xlen with | .x32 => 32 | .x64 => 54) ∧ a.toNat % 2 ^ (p.pmpG - 1) = 0

/-- The bank has `PMP_N` registers of each kind, each in its stored form (10_state.md R25, R26). -/
def State.bankOk (s : State) : Prop :=
  s.pmpcfg.length = s.params.pmpN ∧ s.pmpaddr.length = s.params.pmpN
    ∧ (∀ c ∈ s.pmpcfg, cfgCanonical s.params c) ∧ ∀ a ∈ s.pmpaddr, addrCanonical s.params a

/-- The permission maps are in canonical form. -/
def State.permsOk (s : State) : Prop :=
  s.pmpPerm.wf = true

/-- The transient flags between commands (10_state.md R42, R43). -/
def State.quiet (s : State) : Prop :=
  s.ptwActive = false ∧ s.s2Active = false

/-- Memory, bank, permission maps and transient flags are as the rules say. -/
structure State.BlockInv (s : State) : Prop where
  memory : s.memoryOk
  bank : s.bankOk
  perms : s.permsOk
  quiet : s.quiet

/-! ### TLBs and aliases -/

/-- Every entry of the three TLBs. -/
def State.entries (s : State) : List Entry :=
  s.tlbs.hs ++ (s.tlbs.vs1 ++ s.tlbs.vs2)

/-- A linked entry of `TLB[t]`: its `tlb` field names the TLB (10_state.md R32), it has a handle, an artifact entry is not
mapped, and only user and supervisor can be mapped (R31, R37). -/
def entryLinked (next : Nat) (t : TlbId) (e : Entry) : Prop :=
  e.tlb = t ∧ (∃ h, e.lutEntry = some h ∧ h < next) ∧ (e.artifact = true → e.mapped = 0) ∧ e.mapped &&& 0b1100 = 0

/-- Every entry is linked, and no two entries share a handle. -/
def State.linksOk (s : State) : Prop :=
  (∀ t, ∀ e ∈ s.tlb t, entryLinked s.nextHandle t e) ∧ (s.entries.map fun e => e.lutEntry).Nodup

/-- An alias of `alias[mode]` refers to linked entries that are not artifact entries and record the mapping (10_state.md
R37). -/
def State.aliasLinked (s : State) (mode : Mode5) (a : Alias) : Prop :=
  ∃ e1 ∈ s.entries, e1.lutEntry = some a.from1 ∧ inMapped e1.mapped (baseOf mode) = true ∧ e1.artifact = false
    ∧ virtOf mode = decide (e1.tlb ≠ .hs)
    ∧ ∀ h, a.from2 = some h → e1.tlb = .vs1
        ∧ ∃ e2 ∈ s.tlb .vs2, e2.lutEntry = some h ∧ inMapped e2.mapped (baseOf mode) = true ∧ e2.artifact = false

/-- Every alias is linked, and `alias[M]` is empty (10_state.md R37). -/
def State.aliasesOk (s : State) : Prop :=
  s.aliasesOf .machine = [] ∧ ∀ mode, ∀ a ∈ s.aliasesOf mode, s.aliasLinked mode a

/-- The TLBs and the alias store hold together. -/
structure State.LinkInv (s : State) : Prop where
  links : s.linksOk
  aliases : s.aliasesOk

/-- The range of an entry: naturally aligned, one of the page sizes, and the physical base aligned to it (10_state.md
R31). -/
def entryAligned (e : Entry) : Prop :=
  ∃ k ∈ [12, 21, 22, 30, 39],
    e.lowVA &&& lowMask k = 0 ∧ e.pa &&& lowMask k = 0 ∧ e.highVA = e.lowVA + lowMask k

/-- An entry as a walk leaves it: aligned, accessed, global where stage 2 or the missing ASID forces it (10_state.md R31,
40_walker.md R146, 42_translate.md R223). -/
def entryWalked (p : Params) (t : TlbId) (e : Entry) : Prop :=
  entryAligned e ∧ e.a = true ∧ (t = .vs2 → e.g = true) ∧ (p.asidBits = 0 → e.g = true)

/-- Every entry is as a walk leaves it. `VM_RESTORE` may break this: its entries are not checked (44_host_ops.md R313). -/
def State.entriesOk (s : State) : Prop :=
  ∀ t, ∀ e ∈ s.tlb t, entryWalked s.params t e

/-! ### The permission cache -/

/-- "every grant present equals what refinement under the current bank would grant for that address and mode, or is a subset
of it" (10_state.md R28). -/
def State.cacheSound (s : State) : Prop :=
  ∀ (b : BaseMode) (k : AccessKind) (x : Nat), x ≤ maxU64 →
    PermMap.lookup x (s.pmpPerm.get b k) &&& ~~~(s.refineBounds (modeOf b false) x).priv = 0

/-- "For non-machine modes the cache never permits what `PmpRefine` would deny" (43_pmp.md R297). -/
def State.cacheConfined (s : State) : Prop :=
  ∀ (mode : Mode5) (req : Priv) (lo hi : Nat), baseOf mode ≠ .machine → req.isSingleton = true →
    lo ≤ hi → hi ≤ maxU64 → s.cacheGrants mode req lo hi = true → s.pmpGrants mode req lo hi = true

/-! ### The walk as a function of a snapshot (40_walker.md R141) -/

/-- A page-table access of a privilege to the bytes `lo` to `hi` is served: PMP as a supervisor access, the PMA hook, the
memory (20_memory.md R80). -/
def State.ptwServes (s : State) (req : Priv) (lo hi : Nat) : Bool :=
  s.pmpGrants .supervisor req lo hi && s.pmaAllows req lo hi && s.responds lo hi

/-- What `MemRead(addr, n)` returns in a state, without its effects. -/
def State.peekPte (s : State) (t : TlbId) (addr : U64) (n : Nat) : Option U64 :=
  if s.ptwServes Priv.R addr.toNat (addr.toNat + n - 1) then
    some (BitVec.ofNat 64 (s.mem.read (s.bigEndian t) addr.toNat n))
  else none

/-- Steps 2 to 4 of the walk over a snapshot of memory: `n` levels to go from the table at `a`. -/
def ruleLeaf (read : U64 → Option U64) (sh : WalkShape) (va : U64) : Nat → U64 → Except WalkErr FoundLeaf
  | 0, _ => .error .leaf
  | n + 1, a =>
    let addr := a + vpn sh.w n va * BitVec.ofNat 64 (pteBytes sh.fmt)
    match read addr with
    | none => .error .read
    | some pte =>
      if pteV pte = false then .error .v0
      else if pteR pte = false ∧ pteW pte = true then .error .r0w1
      else if pteR pte = true ∨ pteW pte = true ∨ pteX pte = true then
        .ok { level := n, pte := pte, addr := addr, pteAddr := addr }
      else ruleLeaf read sh va n (ptePpn sh.fmt pte <<< 12)

/-- What a walk gives: the entry, and the address and new value of the leaf entry when it is to be written back. -/
structure WalkResult where
  entry : Entry
  writeBack : Option (U64 × U64)
deriving DecidableEq, Repr

/-- Steps 1 to 8 of the walk over a snapshot of memory, without the artifact rule of step 9. -/
def State.ruleWalk (s : State) (sh : WalkShape) (t : TlbId) (root va : U64) (req : Priv) (mode : Mode5)
    (artifact : Bool) : Except WalkErr WalkResult :=
  if !extensionOk sh va then .error .vaextend
  else
    match ruleLeaf (fun a => s.peekPte t a (pteBytes sh.fmt)) sh va sh.levels root with
    | .error e => .error e
    | .ok leaf =>
      if ptePa sh.fmt leaf.pte &&& lowMask (leaf.level * sh.w + 12) ≠ 0 then .error .align
      else
        let e := s.leafEntry sh t va artifact leaf.level leaf.pte
        if s.permGrants mode e req = false then .error .priv
        else if e.a = false ∧ s.params.updatePteA = false then .error .a0
        else if needsWrite req = true ∧ e.d = false ∧ s.params.updatePteD = false then .error .d0
        else
          let e' : Entry := { e with a := true, d := e.d || needsWrite req }
          .ok { entry := e'
                writeBack := if e.a = false ∨ (needsWrite req = true ∧ e.d = false)
                  then some (leaf.addr, pteWithAD leaf.pte e'.a e'.d) else none }

/-- Step 9 over a snapshot: what the walk returns and the memory it leaves. The write-back is skipped for an artifact access
and must be served otherwise (40_walker.md R151). -/
def State.ruleOutcome (s : State) (sh : WalkShape) (artifact : Bool) (r : Except WalkErr WalkResult) :
    Except WalkErr Entry × Memory :=
  match r with
  | .error e => (.error e, s.mem)
  | .ok w =>
    match w.writeBack with
    | none => (.ok w.entry, s.mem)
    | some (addr, v) =>
      let n := pteBytes sh.fmt
      if artifact then (.ok w.entry, s.mem)
      else if s.ptwServes Priv.W addr.toNat (addr.toNat + n - 1) then
        (.ok w.entry, s.mem.write (s.bigEndian w.entry.tlb) addr.toNat n v.toNat)
      else (.error .write, s.mem)

/-- The walk of a stage-1 regime over a snapshot (40_walker.md R142 to R144). -/
def State.ruleStage1 (s : State) (sv : SvMode) (reg : Stage1Reg) (va : U64) (req : Priv) (mode : Mode5)
    (artifact : Bool) : Except WalkErr Entry × Memory :=
  s.ruleOutcome (shapeOf sv) artifact
    (s.ruleWalk (shapeOf sv) reg.tlb (s.rootBase reg) va req mode artifact)

/-- The wrapper of the stage-2 walkers over a snapshot (40_walker.md R145). -/
def State.ruleStage2 (s : State) (sv : SvMode) (gpa : U64) (req : Priv) (mode : Mode5) (artifact : Bool) :
    Except WalkErr Entry × Memory :=
  let extra := gpa >>> x4Bits sv
  if 3#64 < extra then (.error .vaextend, s.mem)
  else
    let sh : WalkShape := { shapeOf sv with ext := none }
    match s.ruleOutcome sh artifact
        (s.ruleWalk sh .vs2 ((s.hgatpPpn <<< 12) + extra * 4096) (gpa &&& lowMask (x4Bits sv)) req mode artifact) with
    | (.ok e, mem) => (.ok (reinstate extra (x4Bits sv) e), mem)
    | (.error e, mem) => (.error e, mem)

/-! ### What the statements speak of -/

/-- The reset values of 10_state.md R48. -/
structure State.AtReset (s : State) : Prop where
  cfg : ∀ i, s.cfg i = 0
  addr : ∀ i, s.addr i = 0
  regions : ∀ i, s.region i = .inactive ∧ s.locked i = false
  cache : ∀ b k x, PermMap.lookup x (s.pmpPerm.get b k) = Priv.NONE
  tlbs : ∀ t, s.tlb t = []
  aliases : ∀ mode, s.aliasesOf mode = []
  key : s.pubKey = 0
  flags : s.ptwActive = false ∧ s.s2Active = false
  afault : s.afault = .none
  dataMode : s.dataMode = s.env.curMode

/-- `t` is `s` after `TLB_DELETE` of exactly the entries of `TLB[i]` that have `p`, with the aliases built from them
(41_tlb.md R184, R185), and nothing to answer. -/
structure deletesExactly (s t : State) (i : TlbId) (p : Entry → Prop) : Prop where
  target : ∀ e, e ∈ t.tlb i ↔ e ∈ s.tlb i ∧ ¬p e
  others : ∀ u, u ≠ i → t.tlb u = s.tlb u
  aliases : ∀ mode a, a ∈ t.aliasesOf mode ↔
    a ∈ s.aliasesOf mode ∧ ¬∃ e, e ∈ s.tlb i ∧ p e ∧ mode ∈ mappedModes e ∧ builtFrom a e = true
  frame : t = { s with tlbs := t.tlbs, aliases := t.aliases, response := .noReply }

/-- The ASID predicate (41_tlb.md R187). -/
def State.asidScope (s : State) (asid : U64) (e : Entry) : Prop :=
  s.params.asidBits = 0
    ∨ (e.g = false ∧ (entryAsid e).toNat = asid.toNat % 2 ^ s.params.asidBits
        ∧ (e.tlb = .hs ∨ entryVmid e = s.hgatpVmid))

/-- In ascending order of `lowVA`. -/
def ascending (l : List Entry) : Prop :=
  l.Pairwise fun e f => e.lowVA ≤ f.lowVA

/-- An entry with its `mapped` set and back-reference cleared, as it is saved (44_host_ops.md R312). -/
def Entry.unlinked (e : Entry) : Entry :=
  { e with mapped := 0, lutEntry := none }

/-- A record that ends a restore: wrong tag, a size other than 44 or 0, truncated, a `tlb` code above 2 (44_host_ops.md
R313). -/
def malformed (bs : List Byte) : Prop :=
  bs.take 9 ≠ saveTag ∨ bs.length < 13
    ∨ (∃ (n : Nat) (rest : List Byte), n < 2 ^ 32 ∧ n ≠ 0 ∧ n ≠ 44 ∧ bs = saveTag ++ (leBytes 4 n ++ rest))
    ∨ (∃ rest : List Byte, bs = saveTag ++ (leBytes 4 44 ++ rest) ∧ (rest.length < 44 ∨ 2 < (rest.getD 32 0).toNat))

/-- A stage-1 walker as an instruction. -/
def stage1Instr (sv : SvMode) (reg : Stage1Reg) (va : U64) (req : Priv) (mode : Mode5) (artifact : Bool) : Instr :=
  match sv with
  | .sv32 => .walkSv32 reg va req mode artifact
  | .sv39 => .walkSv39 reg va req mode artifact
  | .sv48 => .walkSv48 reg va req mode artifact

/-- A stage-2 walker as an instruction. -/
def stage2Instr (sv : SvMode) (gpa : U64) (req : Priv) (mode : Mode5) (artifact : Bool) : Instr :=
  match sv with
  | .sv32 => .walkSv32x4 gpa req mode artifact
  | .sv39 => .walkSv39x4 gpa req mode artifact
  | .sv48 => .walkSv48x4 gpa req mode artifact

/-- The instruction is one of the six walkers. -/
def isWalker (i : Instr) : Prop :=
  (∃ sv reg va req mode artifact, i = stage1Instr sv reg va req mode artifact)
    ∨ ∃ sv gpa req mode artifact, i = stage2Instr sv gpa req mode artifact

/-- The instruction is a `MISS`. -/
def isMiss (i : Instr) : Prop :=
  ∃ cls mode req va bytes artifact, i = .miss cls mode req va bytes artifact

/-- The instruction is one of the four invalidations. -/
def isInval (i : Instr) : Prop :=
  i = .invalAll ∨ (∃ asid, i = .invalAllAsid asid) ∨ (∃ va, i = .invalVa va) ∨ ∃ va asid, i = .invalVaAsid va asid

/-- The instruction empties the bank: `PMP_RESET`, `PMP_NEW`, `PMP_FREE`. -/
def clearsBank (i : Instr) : Prop :=
  i = .pmpReset ∨ i = .pmpNew ∨ i = .pmpFree

/-- A walk's page tables are reached without stage 2 (20_memory.md R81, R95). -/
def State.directTables (s : State) (reg : Stage1Reg) : Prop :=
  reg = .satp ∨ s.params.vs1PtwViaS2 = false ∨ s.hgatpMode = 0

/-- `WalkFor(t, x, …)` over a snapshot (40_walker.md R156), none where the `MODE` has no walker. -/
def State.ruleWalkFor (s : State) (t : TlbId) (x : U64) (req : Priv) (mode : Mode5) (artifact : Bool) :
    Option (Except WalkErr Entry × Memory) :=
  match t with
  | .hs => (walkerOf s.params s.satpMode).map fun sv => s.ruleStage1 sv .satp x req mode artifact
  | .vs1 => (walkerOf s.params s.vsatpMode).map fun sv => s.ruleStage1 sv .vsatp x req mode artifact
  | .vs2 => (walkerOf s.params s.hgatpMode).map fun sv => s.ruleStage2 sv x req mode artifact

/-- The entry as it is linked and, unless an artifact, mapped in the caller's base mode. -/
def Entry.linkedFor (e : Entry) (handle : Nat) (mode : Mode5) (artifact : Bool) : Entry :=
  { e with lutEntry := some handle, mapped := if artifact then 0 else addMapped 0 (baseOf mode) }

/-- `t`'s aliases are `s`'s after the install of a mapping for `mode` (41_tlb.md R200): what overlaps it is gone, the new
alias is under the live key, no other mode's set changes. -/
def State.aliasInstalled (s t : State) (mode : Mode5) (m : Mapping) (h1 : Nat) (h2 : Option Nat) : Prop :=
  (∀ a, a ∈ t.aliasesOf mode ↔
      a = { lowVA := m.lowVA, highVA := m.highVA, lowPA := m.lowPA, priv := m.priv, mask := m.mask
            key := s.liveKey, from1 := h1, from2 := h2 }
        ∨ (a ∈ s.aliasesOf mode ∧ (a.highVA < m.lowVA ∨ m.highVA < a.lowVA)))
    ∧ ∀ other, other ≠ mode → t.aliasesOf other = s.aliasesOf other

/-- The physical address a mapping gives a virtual one. -/
def Mapping.image (m : Mapping) (x : U64) : Nat :=
  (m.lowPA + (x - m.lowVA)).toNat

/-- The answer when one chunk serves the access `[va, last]` through a mapping: PMP, then the PMA hook decide the physical
access; a PMP denial sets `AFault`, a PMA denial has the same outcome shape (42_translate.md R232, R238, 10_state.md R45). -/
def State.servedAnswer (s : State) (mode : Mode5) (req : Priv) (m : Mapping) (va last : U64) : MissResponse :=
  if s.pmpGrants mode req (m.image va) (m.image last) = false then
    { status := .afault, err := none, exc := none, mappings := [], afault := .pmp }
  else if s.pmaAllows req (m.image va) (m.image last) = false then
    { status := .afault, err := none, exc := none, mappings := [], afault := .none }
  else { status := .ok, err := none, exc := none, mappings := [m], afault := .none }

/-- One of the page-table accesses was denied by the PMP bank, as a supervisor access (20_memory.md R80). -/
def State.pmpDenied (s : State) (l : List PteAccess) : Prop :=
  ∃ w ∈ l, s.pmpGrants .supervisor (if w.write then Priv.W else Priv.R) w.addr.toNat (w.addr.toNat + w.size - 1) = false

/-- The live key has moved away from the key of an entry that is mapped for the caller (41_tlb.md R203). -/
abbrev State.keyMoved (s : State) (mode : Mode5) (e : Entry) : Prop :=
  inMapped e.mapped (baseOf mode) = true ∧ s.liveKey &&& asidMask e mode ≠ e.simASID &&& asidMask e mode

/-- The operands of a virtual `MISS` are in their domain and its regime is `t1` (42_translate.md R220 to R222). -/
def State.missesIn (s : State) (t1 : TlbId) (mode : Mode5) (req : Priv) (va : U64) (bytes : Nat) : Prop :=
  missOperandsOk s.params mode req = true ∧ validSpan va bytes = true ∧ s.activeTlb mode = some t1

/-- The regime `t1` is the only stage (42_translate.md R226). -/
def State.oneStage (s : State) (t1 : TlbId) : Prop :=
  t1 = .vs1 → s.hgatpMode = 0

/-- No entry of `TLB[t]` contains `x`. -/
def State.uncovered (s : State) (t : TlbId) (x : U64) : Prop :=
  ∀ e ∈ s.tlb t, covers e x = false

/-- The entry is the only one of `TLB[t]` that contains `x`. -/
def State.soleCover (s : State) (t : TlbId) (x : U64) (e : Entry) : Prop :=
  e ∈ s.tlb t ∧ covers e x = true ∧ ∀ f ∈ s.tlb t, covers f x = true → f = e

/-- The region that decides a byte: the lowest-numbered active region that contains it, if any (43_pmp.md R285). -/
def State.decides (s : State) (pa : Nat) (hit : Option Nat) : Prop :=
  match hit with
  | some i => i < s.params.pmpN ∧ (∃ lo hi, s.region i = .active lo hi ∧ lo ≤ pa ∧ pa ≤ hi)
      ∧ ∀ j, j < i → ∀ lo hi, s.region j = .active lo hi → ¬(lo ≤ pa ∧ pa ≤ hi)
  | none => ∀ j, j < s.params.pmpN → ∀ lo hi, s.region j = .active lo hi → ¬(lo ≤ pa ∧ pa ≤ hi)

/-- The privilege the deciding region gives a mode (43_pmp.md R286, R288, R289). -/
def State.decidedPriv (s : State) (mode : Mode5) (hit : Option Nat) : Priv :=
  match hit with
  | none => if baseOf mode = .machine then Priv.RWX else Priv.NONE
  | some i => if baseOf mode = .machine ∧ s.locked i = false then Priv.RWX else cfgPriv (s.cfg i)

/-! ### Safe steps -/

/-- A regime that is active has a walker: the precondition of `MISS` in 93_implementation_defined.md U3. -/
def State.modesOk (s : State) : Prop :=
  (s.satpMode ≠ 0 → (walkerOf s.params s.satpMode).isSome = true)
    ∧ (s.vsatpMode ≠ 0 → (walkerOf s.params s.vsatpMode).isSome = true)
    ∧ (s.hgatpMode ≠ 0 → (walkerOf s.params s.hgatpMode).isSome = true)

/-- The precondition of `REFRESH_MPRV` in 93_implementation_defined.md U7. -/
def State.mppOk (s : State) : Prop :=
  s.mpp ≠ 2

/-- The step answers a next state: neither a fault nor a refusal. -/
def State.stepsSafely (s : State) : Prop :=
  ∃ t, step s = .next t

end Sys2Proof.Machine
end

