-- ==== Sys2Proof/Certificates/Slice0/Obligations.lean ====
section
/-! DEFINITION. The statements for the provers, one `def Obligations.<Name> : Prop` each; OBLIGATIONS.json lists them. -/

section

open Sys2Proof Sys2Proof.Machine

/-! ### Encoding and the step -/

/-- Decoding the packet of any well-formed instruction gives the instruction back (30_encoding.md R130, R131, R109, R113,
R115). The packing of operands into bytes is the model's (log 1). -/
def Obligations.DecodeEncodeAgree : Prop :=
  ∀ i : Instr, i.wf = true → decode (encode i) = .ok i

/-- Words written out from the encodings of 30_encoding.md R109, R113, R115, R130 decode to the instructions they stand
for. The operand bytes are packed as log 1 says. -/
def Obligations.WordsDecode : Prop :=
  decode { format := .cmd8, bytes := [0x01] } = .ok .vmInit
    ∧ decode { format := .cmd8, bytes := [0x05, 0x34, 0x12, 0, 0, 0, 0, 0, 0] } = .ok (.invalAllAsid 0x1234)
    ∧ decode { format := .cmd8, bytes := [0x0B, 2, 0x1B, 0x19, 0, 0, 0, 0, 0, 0] } = .ok (.pmpcfgWrite 2 0x191B)
    ∧ decode { format := .cmd8
               bytes := [0x03, 3, 5, 4, 1, 0x34, 0x12, 0x20, 0, 0, 0, 0, 0, 4, 0, 0, 0, 0, 0, 0, 0, 0] }
        = .ok (.miss .virt .vs Priv.X 0x201234 4 true)
    ∧ decode { format := .mode4, bytes := [0x08, 1, 0, 0x10, 0, 0, 0, 0, 0, 0, 2, 0, 1] }
        = .ok (.walkSv39 .vsatp 0x1000 Priv.W .user true)
    ∧ decode { format := .mode1, bytes := [0x01, 2, 0xBC, 0x3A, 0xC0, 0, 2, 0, 0, 0, 1, 1, 0] }
        = .ok (.walkSv32x4 0x200C03ABC Priv.R .supervisor false)
    ∧ decode { format := .pmpcfg8, bytes := [0x8D, 1] } = .ok (.pmpTor true true false true 1)
    ∧ decode { format := .pte4, bytes := [0x01, 0x04, 0x00, 0x20, 0, 0, 0, 0, 0] }
        = .ok (.ptePointer (0x20000401#64 >>> 4 |>.setWidth 60) .pte64)
    ∧ decode { format := .pte4, bytes := [0xDF, 0x14, 0x8D, 0x04, 0, 0, 0, 0, 1] }
        = .ok (.pteLeaf true true true (0x048D14DF#64 >>> 4 |>.setWidth 60) .pte32)

/-- A step runs the next line of the script: a packet that decodes runs its instruction, one that does not is refused, a
directive is applied, and with no line left nothing happens. What the step adds is that the line is taken off the script
and the answer of the last command is cleared. `withFetchWord` makes the next step run the table word's instruction. The
script is the model's input queue (log 3, log 25). -/
def Obligations.StepRunsTheDecodedInstruction : Prop :=
  (∀ (s : State) (p : Packet) (rest : List Input) (i : Instr), s.input = .command p :: rest → decode p = .ok i →
      step s = exec i { s with input := rest, response := .noReply, traffic := [] })
    ∧ (∀ (s : State) (p : Packet) (rest : List Input) (e : DecodeError), s.input = .command p :: rest →
        decode p = .error e → step s = .next { s with input := rest, response := .refused, traffic := [] })
    ∧ (∀ (s : State) (d : Directive) (rest : List Input), s.input = .directive d :: rest →
        step s = applyDirective d { s with input := rest, response := .noReply, traffic := [] })
    ∧ (∀ s : State, s.input = [] → step s = .next s)
    ∧ ∀ (s : State) (nbits w : Nat) (i : Instr), decodeTableWord nbits w = some i →
        step (s.withFetchWord nbits w) = exec i { s with response := .noReply, traffic := [] }

/-! ### Reset -/

/-- At power-on every element of the block's state has its reset value, whatever the parameters, the inputs and memory
(10_state.md R48). `s1VA` is unspecified there and no clause speaks of it. That `State.reset` is the power-on state of
`Params.default`, `Env.launch` and a memory with nothing listed is the model's choice: log 4 (parameters), log 5 (inputs),
log 7 (memory). -/
def Obligations.PowerOnGivesResetValues : Prop :=
  (∀ (p : Params) (env : Env) (mem : Memory), (State.powerOn p env mem).AtReset)
    ∧ State.reset = State.powerOn Params.default Env.launch []

/-- `PMP_NEW` or `PMP_RESET`, then `VM_INIT`, is the reset event, from any state (70_reset_and_hazards.md R370). -/
def Obligations.ResetSequenceGivesResetValues : Prop :=
  ∀ s : State, ∀ first, first = Instr.pmpNew ∨ first = Instr.pmpReset →
    ∃ s1 t, exec first s = .next s1 ∧ exec .vmInit s1 = .next t ∧ t.AtReset ∧ t.env = s.env ∧ t.mem = s.mem
      ∧ t.params = s.params

/-- The invariants hold at power-on with parameters in their ranges and well-formed memory, and at `State.reset`. -/
def Obligations.InvariantsHoldAtPowerOn : Prop :=
  (∀ (p : Params) (env : Env) (mem : Memory), mem.wf = true → (∀ c ∈ mem, c.1 < 2 ^ 64) →
      (State.powerOn p env mem).BlockInv ∧ (State.powerOn p env mem).LinkInv ∧ (State.powerOn p env mem).entriesOk
        ∧ (State.powerOn p env mem).cacheSound ∧ (State.powerOn p env mem).cacheConfined)
    ∧ State.reset.BlockInv ∧ State.reset.LinkInv ∧ State.reset.entriesOk ∧ State.reset.cacheSound
    ∧ State.reset.cacheConfined

/-! ### Invariants every step keeps -/

/-- Every step keeps: memory in canonical form and inside the address space (log 7), the bank's registers in their stored
form (10_state.md R25, R26, 43_pmp.md R270; log 31 for an address word), the permission maps in canonical form, the transient
flags false between commands (10_state.md R42, R43). -/
def Obligations.BlockInvKept : Prop :=
  ∀ s t : State, s.BlockInv → step s = .next t → t.BlockInv

/-- Every step keeps the TLBs and the alias store linked: an entry is in the TLB its field names, has a handle of its own,
an artifact entry is not mapped, and an alias refers to linked entries that record it (10_state.md R31, R32, R37). -/
def Obligations.LinkInvKept : Prop :=
  ∀ s t : State, s.LinkInv → step s = .next t → t.LinkInv

/-- Every step but a `VM_RESTORE` keeps every entry aligned, of a page size, accessed, and global where it must be
(10_state.md R31, 40_walker.md R146, 42_translate.md R223). A restore inserts entries unchecked (44_host_ops.md R313). -/
def Obligations.EntriesOkKept : Prop :=
  ∀ s t : State, s.LinkInv → s.entriesOk →
    (∀ p rest stream, s.input = .command p :: rest → decode p ≠ .ok (.vmRestore stream)) →
    step s = .next t → t.entriesOk

/-- Every step keeps the permission cache sound: a grant is a subset of what refinement under the current bank gives the
byte (10_state.md R28). -/
def Obligations.CacheSoundKept : Prop :=
  ∀ s t : State, s.BlockInv → s.cacheSound → step s = .next t → t.cacheSound

/-- Every step keeps this: for non-machine modes an access the permission cache lets through is one that refinement would
grant (43_pmp.md R297). -/
def Obligations.CacheConfinedKept : Prop :=
  ∀ s t : State, s.BlockInv → s.cacheConfined → step s = .next t → t.cacheConfined

/-! ### Rules over all commands -/

/-- No command writes a parameter, a CSR or another input, or the script; and which commands can write which state: the config
bytes, the address words, the published key, the data mode, the TLBs,
the alias store, memory, `AFault`, the permission cache (10_state.md R25, R26, R38, R40, R41, R45, R46, 42_translate.md R244, 40_walker.md R140). -/
def Obligations.OnlyNamedCommandsWrite : Prop :=
  ∀ (i : Instr) (s t : State), exec i s = .next t →
    t.params = s.params ∧ t.env = s.env ∧ t.input = s.input
    ∧ (t.pmpcfg ≠ s.pmpcfg → clearsBank i ∨ ∃ w v, i = .pmpcfgWrite w v)
    ∧ (t.pmpaddr ≠ s.pmpaddr → clearsBank i ∨ ∃ j v, i = .pmpaddrWrite j v)
    ∧ (t.pubKey ≠ s.pubKey → i = .vmInit ∨ i = .setAsid)
    ∧ (t.dataMode ≠ s.dataMode → i = .vmInit ∨ i = .refreshMprv)
    ∧ (t.tlbs ≠ s.tlbs ∨ t.aliases ≠ s.aliases →
        i = .vmInit ∨ i = .vmFree ∨ isMiss i ∨ isInval i ∨ (∃ stream, i = .vmRestore stream)
          ∨ (isWalker i ∧ s.params.vs1PtwViaS2 = true))
    ∧ (t.mem ≠ s.mem → isMiss i ∨ isWalker i)
    ∧ (t.afault ≠ s.afault → i = .vmInit ∨ isMiss i ∨ isWalker i)
    ∧ (t.pmpPerm ≠ s.pmpPerm →
        clearsBank i ∨ (∃ w v, i = .pmpcfgWrite w v) ∨ (∃ j v, i = .pmpaddrWrite j v) ∨ isMiss i ∨ isWalker i)

/-- The only write to memory a command makes sets accessed and dirty bits: every byte keeps its bits 5:0 and loses no set
bit (20_memory.md R87, 44_host_ops.md R323). With the variant `VS1_PTW_VIA_S2` off: 20_memory.md R95 does not say what a
write-back stores when the stage-2 walk before it updated the same entry. -/
def Obligations.CommandsOnlySetAccessedAndDirty : Prop :=
  ∀ (i : Instr) (s t : State), s.memoryOk → s.params.vs1PtwViaS2 = false → exec i s = .next t →
    ∀ a, Memory.readByte a t.mem &&& 0x3F = Memory.readByte a s.mem &&& 0x3F
      ∧ Memory.readByte a t.mem &&& Memory.readByte a s.mem = Memory.readByte a s.mem

/-- Every byte outside the page-table writes a command made (recorded with their addresses) reads as before. -/
def Obligations.MemoryChangesOnlyWhereWritten : Prop :=
  ∀ (i : Instr) (s t : State), s.traffic = [] → exec i s = .next t →
    ∀ a, (∀ w ∈ t.traffic, w.write = true → w.ok = true → a < w.addr.toNat ∨ w.addr.toNat + w.size ≤ a) →
      Memory.readByte a t.mem = Memory.readByte a s.mem

/-- Page-table traffic is labelled: every access a command makes is made while `PTWActive` is true (10_state.md R42,
20_memory.md R94), and `s2Active` is true in it only in the nested lookup of a guest access (10_state.md R43). -/
def Obligations.PageTableTrafficIsLabelled : Prop :=
  ∀ (i : Instr) (s t : State), s.quiet → s.traffic = [] → exec i s = .next t →
    ∀ a ∈ t.traffic, a.ptwActive = true ∧ (a.size = 4 ∨ a.size = 8)
      ∧ (a.s2Active = true → s.hgatpMode ≠ 0)

/-- A locked region's config byte and address word, and the address word below a locked TOR region, are changed by no
command but those that empty the bank, and the region's own bits bind machine mode (43_pmp.md R267). -/
def Obligations.LocksHold : Prop :=
  (∀ (i : Instr) (s t : State) (j : Nat), s.bankOk → exec i s = .next t → ¬clearsBank i → s.locked j = true →
      t.cfg j = s.cfg j ∧ t.addr j = s.addr j ∧ (cfgA (s.cfg j) = aTor → 0 < j → t.addr (j - 1) = s.addr (j - 1)))
    ∧ ∀ (s : State) (pa j : Nat), pa ≤ maxU64 → s.decides pa (some j) → s.locked j = true →
        (s.refineBounds .machine pa).priv = cfgPriv (s.cfg j)

/-! ### Lifecycle -/

/-- `VM_INIT` (44_host_ops.md R310): the TLBs, the aliases, the key, the flags, `AFault` and the data mode are reset; the
PMP bank, the permission cache, memory and the inputs are as before. -/
def Obligations.VmInitResetsTranslation : Prop :=
  ∀ s : State, ∃ t, exec .vmInit s = .next t
    ∧ (∀ i, t.tlb i = []) ∧ (∀ mode, t.aliasesOf mode = []) ∧ t.pubKey = 0 ∧ t.ptwActive = false ∧ t.s2Active = false
    ∧ t.afault = .none ∧ t.dataMode = s.env.curMode
    ∧ t = { s with tlbs := t.tlbs, aliases := t.aliases, pubKey := t.pubKey, ptwActive := t.ptwActive
                   s2Active := t.s2Active, afault := t.afault, dataMode := t.dataMode, response := .noReply }

/-- `VM_FREE` deletes every entry and with them every alias; the state is that after `VM_INIT` except that `pubKey`,
`dataMode` and `AFault` keep their values (44_host_ops.md R311). -/
def Obligations.VmFreeEmptiesEverything : Prop :=
  ∀ s : State, s.LinkInv → s.quiet → ∃ t u, exec .vmFree s = .next t ∧ exec .vmInit s = .next u
    ∧ t = { u with pubKey := s.pubKey, dataMode := s.dataMode, afault := s.afault }

/-! ### Invalidation and the key -/

/-- `INVAL_ALL` empties the TLB of the active stage-1 regime, with the aliases of its entries, and `INVAL_VA` deletes
exactly the entries of that TLB whose range contains the address, whatever their keys (41_tlb.md R186, R188, R190, R192). -/
def Obligations.InvalidationByAddress : Prop :=
  ∀ s : State, s.linksOk →
    (∃ t, exec .invalAll s = .next t
      ∧ deletesExactly s t (if virtOf s.env.curMode then .vs1 else .hs) (fun _ => True))
    ∧ ∀ va : U64, ∃ t, exec (.invalVa va) s = .next t
      ∧ deletesExactly s t (if virtOf s.env.curMode then .vs1 else .hs) (fun e => e.lowVA ≤ va ∧ va ≤ e.highVA)

/-- `INVAL_ALL_ASID` and `INVAL_VA_ASID` delete exactly the entries in range that satisfy the ASID predicate (41_tlb.md
R187, R189, R191, R192). -/
def Obligations.InvalidationByAsid : Prop :=
  ∀ (s : State) (asid : U64), s.linksOk →
    (∃ t, exec (.invalAllAsid asid) s = .next t
      ∧ deletesExactly s t (if virtOf s.env.curMode then .vs1 else .hs) (s.asidScope asid))
    ∧ ∀ va : U64, ∃ t, exec (.invalVaAsid va asid) s = .next t
      ∧ deletesExactly s t (if virtOf s.env.curMode then .vs1 else .hs)
          (fun e => (e.lowVA ≤ va ∧ va ≤ e.highVA) ∧ s.asidScope asid e)

/-- `SET_ASID` publishes the live key, packed from the CSR inputs field by field, and changes nothing else (41_tlb.md R193,
R194). -/
def Obligations.SetAsidPublishesTheLiveKey : Prop :=
  ∀ s : State, ∃ t, exec .setAsid s = .next t ∧ t = { s with pubKey := t.pubKey, response := .noReply }
    ∧ t.pubKey.extractLsb' 0 16 = s.satpAsid
    ∧ t.pubKey.getLsbD 48 = s.mxrHs ∧ t.pubKey.getLsbD 49 = s.sumHs ∧ t.pubKey.extractLsb' 54 10 = 0#10
    ∧ (s.params.hasH = true →
        t.pubKey.extractLsb' 16 16 = s.vsatpAsid ∧ t.pubKey.extractLsb' 32 16 = s.hgatpVmid
        ∧ t.pubKey.getLsbD 50 = s.mxrVs ∧ t.pubKey.getLsbD 51 = s.sumVs
        ∧ t.pubKey.getLsbD 52 = decide (s.vsatpMode ≠ 0) ∧ t.pubKey.getLsbD 53 = decide (s.hgatpMode ≠ 0))
    ∧ (s.params.hasH = false →
        t.pubKey.extractLsb' 16 16 = 0#16 ∧ t.pubKey.extractLsb' 32 16 = 0#16 ∧ t.pubKey.extractLsb' 50 4 = 0#4)

/-- The ASID mask of an entry covers what the permission check reads: two settings of the inputs whose live keys agree under
the mask give the entry the same privilege for the caller (41_tlb.md R195, 40_walker.md R152, R153). Machine mode has no
regime (R154). -/
def Obligations.KeyMaskCoversThePermission : Prop :=
  ∀ (s t : State) (mode : Mode5) (e : Entry), t.params = s.params → baseOf mode ≠ .machine →
    virtOf mode = decide (e.tlb ≠ .hs) → (s.params.hasH = true ∨ e.tlb = .hs) →
    s.liveKey &&& asidMask e mode = t.liveKey &&& asidMask e mode → s.permEff mode e = t.permEff mode e

/-! ### Walkers -/

/-- A stage-1 walker answers what the rule gives over the memory at its start, leaves the memory the rule gives, and changes
nothing else but what its page-table accesses record: the permission cache, `AFault`, the traffic (40_walker.md R140 to
R144). `AFault` is set, and returned in the answer, iff the PMP bank denied one of those accesses (10_state.md R45); that a
walk which sets none leaves the old value is log 30. -/
def Obligations.Stage1WalkersFollowTheRules : Prop :=
  ∀ (sv : SvMode) (reg : Stage1Reg) (va : U64) (req : Priv) (mode : Mode5) (artifact : Bool) (s : State),
    walkOperandsOk s.params reg.tlb mode req = true → s.directTables reg → s.quiet →
    ∃ t l a, exec (stage1Instr sv reg va req mode artifact) s = .next t
      ∧ t.traffic = s.traffic ++ l ∧ (a = .pmp ↔ s.pmpDenied l) ∧ t.afault = (if a = .pmp then .pmp else s.afault)
      ∧ t.response = (match (s.ruleStage1 sv reg va req mode artifact).1 with
          | .ok e => .walked e
          | .error e => .walkFailed e a)
      ∧ t.mem = (s.ruleStage1 sv reg va req mode artifact).2
      ∧ t = { s with mem := t.mem, response := t.response, pmpPerm := t.pmpPerm, afault := t.afault, traffic := t.traffic }

/-- A stage-2 walker answers what the wrapper rule gives over the memory at its start (40_walker.md R145, R147 to R149), with
`AFault` as in the stage-1 walkers (10_state.md R45; log 30). -/
def Obligations.Stage2WalkersFollowTheRules : Prop :=
  ∀ (sv : SvMode) (gpa : U64) (req : Priv) (mode : Mode5) (artifact : Bool) (s : State),
    walkOperandsOk s.params .vs2 mode req = true → s.quiet →
    ∃ t l a, exec (stage2Instr sv gpa req mode artifact) s = .next t
      ∧ t.traffic = s.traffic ++ l ∧ (a = .pmp ↔ s.pmpDenied l) ∧ t.afault = (if a = .pmp then .pmp else s.afault)
      ∧ t.response = (match (s.ruleStage2 sv gpa req mode artifact).1 with
          | .ok e => .walked e
          | .error e => .walkFailed e a)
      ∧ t.mem = (s.ruleStage2 sv gpa req mode artifact).2
      ∧ t = { s with mem := t.mem, response := t.response, pmpPerm := t.pmpPerm, afault := t.afault, traffic := t.traffic }

/-- A walk makes at most `L` page-table reads and at most one write, all of the entry width, and always ends (40_walker.md
R159). -/
def Obligations.WalksAreBounded : Prop :=
  (∀ (sv : SvMode) (reg : Stage1Reg) (va : U64) (req : Priv) (mode : Mode5) (artifact : Bool) (s : State),
      s.directTables reg → ∃ t l, exec (stage1Instr sv reg va req mode artifact) s = .next t
        ∧ t.traffic = s.traffic ++ l ∧ (l.filter fun a => !a.write).length ≤ (shapeOf sv).levels
        ∧ (l.filter fun a => a.write).length ≤ 1 ∧ ∀ a ∈ l, a.size = pteBytes (shapeOf sv).fmt)
    ∧ ∀ (sv : SvMode) (gpa : U64) (req : Priv) (mode : Mode5) (artifact : Bool) (s : State),
        ∃ t l, exec (stage2Instr sv gpa req mode artifact) s = .next t
          ∧ t.traffic = s.traffic ++ l ∧ (l.filter fun a => !a.write).length ≤ (shapeOf sv).levels
          ∧ (l.filter fun a => a.write).length ≤ 1 ∧ ∀ a ∈ l, a.size = pteBytes (shapeOf sv).fmt

/-- An address whose upper bits are no sign extension fails `VAEXTEND` before any memory access, and so does a
guest-physical address wider than the mode's (30_encoding.md R102 to R106, 60_exceptions.md R336). Sv32 has no such check. -/
def Obligations.BadExtensionFailsBeforeAnyAccess : Prop :=
  (∀ (reg : Stage1Reg) (va : U64) (req : Priv) (mode : Mode5) (artifact : Bool) (s : State),
      walkOperandsOk s.params reg.tlb mode req = true →
      (2 ^ 38 ≤ va.toNat → va.toNat < 2 ^ 64 - 2 ^ 38 →
        exec (.walkSv39 reg va req mode artifact) s = .next { s with response := .walkFailed .vaextend .none })
      ∧ (2 ^ 47 ≤ va.toNat → va.toNat < 2 ^ 64 - 2 ^ 47 →
        exec (.walkSv48 reg va req mode artifact) s = .next { s with response := .walkFailed .vaextend .none }))
    ∧ ∀ (gpa : U64) (req : Priv) (mode : Mode5) (artifact : Bool) (s : State),
        walkOperandsOk s.params .vs2 mode req = true →
        (2 ^ 34 ≤ gpa.toNat →
          exec (.walkSv32x4 gpa req mode artifact) s = .next { s with response := .walkFailed .vaextend .none })
        ∧ (2 ^ 41 ≤ gpa.toNat →
          exec (.walkSv39x4 gpa req mode artifact) s = .next { s with response := .walkFailed .vaextend .none })
        ∧ (2 ^ 50 ≤ gpa.toNat →
          exec (.walkSv48x4 gpa req mode artifact) s = .next { s with response := .walkFailed .vaextend .none })

/-- The corner cases of the permission check (40_walker.md R152): an execute-only page is readable with `MXR`; a supervisor
never executes a user page from version 1.11 on and may before with `SUM`; without `SUM` a supervisor has nothing on a
user page; a stage-2 leaf that is not a user page grants nothing. -/
def Obligations.PermissionCorners : Prop :=
  ∀ (s : State) (mode : Mode5) (e : Entry) (req : Priv), req.isSingleton = true →
    (e.tlb = .hs → baseOf mode = .user → e.u = true → e.priv = Priv.X → s.mxrHs = true →
      s.permGrants mode e Priv.R = true)
    ∧ (e.tlb ≠ .vs2 → baseOf mode = .supervisor → e.u = true → fromVersion1_11 s.params = true →
      s.permGrants mode e Priv.X = false)
    ∧ (e.tlb ≠ .vs2 → baseOf mode = .supervisor → e.u = true → fromVersion1_11 s.params = false →
      s.effSum e.tlb = true → (s.permGrants mode e Priv.X = true ↔ e.priv &&& Priv.X = Priv.X))
    ∧ (e.tlb ≠ .vs2 → baseOf mode = .supervisor → e.u = true → s.effSum e.tlb = false →
      s.permGrants mode e req = false)
    ∧ (e.tlb = .vs2 → e.u = false → s.permGrants mode e req = false)

/-! ### MISS -/

/-- The kinds of `MISS` that consult no TLB: a span that wraps, `OTHER`, a physical access, and a virtual one in a mode with
no regime (42_translate.md R221, R236, R239, R240). A PMA denial has the outcome shape of a PMP denial (44_host_ops.md
R322; log 14). The privilege and mask of the identity mapping are not stated and stay free (log 15). That a refused span
leaves `AFault` as it was is log 9. -/
def Obligations.MissWithoutTranslation : Prop :=
  ∀ (cls : DomainClass) (mode : Mode5) (req : Priv) (va : U64) (bytes : Nat) (artifact : Bool) (s : State),
    missOperandsOk s.params mode req = true →
    (validSpan va bytes = false → exec (.miss cls mode req va bytes artifact) s
        = .next { s with
            response := .miss { status := .refused, err := none, exc := none, mappings := [], afault := .none } })
    ∧ (validSpan va bytes = true → cls = .other → exec (.miss cls mode req va bytes artifact) s
        = .next { s with
            afault := .none
            response := .miss { status := .notMapped, err := none, exc := none, mappings := [], afault := .none } })
    ∧ (validSpan va bytes = true → cls = .phys ∨ cls = .pmp →
        s.pmpGrants mode req va.toNat (va.toNat + bytes - 1) = true →
        s.pmaAllows req va.toNat (va.toNat + bytes - 1) = true →
        ∃ t, exec (.miss cls mode req va bytes artifact) s = .next t
          ∧ t = { s with
              pmpPerm := t.pmpPerm, afault := .none
              response := .miss { status := .ok, err := none, exc := none, mappings := [], afault := .none } })
    ∧ (validSpan va bytes = true → cls = .phys ∨ cls = .pmp ∨ (cls = .virt ∧ s.activeTlb mode = none) →
        s.pmpGrants mode req va.toNat (va.toNat + bytes - 1) = false →
        exec (.miss cls mode req va bytes artifact) s
          = .next { s with
              afault := .pmp
              response := .miss { status := .afault, err := none, exc := none, mappings := [], afault := .pmp } })
    ∧ (validSpan va bytes = true → cls = .phys ∨ cls = .pmp ∨ (cls = .virt ∧ s.activeTlb mode = none) →
        s.pmpGrants mode req va.toNat (va.toNat + bytes - 1) = true →
        s.pmaAllows req va.toNat (va.toNat + bytes - 1) = false →
        ∃ t, exec (.miss cls mode req va bytes artifact) s = .next t
          ∧ t = { s with
              pmpPerm := t.pmpPerm, afault := .none
              response := .miss { status := .afault, err := none, exc := none, mappings := [], afault := .none } })
    ∧ (validSpan va bytes = true → cls = .virt → s.activeTlb mode = none →
        s.pmpGrants mode req va.toNat (va.toNat + bytes - 1) = true →
        s.pmaAllows req va.toNat (va.toNat + bytes - 1) = true →
        ∃ t m, exec (.miss cls mode req va bytes artifact) s = .next t
          ∧ m.lowVA = va ∧ m.highVA.toNat = va.toNat + bytes - 1 ∧ m.lowPA = va
          ∧ t = { s with
              pmpPerm := t.pmpPerm, afault := .none, choice := t.choice
              response := .miss { status := .ok, err := none, exc := none, mappings := [m], afault := .none } })

/-- A virtual `MISS` in a one-stage regime that finds no entry walks, links the entry, installs the alias and answers the
mapping, when the walk succeeds and the access lies in the mapping (42_translate.md R222, R223, R229 to R232, 41_tlb.md R183,
R200). Where PMP, or the PMA hook, denies the physical access, the answer is AFAULT without the mapping, and the entry and the
alias stay as when it is allowed (R232; that a PMA denial leaves `AFault` alone is log 14). An artifact access installs no
alias and maps nothing (R235). -/
def Obligations.MissServedByAWalk : Prop :=
  ∀ (t1 : TlbId) (mode : Mode5) (req : Priv) (va : U64) (bytes : Nat) (artifact : Bool) (s : State) (e : Entry)
    (mem : Memory) (m : Mapping),
    s.missesIn t1 mode req va bytes → s.oneStage t1 → s.linksOk → s.uncovered t1 va →
    s.ruleWalkFor t1 va req mode artifact = some (.ok e, mem) → m = cap (s.single mode e) va →
    lastByte va bytes ≤ m.highVA →
    ∃ t, exec (.miss .virt mode req va bytes artifact) s = .next t
      ∧ t.response = .miss (s.servedAnswer mode req m va (lastByte va bytes))
      ∧ t.afault = (s.servedAnswer mode req m va (lastByte va bytes)).afault
      ∧ t.tlb t1 = s.tlb t1 ++ [e.linkedFor s.nextHandle mode artifact]
      ∧ (∀ u, u ≠ t1 → t.tlb u = s.tlb u)
      ∧ (artifact = false → s.aliasInstalled t mode m s.nextHandle none)
      ∧ (artifact = true → t.aliases = s.aliases)
      ∧ t.mem = mem
      ∧ t.pmpcfg = s.pmpcfg ∧ t.pmpaddr = s.pmpaddr ∧ t.pubKey = s.pubKey ∧ t.dataMode = s.dataMode

/-- A virtual `MISS` in a one-stage regime whose walk fails links nothing and writes nothing; it raises the exception of the
walker's error once, with the original address, or for an artifact access answers a probe failure (42_translate.md R234,
60_exceptions.md R331, R338, R340 to R343). `AFault` is `PMP` in the state and in the answer iff the PMP bank denied one of the
walk's accesses (10_state.md R45, 60_exceptions.md R333). -/
def Obligations.MissReportsAFailedWalk : Prop :=
  ∀ (t1 : TlbId) (mode : Mode5) (req : Priv) (va : U64) (bytes : Nat) (artifact : Bool) (s : State) (err : WalkErr)
    (mem : Memory),
    s.missesIn t1 mode req va bytes → s.oneStage t1 → s.uncovered t1 va →
    s.ruleWalkFor t1 va req mode artifact = some (.error err, mem) →
    ∃ t l, exec (.miss .virt mode req va bytes artifact) s = .next t
      ∧ t.traffic = s.traffic ++ l ∧ (t.afault = .pmp ↔ s.pmpDenied l)
      ∧ t.response = (if artifact then
            .miss { status := .probeFail, err := some err, exc := none, mappings := [], afault := t.afault }
          else .miss
            { status := .exc
              err := some err
              exc := some
                { kind := excKind err t1 req
                  tval := va
                  gva := decide (t1 ≠ .hs)
                  gpa := if t1 = .vs2 ∧ isBusError err = false then some va else none }
              mappings := []
              afault := t.afault })
      ∧ t.tlbs = s.tlbs ∧ t.aliases = s.aliases ∧ t.mem = s.mem
      ∧ t.pmpcfg = s.pmpcfg ∧ t.pmpaddr = s.pmpaddr ∧ t.pubKey = s.pubKey ∧ t.dataMode = s.dataMode

/-- A virtual `MISS` under both stages walks stage 1, walks stage 2 for the guest-physical address over the memory stage 1
left, composes the two mappings and links both entries (42_translate.md R222, R226, R228). A denied physical access is answered
AFAULT and the entries and the alias stay (R232; log 14 for a PMA denial). -/
def Obligations.MissServedByTwoWalks : Prop :=
  ∀ (mode : Mode5) (req : Priv) (va : U64) (bytes : Nat) (artifact : Bool) (s : State) (e1 e2 : Entry) (mem1 mem2 : Memory)
    (gpa : U64) (m : Mapping),
    s.missesIn .vs1 mode req va bytes → s.hgatpMode ≠ 0 → s.params.vs1PtwViaS2 = false → s.linksOk →
    s.uncovered .vs1 va → s.ruleWalkFor .vs1 va req mode artifact = some (.ok e1, mem1) →
    gpa = va + e1.pa - e1.lowVA → s.uncovered .vs2 gpa →
    (s.setMem mem1).ruleWalkFor .vs2 gpa req mode artifact = some (.ok e2, mem2) →
    m = cap (compose (s.single mode e1) (s.single mode e2)) va → lastByte va bytes ≤ m.highVA →
    ∃ t, exec (.miss .virt mode req va bytes artifact) s = .next t
      ∧ t.response = .miss (s.servedAnswer mode req m va (lastByte va bytes))
      ∧ t.afault = (s.servedAnswer mode req m va (lastByte va bytes)).afault
      ∧ t.tlb .vs1 = s.tlb .vs1 ++ [e1.linkedFor s.nextHandle mode artifact]
      ∧ t.tlb .vs2 = s.tlb .vs2 ++ [e2.linkedFor (s.nextHandle + 1) mode artifact]
      ∧ t.tlb .hs = s.tlb .hs
      ∧ (artifact = false → s.aliasInstalled t mode m s.nextHandle (some (s.nextHandle + 1)))
      ∧ (artifact = true → t.aliases = s.aliases)
      ∧ t.mem = mem2 ∧ t.s2Active = false
      ∧ t.pmpcfg = s.pmpcfg ∧ t.pmpaddr = s.pmpaddr ∧ t.pubKey = s.pubKey ∧ t.dataMode = s.dataMode

/-- When the nested stage-2 walk fails, the report names the original address and the guest-physical address, and the stage-1
entry stays linked without alias (42_translate.md R226, R227, R234, 60_exceptions.md R331, R340, R342, R343). `AFault` as in a
failed stage-1 walk (10_state.md R45). -/
def Obligations.MissReportsAFailedStage2 : Prop :=
  ∀ (mode : Mode5) (req : Priv) (va : U64) (bytes : Nat) (artifact : Bool) (s : State) (e1 : Entry) (mem1 mem2 : Memory)
    (gpa : U64) (err : WalkErr),
    s.missesIn .vs1 mode req va bytes → s.hgatpMode ≠ 0 → s.params.vs1PtwViaS2 = false → s.linksOk →
    s.uncovered .vs1 va → s.ruleWalkFor .vs1 va req mode artifact = some (.ok e1, mem1) →
    gpa = va + e1.pa - e1.lowVA → s.uncovered .vs2 gpa →
    (s.setMem mem1).ruleWalkFor .vs2 gpa req mode artifact = some (.error err, mem2) →
    ∃ t l, exec (.miss .virt mode req va bytes artifact) s = .next t
      ∧ t.traffic = s.traffic ++ l ∧ (t.afault = .pmp ↔ s.pmpDenied l)
      ∧ t.response = (if artifact then
            .miss { status := .probeFail, err := some err, exc := none, mappings := [], afault := t.afault }
          else .miss
            { status := .exc
              err := some err
              exc := some
                { kind := excKind err .vs2 req
                  tval := va
                  gva := true
                  gpa := if isBusError err then none else some gpa }
              mappings := []
              afault := t.afault })
      ∧ t.tlb .vs1 = s.tlb .vs1 ++ [{ e1 with lutEntry := some s.nextHandle }]
      ∧ t.tlb .vs2 = s.tlb .vs2 ∧ t.tlb .hs = s.tlb .hs ∧ t.aliases = s.aliases ∧ t.mem = mem1 ∧ t.s2Active = false
      ∧ t.pmpcfg = s.pmpcfg ∧ t.pmpaddr = s.pmpaddr ∧ t.pubKey = s.pubKey ∧ t.dataMode = s.dataMode

/-- A hit reads no page table. If the permission check denies, the error is `PRIV` and nothing is re-walked; if it grants,
the access is served from the entry (42_translate.md R223, R225, R232). Where the entry is mapped for the caller under a key the
live key has moved away from, it is re-keyed first: its key becomes the live key and its old aliases of the mode are gone
(41_tlb.md R203). The alias is installed under the live key either way, in place of what it overlaps (R200), also where the
physical access is denied (log 14 for a PMA denial). -/
def Obligations.MissServedByAHit : Prop :=
  ∀ (t1 : TlbId) (mode : Mode5) (req : Priv) (va : U64) (bytes : Nat) (artifact : Bool) (s : State) (e : Entry),
    s.missesIn t1 mode req va bytes → s.oneStage t1 → s.linksOk → s.soleCover t1 va e → e.artifact = false →
    s.matchEntry e = true → (needsWrite req = true → e.d = true) →
    (s.permGrants mode e req = false →
      ∃ t, exec (.miss .virt mode req va bytes artifact) s = .next t
        ∧ t.response = (if artifact then
              .miss { status := .probeFail, err := some .priv, exc := none, mappings := [], afault := .none }
            else .miss
              { status := .exc
                err := some .priv
                exc := some { kind := excKind .priv t1 req, tval := va, gva := decide (t1 ≠ .hs)
                              gpa := if t1 = .vs2 then some va else none }
                mappings := []
                afault := .none })
        ∧ t = { s with response := t.response, afault := .none, choice := t.choice })
    ∧ ∀ m, s.permGrants mode e req = true → m = cap (s.single mode e) va → lastByte va bytes ≤ m.highVA →
        ∃ t h, exec (.miss .virt mode req va bytes artifact) s = .next t ∧ e.lutEntry = some h
          ∧ t.response = .miss (s.servedAnswer mode req m va (lastByte va bytes))
          ∧ t.afault = (s.servedAnswer mode req m va (lastByte va bytes)).afault
          ∧ (∀ a, a ∈ t.aliasesOf mode ↔
              a = { lowVA := m.lowVA, highVA := m.highVA, lowPA := m.lowPA, priv := m.priv, mask := m.mask
                    key := s.liveKey, from1 := h, from2 := none }
              ∨ (a ∈ s.aliasesOf mode ∧ (a.highVA < m.lowVA ∨ m.highVA < a.lowVA)
                  ∧ (s.keyMoved mode e → a.from1 ≠ h ∧ a.from2 ≠ some h)))
          ∧ (∀ other, other ≠ mode → t.aliasesOf other = s.aliasesOf other)
          ∧ (∀ u, t.tlb u = (s.tlb u).map fun f =>
              if f.lutEntry = some h then
                { f with
                  mapped := addMapped f.mapped (baseOf mode)
                  simASID := if s.keyMoved mode e then s.liveKey else f.simASID }
              else f)
          ∧ t.traffic = s.traffic ∧ t.mem = s.mem ∧ t.pmpcfg = s.pmpcfg ∧ t.pmpaddr = s.pmpaddr ∧ t.pubKey = s.pubKey
          ∧ t.dataMode = s.dataMode

/-- Dirty upgrade and artifact clean-up: when the only entry that contains the address is an artifact entry, or matches and
lacks `D` under a write, the `MISS` is the one on the store without that entry (42_translate.md R224, 41_tlb.md R182). The
field `choice` counts the model's free draws (log 8). -/
def Obligations.MissRewalksAfterDeletion : Prop :=
  ∀ (t1 : TlbId) (mode : Mode5) (req : Priv) (va : U64) (bytes : Nat) (artifact : Bool) (s : State) (e : Entry),
    s.missesIn t1 mode req va bytes → s.linksOk → s.soleCover t1 va e →
    (e.artifact = true ∨ (s.matchEntry e = true ∧ e.d = false ∧ needsWrite req = true)) →
    exec (.miss .virt mode req va bytes artifact) s
      = exec (.miss .virt mode req va bytes artifact) { s.tlbDelete e with choice := s.choice + 1 }

/-- Every virtual `MISS` answers, when every active regime's `MODE` has a walker (93_implementation_defined.md U3 makes that a
precondition), whatever entries a restore left in the TLBs: "answers every command in finitely many steps" (44_host_ops.md
R323, 10_state.md R21, 42_translate.md R222; log 12 for the entries no walk creates). -/
def Obligations.MissAnswers : Prop :=
  ∀ (mode : Mode5) (req : Priv) (va : U64) (bytes : Nat) (artifact : Bool) (s : State),
    s.modesOk → ∃ t r, exec (.miss .virt mode req va bytes artifact) s = .next t
      ∧ t.response = .miss r

/-- "OK: every byte of the access is mapped and permitted": the mappings of an OK answer cover the span and each grants the
required privilege (42_translate.md R238, R229). -/
def Obligations.OkMappingsCoverTheAccess : Prop :=
  ∀ (t1 : TlbId) (mode : Mode5) (req : Priv) (va : U64) (bytes : Nat) (artifact : Bool) (s t : State) (r : MissResponse),
    s.missesIn t1 mode req va bytes → s.linksOk → s.entriesOk →
    exec (.miss .virt mode req va bytes artifact) s = .next t → t.response = .miss r → r.status = .ok →
    (∀ m ∈ r.mappings, m.priv &&& req = req)
      ∧ ∀ x : U64, va ≤ x → x ≤ lastByte va bytes → ∃ m ∈ r.mappings, m.lowVA ≤ x ∧ x ≤ m.highVA

/-- "the access may be retried and will hit": after an OK answer to an access in one mapping, with the live key published,
every byte of the access hits in the alias store (42_translate.md R238, 41_tlb.md R202). -/
def Obligations.AccessHitsAfterAMiss : Prop :=
  ∀ (t1 : TlbId) (mode : Mode5) (req : Priv) (va : U64) (bytes : Nat) (s t : State) (r : MissResponse) (m : Mapping),
    s.missesIn t1 mode req va bytes → s.linksOk → s.entriesOk → s.pubKey = s.liveKey →
    exec (.miss .virt mode req va bytes false) s = .next t → t.response = .miss r → r.status = .ok →
    r.mappings = [m] → t.accessHits mode va bytes req = true

/-- What a `MISS` answers hangs together: an exception is reported iff the status says so, never for an artifact access; its
kind is that of the error and the required privilege, in its guest form iff a guest-physical address is given; `GVA` iff
the access ran under a guest regime; the address reported lies in the access; without a PMA denial the status AFAULT means
`AFault = PMP`; the answer returns the `AFault` this command set, which the state holds, and `PMP` comes with AFAULT or a bus
error; a refusal sets none and changes no state (42_translate.md R221, R238, 60_exceptions.md R331, R338, R341, R342, 43_pmp.md
R287, 10_state.md R45; log 9). -/
def Obligations.MissAnswersConsistently : Prop :=
  ∀ (cls : DomainClass) (mode : Mode5) (req : Priv) (va : U64) (bytes : Nat) (artifact : Bool) (s t : State)
    (r : MissResponse),
    exec (.miss cls mode req va bytes artifact) s = .next t → t.response = .miss r →
    (r.exc.isSome = true ↔ r.status = .exc)
      ∧ (r.err.isSome = true ↔ r.status = .exc ∨ r.status = .probeFail)
      ∧ (artifact = true → r.exc = none)
      ∧ (artifact = false → r.status ≠ .probeFail)
      ∧ (s.env.pma = [] → r.status = .afault → t.afault = .pmp)
      ∧ (r.status ≠ .refused → r.afault = t.afault)
      ∧ (r.status = .refused → r.afault = .none ∧ t = { s with response := t.response })
      ∧ (r.afault = .pmp → r.status = .afault ∨ ∃ e, r.err = some e ∧ isBusError e = true)
      ∧ ∀ x e, r.exc = some x → r.err = some e →
          x.gva = decide (s.activeTlb mode = some .vs1 ∨ s.activeTlb mode = some .vs2)
          ∧ va ≤ x.tval ∧ x.tval ≤ lastByte va bytes
          ∧ (x.gpa.isSome = true → isBusError e = false ∧ x.kind = excKind e .vs2 req)
          ∧ (x.gpa = none → x.kind = excKind e .hs req)

/-- An artifact access observes: it writes no memory and raises no exception, and its failure answers a probe failure
(42_translate.md R235, 60_exceptions.md R338). -/
def Obligations.ArtifactAccessesObserve : Prop :=
  ∀ (cls : DomainClass) (mode : Mode5) (req : Priv) (va : U64) (bytes : Nat) (s t : State),
    exec (.miss cls mode req va bytes true) s = .next t →
    t.mem = s.mem ∧ ∀ r, t.response = .miss r → r.exc = none ∧ r.status ≠ .exc
      ∧ (r.err.isSome = true ↔ r.status = .probeFail)

/-- The exception table (60_exceptions.md R331, R332): the cause code of each walker error, by the TLB whose lookup failed
and the required privilege of the original access. -/
def Obligations.ExceptionTable : Prop :=
  ∀ (e : WalkErr) (t : TlbId),
    (isBusError e = true →
      (excKind e t Priv.R).code = 5 ∧ (excKind e t Priv.W).code = 7 ∧ (excKind e t Priv.X).code = 1)
    ∧ (isBusError e = false → t = .vs2 →
      (excKind e t Priv.R).code = 21 ∧ (excKind e t Priv.W).code = 23 ∧ (excKind e t Priv.X).code = 20)
    ∧ (isBusError e = false → t ≠ .vs2 →
      (excKind e t Priv.R).code = 13 ∧ (excKind e t Priv.W).code = 15 ∧ (excKind e t Priv.X).code = 12)
    ∧ (isBusError e = true ↔ e = .read ∨ e = .write)

/-- The composition of two aligned mappings is as large as the smaller of the two, contains the address, and maps it where the
two do one after the other (42_translate.md R228). -/
def Obligations.CompositionIsTheSmallerMapping : Prop :=
  ∀ (s : State) (mode : Mode5) (e1 e2 : Entry) (va : U64), entryAligned e1 → entryAligned e2 →
    e1.lowVA ≤ va → va ≤ e1.highVA → e2.lowVA ≤ va + e1.pa - e1.lowVA → va + e1.pa - e1.lowVA ≤ e2.highVA →
    let m := compose (s.single mode e1) (s.single mode e2)
    m.lowVA ≤ va ∧ va ≤ m.highVA
      ∧ m.highVA.toNat - m.lowVA.toNat
          = min (e1.highVA.toNat - e1.lowVA.toNat) (e2.highVA.toNat - e2.lowVA.toNat)
      ∧ m.lowPA + (va - m.lowVA) = e2.pa + ((va + e1.pa - e1.lowVA) - e2.lowVA)
      ∧ m.priv = (s.single mode e1).priv &&& (s.single mode e2).priv
      ∧ m.mask = asidMask e1 mode ||| asidMask e2 mode

/-- A capped mapping lies in the aligned 4-GiB window of the address, contains it, and maps it alike; a mapping inside the
window is unchanged (42_translate.md R230). -/
def Obligations.CapKeepsTheWindow : Prop :=
  ∀ (m : Mapping) (va : U64), m.lowVA ≤ va → va ≤ m.highVA →
    let c := cap m va
    c.lowVA ≤ va ∧ va ≤ c.highVA ∧ c.lowVA.toNat / 2 ^ 32 = va.toNat / 2 ^ 32
      ∧ c.highVA.toNat / 2 ^ 32 = va.toNat / 2 ^ 32 ∧ m.lowVA ≤ c.lowVA ∧ c.highVA ≤ m.highVA
      ∧ c.lowPA + (va - c.lowVA) = m.lowPA + (va - m.lowVA)
      ∧ c.priv = m.priv ∧ c.mask = m.mask
      ∧ (m.lowVA.toNat / 2 ^ 32 = va.toNat / 2 ^ 32 → m.highVA.toNat / 2 ^ 32 = va.toNat / 2 ^ 32 → c = m)

/-- `REFRESH_MPRV` (42_translate.md R237): the data mode from `MPP` and `MPV` when `MPRV` is effective, else `curMode`. With
`MPP = 2` and `MPRV` effective there is no next state. 93_implementation_defined.md U7 asks `MPP ≠ 2` of every `REFRESH_MPRV`
with `MPRV = 1`; that the stop comes only where `MPRV` is effective, and that in debug mode without `mprven` the data mode is
`curMode` whatever `MPP` holds, is the model's reading (log 11). -/
def Obligations.RefreshMprvSelectsTheDataMode : Prop :=
  ∀ s : State,
    ((s.mprv = false ∨ (s.env.inDebug = true ∧ s.mprven = false)) →
      exec .refreshMprv s = .next { s with dataMode := s.env.curMode, response := .noReply })
    ∧ (s.mprv = true → (s.env.inDebug = false ∨ s.mprven = true) → s.mpp ≠ 2 →
      ∃ b mode, exec .refreshMprv s = .next { s with dataMode := mode, response := .noReply }
        ∧ (s.mpp = 0 ∧ b = BaseMode.user ∨ s.mpp = 1 ∧ b = BaseMode.supervisor ∨ s.mpp = 3 ∧ b = BaseMode.machine)
        ∧ baseOf mode = (if baseNum b < baseNum s.params.minMode then s.params.minMode else b)
        ∧ virtOf mode = (s.params.hasH && s.mpv && decide (baseOf mode ≠ .machine)))
    ∧ (s.mprv = true → (s.env.inDebug = false ∨ s.mprven = true) → s.mpp = 2 →
      exec .refreshMprv s = .fault .reservedMpp)

/-! ### PMP registers -/

/-- `PMPCFG_READ` (43_pmp.md R261): byte `k` of the word is `cfg[4w + k]`, zero outside the bank; a refused index answers zero
and changes nothing. -/
def Obligations.PmpcfgReadGivesTheWord : Prop :=
  ∀ (s : State) (w : Nat),
    (w < 16 → (s.params.xlen = .x64 → w % 2 = 0) →
      ∃ v : U64, exec (.pmpcfgRead w) s = .next { s with response := .word v }
        ∧ (∀ k, k < (match s.params.xlen with | .x32 => 4 | .x64 => 8) → v.extractLsb' (8 * k) 8 = s.cfg (4 * w + k))
        ∧ (s.params.xlen = .x32 → v.toNat < 2 ^ 32))
    ∧ ((16 ≤ w ∨ (s.params.xlen = .x64 ∧ w % 2 = 1)) →
      exec (.pmpcfgRead w) s = .next { s with response := .refusedWord })
    ∧ ∀ i, s.params.pmpN ≤ i → s.cfg i = 0

/-- `PMPCFG_WRITE` (43_pmp.md R262, R263): each unlocked byte of the word takes its canonical form, every other byte stays;
only the config bytes and the permission cache change; a refused index changes nothing. -/
def Obligations.PmpcfgWriteStoresTheCanonicalBytes : Prop :=
  ∀ (s : State) (w : Nat) (value : U64), s.bankOk →
    (w < 16 → (s.params.xlen = .x64 → w % 2 = 0) →
      ∃ t, exec (.pmpcfgWrite w value) s = .next t
        ∧ t = { s with pmpcfg := t.pmpcfg, pmpPerm := t.pmpPerm, response := .noReply }
        ∧ ∀ i, (i < 4 * w ∨ 4 * w + (match s.params.xlen with | .x32 => 4 | .x64 => 8) ≤ i ∨ s.params.pmpN ≤ i
              ∨ s.locked i = true → t.cfg i = s.cfg i)
          ∧ ∀ k, i = 4 * w + k → k < (match s.params.xlen with | .x32 => 4 | .x64 => 8) → i < s.params.pmpN →
              s.locked i = false →
              let new : Byte := value.extractLsb' (8 * k) 8
              cfgL (t.cfg i) = cfgL new ∧ cfgPriv (t.cfg i) = cfgPriv new ∧ t.cfg i &&& 0x60 = 0
                ∧ cfgA (t.cfg i) = if 1 ≤ s.params.pmpG ∧ cfgA new = aNa4 then cfgA (s.cfg i) else cfgA new)
    ∧ ((16 ≤ w ∨ (s.params.xlen = .x64 ∧ w % 2 = 1)) →
      exec (.pmpcfgWrite w value) s = .next { s with response := .refused })

/-- `PMPADDR_READ` answers the effective address (43_pmp.md R264): with NAPOT and `G ≥ 2` the bits below `G - 1` read as ones,
with OFF and TOR the bits below `G` read as zeros; 0 outside the bank; nothing changes. -/
def Obligations.PmpaddrReadGivesTheEffectiveAddress : Prop :=
  ∀ (s : State) (i : Nat), s.params.wf = true →
    ∃ v : U64, exec (.pmpaddrRead i) s = .next { s with response := .word v }
      ∧ (s.params.pmpN ≤ i → v = 0)
      ∧ (i < s.params.pmpN → cfgA (s.cfg i) = aNapot →
          v.toNat = (s.addr i).toNat ||| (2 ^ (s.params.pmpG - 1) - 1))
      ∧ (i < s.params.pmpN → cfgA (s.cfg i) ≠ aNapot →
          v.toNat = (s.addr i).toNat / 2 ^ s.params.pmpG * 2 ^ s.params.pmpG)

/-- `PMPADDR_WRITE` (43_pmp.md R265): the stored value is the written one cut to the implemented bits that the word of `XLEN`
holds (30_encoding.md R117; log 31), with its low `G - 1` bits cleared; a write to a region that does not exist, is locked, or
is the base of a locked TOR region changes nothing. -/
def Obligations.PmpaddrWriteStoresTheMaskedValue : Prop :=
  ∀ (s : State) (i : Nat) (value : U64), s.params.wf = true → s.bankOk →
    ∃ t, exec (.pmpaddrWrite i value) s = .next t
      ∧ t = { s with pmpaddr := t.pmpaddr, pmpPerm := t.pmpPerm, response := .noReply }
      ∧ (∀ j, j ≠ i → t.addr j = s.addr j)
      ∧ ((s.params.pmpN ≤ i ∨ s.locked i = true
            ∨ (i + 1 < s.params.pmpN ∧ s.locked (i + 1) = true ∧ cfgA (s.cfg (i + 1)) = aTor)) →
          t.pmpaddr = s.pmpaddr ∧ t.pmpPerm = s.pmpPerm)
      ∧ (i < s.params.pmpN → s.locked i = false →
          ¬(i + 1 < s.params.pmpN ∧ s.locked (i + 1) = true ∧ cfgA (s.cfg (i + 1)) = aTor) →
          (t.addr i).toNat = value.toNat % 2 ^ min (s.params.paBits - 2) (match s.params.xlen with | .x32 => 32 | .x64 => 54)
            / 2 ^ (s.params.pmpG - 1) * 2 ^ (s.params.pmpG - 1))

/-- `PMP_RESET`, `PMP_NEW` and `PMP_FREE` empty the bank, locked or not, and the permission cache, and change nothing else
(43_pmp.md R266, 44_host_ops.md R317, R318). -/
def Obligations.BankIsEmptied : Prop :=
  ∀ (i : Instr) (s : State), clearsBank i →
    ∃ t, exec i s = .next t
      ∧ t = { s with pmpcfg := t.pmpcfg, pmpaddr := t.pmpaddr, pmpPerm := t.pmpPerm, response := .noReply }
      ∧ (∀ j, t.cfg j = 0 ∧ t.addr j = 0 ∧ t.region j = .inactive ∧ t.locked j = false)
      ∧ (∀ b k x, PermMap.lookup x (t.pmpPerm.get b k) = Priv.NONE)

/-! ### PMP regions, refinement, the permission cache -/

/-- The kinds OFF, TOR and NA4 answer their geometry (43_pmp.md R281 to R283), in unbounded numbers (R280), with the privilege
and lock bits of the config byte; nothing else changes. NA4 with `G ≥ 1` and an index outside the bank are refused
(log 22). -/
def Obligations.OffTorNa4Geometry : Prop :=
  ∀ (l x w r : Bool) (i : Nat) (s : State), i < s.params.pmpN → s.params.pmpG ≤ 62 →
    ∃ p : Priv, p.getLsbD 0 = r ∧ p.getLsbD 1 = w ∧ p.getLsbD 2 = x
      ∧ exec (.pmpOff l x w r i) s = .next { s with response := .region .inactive p l }
      ∧ (let low := if i = 0 then 0 else 4 * ((s.addr (i - 1)).toNat / 2 ^ s.params.pmpG * 2 ^ s.params.pmpG)
         let top := 4 * ((s.addr i).toNat / 2 ^ s.params.pmpG * 2 ^ s.params.pmpG)
         exec (.pmpTor l x w r i) s
           = .next { s with response := .region (if top ≤ low then .inactive else .active low (top - 1)) p l })
      ∧ (s.params.pmpG = 0 → exec (.pmpNa4 l x w r i) s
          = .next { s with response := .region (.active (4 * (s.addr i).toNat) (4 * (s.addr i).toNat + 3)) p l })

/-- The kind NAPOT answers the naturally aligned range its address word names (43_pmp.md R284): with `k` the lowest clear bit of
`x = (EffAddr << 2) | 3`, the `2^(k+1)` bytes around `x`. -/
def Obligations.NapotGeometry : Prop :=
  ∀ (l x w r : Bool) (i : Nat) (s : State), i < s.params.pmpN → s.params.pmpG ≤ 62 →
    ∃ (p : Priv) (k y : Nat), p.getLsbD 0 = r ∧ p.getLsbD 1 = w ∧ p.getLsbD 2 = x
      ∧ y = 4 * ((s.addr i).toNat ||| (2 ^ (s.params.pmpG - 1) - 1)) + 3
      ∧ (∀ j, j < k → y.testBit j = true) ∧ y.testBit k = false ∧ 2 ≤ k ∧ (2 ≤ s.params.pmpG → s.params.pmpG + 1 ≤ k)
      ∧ exec (.pmpNapot l x w r i) s
          = .next { s with
              response := .region (.active (y / 2 ^ (k + 1) * 2 ^ (k + 1)) (y / 2 ^ (k + 1) * 2 ^ (k + 1) + (2 ^ (k + 1) - 1)))
                p l }

/-- A command code outside `0x01` to `0x15`, and operands outside their domain, are refused and change nothing but the answer
(44_host_ops.md R319): a mode or class code of no mode or class (30_encoding.md R120), a `MISS` or a walker whose `req` is not
exactly one of R, W, X, whose mode is VS or VU without `HAS_H`, or whose mode is below `MIN_MODE`. The model's choices in it:
that the byte after the code of a `MISS` holds the class and the next one the mode is the packing of log 1 (30_encoding.md R131
gives none); that a step takes the refused line off the script and answers refused is log 25, that it clears the traffic log
23; that a refused `MISS` keeps `AFault` is log 9, and the `afault` field of its answer is log 30; that a walker checks `req` and mode as
a `MISS` does, and the refusal of the walkers of VS1 and VS2 without `HAS_H`, of a region index outside the bank and of NA4
with `G ≥ 1`, are log 22. -/
def Obligations.OperandsOutsideTheirDomainRefused : Prop :=
  (∀ (code : Byte) (operands : List Byte) (rest : List Input) (s : State),
      s.input = .command { format := .cmd8, bytes := code :: operands } :: rest →
      (code = 0 ∨ 0x15 < code.toNat
        ∨ (code = 3 ∧ ∃ c more, operands = c :: more ∧ 3 < c.toNat)
        ∨ (code = 3 ∧ ∃ c d more, operands = c :: d :: more ∧ (d = 2 ∨ 5 < d.toNat))) →
      step s = .next { s with input := rest, response := .refused, traffic := [] })
    ∧ (∀ (mode : Mode5) (req : Priv) (s : State),
      (req ≠ Priv.R ∧ req ≠ Priv.W ∧ req ≠ Priv.X) ∨ (virtOf mode = true ∧ s.params.hasH = false)
        ∨ baseNum (baseOf mode) < baseNum s.params.minMode →
      (∀ cls va bytes artifact, exec (.miss cls mode req va bytes artifact) s
        = .next { s with
            response := .miss { status := .refused, err := none, exc := none, mappings := [], afault := .none } })
      ∧ (∀ sv reg va artifact, exec (stage1Instr sv reg va req mode artifact) s = .next { s with response := .refused })
      ∧ ∀ sv gpa artifact, exec (stage2Instr sv gpa req mode artifact) s = .next { s with response := .refused })
    ∧ (∀ (sv : SvMode) (va : U64) (req : Priv) (mode : Mode5) (artifact : Bool) (s : State), s.params.hasH = false →
        exec (stage1Instr sv .vsatp va req mode artifact) s = .next { s with response := .refused }
        ∧ exec (stage2Instr sv va req mode artifact) s = .next { s with response := .refused })
    ∧ ∀ (l x w r : Bool) (i : Nat) (s : State),
        (s.params.pmpN ≤ i →
          exec (.pmpOff l x w r i) s = .next { s with response := .refused }
          ∧ exec (.pmpTor l x w r i) s = .next { s with response := .refused }
          ∧ exec (.pmpNapot l x w r i) s = .next { s with response := .refused })
        ∧ (s.params.pmpN ≤ i ∨ 1 ≤ s.params.pmpG →
          exec (.pmpNa4 l x w r i) s = .next { s with response := .refused })

/-- The lowest-numbered active region that contains the first byte decides: refinement reports it, with its privilege
(43_pmp.md R285, R288, R289). -/
def Obligations.LowestRegionDecides : Prop :=
  ∀ (s : State) (mode : Mode5) (pa : Nat) (hit : Option Nat), pa ≤ maxU64 → s.decides pa hit →
    (s.refineBounds mode pa).hit = hit ∧ (s.refineBounds mode pa).priv = s.decidedPriv mode hit

/-- Refinement grants an access iff there is no bank, or the deciding privilege suffices and one region, or none, decides every
byte of it (43_pmp.md R286, R287). -/
def Obligations.RefinementGrantsUniformAccesses : Prop :=
  ∀ (s : State) (mode : Mode5) (req : Priv) (lo hi : Nat) (hit : Option Nat), lo ≤ hi → hi ≤ maxU64 → s.decides lo hit →
    (s.pmpGrants mode req lo hi = true
      ↔ s.params.pmpN = 0
        ∨ (s.decidedPriv mode hit &&& req = req ∧ ∀ y, lo ≤ y → y ≤ hi → s.decides y hit))

/-- Refinement as an operation (43_pmp.md R286, R287): a denial arms `AFault` and changes nothing else; a grant changes the
permission cache only, and gives every byte of the access, and every byte the same region decides around it, the region's
whole privilege, split between data and code when they are distinct (R295). -/
def Obligations.RefinementRecordsItsGrant : Prop :=
  ∀ (s : State) (mode : Mode5) (req : Priv) (lo hi : Nat), s.permsOk → lo ≤ hi → hi ≤ maxU64 →
    (s.pmpGrants mode req lo hi = false → s.pmpRefine mode req lo hi = (false, { s with afault := .pmp }))
    ∧ (s.pmpGrants mode req lo hi = true → s.params.pmpN ≠ 0 →
        ∃ p, s.pmpRefine mode req lo hi = (true, { s with pmpPerm := p }) ∧
          let b := s.refineBounds mode lo
          b.lowMap ≤ lo ∧ hi ≤ b.highMap
          ∧ (∀ x, b.lowMap ≤ x → x ≤ b.highMap →
              PermMap.lookup x (p.get (baseOf mode) .data)
                = (if s.params.splitCodeData then b.priv &&& (Priv.R ||| Priv.W) else b.priv)
              ∧ PermMap.lookup x (p.get (baseOf mode) .code)
                = (if s.params.splitCodeData then b.priv &&& Priv.X else b.priv))
          ∧ (∀ k x, x + 1 = b.lowMap ∨ (x = b.highMap + 1 ∧ b.highMap < maxU64) →
              PermMap.lookup x (p.get (baseOf mode) k) = Priv.NONE)
          ∧ (∀ c k x, c ≠ baseOf mode ∨ x + 1 < b.lowMap ∨ b.highMap + 1 < x →
              PermMap.lookup x (p.get c k) = PermMap.lookup x (s.pmpPerm.get c k)))

/-- Invalidation of a region (43_pmp.md R291, R296): in its range, widened by a byte on each side when unaligned or wide
accesses exist, every supervisor and user grant goes, and every machine grant iff the region or one of higher index is
locked; every other grant stays. An inactive region invalidates nothing. -/
def Obligations.RegionInvalidationCutsTheCache : Prop :=
  (∀ (s : State) (i : Nat), s.region i = .inactive → s.pmpInvalidate i = s)
    ∧ ∀ (s : State) (i lo hi lo' hi' : Nat), s.permsOk → s.region i = .active lo hi →
      lo' = (if s.params.unaligned = true ∨ s.params.wideRegs = true then lo - 1 else lo) →
      hi' = (if s.params.unaligned = true ∨ s.params.wideRegs = true then min (hi + 1) maxU64 else hi) →
      ∃ p, s.pmpInvalidate i = { s with pmpPerm := p }
        ∧ ∀ b k x,
            let cut := lo' ≤ x ∧ x ≤ hi' ∧ (b ≠ .machine ∨ s.locked i = true
              ∨ ∃ j, i < j ∧ j < s.params.pmpN ∧ s.locked j = true)
            (cut → PermMap.lookup x (p.get b k) = Priv.NONE)
            ∧ (¬cut → PermMap.lookup x (p.get b k) = PermMap.lookup x (s.pmpPerm.get b k))

/-! ### Page-table entry kinds -/

/-- The four kinds of page-table entry (30_encoding.md R109): what each means to a walk; nothing else changes. -/
def Obligations.PteKinds : Prop :=
  ∀ (s : State) (x w r : Bool) (upper : BitVec 60) (fmt : PteFormat),
    exec (.pteInvalid x w r upper fmt) s = .next { s with response := .pte (.fails .v0) }
    ∧ exec (.pteReserved x upper fmt) s = .next { s with response := .pte (.fails .r0w1) }
    ∧ (∃ a : U64, exec (.ptePointer upper fmt) s = .next { s with response := .pte (.pointer a) }
        ∧ a.toNat = upper.toNat / 2 ^ 6 % 2 ^ (match fmt with | .pte32 => 22 | .pte64 => 44) * 2 ^ 12)
    ∧ (wfLeaf x w r = true →
        ∃ (p : Priv) (a : U64), p.getLsbD 0 = r ∧ p.getLsbD 1 = w ∧ p.getLsbD 2 = x
          ∧ a.toNat = upper.toNat / 2 ^ 6 % 2 ^ (match fmt with | .pte32 => 22 | .pte64 => 44) * 2 ^ 12
          ∧ exec (.pteLeaf x w r upper fmt) s
              = .next { s with
                  response := .pte (.leaf p (upper.getLsbD 0) (upper.getLsbD 1) (upper.getLsbD 2) (upper.getLsbD 3) a) })

/-! ### Save, restore, dump -/

/-- `VM_SAVE` answers the stream of the entries of HS, VS1, VS2, each TLB in ascending `lowVA`, and the terminator; nothing else
of the block changes (44_host_ops.md R312). `choice` counts the draws that order ties (log 8). -/
def Obligations.SaveStreamsTheTlbs : Prop :=
  ∀ s : State, ∃ (hs vs1 vs2 : List Entry) (n : Nat), hs.Perm (s.tlb .hs) ∧ vs1.Perm (s.tlb .vs1) ∧ vs2.Perm (s.tlb .vs2)
    ∧ ascending hs ∧ ascending vs1 ∧ ascending vs2
    ∧ exec .vmSave s
        = .next { s with
            choice := n
            response := .stream ((hs ++ (vs1 ++ vs2)).flatMap (fun e => saveTag ++ (leBytes 4 44 ++ entryPayload e))
              ++ (saveTag ++ leBytes 4 0)) }

/-- Restoring the stream of a save into any block gives the saved entries back, unmapped, in their TLBs, with no alias left and
the rest of the block unchanged (44_host_ops.md R312, R313). -/
def Obligations.SaveRestoreRoundTrip : Prop :=
  ∀ s u : State, s.linksOk → u.LinkInv →
    ∃ s1 bytes t, exec .vmSave s = .next s1 ∧ s1.response = .stream bytes ∧ exec (.vmRestore bytes) u = .next t
      ∧ (∀ i, ((t.tlb i).map Entry.unlinked).Perm ((s.tlb i).map Entry.unlinked) ∧ ∀ e ∈ t.tlb i, e.mapped = 0)
      ∧ (∀ mode, t.aliasesOf mode = [])
      ∧ t = { u with tlbs := t.tlbs, aliases := t.aliases, nextHandle := t.nextHandle, response := .noReply }

/-- A malformed record stops a restore: the TLBs hold what was inserted so far and the answer reports the refusal
(44_host_ops.md R313). -/
def Obligations.MalformedStreamStopsTheRestore : Prop :=
  ∀ (u : State) (es : List Entry) (bad : List Byte), u.LinkInv → malformed bad →
    ∃ t, exec (.vmRestore (es.flatMap (fun e => saveTag ++ (leBytes 4 44 ++ entryPayload e)) ++ bad)) u = .next t
      ∧ t.response = .restoreRefused
      ∧ (∀ i, (t.tlb i).map Entry.unlinked = (es.filter fun e => decide (e.tlb = i)).map Entry.unlinked)
      ∧ (∀ mode, t.aliasesOf mode = [])
      ∧ t = { u with tlbs := t.tlbs, aliases := t.aliases, nextHandle := t.nextHandle, response := t.response }

/-- Each dump answers one line for each entry of its TLB, in ascending `lowVA`, and changes nothing of the block; without
`HAS_H` the dump of VS1 is empty (44_host_ops.md R314 to R316). The line's letters are the model's (log 20). -/
def Obligations.DumpsListTheTlbs : Prop :=
  ∀ s : State,
    (∃ (l : List Entry) (n : Nat), l.Perm (s.tlb .hs) ∧ ascending l
      ∧ exec .dumpTlb s = .next { s with choice := n, response := .text (l.flatMap dumpLine) })
    ∧ (∃ (l : List Entry) (n : Nat), l.Perm (s.tlb .vs1) ∧ ascending l
      ∧ exec .dumpVs1Tlb s
          = .next { s with choice := n, response := .text (if s.params.hasH then l.flatMap dumpLine else []) })
    ∧ ∃ (l : List Entry) (n : Nat), l.Perm (s.tlb .vs2) ∧ ascending l
      ∧ exec .dumpVs2Tlb s = .next { s with choice := n, response := .text (l.flatMap dumpLine) }

end
end

