-- ==== Sys2Proof/Laws/State.lean ====
section
/-! SUPPORT. One lemma per field per field update of State, each true by rfl, and what a store gives back. -/

namespace Sys2Proof.Machine

/-! ### State.setAFault -/

@[simp] theorem State.setAFault_params (s : State) (a : AFault) : (s.setAFault a).params = s.params := rfl
@[simp] theorem State.setAFault_pmpcfg (s : State) (a : AFault) : (s.setAFault a).pmpcfg = s.pmpcfg := rfl
@[simp] theorem State.setAFault_pmpaddr (s : State) (a : AFault) : (s.setAFault a).pmpaddr = s.pmpaddr := rfl
@[simp] theorem State.setAFault_pmpPerm (s : State) (a : AFault) : (s.setAFault a).pmpPerm = s.pmpPerm := rfl
@[simp] theorem State.setAFault_tlbs (s : State) (a : AFault) : (s.setAFault a).tlbs = s.tlbs := rfl
@[simp] theorem State.setAFault_aliases (s : State) (a : AFault) : (s.setAFault a).aliases = s.aliases := rfl
@[simp] theorem State.setAFault_pubKey (s : State) (a : AFault) : (s.setAFault a).pubKey = s.pubKey := rfl
@[simp] theorem State.setAFault_dataMode (s : State) (a : AFault) : (s.setAFault a).dataMode = s.dataMode := rfl
@[simp] theorem State.setAFault_ptwActive (s : State) (a : AFault) : (s.setAFault a).ptwActive = s.ptwActive := rfl
@[simp] theorem State.setAFault_s2Active (s : State) (a : AFault) : (s.setAFault a).s2Active = s.s2Active := rfl
@[simp] theorem State.setAFault_s1VA (s : State) (a : AFault) : (s.setAFault a).s1VA = s.s1VA := rfl
@[simp] theorem State.setAFault_afault (s : State) (a : AFault) : (s.setAFault a).afault = a := rfl
@[simp] theorem State.setAFault_env (s : State) (a : AFault) : (s.setAFault a).env = s.env := rfl
@[simp] theorem State.setAFault_mem (s : State) (a : AFault) : (s.setAFault a).mem = s.mem := rfl
@[simp] theorem State.setAFault_input (s : State) (a : AFault) : (s.setAFault a).input = s.input := rfl
@[simp] theorem State.setAFault_response (s : State) (a : AFault) : (s.setAFault a).response = s.response := rfl
@[simp] theorem State.setAFault_traffic (s : State) (a : AFault) : (s.setAFault a).traffic = s.traffic := rfl
@[simp] theorem State.setAFault_choice (s : State) (a : AFault) : (s.setAFault a).choice = s.choice := rfl
@[simp] theorem State.setAFault_nextHandle (s : State) (a : AFault) : (s.setAFault a).nextHandle = s.nextHandle := rfl

/-! ### State.setPtwActive -/

@[simp] theorem State.setPtwActive_params (s : State) (b : Bool) : (s.setPtwActive b).params = s.params := rfl
@[simp] theorem State.setPtwActive_pmpcfg (s : State) (b : Bool) : (s.setPtwActive b).pmpcfg = s.pmpcfg := rfl
@[simp] theorem State.setPtwActive_pmpaddr (s : State) (b : Bool) : (s.setPtwActive b).pmpaddr = s.pmpaddr := rfl
@[simp] theorem State.setPtwActive_pmpPerm (s : State) (b : Bool) : (s.setPtwActive b).pmpPerm = s.pmpPerm := rfl
@[simp] theorem State.setPtwActive_tlbs (s : State) (b : Bool) : (s.setPtwActive b).tlbs = s.tlbs := rfl
@[simp] theorem State.setPtwActive_aliases (s : State) (b : Bool) : (s.setPtwActive b).aliases = s.aliases := rfl
@[simp] theorem State.setPtwActive_pubKey (s : State) (b : Bool) : (s.setPtwActive b).pubKey = s.pubKey := rfl
@[simp] theorem State.setPtwActive_dataMode (s : State) (b : Bool) : (s.setPtwActive b).dataMode = s.dataMode := rfl
@[simp] theorem State.setPtwActive_ptwActive (s : State) (b : Bool) : (s.setPtwActive b).ptwActive = b := rfl
@[simp] theorem State.setPtwActive_s2Active (s : State) (b : Bool) : (s.setPtwActive b).s2Active = s.s2Active := rfl
@[simp] theorem State.setPtwActive_s1VA (s : State) (b : Bool) : (s.setPtwActive b).s1VA = s.s1VA := rfl
@[simp] theorem State.setPtwActive_afault (s : State) (b : Bool) : (s.setPtwActive b).afault = s.afault := rfl
@[simp] theorem State.setPtwActive_env (s : State) (b : Bool) : (s.setPtwActive b).env = s.env := rfl
@[simp] theorem State.setPtwActive_mem (s : State) (b : Bool) : (s.setPtwActive b).mem = s.mem := rfl
@[simp] theorem State.setPtwActive_input (s : State) (b : Bool) : (s.setPtwActive b).input = s.input := rfl
@[simp] theorem State.setPtwActive_response (s : State) (b : Bool) : (s.setPtwActive b).response = s.response := rfl
@[simp] theorem State.setPtwActive_traffic (s : State) (b : Bool) : (s.setPtwActive b).traffic = s.traffic := rfl
@[simp] theorem State.setPtwActive_choice (s : State) (b : Bool) : (s.setPtwActive b).choice = s.choice := rfl
@[simp] theorem State.setPtwActive_nextHandle (s : State) (b : Bool) : (s.setPtwActive b).nextHandle = s.nextHandle := rfl

/-! ### State.beginStage2 -/

@[simp] theorem State.beginStage2_params (s : State) (va : U64) : (s.beginStage2 va).params = s.params := rfl
@[simp] theorem State.beginStage2_pmpcfg (s : State) (va : U64) : (s.beginStage2 va).pmpcfg = s.pmpcfg := rfl
@[simp] theorem State.beginStage2_pmpaddr (s : State) (va : U64) : (s.beginStage2 va).pmpaddr = s.pmpaddr := rfl
@[simp] theorem State.beginStage2_pmpPerm (s : State) (va : U64) : (s.beginStage2 va).pmpPerm = s.pmpPerm := rfl
@[simp] theorem State.beginStage2_tlbs (s : State) (va : U64) : (s.beginStage2 va).tlbs = s.tlbs := rfl
@[simp] theorem State.beginStage2_aliases (s : State) (va : U64) : (s.beginStage2 va).aliases = s.aliases := rfl
@[simp] theorem State.beginStage2_pubKey (s : State) (va : U64) : (s.beginStage2 va).pubKey = s.pubKey := rfl
@[simp] theorem State.beginStage2_dataMode (s : State) (va : U64) : (s.beginStage2 va).dataMode = s.dataMode := rfl
@[simp] theorem State.beginStage2_ptwActive (s : State) (va : U64) : (s.beginStage2 va).ptwActive = s.ptwActive := rfl
@[simp] theorem State.beginStage2_s2Active (s : State) (va : U64) : (s.beginStage2 va).s2Active = true := rfl
@[simp] theorem State.beginStage2_s1VA (s : State) (va : U64) : (s.beginStage2 va).s1VA = va := rfl
@[simp] theorem State.beginStage2_afault (s : State) (va : U64) : (s.beginStage2 va).afault = s.afault := rfl
@[simp] theorem State.beginStage2_env (s : State) (va : U64) : (s.beginStage2 va).env = s.env := rfl
@[simp] theorem State.beginStage2_mem (s : State) (va : U64) : (s.beginStage2 va).mem = s.mem := rfl
@[simp] theorem State.beginStage2_input (s : State) (va : U64) : (s.beginStage2 va).input = s.input := rfl
@[simp] theorem State.beginStage2_response (s : State) (va : U64) : (s.beginStage2 va).response = s.response := rfl
@[simp] theorem State.beginStage2_traffic (s : State) (va : U64) : (s.beginStage2 va).traffic = s.traffic := rfl
@[simp] theorem State.beginStage2_choice (s : State) (va : U64) : (s.beginStage2 va).choice = s.choice := rfl
@[simp] theorem State.beginStage2_nextHandle (s : State) (va : U64) : (s.beginStage2 va).nextHandle = s.nextHandle := rfl

/-! ### State.endStage2 -/

@[simp] theorem State.endStage2_params (s : State) : s.endStage2.params = s.params := rfl
@[simp] theorem State.endStage2_pmpcfg (s : State) : s.endStage2.pmpcfg = s.pmpcfg := rfl
@[simp] theorem State.endStage2_pmpaddr (s : State) : s.endStage2.pmpaddr = s.pmpaddr := rfl
@[simp] theorem State.endStage2_pmpPerm (s : State) : s.endStage2.pmpPerm = s.pmpPerm := rfl
@[simp] theorem State.endStage2_tlbs (s : State) : s.endStage2.tlbs = s.tlbs := rfl
@[simp] theorem State.endStage2_aliases (s : State) : s.endStage2.aliases = s.aliases := rfl
@[simp] theorem State.endStage2_pubKey (s : State) : s.endStage2.pubKey = s.pubKey := rfl
@[simp] theorem State.endStage2_dataMode (s : State) : s.endStage2.dataMode = s.dataMode := rfl
@[simp] theorem State.endStage2_ptwActive (s : State) : s.endStage2.ptwActive = s.ptwActive := rfl
@[simp] theorem State.endStage2_s2Active (s : State) : s.endStage2.s2Active = false := rfl
@[simp] theorem State.endStage2_s1VA (s : State) : s.endStage2.s1VA = s.s1VA := rfl
@[simp] theorem State.endStage2_afault (s : State) : s.endStage2.afault = s.afault := rfl
@[simp] theorem State.endStage2_env (s : State) : s.endStage2.env = s.env := rfl
@[simp] theorem State.endStage2_mem (s : State) : s.endStage2.mem = s.mem := rfl
@[simp] theorem State.endStage2_input (s : State) : s.endStage2.input = s.input := rfl
@[simp] theorem State.endStage2_response (s : State) : s.endStage2.response = s.response := rfl
@[simp] theorem State.endStage2_traffic (s : State) : s.endStage2.traffic = s.traffic := rfl
@[simp] theorem State.endStage2_choice (s : State) : s.endStage2.choice = s.choice := rfl
@[simp] theorem State.endStage2_nextHandle (s : State) : s.endStage2.nextHandle = s.nextHandle := rfl

/-! ### State.setPubKey -/

@[simp] theorem State.setPubKey_params (s : State) (k : U64) : (s.setPubKey k).params = s.params := rfl
@[simp] theorem State.setPubKey_pmpcfg (s : State) (k : U64) : (s.setPubKey k).pmpcfg = s.pmpcfg := rfl
@[simp] theorem State.setPubKey_pmpaddr (s : State) (k : U64) : (s.setPubKey k).pmpaddr = s.pmpaddr := rfl
@[simp] theorem State.setPubKey_pmpPerm (s : State) (k : U64) : (s.setPubKey k).pmpPerm = s.pmpPerm := rfl
@[simp] theorem State.setPubKey_tlbs (s : State) (k : U64) : (s.setPubKey k).tlbs = s.tlbs := rfl
@[simp] theorem State.setPubKey_aliases (s : State) (k : U64) : (s.setPubKey k).aliases = s.aliases := rfl
@[simp] theorem State.setPubKey_pubKey (s : State) (k : U64) : (s.setPubKey k).pubKey = k := rfl
@[simp] theorem State.setPubKey_dataMode (s : State) (k : U64) : (s.setPubKey k).dataMode = s.dataMode := rfl
@[simp] theorem State.setPubKey_ptwActive (s : State) (k : U64) : (s.setPubKey k).ptwActive = s.ptwActive := rfl
@[simp] theorem State.setPubKey_s2Active (s : State) (k : U64) : (s.setPubKey k).s2Active = s.s2Active := rfl
@[simp] theorem State.setPubKey_s1VA (s : State) (k : U64) : (s.setPubKey k).s1VA = s.s1VA := rfl
@[simp] theorem State.setPubKey_afault (s : State) (k : U64) : (s.setPubKey k).afault = s.afault := rfl
@[simp] theorem State.setPubKey_env (s : State) (k : U64) : (s.setPubKey k).env = s.env := rfl
@[simp] theorem State.setPubKey_mem (s : State) (k : U64) : (s.setPubKey k).mem = s.mem := rfl
@[simp] theorem State.setPubKey_input (s : State) (k : U64) : (s.setPubKey k).input = s.input := rfl
@[simp] theorem State.setPubKey_response (s : State) (k : U64) : (s.setPubKey k).response = s.response := rfl
@[simp] theorem State.setPubKey_traffic (s : State) (k : U64) : (s.setPubKey k).traffic = s.traffic := rfl
@[simp] theorem State.setPubKey_choice (s : State) (k : U64) : (s.setPubKey k).choice = s.choice := rfl
@[simp] theorem State.setPubKey_nextHandle (s : State) (k : U64) : (s.setPubKey k).nextHandle = s.nextHandle := rfl

/-! ### State.setDataMode -/

@[simp] theorem State.setDataMode_params (s : State) (mode : Mode5) : (s.setDataMode mode).params = s.params := rfl
@[simp] theorem State.setDataMode_pmpcfg (s : State) (mode : Mode5) : (s.setDataMode mode).pmpcfg = s.pmpcfg := rfl
@[simp] theorem State.setDataMode_pmpaddr (s : State) (mode : Mode5) : (s.setDataMode mode).pmpaddr = s.pmpaddr := rfl
@[simp] theorem State.setDataMode_pmpPerm (s : State) (mode : Mode5) : (s.setDataMode mode).pmpPerm = s.pmpPerm := rfl
@[simp] theorem State.setDataMode_tlbs (s : State) (mode : Mode5) : (s.setDataMode mode).tlbs = s.tlbs := rfl
@[simp] theorem State.setDataMode_aliases (s : State) (mode : Mode5) : (s.setDataMode mode).aliases = s.aliases := rfl
@[simp] theorem State.setDataMode_pubKey (s : State) (mode : Mode5) : (s.setDataMode mode).pubKey = s.pubKey := rfl
@[simp] theorem State.setDataMode_dataMode (s : State) (mode : Mode5) : (s.setDataMode mode).dataMode = mode := rfl
@[simp] theorem State.setDataMode_ptwActive (s : State) (mode : Mode5) : (s.setDataMode mode).ptwActive = s.ptwActive := rfl
@[simp] theorem State.setDataMode_s2Active (s : State) (mode : Mode5) : (s.setDataMode mode).s2Active = s.s2Active := rfl
@[simp] theorem State.setDataMode_s1VA (s : State) (mode : Mode5) : (s.setDataMode mode).s1VA = s.s1VA := rfl
@[simp] theorem State.setDataMode_afault (s : State) (mode : Mode5) : (s.setDataMode mode).afault = s.afault := rfl
@[simp] theorem State.setDataMode_env (s : State) (mode : Mode5) : (s.setDataMode mode).env = s.env := rfl
@[simp] theorem State.setDataMode_mem (s : State) (mode : Mode5) : (s.setDataMode mode).mem = s.mem := rfl
@[simp] theorem State.setDataMode_input (s : State) (mode : Mode5) : (s.setDataMode mode).input = s.input := rfl
@[simp] theorem State.setDataMode_response (s : State) (mode : Mode5) : (s.setDataMode mode).response = s.response := rfl
@[simp] theorem State.setDataMode_traffic (s : State) (mode : Mode5) : (s.setDataMode mode).traffic = s.traffic := rfl
@[simp] theorem State.setDataMode_choice (s : State) (mode : Mode5) : (s.setDataMode mode).choice = s.choice := rfl
@[simp] theorem State.setDataMode_nextHandle (s : State) (mode : Mode5) : (s.setDataMode mode).nextHandle = s.nextHandle := rfl

/-! ### State.respond -/

@[simp] theorem State.respond_params (s : State) (r : Response) : (s.respond r).params = s.params := rfl
@[simp] theorem State.respond_pmpcfg (s : State) (r : Response) : (s.respond r).pmpcfg = s.pmpcfg := rfl
@[simp] theorem State.respond_pmpaddr (s : State) (r : Response) : (s.respond r).pmpaddr = s.pmpaddr := rfl
@[simp] theorem State.respond_pmpPerm (s : State) (r : Response) : (s.respond r).pmpPerm = s.pmpPerm := rfl
@[simp] theorem State.respond_tlbs (s : State) (r : Response) : (s.respond r).tlbs = s.tlbs := rfl
@[simp] theorem State.respond_aliases (s : State) (r : Response) : (s.respond r).aliases = s.aliases := rfl
@[simp] theorem State.respond_pubKey (s : State) (r : Response) : (s.respond r).pubKey = s.pubKey := rfl
@[simp] theorem State.respond_dataMode (s : State) (r : Response) : (s.respond r).dataMode = s.dataMode := rfl
@[simp] theorem State.respond_ptwActive (s : State) (r : Response) : (s.respond r).ptwActive = s.ptwActive := rfl
@[simp] theorem State.respond_s2Active (s : State) (r : Response) : (s.respond r).s2Active = s.s2Active := rfl
@[simp] theorem State.respond_s1VA (s : State) (r : Response) : (s.respond r).s1VA = s.s1VA := rfl
@[simp] theorem State.respond_afault (s : State) (r : Response) : (s.respond r).afault = s.afault := rfl
@[simp] theorem State.respond_env (s : State) (r : Response) : (s.respond r).env = s.env := rfl
@[simp] theorem State.respond_mem (s : State) (r : Response) : (s.respond r).mem = s.mem := rfl
@[simp] theorem State.respond_input (s : State) (r : Response) : (s.respond r).input = s.input := rfl
@[simp] theorem State.respond_response (s : State) (r : Response) : (s.respond r).response = r := rfl
@[simp] theorem State.respond_traffic (s : State) (r : Response) : (s.respond r).traffic = s.traffic := rfl
@[simp] theorem State.respond_choice (s : State) (r : Response) : (s.respond r).choice = s.choice := rfl
@[simp] theorem State.respond_nextHandle (s : State) (r : Response) : (s.respond r).nextHandle = s.nextHandle := rfl

/-! ### State.logAccess -/

@[simp] theorem State.logAccess_params (s : State) (a : PteAccess) : (s.logAccess a).params = s.params := rfl
@[simp] theorem State.logAccess_pmpcfg (s : State) (a : PteAccess) : (s.logAccess a).pmpcfg = s.pmpcfg := rfl
@[simp] theorem State.logAccess_pmpaddr (s : State) (a : PteAccess) : (s.logAccess a).pmpaddr = s.pmpaddr := rfl
@[simp] theorem State.logAccess_pmpPerm (s : State) (a : PteAccess) : (s.logAccess a).pmpPerm = s.pmpPerm := rfl
@[simp] theorem State.logAccess_tlbs (s : State) (a : PteAccess) : (s.logAccess a).tlbs = s.tlbs := rfl
@[simp] theorem State.logAccess_aliases (s : State) (a : PteAccess) : (s.logAccess a).aliases = s.aliases := rfl
@[simp] theorem State.logAccess_pubKey (s : State) (a : PteAccess) : (s.logAccess a).pubKey = s.pubKey := rfl
@[simp] theorem State.logAccess_dataMode (s : State) (a : PteAccess) : (s.logAccess a).dataMode = s.dataMode := rfl
@[simp] theorem State.logAccess_ptwActive (s : State) (a : PteAccess) : (s.logAccess a).ptwActive = s.ptwActive := rfl
@[simp] theorem State.logAccess_s2Active (s : State) (a : PteAccess) : (s.logAccess a).s2Active = s.s2Active := rfl
@[simp] theorem State.logAccess_s1VA (s : State) (a : PteAccess) : (s.logAccess a).s1VA = s.s1VA := rfl
@[simp] theorem State.logAccess_afault (s : State) (a : PteAccess) : (s.logAccess a).afault = s.afault := rfl
@[simp] theorem State.logAccess_env (s : State) (a : PteAccess) : (s.logAccess a).env = s.env := rfl
@[simp] theorem State.logAccess_mem (s : State) (a : PteAccess) : (s.logAccess a).mem = s.mem := rfl
@[simp] theorem State.logAccess_input (s : State) (a : PteAccess) : (s.logAccess a).input = s.input := rfl
@[simp] theorem State.logAccess_response (s : State) (a : PteAccess) : (s.logAccess a).response = s.response := rfl
@[simp] theorem State.logAccess_traffic (s : State) (a : PteAccess) : (s.logAccess a).traffic = s.traffic ++ [a] := rfl
@[simp] theorem State.logAccess_choice (s : State) (a : PteAccess) : (s.logAccess a).choice = s.choice := rfl
@[simp] theorem State.logAccess_nextHandle (s : State) (a : PteAccess) : (s.logAccess a).nextHandle = s.nextHandle := rfl

/-! ### State.setMem -/

@[simp] theorem State.setMem_params (s : State) (mem : Memory) : (s.setMem mem).params = s.params := rfl
@[simp] theorem State.setMem_pmpcfg (s : State) (mem : Memory) : (s.setMem mem).pmpcfg = s.pmpcfg := rfl
@[simp] theorem State.setMem_pmpaddr (s : State) (mem : Memory) : (s.setMem mem).pmpaddr = s.pmpaddr := rfl
@[simp] theorem State.setMem_pmpPerm (s : State) (mem : Memory) : (s.setMem mem).pmpPerm = s.pmpPerm := rfl
@[simp] theorem State.setMem_tlbs (s : State) (mem : Memory) : (s.setMem mem).tlbs = s.tlbs := rfl
@[simp] theorem State.setMem_aliases (s : State) (mem : Memory) : (s.setMem mem).aliases = s.aliases := rfl
@[simp] theorem State.setMem_pubKey (s : State) (mem : Memory) : (s.setMem mem).pubKey = s.pubKey := rfl
@[simp] theorem State.setMem_dataMode (s : State) (mem : Memory) : (s.setMem mem).dataMode = s.dataMode := rfl
@[simp] theorem State.setMem_ptwActive (s : State) (mem : Memory) : (s.setMem mem).ptwActive = s.ptwActive := rfl
@[simp] theorem State.setMem_s2Active (s : State) (mem : Memory) : (s.setMem mem).s2Active = s.s2Active := rfl
@[simp] theorem State.setMem_s1VA (s : State) (mem : Memory) : (s.setMem mem).s1VA = s.s1VA := rfl
@[simp] theorem State.setMem_afault (s : State) (mem : Memory) : (s.setMem mem).afault = s.afault := rfl
@[simp] theorem State.setMem_env (s : State) (mem : Memory) : (s.setMem mem).env = s.env := rfl
@[simp] theorem State.setMem_mem (s : State) (mem : Memory) : (s.setMem mem).mem = mem := rfl
@[simp] theorem State.setMem_input (s : State) (mem : Memory) : (s.setMem mem).input = s.input := rfl
@[simp] theorem State.setMem_response (s : State) (mem : Memory) : (s.setMem mem).response = s.response := rfl
@[simp] theorem State.setMem_traffic (s : State) (mem : Memory) : (s.setMem mem).traffic = s.traffic := rfl
@[simp] theorem State.setMem_choice (s : State) (mem : Memory) : (s.setMem mem).choice = s.choice := rfl
@[simp] theorem State.setMem_nextHandle (s : State) (mem : Memory) : (s.setMem mem).nextHandle = s.nextHandle := rfl

/-! ### State.setEnv -/

@[simp] theorem State.setEnv_params (s : State) (env : Env) : (s.setEnv env).params = s.params := rfl
@[simp] theorem State.setEnv_pmpcfg (s : State) (env : Env) : (s.setEnv env).pmpcfg = s.pmpcfg := rfl
@[simp] theorem State.setEnv_pmpaddr (s : State) (env : Env) : (s.setEnv env).pmpaddr = s.pmpaddr := rfl
@[simp] theorem State.setEnv_pmpPerm (s : State) (env : Env) : (s.setEnv env).pmpPerm = s.pmpPerm := rfl
@[simp] theorem State.setEnv_tlbs (s : State) (env : Env) : (s.setEnv env).tlbs = s.tlbs := rfl
@[simp] theorem State.setEnv_aliases (s : State) (env : Env) : (s.setEnv env).aliases = s.aliases := rfl
@[simp] theorem State.setEnv_pubKey (s : State) (env : Env) : (s.setEnv env).pubKey = s.pubKey := rfl
@[simp] theorem State.setEnv_dataMode (s : State) (env : Env) : (s.setEnv env).dataMode = s.dataMode := rfl
@[simp] theorem State.setEnv_ptwActive (s : State) (env : Env) : (s.setEnv env).ptwActive = s.ptwActive := rfl
@[simp] theorem State.setEnv_s2Active (s : State) (env : Env) : (s.setEnv env).s2Active = s.s2Active := rfl
@[simp] theorem State.setEnv_s1VA (s : State) (env : Env) : (s.setEnv env).s1VA = s.s1VA := rfl
@[simp] theorem State.setEnv_afault (s : State) (env : Env) : (s.setEnv env).afault = s.afault := rfl
@[simp] theorem State.setEnv_env (s : State) (env : Env) : (s.setEnv env).env = env := rfl
@[simp] theorem State.setEnv_mem (s : State) (env : Env) : (s.setEnv env).mem = s.mem := rfl
@[simp] theorem State.setEnv_input (s : State) (env : Env) : (s.setEnv env).input = s.input := rfl
@[simp] theorem State.setEnv_response (s : State) (env : Env) : (s.setEnv env).response = s.response := rfl
@[simp] theorem State.setEnv_traffic (s : State) (env : Env) : (s.setEnv env).traffic = s.traffic := rfl
@[simp] theorem State.setEnv_choice (s : State) (env : Env) : (s.setEnv env).choice = s.choice := rfl
@[simp] theorem State.setEnv_nextHandle (s : State) (env : Env) : (s.setEnv env).nextHandle = s.nextHandle := rfl

/-! ### State.draw -/

@[simp] theorem State.draw_params (s : State) (n : Nat) : (s.draw n).params = s.params := rfl
@[simp] theorem State.draw_pmpcfg (s : State) (n : Nat) : (s.draw n).pmpcfg = s.pmpcfg := rfl
@[simp] theorem State.draw_pmpaddr (s : State) (n : Nat) : (s.draw n).pmpaddr = s.pmpaddr := rfl
@[simp] theorem State.draw_pmpPerm (s : State) (n : Nat) : (s.draw n).pmpPerm = s.pmpPerm := rfl
@[simp] theorem State.draw_tlbs (s : State) (n : Nat) : (s.draw n).tlbs = s.tlbs := rfl
@[simp] theorem State.draw_aliases (s : State) (n : Nat) : (s.draw n).aliases = s.aliases := rfl
@[simp] theorem State.draw_pubKey (s : State) (n : Nat) : (s.draw n).pubKey = s.pubKey := rfl
@[simp] theorem State.draw_dataMode (s : State) (n : Nat) : (s.draw n).dataMode = s.dataMode := rfl
@[simp] theorem State.draw_ptwActive (s : State) (n : Nat) : (s.draw n).ptwActive = s.ptwActive := rfl
@[simp] theorem State.draw_s2Active (s : State) (n : Nat) : (s.draw n).s2Active = s.s2Active := rfl
@[simp] theorem State.draw_s1VA (s : State) (n : Nat) : (s.draw n).s1VA = s.s1VA := rfl
@[simp] theorem State.draw_afault (s : State) (n : Nat) : (s.draw n).afault = s.afault := rfl
@[simp] theorem State.draw_env (s : State) (n : Nat) : (s.draw n).env = s.env := rfl
@[simp] theorem State.draw_mem (s : State) (n : Nat) : (s.draw n).mem = s.mem := rfl
@[simp] theorem State.draw_input (s : State) (n : Nat) : (s.draw n).input = s.input := rfl
@[simp] theorem State.draw_response (s : State) (n : Nat) : (s.draw n).response = s.response := rfl
@[simp] theorem State.draw_traffic (s : State) (n : Nat) : (s.draw n).traffic = s.traffic := rfl
@[simp] theorem State.draw_choice (s : State) (n : Nat) : (s.draw n).choice = s.choice + n := rfl
@[simp] theorem State.draw_nextHandle (s : State) (n : Nat) : (s.draw n).nextHandle = s.nextHandle := rfl

/-! ### State.setPmpcfg -/

@[simp] theorem State.setPmpcfg_params (s : State) (cfgs : List Byte) : (s.setPmpcfg cfgs).params = s.params := rfl
@[simp] theorem State.setPmpcfg_pmpcfg (s : State) (cfgs : List Byte) : (s.setPmpcfg cfgs).pmpcfg = cfgs := rfl
@[simp] theorem State.setPmpcfg_pmpaddr (s : State) (cfgs : List Byte) : (s.setPmpcfg cfgs).pmpaddr = s.pmpaddr := rfl
@[simp] theorem State.setPmpcfg_pmpPerm (s : State) (cfgs : List Byte) : (s.setPmpcfg cfgs).pmpPerm = s.pmpPerm := rfl
@[simp] theorem State.setPmpcfg_tlbs (s : State) (cfgs : List Byte) : (s.setPmpcfg cfgs).tlbs = s.tlbs := rfl
@[simp] theorem State.setPmpcfg_aliases (s : State) (cfgs : List Byte) : (s.setPmpcfg cfgs).aliases = s.aliases := rfl
@[simp] theorem State.setPmpcfg_pubKey (s : State) (cfgs : List Byte) : (s.setPmpcfg cfgs).pubKey = s.pubKey := rfl
@[simp] theorem State.setPmpcfg_dataMode (s : State) (cfgs : List Byte) : (s.setPmpcfg cfgs).dataMode = s.dataMode := rfl
@[simp] theorem State.setPmpcfg_ptwActive (s : State) (cfgs : List Byte) : (s.setPmpcfg cfgs).ptwActive = s.ptwActive := rfl
@[simp] theorem State.setPmpcfg_s2Active (s : State) (cfgs : List Byte) : (s.setPmpcfg cfgs).s2Active = s.s2Active := rfl
@[simp] theorem State.setPmpcfg_s1VA (s : State) (cfgs : List Byte) : (s.setPmpcfg cfgs).s1VA = s.s1VA := rfl
@[simp] theorem State.setPmpcfg_afault (s : State) (cfgs : List Byte) : (s.setPmpcfg cfgs).afault = s.afault := rfl
@[simp] theorem State.setPmpcfg_env (s : State) (cfgs : List Byte) : (s.setPmpcfg cfgs).env = s.env := rfl
@[simp] theorem State.setPmpcfg_mem (s : State) (cfgs : List Byte) : (s.setPmpcfg cfgs).mem = s.mem := rfl
@[simp] theorem State.setPmpcfg_input (s : State) (cfgs : List Byte) : (s.setPmpcfg cfgs).input = s.input := rfl
@[simp] theorem State.setPmpcfg_response (s : State) (cfgs : List Byte) : (s.setPmpcfg cfgs).response = s.response := rfl
@[simp] theorem State.setPmpcfg_traffic (s : State) (cfgs : List Byte) : (s.setPmpcfg cfgs).traffic = s.traffic := rfl
@[simp] theorem State.setPmpcfg_choice (s : State) (cfgs : List Byte) : (s.setPmpcfg cfgs).choice = s.choice := rfl
@[simp] theorem State.setPmpcfg_nextHandle (s : State) (cfgs : List Byte) : (s.setPmpcfg cfgs).nextHandle = s.nextHandle := rfl

/-! ### State.setPmpaddr -/

@[simp] theorem State.setPmpaddr_params (s : State) (addrs : List U64) : (s.setPmpaddr addrs).params = s.params := rfl
@[simp] theorem State.setPmpaddr_pmpcfg (s : State) (addrs : List U64) : (s.setPmpaddr addrs).pmpcfg = s.pmpcfg := rfl
@[simp] theorem State.setPmpaddr_pmpaddr (s : State) (addrs : List U64) : (s.setPmpaddr addrs).pmpaddr = addrs := rfl
@[simp] theorem State.setPmpaddr_pmpPerm (s : State) (addrs : List U64) : (s.setPmpaddr addrs).pmpPerm = s.pmpPerm := rfl
@[simp] theorem State.setPmpaddr_tlbs (s : State) (addrs : List U64) : (s.setPmpaddr addrs).tlbs = s.tlbs := rfl
@[simp] theorem State.setPmpaddr_aliases (s : State) (addrs : List U64) : (s.setPmpaddr addrs).aliases = s.aliases := rfl
@[simp] theorem State.setPmpaddr_pubKey (s : State) (addrs : List U64) : (s.setPmpaddr addrs).pubKey = s.pubKey := rfl
@[simp] theorem State.setPmpaddr_dataMode (s : State) (addrs : List U64) : (s.setPmpaddr addrs).dataMode = s.dataMode := rfl
@[simp] theorem State.setPmpaddr_ptwActive (s : State) (addrs : List U64) : (s.setPmpaddr addrs).ptwActive = s.ptwActive := rfl
@[simp] theorem State.setPmpaddr_s2Active (s : State) (addrs : List U64) : (s.setPmpaddr addrs).s2Active = s.s2Active := rfl
@[simp] theorem State.setPmpaddr_s1VA (s : State) (addrs : List U64) : (s.setPmpaddr addrs).s1VA = s.s1VA := rfl
@[simp] theorem State.setPmpaddr_afault (s : State) (addrs : List U64) : (s.setPmpaddr addrs).afault = s.afault := rfl
@[simp] theorem State.setPmpaddr_env (s : State) (addrs : List U64) : (s.setPmpaddr addrs).env = s.env := rfl
@[simp] theorem State.setPmpaddr_mem (s : State) (addrs : List U64) : (s.setPmpaddr addrs).mem = s.mem := rfl
@[simp] theorem State.setPmpaddr_input (s : State) (addrs : List U64) : (s.setPmpaddr addrs).input = s.input := rfl
@[simp] theorem State.setPmpaddr_response (s : State) (addrs : List U64) : (s.setPmpaddr addrs).response = s.response := rfl
@[simp] theorem State.setPmpaddr_traffic (s : State) (addrs : List U64) : (s.setPmpaddr addrs).traffic = s.traffic := rfl
@[simp] theorem State.setPmpaddr_choice (s : State) (addrs : List U64) : (s.setPmpaddr addrs).choice = s.choice := rfl
@[simp] theorem State.setPmpaddr_nextHandle (s : State) (addrs : List U64) : (s.setPmpaddr addrs).nextHandle = s.nextHandle := rfl

/-! ### State.setPmpPerm -/

@[simp] theorem State.setPmpPerm_params (s : State) (p : PmpPerm) : (s.setPmpPerm p).params = s.params := rfl
@[simp] theorem State.setPmpPerm_pmpcfg (s : State) (p : PmpPerm) : (s.setPmpPerm p).pmpcfg = s.pmpcfg := rfl
@[simp] theorem State.setPmpPerm_pmpaddr (s : State) (p : PmpPerm) : (s.setPmpPerm p).pmpaddr = s.pmpaddr := rfl
@[simp] theorem State.setPmpPerm_pmpPerm (s : State) (p : PmpPerm) : (s.setPmpPerm p).pmpPerm = p := rfl
@[simp] theorem State.setPmpPerm_tlbs (s : State) (p : PmpPerm) : (s.setPmpPerm p).tlbs = s.tlbs := rfl
@[simp] theorem State.setPmpPerm_aliases (s : State) (p : PmpPerm) : (s.setPmpPerm p).aliases = s.aliases := rfl
@[simp] theorem State.setPmpPerm_pubKey (s : State) (p : PmpPerm) : (s.setPmpPerm p).pubKey = s.pubKey := rfl
@[simp] theorem State.setPmpPerm_dataMode (s : State) (p : PmpPerm) : (s.setPmpPerm p).dataMode = s.dataMode := rfl
@[simp] theorem State.setPmpPerm_ptwActive (s : State) (p : PmpPerm) : (s.setPmpPerm p).ptwActive = s.ptwActive := rfl
@[simp] theorem State.setPmpPerm_s2Active (s : State) (p : PmpPerm) : (s.setPmpPerm p).s2Active = s.s2Active := rfl
@[simp] theorem State.setPmpPerm_s1VA (s : State) (p : PmpPerm) : (s.setPmpPerm p).s1VA = s.s1VA := rfl
@[simp] theorem State.setPmpPerm_afault (s : State) (p : PmpPerm) : (s.setPmpPerm p).afault = s.afault := rfl
@[simp] theorem State.setPmpPerm_env (s : State) (p : PmpPerm) : (s.setPmpPerm p).env = s.env := rfl
@[simp] theorem State.setPmpPerm_mem (s : State) (p : PmpPerm) : (s.setPmpPerm p).mem = s.mem := rfl
@[simp] theorem State.setPmpPerm_input (s : State) (p : PmpPerm) : (s.setPmpPerm p).input = s.input := rfl
@[simp] theorem State.setPmpPerm_response (s : State) (p : PmpPerm) : (s.setPmpPerm p).response = s.response := rfl
@[simp] theorem State.setPmpPerm_traffic (s : State) (p : PmpPerm) : (s.setPmpPerm p).traffic = s.traffic := rfl
@[simp] theorem State.setPmpPerm_choice (s : State) (p : PmpPerm) : (s.setPmpPerm p).choice = s.choice := rfl
@[simp] theorem State.setPmpPerm_nextHandle (s : State) (p : PmpPerm) : (s.setPmpPerm p).nextHandle = s.nextHandle := rfl

/-! ### State.setTlbs -/

@[simp] theorem State.setTlbs_params (s : State) (t : Tlbs) : (s.setTlbs t).params = s.params := rfl
@[simp] theorem State.setTlbs_pmpcfg (s : State) (t : Tlbs) : (s.setTlbs t).pmpcfg = s.pmpcfg := rfl
@[simp] theorem State.setTlbs_pmpaddr (s : State) (t : Tlbs) : (s.setTlbs t).pmpaddr = s.pmpaddr := rfl
@[simp] theorem State.setTlbs_pmpPerm (s : State) (t : Tlbs) : (s.setTlbs t).pmpPerm = s.pmpPerm := rfl
@[simp] theorem State.setTlbs_tlbs (s : State) (t : Tlbs) : (s.setTlbs t).tlbs = t := rfl
@[simp] theorem State.setTlbs_aliases (s : State) (t : Tlbs) : (s.setTlbs t).aliases = s.aliases := rfl
@[simp] theorem State.setTlbs_pubKey (s : State) (t : Tlbs) : (s.setTlbs t).pubKey = s.pubKey := rfl
@[simp] theorem State.setTlbs_dataMode (s : State) (t : Tlbs) : (s.setTlbs t).dataMode = s.dataMode := rfl
@[simp] theorem State.setTlbs_ptwActive (s : State) (t : Tlbs) : (s.setTlbs t).ptwActive = s.ptwActive := rfl
@[simp] theorem State.setTlbs_s2Active (s : State) (t : Tlbs) : (s.setTlbs t).s2Active = s.s2Active := rfl
@[simp] theorem State.setTlbs_s1VA (s : State) (t : Tlbs) : (s.setTlbs t).s1VA = s.s1VA := rfl
@[simp] theorem State.setTlbs_afault (s : State) (t : Tlbs) : (s.setTlbs t).afault = s.afault := rfl
@[simp] theorem State.setTlbs_env (s : State) (t : Tlbs) : (s.setTlbs t).env = s.env := rfl
@[simp] theorem State.setTlbs_mem (s : State) (t : Tlbs) : (s.setTlbs t).mem = s.mem := rfl
@[simp] theorem State.setTlbs_input (s : State) (t : Tlbs) : (s.setTlbs t).input = s.input := rfl
@[simp] theorem State.setTlbs_response (s : State) (t : Tlbs) : (s.setTlbs t).response = s.response := rfl
@[simp] theorem State.setTlbs_traffic (s : State) (t : Tlbs) : (s.setTlbs t).traffic = s.traffic := rfl
@[simp] theorem State.setTlbs_choice (s : State) (t : Tlbs) : (s.setTlbs t).choice = s.choice := rfl
@[simp] theorem State.setTlbs_nextHandle (s : State) (t : Tlbs) : (s.setTlbs t).nextHandle = s.nextHandle := rfl

/-! ### State.setAliases -/

@[simp] theorem State.setAliases_params (s : State) (a : AliasStore) : (s.setAliases a).params = s.params := rfl
@[simp] theorem State.setAliases_pmpcfg (s : State) (a : AliasStore) : (s.setAliases a).pmpcfg = s.pmpcfg := rfl
@[simp] theorem State.setAliases_pmpaddr (s : State) (a : AliasStore) : (s.setAliases a).pmpaddr = s.pmpaddr := rfl
@[simp] theorem State.setAliases_pmpPerm (s : State) (a : AliasStore) : (s.setAliases a).pmpPerm = s.pmpPerm := rfl
@[simp] theorem State.setAliases_tlbs (s : State) (a : AliasStore) : (s.setAliases a).tlbs = s.tlbs := rfl
@[simp] theorem State.setAliases_aliases (s : State) (a : AliasStore) : (s.setAliases a).aliases = a := rfl
@[simp] theorem State.setAliases_pubKey (s : State) (a : AliasStore) : (s.setAliases a).pubKey = s.pubKey := rfl
@[simp] theorem State.setAliases_dataMode (s : State) (a : AliasStore) : (s.setAliases a).dataMode = s.dataMode := rfl
@[simp] theorem State.setAliases_ptwActive (s : State) (a : AliasStore) : (s.setAliases a).ptwActive = s.ptwActive := rfl
@[simp] theorem State.setAliases_s2Active (s : State) (a : AliasStore) : (s.setAliases a).s2Active = s.s2Active := rfl
@[simp] theorem State.setAliases_s1VA (s : State) (a : AliasStore) : (s.setAliases a).s1VA = s.s1VA := rfl
@[simp] theorem State.setAliases_afault (s : State) (a : AliasStore) : (s.setAliases a).afault = s.afault := rfl
@[simp] theorem State.setAliases_env (s : State) (a : AliasStore) : (s.setAliases a).env = s.env := rfl
@[simp] theorem State.setAliases_mem (s : State) (a : AliasStore) : (s.setAliases a).mem = s.mem := rfl
@[simp] theorem State.setAliases_input (s : State) (a : AliasStore) : (s.setAliases a).input = s.input := rfl
@[simp] theorem State.setAliases_response (s : State) (a : AliasStore) : (s.setAliases a).response = s.response := rfl
@[simp] theorem State.setAliases_traffic (s : State) (a : AliasStore) : (s.setAliases a).traffic = s.traffic := rfl
@[simp] theorem State.setAliases_choice (s : State) (a : AliasStore) : (s.setAliases a).choice = s.choice := rfl
@[simp] theorem State.setAliases_nextHandle (s : State) (a : AliasStore) : (s.setAliases a).nextHandle = s.nextHandle := rfl

/-! ### State.takeHandle -/

@[simp] theorem State.takeHandle_params (s : State) : s.takeHandle.params = s.params := rfl
@[simp] theorem State.takeHandle_pmpcfg (s : State) : s.takeHandle.pmpcfg = s.pmpcfg := rfl
@[simp] theorem State.takeHandle_pmpaddr (s : State) : s.takeHandle.pmpaddr = s.pmpaddr := rfl
@[simp] theorem State.takeHandle_pmpPerm (s : State) : s.takeHandle.pmpPerm = s.pmpPerm := rfl
@[simp] theorem State.takeHandle_tlbs (s : State) : s.takeHandle.tlbs = s.tlbs := rfl
@[simp] theorem State.takeHandle_aliases (s : State) : s.takeHandle.aliases = s.aliases := rfl
@[simp] theorem State.takeHandle_pubKey (s : State) : s.takeHandle.pubKey = s.pubKey := rfl
@[simp] theorem State.takeHandle_dataMode (s : State) : s.takeHandle.dataMode = s.dataMode := rfl
@[simp] theorem State.takeHandle_ptwActive (s : State) : s.takeHandle.ptwActive = s.ptwActive := rfl
@[simp] theorem State.takeHandle_s2Active (s : State) : s.takeHandle.s2Active = s.s2Active := rfl
@[simp] theorem State.takeHandle_s1VA (s : State) : s.takeHandle.s1VA = s.s1VA := rfl
@[simp] theorem State.takeHandle_afault (s : State) : s.takeHandle.afault = s.afault := rfl
@[simp] theorem State.takeHandle_env (s : State) : s.takeHandle.env = s.env := rfl
@[simp] theorem State.takeHandle_mem (s : State) : s.takeHandle.mem = s.mem := rfl
@[simp] theorem State.takeHandle_input (s : State) : s.takeHandle.input = s.input := rfl
@[simp] theorem State.takeHandle_response (s : State) : s.takeHandle.response = s.response := rfl
@[simp] theorem State.takeHandle_traffic (s : State) : s.takeHandle.traffic = s.traffic := rfl
@[simp] theorem State.takeHandle_choice (s : State) : s.takeHandle.choice = s.choice := rfl
@[simp] theorem State.takeHandle_nextHandle (s : State) : s.takeHandle.nextHandle = s.nextHandle + 1 := rfl

/-! ### State.begin -/

@[simp] theorem State.begin_params (s : State) (rest : List Input) : (s.begin rest).params = s.params := rfl
@[simp] theorem State.begin_pmpcfg (s : State) (rest : List Input) : (s.begin rest).pmpcfg = s.pmpcfg := rfl
@[simp] theorem State.begin_pmpaddr (s : State) (rest : List Input) : (s.begin rest).pmpaddr = s.pmpaddr := rfl
@[simp] theorem State.begin_pmpPerm (s : State) (rest : List Input) : (s.begin rest).pmpPerm = s.pmpPerm := rfl
@[simp] theorem State.begin_tlbs (s : State) (rest : List Input) : (s.begin rest).tlbs = s.tlbs := rfl
@[simp] theorem State.begin_aliases (s : State) (rest : List Input) : (s.begin rest).aliases = s.aliases := rfl
@[simp] theorem State.begin_pubKey (s : State) (rest : List Input) : (s.begin rest).pubKey = s.pubKey := rfl
@[simp] theorem State.begin_dataMode (s : State) (rest : List Input) : (s.begin rest).dataMode = s.dataMode := rfl
@[simp] theorem State.begin_ptwActive (s : State) (rest : List Input) : (s.begin rest).ptwActive = s.ptwActive := rfl
@[simp] theorem State.begin_s2Active (s : State) (rest : List Input) : (s.begin rest).s2Active = s.s2Active := rfl
@[simp] theorem State.begin_s1VA (s : State) (rest : List Input) : (s.begin rest).s1VA = s.s1VA := rfl
@[simp] theorem State.begin_afault (s : State) (rest : List Input) : (s.begin rest).afault = s.afault := rfl
@[simp] theorem State.begin_env (s : State) (rest : List Input) : (s.begin rest).env = s.env := rfl
@[simp] theorem State.begin_mem (s : State) (rest : List Input) : (s.begin rest).mem = s.mem := rfl
@[simp] theorem State.begin_input (s : State) (rest : List Input) : (s.begin rest).input = rest := rfl
@[simp] theorem State.begin_response (s : State) (rest : List Input) : (s.begin rest).response = .noReply := rfl
@[simp] theorem State.begin_traffic (s : State) (rest : List Input) : (s.begin rest).traffic = [] := rfl
@[simp] theorem State.begin_choice (s : State) (rest : List Input) : (s.begin rest).choice = s.choice := rfl
@[simp] theorem State.begin_nextHandle (s : State) (rest : List Input) : (s.begin rest).nextHandle = s.nextHandle := rfl

/-! ### State.setTlb -/

@[simp] theorem State.setTlb_params (s : State) (t : TlbId) (es : List Entry) : (s.setTlb t es).params = s.params := rfl
@[simp] theorem State.setTlb_pmpcfg (s : State) (t : TlbId) (es : List Entry) : (s.setTlb t es).pmpcfg = s.pmpcfg := rfl
@[simp] theorem State.setTlb_pmpaddr (s : State) (t : TlbId) (es : List Entry) : (s.setTlb t es).pmpaddr = s.pmpaddr := rfl
@[simp] theorem State.setTlb_pmpPerm (s : State) (t : TlbId) (es : List Entry) : (s.setTlb t es).pmpPerm = s.pmpPerm := rfl
@[simp] theorem State.setTlb_tlbs (s : State) (t : TlbId) (es : List Entry) : (s.setTlb t es).tlbs = s.tlbs.put t es := rfl
@[simp] theorem State.setTlb_aliases (s : State) (t : TlbId) (es : List Entry) : (s.setTlb t es).aliases = s.aliases := rfl
@[simp] theorem State.setTlb_pubKey (s : State) (t : TlbId) (es : List Entry) : (s.setTlb t es).pubKey = s.pubKey := rfl
@[simp] theorem State.setTlb_dataMode (s : State) (t : TlbId) (es : List Entry) : (s.setTlb t es).dataMode = s.dataMode := rfl
@[simp] theorem State.setTlb_ptwActive (s : State) (t : TlbId) (es : List Entry) : (s.setTlb t es).ptwActive = s.ptwActive := rfl
@[simp] theorem State.setTlb_s2Active (s : State) (t : TlbId) (es : List Entry) : (s.setTlb t es).s2Active = s.s2Active := rfl
@[simp] theorem State.setTlb_s1VA (s : State) (t : TlbId) (es : List Entry) : (s.setTlb t es).s1VA = s.s1VA := rfl
@[simp] theorem State.setTlb_afault (s : State) (t : TlbId) (es : List Entry) : (s.setTlb t es).afault = s.afault := rfl
@[simp] theorem State.setTlb_env (s : State) (t : TlbId) (es : List Entry) : (s.setTlb t es).env = s.env := rfl
@[simp] theorem State.setTlb_mem (s : State) (t : TlbId) (es : List Entry) : (s.setTlb t es).mem = s.mem := rfl
@[simp] theorem State.setTlb_input (s : State) (t : TlbId) (es : List Entry) : (s.setTlb t es).input = s.input := rfl
@[simp] theorem State.setTlb_response (s : State) (t : TlbId) (es : List Entry) : (s.setTlb t es).response = s.response := rfl
@[simp] theorem State.setTlb_traffic (s : State) (t : TlbId) (es : List Entry) : (s.setTlb t es).traffic = s.traffic := rfl
@[simp] theorem State.setTlb_choice (s : State) (t : TlbId) (es : List Entry) : (s.setTlb t es).choice = s.choice := rfl
@[simp] theorem State.setTlb_nextHandle (s : State) (t : TlbId) (es : List Entry) : (s.setTlb t es).nextHandle = s.nextHandle := rfl

/-! ### State.setAliasesOf -/

@[simp] theorem State.setAliasesOf_params (s : State) (mode : Mode5) (l : List Alias) : (s.setAliasesOf mode l).params = s.params := rfl
@[simp] theorem State.setAliasesOf_pmpcfg (s : State) (mode : Mode5) (l : List Alias) : (s.setAliasesOf mode l).pmpcfg = s.pmpcfg := rfl
@[simp] theorem State.setAliasesOf_pmpaddr (s : State) (mode : Mode5) (l : List Alias) : (s.setAliasesOf mode l).pmpaddr = s.pmpaddr := rfl
@[simp] theorem State.setAliasesOf_pmpPerm (s : State) (mode : Mode5) (l : List Alias) : (s.setAliasesOf mode l).pmpPerm = s.pmpPerm := rfl
@[simp] theorem State.setAliasesOf_tlbs (s : State) (mode : Mode5) (l : List Alias) : (s.setAliasesOf mode l).tlbs = s.tlbs := rfl
@[simp] theorem State.setAliasesOf_aliases (s : State) (mode : Mode5) (l : List Alias) : (s.setAliasesOf mode l).aliases = s.aliases.put mode l := rfl
@[simp] theorem State.setAliasesOf_pubKey (s : State) (mode : Mode5) (l : List Alias) : (s.setAliasesOf mode l).pubKey = s.pubKey := rfl
@[simp] theorem State.setAliasesOf_dataMode (s : State) (mode : Mode5) (l : List Alias) : (s.setAliasesOf mode l).dataMode = s.dataMode := rfl
@[simp] theorem State.setAliasesOf_ptwActive (s : State) (mode : Mode5) (l : List Alias) : (s.setAliasesOf mode l).ptwActive = s.ptwActive := rfl
@[simp] theorem State.setAliasesOf_s2Active (s : State) (mode : Mode5) (l : List Alias) : (s.setAliasesOf mode l).s2Active = s.s2Active := rfl
@[simp] theorem State.setAliasesOf_s1VA (s : State) (mode : Mode5) (l : List Alias) : (s.setAliasesOf mode l).s1VA = s.s1VA := rfl
@[simp] theorem State.setAliasesOf_afault (s : State) (mode : Mode5) (l : List Alias) : (s.setAliasesOf mode l).afault = s.afault := rfl
@[simp] theorem State.setAliasesOf_env (s : State) (mode : Mode5) (l : List Alias) : (s.setAliasesOf mode l).env = s.env := rfl
@[simp] theorem State.setAliasesOf_mem (s : State) (mode : Mode5) (l : List Alias) : (s.setAliasesOf mode l).mem = s.mem := rfl
@[simp] theorem State.setAliasesOf_input (s : State) (mode : Mode5) (l : List Alias) : (s.setAliasesOf mode l).input = s.input := rfl
@[simp] theorem State.setAliasesOf_response (s : State) (mode : Mode5) (l : List Alias) : (s.setAliasesOf mode l).response = s.response := rfl
@[simp] theorem State.setAliasesOf_traffic (s : State) (mode : Mode5) (l : List Alias) : (s.setAliasesOf mode l).traffic = s.traffic := rfl
@[simp] theorem State.setAliasesOf_choice (s : State) (mode : Mode5) (l : List Alias) : (s.setAliasesOf mode l).choice = s.choice := rfl
@[simp] theorem State.setAliasesOf_nextHandle (s : State) (mode : Mode5) (l : List Alias) : (s.setAliasesOf mode l).nextHandle = s.nextHandle := rfl

/-! ### Stores -/

@[simp] theorem Tlbs.get_put_same (x : Tlbs) (t : TlbId) (es : List Entry) : (x.put t es).get t = es := by
  cases t <;> rfl

theorem Tlbs.get_put_ne (x : Tlbs) (t u : TlbId) (es : List Entry) (h : u ≠ t) : (x.put t es).get u = x.get u := by
  cases t <;> cases u <;> first | rfl | exact absurd rfl h

@[simp] theorem AliasStore.get_put_same (x : AliasStore) (m : Mode5) (l : List Alias) : (x.put m l).get m = l := by
  cases m <;> rfl

theorem AliasStore.get_put_ne (x : AliasStore) (m n : Mode5) (l : List Alias) (h : n ≠ m) :
    (x.put m l).get n = x.get n := by
  cases m <;> cases n <;> first | rfl | exact absurd rfl h

@[simp] theorem PmpPerm.get_put_same (x : PmpPerm) (b : BaseMode) (k : AccessKind) (m : PermMap) :
    (x.put b k m).get b k = m := by
  cases b <;> cases k <;> rfl

theorem PmpPerm.get_put_ne (x : PmpPerm) (b c : BaseMode) (k l : AccessKind) (m : PermMap) (h : ¬(c = b ∧ l = k)) :
    (x.put b k m).get c l = x.get c l := by
  cases b <;> cases c <;> cases k <;> cases l <;> first | rfl | exact absurd ⟨rfl, rfl⟩ h

@[simp] theorem State.setTlb_tlb_same (s : State) (t : TlbId) (es : List Entry) : (s.setTlb t es).tlb t = es :=
  Tlbs.get_put_same s.tlbs t es

theorem State.setTlb_tlb_ne (s : State) (t u : TlbId) (es : List Entry) (h : u ≠ t) :
    (s.setTlb t es).tlb u = s.tlb u :=
  Tlbs.get_put_ne s.tlbs t u es h

@[simp] theorem State.setAliasesOf_same (s : State) (m : Mode5) (l : List Alias) :
    (s.setAliasesOf m l).aliasesOf m = l :=
  AliasStore.get_put_same s.aliases m l

theorem State.setAliasesOf_ne (s : State) (m n : Mode5) (l : List Alias) (h : n ≠ m) :
    (s.setAliasesOf m l).aliasesOf n = s.aliasesOf n :=
  AliasStore.get_put_ne s.aliases m n l h

theorem Tlbs.ext_get (x y : Tlbs) (h : ∀ t, x.get t = y.get t) : x = y := by
  cases x; cases y
  have h1 := h .hs
  have h2 := h .vs1
  have h3 := h .vs2
  simp_all [Tlbs.get]

end Sys2Proof.Machine
end

