-- ==== Sys2Proof/Laws/Tlb.lean ====
section
/-! SUPPORT. The TLB and alias stores: free orders are permutations, what a delete, a find, an insert and an invalidation
change, and that they keep the store linked. -/

namespace Sys2Proof.Machine

/-! ### Free orders -/

theorem freeInsert_perm {α : Type} (k : Nat) (x : α) (l : List α) : (freeInsert k x l).Perm (x :: l) := by
  cases l with
  | nil => exact List.Perm.refl _
  | cons y ys =>
    unfold freeInsert
    refine List.perm_middle.trans (List.Perm.cons x ?_)
    rw [List.take_append_drop]

/-- Whatever the free values are, the order is an order of the same entries. -/
theorem freeOrder_perm {α : Type} (c : Nat) (l : List α) : (freeOrder c l).Perm l := by
  induction l with
  | nil => exact List.Perm.refl _
  | cons x xs ih => exact (freeInsert_perm _ x _).trans (List.Perm.cons x ih)

theorem insertByLow_perm (e : Entry) (l : List Entry) : (insertByLow e l).Perm (e :: l) := by
  induction l with
  | nil => exact List.Perm.refl _
  | cons f fs ih =>
    unfold insertByLow
    split
    · exact List.Perm.refl _
    · exact (List.Perm.cons f ih).trans (List.Perm.swap e f fs)

theorem sortByLow_perm (l : List Entry) : (sortByLow l).Perm l := by
  have aux : ∀ (l acc : List Entry), (l.foldl (fun acc e => insertByLow e acc) acc).Perm (l ++ acc) := by
    intro l
    induction l with
    | nil => intro acc; exact List.Perm.refl _
    | cons e es ih =>
      intro acc
      refine (ih (insertByLow e acc)).trans ?_
      refine (List.Perm.append_left es (insertByLow_perm e acc)).trans ?_
      exact List.perm_middle
  have := aux l []
  rwa [List.append_nil] at this

/-- A listing shows the entries of its TLB, each as often as it is there. -/
theorem State.listing_perm (s : State) (t : TlbId) : (s.listing t).Perm (s.tlb t) :=
  (sortByLow_perm _).trans (freeOrder_perm _ _)

theorem State.listing_length (s : State) (t : TlbId) : (s.listing t).length = (s.tlb t).length :=
  (s.listing_perm t).length_eq

theorem insertByLow_ascending (e : Entry) (l : List Entry) (h : ascending l) : ascending (insertByLow e l) := by
  induction l with
  | nil => simp [insertByLow, ascending]
  | cons f fs ih =>
    unfold ascending at h
    rw [List.pairwise_cons] at h
    unfold insertByLow
    split
    · rename_i hlt
      unfold ascending
      rw [List.pairwise_cons]
      refine ⟨fun g hg => ?_, List.pairwise_cons.2 h⟩
      rcases List.mem_cons.1 hg with rfl | hg
      · exact BitVec.le_of_lt hlt
      · exact BitVec.le_trans (BitVec.le_of_lt hlt) (h.1 g hg)
    · rename_i hlt
      unfold ascending
      rw [List.pairwise_cons]
      refine ⟨fun g hg => ?_, ih h.2⟩
      rcases List.mem_cons.1 ((insertByLow_perm e fs).mem_iff.1 hg) with rfl | hg
      · exact BitVec.not_lt.1 hlt
      · exact h.1 g hg

/-- A listing is in ascending `lowVA`. -/
theorem State.listing_ascending (s : State) (t : TlbId) : ascending (s.listing t) := by
  have aux : ∀ (l acc : List Entry), ascending acc → ascending (l.foldl (fun acc e => insertByLow e acc) acc) := by
    intro l
    induction l with
    | nil => intro acc h; exact h
    | cons e es ih => intro acc h; exact ih _ (insertByLow_ascending e acc h)
  exact aux _ [] List.Pairwise.nil

/-! ### Deletion -/

/-- Removing aliases changes the alias store only. -/
theorem State.removeAliases_eq (s : State) (mode : Mode5) (e : Entry) :
    ∃ a, s.removeAliases mode e = s.setAliases a :=
  ⟨_, rfl⟩

theorem State.foldl_removeAliases_eq (l : List Mode5) (s : State) (e : Entry) :
    ∃ a, l.foldl (fun st mode => st.removeAliases mode e) s = s.setAliases a := by
  induction l generalizing s with
  | nil => exact ⟨s.aliases, rfl⟩
  | cons m ms ih =>
    obtain ⟨a, ha⟩ := s.removeAliases_eq m e
    obtain ⟨b, hb⟩ := ih (s.setAliases a)
    exact ⟨b, by rw [List.foldl_cons, ha, hb]; rfl⟩

theorem State.foldl_removeAliases_aliases (l : List Mode5) (s : State) (e : Entry) (mode : Mode5) :
    (l.foldl (fun st mode => st.removeAliases mode e) s).aliasesOf mode
      = if mode ∈ l then (s.aliasesOf mode).filter (fun a => !builtFrom a e) else s.aliasesOf mode := by
  induction l generalizing s with
  | nil => simp
  | cons m ms ih =>
    rw [List.foldl_cons, ih]
    by_cases hm : mode = m
    · subst hm
      simp only [State.removeAliases, State.setAliasesOf_same, List.mem_cons, true_or, if_true]
      split
      · rw [List.filter_filter]
        simp
      · rfl
    · have : (s.removeAliases m e).aliasesOf mode = s.aliasesOf mode := State.setAliasesOf_ne s m mode _ hm
      simp only [this, List.mem_cons, hm, false_or]

/-- `TLB_DELETE` changes the TLBs and the alias store only. -/
theorem State.tlbDelete_eq (s : State) (e : Entry) : ∃ a t, s.tlbDelete e = (s.setAliases a).setTlbs t := by
  obtain ⟨a, ha⟩ := State.foldl_removeAliases_eq (mappedModes e) s e
  exact ⟨a, _, by unfold State.tlbDelete; rw [ha]; rfl⟩

/-- The entries a deletion leaves: those with another handle. -/
theorem State.tlbDelete_tlb (s : State) (e : Entry) (t : TlbId) :
    (s.tlbDelete e).tlb t
      = (s.tlb t).filter (fun f => !(decide (e.tlb = t) && decide (f.lutEntry = e.lutEntry))) := by
  obtain ⟨a, ha⟩ := State.foldl_removeAliases_eq (mappedModes e) s e
  unfold State.tlbDelete
  simp only [ha]
  by_cases h : t = e.tlb
  · subst h
    rw [State.setTlb_tlb_same]
    simp
    rfl
  · rw [State.setTlb_tlb_ne _ _ _ _ h]
    have : ¬e.tlb = t := fun hh => h hh.symm
    exact (List.filter_eq_self.2 (fun f _ => by simp [this])).symm

/-- The aliases a deletion leaves: those not built from the entry, in the modes it is mapped in. -/
theorem State.tlbDelete_aliases (s : State) (e : Entry) (mode : Mode5) :
    (s.tlbDelete e).aliasesOf mode
      = (s.aliasesOf mode).filter (fun a => !(decide (mode ∈ mappedModes e) && builtFrom a e)) := by
  have h : (s.tlbDelete e).aliasesOf mode
      = ((mappedModes e).foldl (fun st mode => st.removeAliases mode e) s).aliasesOf mode := rfl
  rw [h, State.foldl_removeAliases_aliases]
  split
  · rename_i hm
    simp [hm]
  · rename_i hm
    exact (List.filter_eq_self.2 (fun f _ => by simp [hm])).symm

/-- Deleting entries one after another changes the TLBs and the alias store only. -/
theorem State.foldl_tlbDelete_eq (l : List Entry) (s : State) :
    ∃ a t, l.foldl State.tlbDelete s = (s.setAliases a).setTlbs t := by
  induction l generalizing s with
  | nil => exact ⟨s.aliases, s.tlbs, rfl⟩
  | cons e es ih =>
    obtain ⟨a, t, h⟩ := s.tlbDelete_eq e
    obtain ⟨b, u, h'⟩ := ih (s.tlbDelete e)
    exact ⟨b, u, by rw [List.foldl_cons, h', h]; rfl⟩

/-- What is left after deleting entries one after another. -/
theorem State.foldl_tlbDelete_tlb (l : List Entry) (s : State) (t : TlbId) :
    (l.foldl State.tlbDelete s).tlb t
      = (s.tlb t).filter (fun f => l.all fun e => !(decide (e.tlb = t) && decide (f.lutEntry = e.lutEntry))) := by
  induction l generalizing s with
  | nil => exact (List.filter_eq_self.2 (fun f _ => rfl)).symm
  | cons e es ih =>
    rw [List.foldl_cons, ih, State.tlbDelete_tlb, List.filter_filter]
    refine List.filter_congr (fun f _ => ?_)
    rw [List.all_cons, Bool.and_comm]

/-- The aliases left after deleting entries one after another. -/
theorem State.foldl_tlbDelete_aliases (l : List Entry) (s : State) (mode : Mode5) :
    (l.foldl State.tlbDelete s).aliasesOf mode
      = (s.aliasesOf mode).filter (fun a => l.all fun e => !(decide (mode ∈ mappedModes e) && builtFrom a e)) := by
  induction l generalizing s with
  | nil => exact (List.filter_eq_self.2 (fun f _ => rfl)).symm
  | cons e es ih =>
    rw [List.foldl_cons, ih, State.tlbDelete_aliases, List.filter_filter]
    refine List.filter_congr (fun f _ => ?_)
    rw [List.all_cons, Bool.and_comm]

/-! ### Handles -/

/-- In a linked store two entries of the three TLBs with one handle are one entry. -/
theorem State.linksOk_unique {s : State} (h : s.linksOk) {t u : TlbId} {e f : Entry} (he : e ∈ s.tlb t)
    (hf : f ∈ s.tlb u) (hh : e.lutEntry = f.lutEntry) : e = f := by
  have mem : ∀ (v : TlbId) (g : Entry), g ∈ s.tlb v → g ∈ s.entries := by
    intro v g hg
    unfold State.entries
    cases v
    · exact List.mem_append_left _ hg
    · exact List.mem_append_right _ (List.mem_append_left _ hg)
    · exact List.mem_append_right _ (List.mem_append_right _ hg)
  have aux : ∀ l : List Entry, (l.map fun e => e.lutEntry).Nodup → ∀ a ∈ l, ∀ b ∈ l, a.lutEntry = b.lutEntry → a = b := by
    intro l
    induction l with
    | nil => intro _ a ha; simp at ha
    | cons x xs ih =>
      intro hn a ha b hb hab
      rw [List.map_cons, List.nodup_cons] at hn
      rcases List.mem_cons.1 ha with ha' | ha' <;> rcases List.mem_cons.1 hb with hb' | hb'
      · rw [ha', hb']
      · exact absurd (List.mem_map.2 ⟨b, hb', by rw [← hab, ha']⟩) hn.1
      · exact absurd (List.mem_map.2 ⟨a, ha', by rw [hab, hb']⟩) hn.1
      · exact ih hn.2 a ha' b hb' hab
  exact aux s.entries h.2 e (mem t e he) f (mem u f hf) hh

/-- In a linked store, deleting entries of `TLB[t]` one after another leaves exactly the others. -/
theorem State.foldl_tlbDelete_linked {s : State} (h : s.linksOk) (t : TlbId) (p : Entry → Bool) :
    (((s.tlb t).filter p).foldl State.tlbDelete s).tlb t = (s.tlb t).filter (fun e => !p e) := by
  rw [State.foldl_tlbDelete_tlb]
  refine List.filter_congr (fun f hf => ?_)
  by_cases hp : p f = true
  · have : f ∈ (s.tlb t).filter p := List.mem_filter.2 ⟨hf, hp⟩
    have ht : f.tlb = t := (h.1 t f hf).1
    simp only [hp, Bool.not_true]
    rw [List.all_eq_false]
    exact ⟨f, this, by simp [ht]⟩
  · have hp' : p f = false := by simpa using hp
    rw [hp']
    show _ = true
    rw [List.all_eq_true]
    intro e he
    obtain ⟨he1, he2⟩ := List.mem_filter.1 he
    have : f.lutEntry ≠ e.lutEntry := by
      intro hh
      have := State.linksOk_unique h hf he1 hh
      subst this
      exact hp he2
    simp [this]

/-- Deleting entries of `TLB[t]` leaves the other TLBs alone. -/
theorem State.foldl_tlbDelete_other {s : State} (h : s.linksOk) (t u : TlbId) (hu : u ≠ t) (p : Entry → Bool) :
    (((s.tlb t).filter p).foldl State.tlbDelete s).tlb u = s.tlb u := by
  rw [State.foldl_tlbDelete_tlb, List.filter_eq_self]
  intro f _
  rw [List.all_eq_true]
  intro e he
  have : e.tlb = t := (h.1 t e (List.mem_filter.1 he).1).1
  have : ¬e.tlb = u := by
    intro hh
    exact hu (hh.symm.trans this)
  simp [this]

/-! ### Find and insert -/

/-- `Match` reads the inputs only. -/
theorem State.matchEntry_congr {s t : State} (hp : t.params = s.params) (he : t.env = s.env) (e : Entry) :
    t.matchEntry e = s.matchEntry e := by
  simp only [State.matchEntry, State.matchAsid, State.matchVmid, State.satpAsid, State.vsatpAsid, State.hgatpVmid, hp, he]

/-- Everything the loop of `TLB_FIND` does: it deletes some artifact entries of the list, and returns a matching entry that
is none, or no matching non-artifact entry is in the list. -/
theorem tlbFindIn_spec (l : List Entry) (s : State) :
    ∃ del : List Entry, (∀ e ∈ del, e ∈ l ∧ e.artifact = true)
      ∧ (tlbFindIn l s).2 = del.foldl State.tlbDelete s
      ∧ (∀ e, (tlbFindIn l s).1 = some e → e ∈ l ∧ e.artifact = false ∧ s.matchEntry e = true)
      ∧ ((tlbFindIn l s).1 = none → (∀ e ∈ l, e.artifact = true → e ∈ del)
          ∧ ∀ e ∈ l, e.artifact = false → s.matchEntry e = false) := by
  induction l generalizing s with
  | nil => exact ⟨[], by simp, rfl, by simp [tlbFindIn], by simp⟩
  | cons e es ih =>
    unfold tlbFindIn
    by_cases ha : e.artifact = true
    · simp only [ha, if_true]
      obtain ⟨del, h1, h2, h3, h4⟩ := ih (s.tlbDelete e)
      obtain ⟨a, t, hd⟩ := s.tlbDelete_eq e
      have hm : ∀ f, (s.tlbDelete e).matchEntry f = s.matchEntry f :=
        fun f => State.matchEntry_congr (by rw [hd]; rfl) (by rw [hd]; rfl) f
      refine ⟨e :: del, ?_, by rw [h2]; rfl, ?_, ?_⟩
      · intro f hf
        rcases List.mem_cons.1 hf with rfl | hf
        · exact ⟨by simp, ha⟩
        · exact ⟨by simp [(h1 f hf).1], (h1 f hf).2⟩
      · intro f hf
        obtain ⟨m1, m2, m3⟩ := h3 f hf
        exact ⟨by simp [m1], m2, by rw [← hm f]; exact m3⟩
      · intro hn
        obtain ⟨n1, n2⟩ := h4 hn
        refine ⟨fun f hf hfa => ?_, fun f hf hfa => ?_⟩
        · rcases List.mem_cons.1 hf with rfl | hf
          · simp
          · simp [n1 f hf hfa]
        · rcases List.mem_cons.1 hf with rfl | hf
          · rw [ha] at hfa; cases hfa
          · rw [← hm f]; exact n2 f hf hfa
    · have ha' : e.artifact = false := by simpa using ha
      simp only [ha', Bool.false_eq_true, if_false]
      by_cases hm : s.matchEntry e = true
      · simp only [hm, if_true]
        refine ⟨[], by simp, rfl, ?_, by simp⟩
        intro f hf
        simp only [Option.some.injEq] at hf
        subst hf
        exact ⟨by simp, ha', hm⟩
      · rw [if_neg hm]
        obtain ⟨del, h1, h2, h3, h4⟩ := ih s
        refine ⟨del, fun f hf => ⟨by simp [(h1 f hf).1], (h1 f hf).2⟩, h2, ?_, ?_⟩
        · intro f hf
          obtain ⟨m1, m2, m3⟩ := h3 f hf
          exact ⟨by simp [m1], m2, m3⟩
        · intro hn
          obtain ⟨n1, n2⟩ := h4 hn
          refine ⟨fun f hf hfa => ?_, fun f hf hfa => ?_⟩
          · rcases List.mem_cons.1 hf with rfl | hf
            · exact absurd hfa ha
            · exact n1 f hf hfa
          · rcases List.mem_cons.1 hf with rfl | hf
            · simpa using hm
            · exact n2 f hf hfa

/-- Everything `TLB_FIND` does, whatever the free order: it deletes some artifact entries that overlap the address, and
returns an overlapping matching entry that is none, or there is no such entry. -/
theorem State.tlbFind_spec (s : State) (t : TlbId) (x : U64) :
    ∃ del : List Entry, (∀ e ∈ del, e ∈ s.tlb t ∧ covers e x = true ∧ e.artifact = true)
      ∧ (s.tlbFind t x).2 = del.foldl State.tlbDelete (s.draw (s.overlapping t x).length)
      ∧ (∀ e, (s.tlbFind t x).1 = some e →
          e ∈ s.tlb t ∧ covers e x = true ∧ e.artifact = false ∧ s.matchEntry e = true)
      ∧ ((s.tlbFind t x).1 = none →
          (∀ e ∈ s.tlb t, covers e x = true → e.artifact = true → e ∈ del)
          ∧ ∀ e ∈ s.tlb t, covers e x = true → e.artifact = false → s.matchEntry e = false) := by
  have hp := freeOrder_perm s.choice (s.overlapping t x)
  have hmem : ∀ e, e ∈ freeOrder s.choice (s.overlapping t x) ↔ e ∈ s.tlb t ∧ covers e x = true := by
    intro e
    rw [hp.mem_iff]
    exact List.mem_filter
  have hm : ∀ f, (s.draw (s.overlapping t x).length).matchEntry f = s.matchEntry f :=
    fun f => State.matchEntry_congr rfl rfl f
  obtain ⟨del, h1, h2, h3, h4⟩ := tlbFindIn_spec (freeOrder s.choice (s.overlapping t x))
    (s.draw (s.overlapping t x).length)
  refine ⟨del, ?_, h2, ?_, ?_⟩
  · intro e he
    obtain ⟨m1, m2⟩ := h1 e he
    obtain ⟨m3, m4⟩ := (hmem e).1 m1
    exact ⟨m3, m4, m2⟩
  · intro e he
    obtain ⟨m1, m2, m3⟩ := h3 e he
    obtain ⟨m4, m5⟩ := (hmem e).1 m1
    exact ⟨m4, m5, m2, by rw [← hm e]; exact m3⟩
  · intro hn
    obtain ⟨n1, n2⟩ := h4 hn
    exact ⟨fun e he hc ha => n1 e ((hmem e).2 ⟨he, hc⟩) ha,
      fun e he hc ha => by rw [← hm e]; exact n2 e ((hmem e).2 ⟨he, hc⟩) ha⟩

/-- `TLB_INSERT` changes the TLBs and gives out a handle. -/
theorem State.tlbInsert_snd (s : State) (e : Entry) :
    (s.tlbInsert e).2 = (s.takeHandle).setTlb e.tlb (s.tlb e.tlb ++ [(s.tlbInsert e).1]) :=
  rfl

/-- The linked copy of an inserted entry differs in its handle only. -/
theorem State.tlbInsert_fst (s : State) (e : Entry) :
    (s.tlbInsert e).1 = { e with lutEntry := some s.nextHandle } :=
  rfl

/-! ### Keeping the store linked -/

theorem State.entries_tlb (s : State) : s.entries = s.tlb .hs ++ (s.tlb .vs1 ++ s.tlb .vs2) :=
  rfl

theorem State.mem_entries (s : State) (e : Entry) : e ∈ s.entries ↔ ∃ t, e ∈ s.tlb t := by
  rw [State.entries_tlb, List.mem_append, List.mem_append]
  constructor
  · rintro (h | h | h)
    · exact ⟨_, h⟩
    · exact ⟨_, h⟩
    · exact ⟨_, h⟩
  · rintro ⟨t, h⟩
    cases t
    · exact .inl h
    · exact .inr (.inl h)
    · exact .inr (.inr h)

/-- A store whose TLBs are filtered stays linked. -/
theorem State.linksOk_filter {s t : State} (h : s.linksOk) (hn : t.nextHandle = s.nextHandle)
    (p : TlbId → Entry → Bool) (ht : ∀ i, t.tlb i = (s.tlb i).filter (p i)) : t.linksOk := by
  refine ⟨fun i e he => ?_, ?_⟩
  · rw [ht i] at he
    rw [hn]
    exact h.1 i e (List.mem_filter.1 he).1
  · rw [State.entries_tlb, ht, ht, ht]
    refine List.Nodup.sublist ?_ h.2
    rw [State.entries_tlb]
    exact (List.filter_sublist.append (List.filter_sublist.append List.filter_sublist)).map _

/-- Deleting an entry keeps the store linked. -/
theorem State.linksOk_delete {s : State} (h : s.linksOk) (e : Entry) : (s.tlbDelete e).linksOk := by
  obtain ⟨a, t, hd⟩ := s.tlbDelete_eq e
  exact State.linksOk_filter h (by rw [hd]; rfl) _ (fun i => s.tlbDelete_tlb e i)

/-- Deleting entries keeps the store linked. -/
theorem State.linksOk_deleteAll {s : State} (h : s.linksOk) (l : List Entry) :
    (l.foldl State.tlbDelete s).linksOk := by
  induction l generalizing s with
  | nil => exact h
  | cons e es ih => exact ih (State.linksOk_delete h e)

end Sys2Proof.Machine
end

