-- ==== Sys2Proof/Laws/Memory.lean ====
section
/-! SUPPORT. Memory: every operation keeps the canonical form, a read after a write, and what a write leaves alone. -/

namespace Sys2Proof.Machine

/-! ### Canonical form -/

/-- The bound of a canonical list may be lowered. -/
theorem Memory.wfFrom_mono {b c : Option Nat} {m : Memory} (h : Memory.wfFrom b m = true)
    (hbc : ∀ x, c = some x → ∃ y, b = some y ∧ x ≤ y) : Memory.wfFrom c m = true := by
  cases m with
  | nil => rfl
  | cons p rest =>
    obtain ⟨a, v⟩ := p
    simp only [Memory.wfFrom, Bool.and_eq_true, decide_eq_true_eq] at h ⊢
    refine ⟨⟨?_, h.1.2⟩, h.2⟩
    cases c with
    | none => rfl
    | some x =>
      obtain ⟨y, rfl, hxy⟩ := hbc x rfl
      simp only [aboveBound, decide_eq_true_eq] at h ⊢
      omega

/-- A listed address lies above the bound. -/
theorem Memory.wfFrom_bound {b : Nat} {m : Memory} (h : Memory.wfFrom (some b) m = true) :
    ∀ c ∈ m, b < c.1 := by
  induction m generalizing b with
  | nil => simp
  | cons p rest ih =>
    obtain ⟨a, v⟩ := p
    simp only [Memory.wfFrom, aboveBound, Bool.and_eq_true, decide_eq_true_eq] at h
    intro c hc
    rcases List.mem_cons.1 hc with rfl | hc
    · exact h.1.1
    · exact Nat.lt_trans h.1.1 (ih h.2 c hc)

/-- An address at or below the bound is not listed and reads as an unlisted byte. -/
theorem Memory.readByte_of_le {b : Nat} {m : Memory} (h : Memory.wfFrom (some b) m = true) {x : Nat} (hx : x ≤ b) :
    Memory.readByte x m = unlistedByte := by
  induction m generalizing b with
  | nil => rfl
  | cons p rest ih =>
    obtain ⟨a, v⟩ := p
    simp only [Memory.wfFrom, aboveBound, Bool.and_eq_true, decide_eq_true_eq] at h
    have : x ≠ a := by omega
    simp only [Memory.readByte, this, if_false]
    exact ih h.2 (by omega)

theorem Memory.wfFrom_writeByte {b : Option Nat} {m : Memory} (a : Nat) (v : Byte) (h : Memory.wfFrom b m = true)
    (ha : ∀ x, b = some x → x < a) : Memory.wfFrom b (Memory.writeByte a v m) = true := by
  induction m generalizing b with
  | nil =>
    unfold Memory.writeByte
    split
    · rfl
    · rename_i hv
      simp only [Memory.wfFrom, Bool.and_eq_true, decide_eq_true_eq]
      refine ⟨⟨?_, hv⟩, trivial⟩
      cases b with
      | none => rfl
      | some x => simpa [aboveBound] using ha x rfl
  | cons p rest ih =>
    obtain ⟨c, w⟩ := p
    have h0 := h
    simp only [Memory.wfFrom, Bool.and_eq_true, decide_eq_true_eq] at h
    unfold Memory.writeByte
    have hb : aboveBound b a = true := by
      cases b with
      | none => rfl
      | some x => simpa [aboveBound] using ha x rfl
    split
    · split
      · exact h0
      · rename_i hac hv
        simp only [Memory.wfFrom, Bool.and_eq_true, decide_eq_true_eq]
        exact ⟨⟨hb, hv⟩, ⟨⟨by simpa [aboveBound] using hac, h.1.2⟩, h.2⟩⟩
    · split
      · rename_i hac
        subst hac
        split
        · exact Memory.wfFrom_mono h.2 (fun x hx => ⟨a, rfl, Nat.le_of_lt (ha x hx)⟩)
        · rename_i hv
          simp only [Memory.wfFrom, Bool.and_eq_true, decide_eq_true_eq]
          exact ⟨⟨hb, hv⟩, h.2⟩
      · rename_i hlt hne
        simp only [Memory.wfFrom, Bool.and_eq_true, decide_eq_true_eq]
        exact ⟨h.1, ih h.2 (fun x hx => by cases hx; omega)⟩

/-- Writing a byte keeps the canonical form. -/
theorem Memory.wf_writeByte {m : Memory} (a : Nat) (v : Byte) (h : m.wf = true) : (Memory.writeByte a v m).wf = true :=
  Memory.wfFrom_writeByte a v h (by simp)

/-- Writing bytes keeps the canonical form. -/
theorem Memory.wf_writeBytes {m : Memory} (a : Nat) (bs : List Byte) (h : m.wf = true) :
    (Memory.writeBytes a bs m).wf = true := by
  induction bs generalizing a m with
  | nil => exact h
  | cons b bs ih => exact ih (a + 1) (Memory.wf_writeByte a b h)

/-- Writing a value keeps the canonical form. -/
theorem Memory.wf_write {m : Memory} (big : Bool) (a n v : Nat) (h : m.wf = true) : (m.write big a n v).wf = true :=
  Memory.wf_writeBytes a _ h

/-! ### Reading after writing -/

/-- A byte write leaves every other byte alone; this needs no canonical form. -/
theorem Memory.readByte_writeByte_ne {x a : Nat} (v : Byte) (m : Memory) (h : x ≠ a) :
    Memory.readByte x (Memory.writeByte a v m) = Memory.readByte x m := by
  induction m with
  | nil => unfold Memory.writeByte; split <;> simp [Memory.readByte, h]
  | cons p rest ih =>
    obtain ⟨c, w⟩ := p
    unfold Memory.writeByte
    split
    · split
      · rfl
      · simp [Memory.readByte, h]
    · split
      · rename_i hac
        subst hac
        split <;> simp [Memory.readByte, h]
      · simp only [Memory.readByte]
        split
        · rfl
        · exact ih

theorem Memory.readByte_writeByte_from {b : Option Nat} {m : Memory} (a : Nat) (v : Byte)
    (h : Memory.wfFrom b m = true) : Memory.readByte a (Memory.writeByte a v m) = v := by
  induction m generalizing b with
  | nil => unfold Memory.writeByte; split <;> simp_all [Memory.readByte]
  | cons p rest ih =>
    obtain ⟨c, w⟩ := p
    simp only [Memory.wfFrom, Bool.and_eq_true, decide_eq_true_eq] at h
    unfold Memory.writeByte
    split
    · rename_i hac
      split
      · rename_i hv
        have : a ≠ c := by omega
        simp only [Memory.readByte, this, if_false]
        rw [Memory.readByte_of_le h.2 (by omega)]
        exact hv.symm
      · simp [Memory.readByte]
    · split
      · rename_i hac
        subst hac
        split
        · rename_i hv
          rw [Memory.readByte_of_le h.2 (Nat.le_refl a)]
          exact hv.symm
        · simp [Memory.readByte]
      · rename_i hne
        simp only [Memory.readByte, hne, if_false]
        exact ih h.2

/-- A read after a write of the same byte gives the value written. -/
theorem Memory.readByte_writeByte_same {m : Memory} (a : Nat) (v : Byte) (h : m.wf = true) :
    Memory.readByte a (Memory.writeByte a v m) = v :=
  Memory.readByte_writeByte_from a v h

/-- A write of bytes leaves every byte outside them alone. -/
theorem Memory.readByte_writeBytes_outside {x : Nat} (a : Nat) (bs : List Byte) (m : Memory)
    (h : x < a ∨ a + bs.length ≤ x) : Memory.readByte x (Memory.writeBytes a bs m) = Memory.readByte x m := by
  induction bs generalizing a m with
  | nil => rfl
  | cons b bs ih =>
    simp only [List.length_cons] at h
    rw [Memory.writeBytes, ih (a + 1) _ (by omega), Memory.readByte_writeByte_ne b m (by omega)]

/-- A write of bytes stores each of them. -/
theorem Memory.readByte_writeBytes_inside (a : Nat) (bs : List Byte) {m : Memory} (hm : m.wf = true) (i : Nat)
    (h : i < bs.length) : Memory.readByte (a + i) (Memory.writeBytes a bs m) = bs[i] := by
  induction bs generalizing a m i with
  | nil => simp at h
  | cons b bs ih =>
    rw [Memory.writeBytes]
    cases i with
    | zero =>
      rw [Memory.readByte_writeBytes_outside (a + 1) bs _ (by omega)]
      exact Memory.readByte_writeByte_same a b hm
    | succ j =>
      have hj : j < bs.length := by simpa using h
      have := ih (a + 1) (Memory.wf_writeByte a b hm) j hj
      rw [Nat.add_right_comm, Nat.add_assoc] at this
      simpa [Nat.add_comm, Nat.add_left_comm, Nat.add_assoc] using this

theorem leBytes_length (n v : Nat) : (leBytes n v).length = n := by
  induction n generalizing v with
  | zero => rfl
  | succ n ih => simp [leBytes, ih]

/-- A write of an `n`-byte value leaves every byte outside its `n` bytes alone. -/
theorem Memory.readByte_write_outside {x : Nat} (big : Bool) (a n v : Nat) (m : Memory)
    (h : x < a ∨ a + n ≤ x) : Memory.readByte x (m.write big a n v) = Memory.readByte x m := by
  refine Memory.readByte_writeBytes_outside a _ m ?_
  split <;> simpa [leBytes_length] using h

/-- The bytes of a value read little-endian depend only on the bytes read. -/
theorem Memory.readLE_congr {m m' : Memory} (n a : Nat)
    (h : ∀ x, a ≤ x → x < a + n → Memory.readByte x m = Memory.readByte x m') : m.readLE n a = m'.readLE n a := by
  induction n generalizing a with
  | zero => rfl
  | succ n ih =>
    simp only [Memory.readLE]
    rw [h a (Nat.le_refl a) (by omega), ih (a + 1) (fun x h1 h2 => h x (by omega) (by omega))]

/-- A little-endian read gives the bytes that stand there. -/
theorem Memory.readLE_of_bytes {m : Memory} (n a v : Nat)
    (h : ∀ i (hi : i < n), Memory.readByte (a + i) m = (leBytes n v)[i]'(by rw [leBytes_length]; exact hi)) :
    m.readLE n a = v % 256 ^ n := by
  induction n generalizing a v with
  | zero => simp [Memory.readLE, Nat.mod_one]
  | succ n ih =>
    have h0 := h 0 (by omega)
    simp only [leBytes, List.getElem_cons_zero, Nat.add_zero] at h0
    have ht := ih (a + 1) (v / 256) (fun i hi => by
      have := h (i + 1) (by omega)
      simp only [leBytes, List.getElem_cons_succ] at this
      rw [← this]
      congr 1
      omega)
    simp only [Memory.readLE]
    rw [h0, ht, BitVec.toNat_ofNat, Nat.pow_succ 256 n, Nat.mul_comm (256 ^ n) 256, Nat.mod_mul]

/-- A little-endian value read back after it was written. -/
theorem Memory.read_write_same {m : Memory} (a n v : Nat) (hm : m.wf = true) :
    (m.write false a n v).read false a n = v % 256 ^ n := by
  unfold Memory.read Memory.write
  simp only [Bool.false_eq_true, if_false]
  exact Memory.readLE_of_bytes n a v (fun i hi =>
    Memory.readByte_writeBytes_inside a (leBytes n v) hm i (by rw [leBytes_length]; exact hi))

/-! ### The address space -/

theorem Memory.writeByte_mem {m : Memory} (a : Nat) (v : Byte) (N : Nat) (h : ∀ c ∈ m, c.1 < N) (ha : a < N) :
    ∀ c ∈ Memory.writeByte a v m, c.1 < N := by
  induction m with
  | nil =>
    unfold Memory.writeByte
    split <;> simp [ha]
  | cons p rest ih =>
    obtain ⟨b, w⟩ := p
    have hb : b < N := h (b, w) (by simp)
    have hr : ∀ c ∈ rest, c.1 < N := fun c hc => h c (by simp [hc])
    unfold Memory.writeByte
    intro c hc
    split at hc
    · split at hc
      · exact h c hc
      · rcases List.mem_cons.1 hc with rfl | hc
        · exact ha
        · exact h c hc
    · split at hc
      · split at hc
        · exact hr c hc
        · rcases List.mem_cons.1 hc with rfl | hc
          · exact ha
          · exact hr c hc
      · rcases List.mem_cons.1 hc with rfl | hc
        · exact hb
        · exact ih hr c hc

/-- A write inside the first `N` bytes lists no byte beyond them. -/
theorem Memory.writeBytes_mem {m : Memory} (a : Nat) (bs : List Byte) (N : Nat) (h : ∀ c ∈ m, c.1 < N)
    (ha : a + bs.length ≤ N) : ∀ c ∈ Memory.writeBytes a bs m, c.1 < N := by
  induction bs generalizing a m with
  | nil => exact h
  | cons b bs ih =>
    simp only [List.length_cons] at ha
    exact ih (a + 1) (Memory.writeByte_mem a b N h (by omega)) (by omega)

theorem Memory.write_mem {m : Memory} (big : Bool) (a n v N : Nat) (h : ∀ c ∈ m, c.1 < N) (ha : a + n ≤ N) :
    ∀ c ∈ m.write big a n v, c.1 < N := by
  refine Memory.writeBytes_mem a _ N h ?_
  split <;> simpa [leBytes_length] using ha

end Sys2Proof.Machine
end

