-- ==== Sys2Proof/Laws/Perm.lean ====
section
/-! SUPPORT. Permission maps: assignment keeps the canonical form and changes the grants of its range only. -/

namespace Sys2Proof.Machine

theorem PermMap.wf_tail {g : Grant} {m : PermMap} (h : PermMap.wf (g :: m) = true) : PermMap.wf m = true := by
  cases m with
  | nil => rfl
  | cons k t => simp only [PermMap.wf, Bool.and_eq_true] at h; exact h.2

theorem PermMap.wf_head {g : Grant} {m : PermMap} (h : PermMap.wf (g :: m) = true) :
    g.lo ≤ g.hi ∧ g.priv ≠ Priv.NONE := by
  cases m with
  | nil => simpa [PermMap.wf] using h
  | cons k t =>
    simp only [PermMap.wf, Bool.and_eq_true, decide_eq_true_eq] at h
    exact ⟨h.1.1.1.1, h.1.1.1.2⟩

/-- The runs of a canonical map rise. -/
theorem PermMap.wf_sorted {g : Grant} {m : PermMap} (h : PermMap.wf (g :: m) = true) : ∀ k ∈ m, g.hi < k.lo := by
  induction m generalizing g with
  | nil => simp
  | cons k t ih =>
    have ht := PermMap.wf_tail h
    have hk := (PermMap.wf_head ht).1
    simp only [PermMap.wf, Bool.and_eq_true, decide_eq_true_eq] at h
    intro j hj
    rcases List.mem_cons.1 hj with rfl | hj
    · exact h.1.1.2
    · exact Nat.lt_trans (Nat.lt_of_lt_of_le h.1.1.2 hk) (ih ht j hj)

/-- A byte below every run has no grant. -/
theorem PermMap.lookup_below_all {m : PermMap} {x : Nat} (h : ∀ k ∈ m, x < k.lo) :
    PermMap.lookup x m = Priv.NONE := by
  induction m with
  | nil => rfl
  | cons k t ih =>
    have hk := h k (by simp)
    have : ¬(k.lo ≤ x ∧ x ≤ k.hi) := by omega
    simp only [PermMap.lookup, this, if_false]
    exact ih (fun j hj => h j (by simp [hj]))

/-- A byte above every run has no grant. -/
theorem PermMap.lookup_above_all {m : PermMap} {x : Nat} (h : ∀ k ∈ m, k.hi < x) :
    PermMap.lookup x m = Priv.NONE := by
  induction m with
  | nil => rfl
  | cons k t ih =>
    have hk := h k (by simp)
    have : ¬(k.lo ≤ x ∧ x ≤ k.hi) := by omega
    simp only [PermMap.lookup, this, if_false]
    exact ih (fun j hj => h j (by simp [hj]))

/-! ### Cutting below and above -/

theorem PermMap.below_hi {m : PermMap} (a : Nat) : ∀ k ∈ PermMap.below a m, k.hi < a := by
  induction m with
  | nil => simp [PermMap.below]
  | cons g t ih =>
    unfold PermMap.below
    intro k hk
    split at hk
    · rename_i hg
      rcases List.mem_cons.1 hk with rfl | hk
      · exact hg
      · exact ih k hk
    · split at hk
      · rename_i hlo
        simp only [List.mem_singleton] at hk
        subst hk
        show a - 1 < a
        omega
      · simp at hk

theorem PermMap.wf_below {m : PermMap} (a : Nat) (h : PermMap.wf m = true) : PermMap.wf (PermMap.below a m) = true := by
  induction m with
  | nil => rfl
  | cons g t ih =>
    have hh := PermMap.wf_head h
    have ht := PermMap.wf_tail h
    unfold PermMap.below
    split
    · rename_i hg
      have iht := ih ht
      cases t with
      | nil => simpa [PermMap.below, PermMap.wf] using h
      | cons k u =>
        simp only [PermMap.wf, Bool.and_eq_true, decide_eq_true_eq] at h
        unfold PermMap.below at iht ⊢
        split
        · rename_i hk
          simp only [hk, if_true] at iht
          simp only [PermMap.wf, Bool.and_eq_true, decide_eq_true_eq]
          exact ⟨⟨⟨⟨h.1.1.1.1, h.1.1.1.2⟩, h.1.1.2⟩, h.1.2⟩, iht⟩
        · rename_i hk
          simp only [hk, if_false] at iht
          split
          · rename_i hlo
            simp only [hlo, if_true] at iht
            simp only [PermMap.wf, Bool.and_eq_true, decide_eq_true_eq] at iht ⊢
            exact ⟨⟨⟨⟨h.1.1.1.1, h.1.1.1.2⟩, h.1.1.2⟩, h.1.2⟩, iht⟩
          · simp only [PermMap.wf, Bool.and_eq_true, decide_eq_true_eq]
            exact hh
    · split
      · rename_i hlo
        simp only [PermMap.wf, Bool.and_eq_true, decide_eq_true_eq]
        exact ⟨by omega, hh.2⟩
      · rfl

theorem PermMap.lookup_below {m : PermMap} (a x : Nat) (h : PermMap.wf m = true) :
    PermMap.lookup x (PermMap.below a m) = if x < a then PermMap.lookup x m else Priv.NONE := by
  by_cases hx : x < a
  · simp only [hx, if_true]
    induction m with
    | nil => rfl
    | cons g t ih =>
      have hh := PermMap.wf_head h
      unfold PermMap.below
      split
      · simp only [PermMap.lookup]
        split
        · rfl
        · exact ih (PermMap.wf_tail h)
      · rename_i hg
        split
        · rename_i hlo
          simp only [PermMap.lookup]
          by_cases hc : g.lo ≤ x
          · simp only [hc, show x ≤ a - 1 by omega, show x ≤ g.hi by omega, and_self, if_true]
          · simp only [hc, false_and, if_false]
            exact (PermMap.lookup_below_all (fun k hk => by have := PermMap.wf_sorted h k hk; omega)).symm
        · rename_i hlo
          symm
          apply PermMap.lookup_below_all
          intro k hk
          rcases List.mem_cons.1 hk with rfl | hk
          · omega
          · have := PermMap.wf_sorted h k hk
            omega
  · simp only [hx, if_false]
    exact PermMap.lookup_above_all (fun k hk => by have := PermMap.below_hi a k hk; omega)

theorem PermMap.above_lo {m : PermMap} (a : Nat) (h : PermMap.wf m = true) : ∀ k ∈ PermMap.above a m, a < k.lo := by
  induction m with
  | nil => simp [PermMap.above]
  | cons g t ih =>
    unfold PermMap.above
    intro k hk
    split at hk
    · exact ih (PermMap.wf_tail h) k hk
    · rename_i hg
      split at hk
      · rcases List.mem_cons.1 hk with rfl | hk
        · show a < a + 1
          omega
        · have := PermMap.wf_sorted h k hk
          omega
      · rcases List.mem_cons.1 hk with rfl | hk
        · omega
        · have := PermMap.wf_sorted h k hk
          omega

theorem PermMap.wf_above {m : PermMap} (a : Nat) (h : PermMap.wf m = true) : PermMap.wf (PermMap.above a m) = true := by
  induction m with
  | nil => rfl
  | cons g t ih =>
    have hh := PermMap.wf_head h
    unfold PermMap.above
    split
    · exact ih (PermMap.wf_tail h)
    · split
      · cases t with
        | nil =>
          simp only [PermMap.wf, Bool.and_eq_true, decide_eq_true_eq]
          exact ⟨by omega, hh.2⟩
        | cons k u =>
          simp only [PermMap.wf, Bool.and_eq_true, decide_eq_true_eq] at h ⊢
          exact ⟨⟨⟨⟨by omega, hh.2⟩, h.1.1.2⟩, h.1.2⟩, h.2⟩
      · exact h

theorem PermMap.lookup_above {m : PermMap} (a x : Nat) (h : PermMap.wf m = true) :
    PermMap.lookup x (PermMap.above a m) = if a < x then PermMap.lookup x m else Priv.NONE := by
  by_cases hx : a < x
  · simp only [hx, if_true]
    induction m with
    | nil => rfl
    | cons g t ih =>
      unfold PermMap.above
      split
      · rename_i hg
        rw [ih (PermMap.wf_tail h)]
        have : ¬(g.lo ≤ x ∧ x ≤ g.hi) := by omega
        simp only [PermMap.lookup, this, if_false]
      · split
        · simp only [PermMap.lookup]
          by_cases hc : x ≤ g.hi
          · simp only [show a + 1 ≤ x by omega, show g.lo ≤ x by omega, hc, and_self, if_true]
          · simp only [hc, and_false, if_false]
        · rfl
  · simp only [hx, if_false]
    exact PermMap.lookup_below_all (fun k hk => by have := PermMap.above_lo a h k hk; omega)

/-! ### Putting a run in front -/

theorem PermMap.cons_spec {g : Grant} {m : PermMap} (hg : g.lo ≤ g.hi) (h : PermMap.wf m = true)
    (hm : ∀ k ∈ m, g.hi < k.lo) :
    PermMap.wf (PermMap.cons g m) = true ∧ (∀ k ∈ PermMap.cons g m, g.lo ≤ k.lo)
      ∧ ∀ x, PermMap.lookup x (PermMap.cons g m)
          = if g.lo ≤ x ∧ x ≤ g.hi then g.priv else PermMap.lookup x m := by
  cases m with
  | nil =>
    simp only [PermMap.cons]
    split
    · rename_i hn
      refine ⟨rfl, by simp, fun x => ?_⟩
      simp only [PermMap.lookup, hn, ite_self]
    · rename_i hn
      refine ⟨by simp only [PermMap.wf, Bool.and_eq_true, decide_eq_true_eq]; exact ⟨hg, hn⟩, by simp, fun x => ?_⟩
      simp only [PermMap.lookup]
  | cons k t =>
    have hk := hm k (by simp)
    have hlo : ∀ j ∈ k :: t, g.lo ≤ j.lo := fun j hj => by have := hm j hj; omega
    simp only [PermMap.cons]
    split
    · rename_i hn
      refine ⟨h, hlo, fun x => ?_⟩
      split
      · rename_i hx
        rw [PermMap.lookup_below_all (fun j hj => by have := hm j hj; omega), hn]
      · rfl
    · rename_i hn
      split
      · rename_i htouch
        have hkw := PermMap.wf_head h
        refine ⟨?_, ?_, ?_⟩
        · cases t with
          | nil => simp only [PermMap.wf, Bool.and_eq_true, decide_eq_true_eq]; exact ⟨by omega, hn⟩
          | cons j u =>
            simp only [PermMap.wf, Bool.and_eq_true, decide_eq_true_eq] at h ⊢
            exact ⟨⟨⟨⟨by omega, hn⟩, h.1.1.2⟩, by rw [htouch.2]; exact h.1.2⟩, h.2⟩
        · intro j hj
          rcases List.mem_cons.1 hj with rfl | hj
          · exact Nat.le_refl _
          · exact hlo j (by simp [hj])
        · intro x
          simp only [PermMap.lookup]
          by_cases h1 : g.lo ≤ x ∧ x ≤ g.hi
          · have : g.lo ≤ x ∧ x ≤ k.hi := by omega
            simp only [this, h1, and_self, if_true]
          · simp only [h1, if_false]
            by_cases h2 : k.lo ≤ x ∧ x ≤ k.hi
            · have : g.lo ≤ x ∧ x ≤ k.hi := by omega
              simp only [this, h2, and_self, if_true, htouch.2]
            · have : ¬(g.lo ≤ x ∧ x ≤ k.hi) := by omega
              simp only [this, h2, if_false]
      · rename_i htouch
        refine ⟨?_, ?_, fun x => by simp only [PermMap.lookup]⟩
        · simp only [PermMap.wf, Bool.and_eq_true, decide_eq_true_eq]
          exact ⟨⟨⟨⟨hg, hn⟩, hk⟩, fun e he => htouch ⟨e, he⟩⟩, h⟩
        · intro j hj
          rcases List.mem_cons.1 hj with rfl | hj
          · exact Nat.le_refl _
          · exact hlo j hj

/-- Putting a canonical map in front of a higher one. -/
theorem PermMap.foldr_cons_spec {l m : PermMap} (hl : PermMap.wf l = true) (h : PermMap.wf m = true)
    (hlm : ∀ g ∈ l, ∀ k ∈ m, g.hi < k.lo) :
    PermMap.wf (l.foldr PermMap.cons m) = true
      ∧ (∀ k ∈ l.foldr PermMap.cons m, (∃ g ∈ l, g.lo ≤ k.lo) ∨ ∃ g ∈ m, g.lo ≤ k.lo)
      ∧ ∀ x, PermMap.lookup x (l.foldr PermMap.cons m)
          = if PermMap.lookup x l = Priv.NONE then PermMap.lookup x m else PermMap.lookup x l := by
  induction l with
  | nil =>
    exact ⟨h, fun k hk => .inr ⟨k, hk, Nat.le_refl _⟩, fun x => by simp [PermMap.lookup]⟩
  | cons g t ih =>
    have ht := PermMap.wf_tail hl
    have hg := PermMap.wf_head hl
    obtain ⟨w, b, lk⟩ := ih ht (fun j hj k hk => hlm j (by simp [hj]) k hk)
    have hgm : ∀ k ∈ t.foldr PermMap.cons m, g.hi < k.lo := by
      intro k hk
      rcases b k hk with ⟨j, hj, hjk⟩ | ⟨j, hj, hjk⟩
      · have := PermMap.wf_sorted hl j hj
        omega
      · have := hlm g (by simp) j hj
        omega
    obtain ⟨w', b', lk'⟩ := PermMap.cons_spec hg.1 w hgm
    refine ⟨w', fun k hk => .inl ⟨g, by simp, b' k hk⟩, fun x => ?_⟩
    rw [List.foldr_cons, lk' x, lk x]
    simp only [PermMap.lookup]
    by_cases hx : g.lo ≤ x ∧ x ≤ g.hi
    · simp only [hx, and_self, if_true, hg.2, if_false]
    · simp only [hx, if_false]

/-! ### Assignment -/

/-- Everything `PermMap.assign` does to a canonical map: it stays canonical, the range carries the new grant, every other
byte keeps its grant. -/
theorem PermMap.assign_spec {m : PermMap} (lo hi : Nat) (p : Priv) (h : PermMap.wf m = true) :
    PermMap.wf (PermMap.assign lo hi p m) = true
      ∧ ∀ x, PermMap.lookup x (PermMap.assign lo hi p m)
          = if lo ≤ x ∧ x ≤ hi then p else PermMap.lookup x m := by
  unfold PermMap.assign
  split
  · rename_i hle
    obtain ⟨w, b, lk⟩ := PermMap.cons_spec (g := { lo := lo, hi := hi, priv := p }) hle (PermMap.wf_above hi h)
      (PermMap.above_lo hi h)
    obtain ⟨w', -, lk'⟩ := PermMap.foldr_cons_spec (PermMap.wf_below lo h) w (fun g hg k hk => by
      have h1 := PermMap.below_hi lo g hg
      have h2 := b k hk
      simp only at h2
      omega)
    refine ⟨w', fun x => ?_⟩
    rw [lk' x, lk x, PermMap.lookup_below lo x h, PermMap.lookup_above hi x h]
    simp only
    by_cases h1 : x < lo
    · have h2 : ¬(lo ≤ x ∧ x ≤ hi) := by omega
      have h3 : ¬hi < x := by omega
      simp only [h1, h2, h3, if_true, if_false]
      split
      · rename_i hn; exact hn.symm
      · rfl
    · simp only [h1, if_false, if_true]
      by_cases h2 : x ≤ hi
      · simp only [h2, show lo ≤ x by omega, and_self, if_true]
      · have h4 : hi < x := by omega
        simp only [h2, h4, and_false, if_false, if_true]
  · rename_i hle
    refine ⟨h, fun x => ?_⟩
    have : ¬(lo ≤ x ∧ x ≤ hi) := by omega
    simp only [this, if_false]

/-- A permission cache is canonical exactly when each of its maps is. -/
theorem PmpPerm.wf_iff (p : PmpPerm) : p.wf = true ↔ ∀ b k, PermMap.wf (p.get b k) = true := by
  simp only [PmpPerm.wf, Bool.and_eq_true]
  constructor
  · rintro ⟨⟨⟨⟨⟨h1, h2⟩, h3⟩, h4⟩, h5⟩, h6⟩ b k
    cases b <;> cases k <;> assumption
  · intro h
    exact ⟨⟨⟨⟨⟨h .machine .data, h .machine .code⟩, h .supervisor .data⟩, h .supervisor .code⟩, h .user .data⟩,
      h .user .code⟩

end Sys2Proof.Machine
end

