-- ==== Sys2Proof/Laws/Pmp.lean ====
section
/-! SUPPORT. The PMP bank: what each shared operation changes, the grants a protect or an invalidation leaves, and the facts
about region geometry and refinement bounds. -/

namespace Sys2Proof.Machine

/-! ### Grants -/

/-- Everything an assignment in one map of the cache does. -/
theorem PmpPerm.assign_spec (p : PmpPerm) (b : BaseMode) (k : AccessKind) (lo hi : Nat) (g : Priv) (h : p.wf = true) :
    (p.assign b k lo hi g).wf = true
      ∧ ∀ c l x, PermMap.lookup x ((p.assign b k lo hi g).get c l)
          = if c = b ∧ l = k ∧ lo ≤ x ∧ x ≤ hi then g else PermMap.lookup x (p.get c l) := by
  have hw := (PmpPerm.wf_iff p).1 h
  obtain ⟨w, lk⟩ := PermMap.assign_spec lo hi g (hw b k)
  unfold PmpPerm.assign
  constructor
  · rw [PmpPerm.wf_iff]
    intro c l
    by_cases hc : c = b ∧ l = k
    · obtain ⟨rfl, rfl⟩ := hc
      rw [PmpPerm.get_put_same]
      exact w
    · rw [PmpPerm.get_put_ne _ _ _ _ _ _ hc]
      exact hw c l
  · intro c l x
    by_cases hc : c = b ∧ l = k
    · obtain ⟨rfl, rfl⟩ := hc
      rw [PmpPerm.get_put_same, lk x]
      simp
    · rw [PmpPerm.get_put_ne _ _ _ _ _ _ hc]
      have : ¬(c = b ∧ l = k ∧ lo ≤ x ∧ x ≤ hi) := fun hh => hc ⟨hh.1, hh.2.1⟩
      simp only [this, if_false]

/-- Everything a removal does: no grant of the mode is left in the range, every other grant stays. -/
theorem PmpPerm.remove_spec (p : PmpPerm) (b : BaseMode) (lo hi : Nat) (h : p.wf = true) :
    (p.remove b lo hi).wf = true
      ∧ ∀ c l x, PermMap.lookup x ((p.remove b lo hi).get c l)
          = if c = b ∧ lo ≤ x ∧ x ≤ hi then Priv.NONE else PermMap.lookup x (p.get c l) := by
  obtain ⟨w1, l1⟩ := PmpPerm.assign_spec p b .data lo hi Priv.NONE h
  obtain ⟨w2, l2⟩ := PmpPerm.assign_spec (p.assign b .data lo hi Priv.NONE) b .code lo hi Priv.NONE w1
  refine ⟨w2, fun c l x => ?_⟩
  unfold PmpPerm.remove
  rw [l2, l1]
  cases l <;> by_cases hx : c = b ∧ lo ≤ x ∧ x ≤ hi <;> simp [hx]

/-- The bytes next to a refined range that lose their grants. -/
def isGuard (lo hi x : Nat) : Prop :=
  (0 < lo ∧ x = lo - 1) ∨ (hi < maxU64 ∧ x = hi + 1)

/-- The grant a map of `Protect` leaves at a byte. -/
theorem PmpPerm.protectMap_spec (p : PmpPerm) (b : BaseMode) (k : AccessKind) (lo hi : Nat) (g : Priv)
    (h : p.wf = true) (hle : lo ≤ hi) :
    (p.protectMap b k lo hi g).wf = true
      ∧ (∀ c l x, ¬(c = b ∧ l = k) →
          PermMap.lookup x ((p.protectMap b k lo hi g).get c l) = PermMap.lookup x (p.get c l))
      ∧ (∀ x, lo ≤ x → x ≤ hi → PermMap.lookup x ((p.protectMap b k lo hi g).get b k) = g)
      ∧ (∀ x, isGuard lo hi x → PermMap.lookup x ((p.protectMap b k lo hi g).get b k) = Priv.NONE)
      ∧ ∀ x, ¬(lo ≤ x ∧ x ≤ hi) → ¬isGuard lo hi x →
          PermMap.lookup x ((p.protectMap b k lo hi g).get b k) = PermMap.lookup x (p.get b k) := by
  obtain ⟨w1, l1⟩ := PmpPerm.assign_spec p b k lo hi g h
  have step2 : ∃ q : PmpPerm, (if 0 < lo then (p.assign b k lo hi g).assign b k (lo - 1) (lo - 1) Priv.NONE
      else p.assign b k lo hi g) = q ∧ q.wf = true ∧ ∀ c l x, PermMap.lookup x (q.get c l)
        = if c = b ∧ l = k ∧ 0 < lo ∧ x = lo - 1 then Priv.NONE
          else PermMap.lookup x ((p.assign b k lo hi g).get c l) := by
    refine ⟨_, rfl, ?_⟩
    split
    · rename_i hlo
      obtain ⟨w2, l2⟩ := PmpPerm.assign_spec (p.assign b k lo hi g) b k (lo - 1) (lo - 1) Priv.NONE w1
      refine ⟨w2, fun c l x => ?_⟩
      rw [l2]
      have : (lo - 1 ≤ x ∧ x ≤ lo - 1) ↔ x = lo - 1 := by omega
      simp only [this, hlo, true_and]
    · rename_i hlo
      refine ⟨w1, fun c l x => ?_⟩
      simp only [hlo, false_and, and_false, if_false]
  obtain ⟨q, hq, wq, lq⟩ := step2
  have step3 : (p.protectMap b k lo hi g).wf = true ∧ ∀ c l x,
      PermMap.lookup x ((p.protectMap b k lo hi g).get c l)
        = if c = b ∧ l = k ∧ hi < maxU64 ∧ x = hi + 1 then Priv.NONE else PermMap.lookup x (q.get c l) := by
    unfold PmpPerm.protectMap
    simp only [hq]
    split
    · rename_i hhi
      obtain ⟨w3, l3⟩ := PmpPerm.assign_spec q b k (hi + 1) (hi + 1) Priv.NONE wq
      refine ⟨w3, fun c l x => ?_⟩
      rw [l3]
      have : (hi + 1 ≤ x ∧ x ≤ hi + 1) ↔ x = hi + 1 := by omega
      simp only [this, hhi, true_and]
    · rename_i hhi
      refine ⟨wq, fun c l x => ?_⟩
      simp only [hhi, false_and, and_false, if_false]
  obtain ⟨w3, l3⟩ := step3
  refine ⟨w3, ?_, ?_, ?_, ?_⟩
  · intro c l x hc
    have e1 : ¬(c = b ∧ l = k ∧ hi < maxU64 ∧ x = hi + 1) := fun hh => hc ⟨hh.1, hh.2.1⟩
    have e2 : ¬(c = b ∧ l = k ∧ 0 < lo ∧ x = lo - 1) := fun hh => hc ⟨hh.1, hh.2.1⟩
    have e3 : ¬(c = b ∧ l = k ∧ lo ≤ x ∧ x ≤ hi) := fun hh => hc ⟨hh.1, hh.2.1⟩
    rw [l3, lq, l1]
    simp only [e1, e2, e3, if_false]
  · intro x hx1 hx2
    have e1 : ¬(hi < maxU64 ∧ x = hi + 1) := by omega
    have e2 : ¬(0 < lo ∧ x = lo - 1) := by omega
    rw [l3, lq, l1]
    simp only [e1, e2, hx1, hx2, and_self, true_and, if_true, if_false]
  · intro x hx
    rw [l3, lq, l1]
    rcases hx with hx | hx
    · have e1 : ¬(hi < maxU64 ∧ x = hi + 1) := by omega
      rw [if_neg (fun hh => e1 hh.2.2), if_pos ⟨rfl, rfl, hx⟩]
    · simp only [hx, and_self, true_and, if_true]
  · intro x hx1 hx2
    have e1 : ¬(hi < maxU64 ∧ x = hi + 1) := fun hh => hx2 (.inr hh)
    have e2 : ¬(0 < lo ∧ x = lo - 1) := fun hh => hx2 (.inl hh)
    rw [l3, lq, l1]
    simp only [e1, e2, hx1, true_and, if_false]

/-! ### What the operations change -/

/-- `Protect` changes the permission cache only. -/
theorem State.protect_eq (s : State) (mode : Mode5) (lo hi : Nat) (g : Priv) :
    ∃ p, s.protect mode lo hi g = s.setPmpPerm p :=
  ⟨_, rfl⟩

/-- `PmpInvalidate` changes the permission cache only. -/
theorem State.pmpInvalidate_eq (s : State) (i : Nat) : ∃ p, s.pmpInvalidate i = s.setPmpPerm p := by
  unfold State.pmpInvalidate
  split
  · exact ⟨s.pmpPerm, rfl⟩
  · exact ⟨_, rfl⟩

/-- Invalidation of a region and its TOR successor changes the permission cache only. -/
theorem State.invalidateWithTor_eq (s : State) (i : Nat) : ∃ p, s.invalidateWithTor i = s.setPmpPerm p := by
  obtain ⟨p, hp⟩ := s.pmpInvalidate_eq i
  obtain ⟨q, hq⟩ := (s.setPmpPerm p).pmpInvalidate_eq (i + 1)
  simp only [State.invalidateWithTor, hp]
  split
  · exact ⟨q, hq⟩
  · exact ⟨p, rfl⟩

/-- Everything `PmpRefine` can do: with no bank it grants and changes nothing; else it grants and protects the refined
range, or denies and arms `AFault`. -/
theorem State.pmpRefine_cases (s : State) (mode : Mode5) (req : Priv) (lo hi : Nat) :
    (s.params.pmpN = 0 ∧ s.pmpRefine mode req lo hi = (true, s))
      ∨ (s.params.pmpN ≠ 0 ∧ boundsGrant (s.refineBounds mode lo) req lo hi = true
          ∧ s.pmpRefine mode req lo hi
            = (true, s.protect mode (s.refineBounds mode lo).lowMap (s.refineBounds mode lo).highMap
                (s.refineBounds mode lo).priv))
      ∨ (s.params.pmpN ≠ 0 ∧ boundsGrant (s.refineBounds mode lo) req lo hi = false
          ∧ s.pmpRefine mode req lo hi = (false, s.setAFault .pmp)) := by
  unfold State.pmpRefine
  by_cases h : s.params.pmpN = 0
  · exact .inl ⟨h, by simp [h]⟩
  · by_cases hb : boundsGrant (s.refineBounds mode lo) req lo hi = true
    · exact .inr (.inl ⟨h, hb, by simp [h, hb]⟩)
    · exact .inr (.inr ⟨h, by simpa using hb, by simp [h, hb]⟩)

/-- Refinement changes the permission cache and `AFault` only. -/
theorem State.pmpRefine_eq (s : State) (mode : Mode5) (req : Priv) (lo hi : Nat) :
    ∃ p a, (s.pmpRefine mode req lo hi).2 = (s.setPmpPerm p).setAFault a := by
  rcases s.pmpRefine_cases mode req lo hi with ⟨-, h⟩ | ⟨-, -, h⟩ | ⟨-, -, h⟩
  · exact ⟨s.pmpPerm, s.afault, by rw [h]; rfl⟩
  · exact ⟨(s.protect mode (s.refineBounds mode lo).lowMap (s.refineBounds mode lo).highMap
      (s.refineBounds mode lo).priv).pmpPerm, s.afault, by rw [h]; rfl⟩
  · exact ⟨s.pmpPerm, .pmp, by rw [h]; rfl⟩

/-- Refinement grants exactly when the pure check does. -/
theorem State.pmpRefine_fst (s : State) (mode : Mode5) (req : Priv) (lo hi : Nat) :
    (s.pmpRefine mode req lo hi).1 = s.pmpGrants mode req lo hi := by
  unfold State.pmpGrants
  rcases s.pmpRefine_cases mode req lo hi with ⟨h0, h⟩ | ⟨h0, hb, h⟩ | ⟨h0, hb, h⟩ <;> simp [*]

/-- The bytes of the bank after a config write, and the state it leaves otherwise. -/
theorem State.writeCfgByte_eq (s : State) (i : Nat) (new : Byte) (hi : i < s.params.pmpN) :
    ∃ p, s.writeCfgByte i new
      = (s.setPmpcfg (if s.locked i then s.pmpcfg else s.pmpcfg.set i (canonCfg s.params (s.cfg i) new))).setPmpPerm p := by
  unfold State.writeCfgByte
  by_cases hl : s.locked i = true
  · exact ⟨s.pmpPerm, by simp [hl]; rfl⟩
  · rw [if_neg hl, if_neg hl]
    by_cases hn : canonCfg s.params (s.cfg i) new = s.cfg i
    · refine ⟨s.pmpPerm, ?_⟩
      have : s.pmpcfg.set i (s.cfg i) = s.pmpcfg := by
        unfold State.cfg
        simp only [hi, if_true]
        by_cases hlen : i < s.pmpcfg.length
        · simp [List.getD, hlen]
        · rw [List.set_eq_of_length_le (by omega)]
      simp only [hn, if_true, this]
      rfl
    · simp only [hn, if_false]
      obtain ⟨p, hp⟩ := s.pmpInvalidate_eq i
      rw [hp]
      obtain ⟨q, hq⟩ := ((s.setPmpPerm p).setPmpcfg
        ((s.setPmpPerm p).pmpcfg.set i (canonCfg s.params (s.cfg i) new))).pmpInvalidate_eq i
      exact ⟨q, by rw [hq]; rfl⟩

/-- A config word write changes the config bytes and the permission cache only. -/
theorem State.writeCfgWord_eq (s : State) (w : Nat) (value : U64) (k : Nat) :
    ∃ c p, s.writeCfgWord w value k = (s.setPmpcfg c).setPmpPerm p := by
  induction k generalizing s with
  | zero => exact ⟨s.pmpcfg, s.pmpPerm, rfl⟩
  | succ k ih =>
    unfold State.writeCfgWord
    split
    · rename_i hi
      obtain ⟨p, hp⟩ := s.writeCfgByte_eq (4 * w + k) (value.extractLsb' (8 * k) 8) hi
      simp only [hp]
      obtain ⟨c, q, hq⟩ := ih ((s.setPmpcfg (if s.locked (4 * w + k) then s.pmpcfg
        else s.pmpcfg.set (4 * w + k) (canonCfg s.params (s.cfg (4 * w + k)) (value.extractLsb' (8 * k) 8)))).setPmpPerm p)
      exact ⟨c, q, by rw [hq]; rfl⟩
    · exact ih s

/-- An address write changes the address words and the permission cache only. -/
theorem State.writeAddr_eq (s : State) (i : Nat) (value : U64) :
    ∃ a p, s.writeAddr i value = (s.setPmpaddr a).setPmpPerm p
      ∧ (a = s.pmpaddr ∨ (i < s.params.pmpN ∧ s.addrLocked i = false ∧ a = s.pmpaddr.set i (canonAddr s.params value))) := by
  unfold State.writeAddr
  by_cases hi : i < s.params.pmpN
  · by_cases hl : s.addrLocked i = true
    · exact ⟨s.pmpaddr, s.pmpPerm, by simp [hi, hl]; rfl, .inl rfl⟩
    · by_cases hv : canonAddr s.params value = s.addr i
      · exact ⟨s.pmpaddr, s.pmpPerm, by simp [hi, hl, hv]; rfl, .inl rfl⟩
      · obtain ⟨p, hp⟩ := s.invalidateWithTor_eq i
        obtain ⟨q, hq⟩ := ((s.setPmpPerm p).setPmpaddr
          ((s.setPmpPerm p).pmpaddr.set i (canonAddr s.params value))).invalidateWithTor_eq i
        refine ⟨s.pmpaddr.set i (canonAddr s.params value), q, ?_, .inr ⟨hi, by simpa using hl, rfl⟩⟩
        rw [if_neg (fun h => h hi), if_neg hl]
        simp only [hv, if_false, hp]
        exact hq
  · exact ⟨s.pmpaddr, s.pmpPerm, by simp [hi]; rfl, .inl rfl⟩

/-! ### Region geometry -/

/-- The lower bound of an active region is not above its upper bound. -/
theorem State.region_le (s : State) (i lo hi : Nat) (h : s.region i = .active lo hi) : lo ≤ hi := by
  unfold State.region at h
  split at h
  · unfold State.regionTor at h
    dsimp only at h
    generalize (if i = 0 then (0 : Int) else _) = low at h
    split at h
    · cases h
    · simp only [Region.active.injEq] at h
      omega
  · split at h
    · simp only [State.regionNa4, Region.active.injEq] at h
      omega
    · split at h
      · simp only [State.regionNapot, Region.active.injEq] at h
        omega
      · cases h

/-- A region depends on its own config byte and address word, and for TOR on the address word below. -/
theorem State.region_congr (s t : State) (i : Nat) (hp : t.params = s.params) (hc : t.cfg i = s.cfg i)
    (ha : t.addr i = s.addr i) (hb : t.addr (i - 1) = s.addr (i - 1)) : t.region i = s.region i := by
  simp only [State.region, State.regionTor, State.regionNa4, State.regionNapot, hp, hc, ha, hb]

/-! ### Refinement bounds -/

/-- The bounds contain a byte. -/
def Bounds.contains (b : Bounds) (x : Nat) : Prop :=
  b.lowMap ≤ x ∧ x ≤ b.highMap

/-- One region keeps the position of the access inside the bounds. -/
theorem refineRegion_contains (machine : Bool) (pa : Nat) (hpa : pa ≤ maxU64) (r : Region) (c : Byte) (i : Nat)
    (b : Bounds) (h : b.contains pa) : (refineRegion machine pa r c i b).contains pa := by
  unfold Bounds.contains at *
  unfold refineRegion
  split
  · exact h
  · split
    · simp only
      omega
    · split <;> split <;> (try dsimp only) <;> omega

/-- The loop keeps the position of the access inside the bounds. -/
theorem State.refineLoop_contains (s : State) (machine : Bool) (pa : Nat) (hpa : pa ≤ maxU64) (n : Nat) (b : Bounds)
    (h : b.contains pa) : (s.refineLoop machine pa n b).contains pa := by
  induction n generalizing b with
  | zero => exact h
  | succ n ih => exact ih _ (refineRegion_contains machine pa hpa (s.region n) (s.cfg n) n b h)

/-- One region, seen from two positions: if the runs agreed, they agree or the bounds of the first exclude the second. -/
theorem refineRegion_agree (machine : Bool) (pa y : Nat) (hy : y ≤ maxU64) (r : Region)
    (hr : ∀ lo hi, r = .active lo hi → lo ≤ hi) (c : Byte) (i : Nat) (b d : Bounds) (h : d = b ∨ ¬b.contains y) :
    refineRegion machine y r c i d = refineRegion machine pa r c i b
      ∨ ¬(refineRegion machine pa r c i b).contains y := by
  unfold Bounds.contains at *
  cases r with
  | inactive => simpa [refineRegion] using h
  | active rlo rhi =>
    have hle := hr rlo rhi rfl
    by_cases h1 : rlo ≤ pa ∧ pa ≤ rhi
    · by_cases h2 : rlo ≤ y ∧ y ≤ rhi
      · left
        simp [refineRegion, h1, h2]
      · right
        simp only [refineRegion, h1, and_self, if_true]
        omega
    · by_cases h3 : rlo > pa
      · by_cases h4 : rlo > y
        · have e1 : ¬(rlo ≤ y ∧ y ≤ rhi) := by omega
          rcases h with rfl | h
          · left
            simp only [refineRegion, h1, e1, h3, h4, if_true, if_false]
          · right
            simp only [refineRegion, h1, h3, if_true, if_false]
            split <;> (try dsimp only) <;> omega
        · right
          simp only [refineRegion, h1, h3, if_true, if_false]
          split <;> (try dsimp only) <;> omega
      · by_cases h4 : rhi < y
        · have e1 : ¬(rlo ≤ y ∧ y ≤ rhi) := by omega
          have e2 : ¬rlo > y := by omega
          rcases h with rfl | h
          · left
            simp only [refineRegion, h1, e1, h3, e2, if_false]
          · right
            simp only [refineRegion, h1, h3, if_false]
            split <;> (try dsimp only) <;> omega
        · right
          simp only [refineRegion, h1, h3, if_false]
          split <;> (try dsimp only) <;> omega

/-- Two runs of the loop from agreeing bounds agree wherever the first one's bounds reach. -/
theorem State.refineLoop_agree (s : State) (machine : Bool) (pa y : Nat) (hy : y ≤ maxU64) (n : Nat) (b d : Bounds)
    (h : d = b ∨ ¬b.contains y) :
    s.refineLoop machine y n d = s.refineLoop machine pa n b ∨ ¬(s.refineLoop machine pa n b).contains y := by
  induction n generalizing b d with
  | zero => exact h
  | succ n ih =>
    exact ih _ _ (refineRegion_agree machine pa y hy (s.region n) (fun lo hi hr => s.region_le n lo hi hr) (s.cfg n) n b d h)

/-- The loop depends on the regions and config bytes only. -/
theorem State.refineLoop_congr (s t : State) (machine : Bool) (pa n : Nat) (b : Bounds)
    (h : ∀ i, i < n → t.region i = s.region i ∧ t.cfg i = s.cfg i) :
    t.refineLoop machine pa n b = s.refineLoop machine pa n b := by
  induction n generalizing b with
  | zero => rfl
  | succ n ih =>
    simp only [State.refineLoop]
    rw [(h n (by omega)).1, (h n (by omega)).2]
    exact ih _ (fun i hi => h i (by omega))

end Sys2Proof.Machine
end

