-- ==== Sys2Proof/Laws/Walk.lean ====
section
/-! SUPPORT. Page-table accesses and walks: what they leave unchanged, and that a walk returns what the rule over a snapshot of
memory gives. -/

namespace Sys2Proof.Machine

/-! ### What a walk leaves unchanged -/

/-- Two states agree outside what a page-table access may change: the permission cache, `AFault`, `PTWActive`, memory and the
traffic record. -/
structure WalkFrame (s t : State) : Prop where
  params : t.params = s.params
  pmpcfg : t.pmpcfg = s.pmpcfg
  pmpaddr : t.pmpaddr = s.pmpaddr
  tlbs : t.tlbs = s.tlbs
  aliases : t.aliases = s.aliases
  pubKey : t.pubKey = s.pubKey
  dataMode : t.dataMode = s.dataMode
  s2Active : t.s2Active = s.s2Active
  s1VA : t.s1VA = s.s1VA
  env : t.env = s.env
  input : t.input = s.input
  response : t.response = s.response
  choice : t.choice = s.choice
  nextHandle : t.nextHandle = s.nextHandle

theorem WalkFrame.refl (s : State) : WalkFrame s s :=
  ⟨rfl, rfl, rfl, rfl, rfl, rfl, rfl, rfl, rfl, rfl, rfl, rfl, rfl, rfl⟩

theorem WalkFrame.trans {s t u : State} (h : WalkFrame s t) (k : WalkFrame t u) : WalkFrame s u :=
  ⟨k.params.trans h.params, k.pmpcfg.trans h.pmpcfg, k.pmpaddr.trans h.pmpaddr, k.tlbs.trans h.tlbs,
    k.aliases.trans h.aliases, k.pubKey.trans h.pubKey, k.dataMode.trans h.dataMode, k.s2Active.trans h.s2Active,
    k.s1VA.trans h.s1VA, k.env.trans h.env, k.input.trans h.input, k.response.trans h.response,
    k.choice.trans h.choice, k.nextHandle.trans h.nextHandle⟩

theorem WalkFrame.setMem (s : State) (m : Memory) : WalkFrame s (s.setMem m) :=
  ⟨rfl, rfl, rfl, rfl, rfl, rfl, rfl, rfl, rfl, rfl, rfl, rfl, rfl, rfl⟩

theorem WalkFrame.logAccess (s : State) (a : PteAccess) : WalkFrame s (s.logAccess a) :=
  ⟨rfl, rfl, rfl, rfl, rfl, rfl, rfl, rfl, rfl, rfl, rfl, rfl, rfl, rfl⟩

theorem WalkFrame.setPtwActive (s : State) (b : Bool) : WalkFrame s (s.setPtwActive b) :=
  ⟨rfl, rfl, rfl, rfl, rfl, rfl, rfl, rfl, rfl, rfl, rfl, rfl, rfl, rfl⟩

/-- Refinement is a frame step and leaves memory and the traffic alone. -/
theorem State.pmpRefine_frame (s : State) (mode : Mode5) (req : Priv) (lo hi : Nat) :
    WalkFrame s (s.pmpRefine mode req lo hi).2 ∧ (s.pmpRefine mode req lo hi).2.mem = s.mem
      ∧ (s.pmpRefine mode req lo hi).2.traffic = s.traffic := by
  obtain ⟨p, a, h⟩ := s.pmpRefine_eq mode req lo hi
  rw [h]
  exact ⟨⟨rfl, rfl, rfl, rfl, rfl, rfl, rfl, rfl, rfl, rfl, rfl, rfl, rfl, rfl⟩, rfl, rfl⟩

/-! ### The bank decides on the bank -/

/-- A region of a state with the same bank. -/
theorem State.region_bank {s t : State} (hp : t.params = s.params) (hc : t.pmpcfg = s.pmpcfg) (ha : t.pmpaddr = s.pmpaddr)
    (i : Nat) : t.region i = s.region i :=
  State.region_congr s t i hp (by simp only [State.cfg, hp, hc]) (by simp only [State.addr, hp, ha])
    (by simp only [State.addr, hp, ha])

/-- The refined bounds depend on the bank only. -/
theorem State.refineBounds_bank {s t : State} (hp : t.params = s.params) (hc : t.pmpcfg = s.pmpcfg)
    (ha : t.pmpaddr = s.pmpaddr) (mode : Mode5) (pa : Nat) : t.refineBounds mode pa = s.refineBounds mode pa := by
  unfold State.refineBounds
  simp only [hp]
  exact State.refineLoop_congr s t _ _ _ _ (fun i _ => ⟨State.region_bank hp hc ha i, by simp only [State.cfg, hp, hc]⟩)

/-- What refinement grants depends on the bank only. -/
theorem State.pmpGrants_bank {s t : State} (hp : t.params = s.params) (hc : t.pmpcfg = s.pmpcfg)
    (ha : t.pmpaddr = s.pmpaddr) (mode : Mode5) (req : Priv) (lo hi : Nat) :
    t.pmpGrants mode req lo hi = s.pmpGrants mode req lo hi := by
  simp only [State.pmpGrants, State.refineBounds_bank hp hc ha, hp]

/-- Whether a page-table access is served depends on the bank and the inputs only. -/
theorem State.ptwServes_frame {s t : State} (h : WalkFrame s t) (req : Priv) (lo hi : Nat) :
    t.ptwServes req lo hi = s.ptwServes req lo hi := by
  simp only [State.ptwServes, State.pmpGrants_bank h.params h.pmpcfg h.pmpaddr, State.pmaAllows, State.responds, h.env]

theorem State.bigEndian_frame {s t : State} (h : WalkFrame s t) (i : TlbId) : t.bigEndian i = s.bigEndian i := by
  cases i <;> simp only [State.bigEndian, h.env]

/-- What a page-table read returns depends on the bank, the inputs and memory only. -/
theorem State.peekPte_frame {s t : State} (h : WalkFrame s t) (hm : t.mem = s.mem) (i : TlbId) (addr : U64) (n : Nat) :
    t.peekPte i addr n = s.peekPte i addr n := by
  simp only [State.peekPte, State.ptwServes_frame h, State.bigEndian_frame h, hm]

/-! ### Page-table accesses -/

theorem State.ptwCheck_spec (s : State) (req : Priv) (addr : U64) (n : Nat) :
    (s.ptwCheck req addr n).1 = s.ptwServes req addr.toNat (addr.toNat + n - 1)
      ∧ WalkFrame s (s.ptwCheck req addr n).2 ∧ (s.ptwCheck req addr n).2.mem = s.mem
      ∧ (s.ptwCheck req addr n).2.traffic = s.traffic := by
  obtain ⟨f, m, tr⟩ := s.pmpRefine_frame .supervisor req addr.toNat (addr.toNat + n - 1)
  refine ⟨?_, f, m, tr⟩
  unfold State.ptwCheck State.ptwServes
  simp only [State.pmpRefine_fst]
  rw [show (s.pmpRefine .supervisor req addr.toNat (addr.toNat + n - 1)).2.pmaAllows req addr.toNat (addr.toNat + n - 1)
      = s.pmaAllows req addr.toNat (addr.toNat + n - 1) by simp only [State.pmaAllows, f.env],
    show (s.pmpRefine .supervisor req addr.toNat (addr.toNat + n - 1)).2.responds addr.toNat (addr.toNat + n - 1)
      = s.responds addr.toNat (addr.toNat + n - 1) by simp only [State.responds, f.env]]

/-- Everything a page-table read does. -/
theorem State.memRead_spec (s : State) (t : TlbId) (addr : U64) (n : Nat) :
    (s.memRead t addr n).1 = s.peekPte t addr n ∧ WalkFrame s (s.memRead t addr n).2
      ∧ (s.memRead t addr n).2.mem = s.mem ∧ (s.memRead t addr n).2.ptwActive = false
      ∧ ∃ a, (s.memRead t addr n).2.traffic = s.traffic ++ [a] ∧ a.write = false ∧ a.addr = addr ∧ a.size = n
          ∧ a.ptwActive = true ∧ a.s2Active = s.s2Active ∧ a.ok = (s.peekPte t addr n).isSome := by
  obtain ⟨c1, f, m, tr⟩ := (s.setPtwActive true).ptwCheck_spec Priv.R addr n
  have fr : WalkFrame s ((s.setPtwActive true).ptwCheck Priv.R addr n).2 :=
    WalkFrame.trans (t := s.setPtwActive true) ⟨rfl, rfl, rfl, rfl, rfl, rfl, rfl, rfl, rfl, rfl, rfl, rfl, rfl, rfl⟩ f
  have hs : (s.setPtwActive true).ptwServes Priv.R addr.toNat (addr.toNat + n - 1)
      = s.ptwServes Priv.R addr.toNat (addr.toNat + n - 1) :=
    State.ptwServes_frame (s := s) (t := s.setPtwActive true) ⟨rfl, rfl, rfl, rfl, rfl, rfl, rfl, rfl, rfl, rfl, rfl, rfl, rfl, rfl⟩ _ _ _
  have hb := State.bigEndian_frame fr t
  have hact : ((s.setPtwActive true).ptwCheck Priv.R addr n).2.ptwActive = true := by
    obtain ⟨p, a, h⟩ := (s.setPtwActive true).pmpRefine_eq .supervisor Priv.R addr.toNat (addr.toNat + n - 1)
    show ((s.setPtwActive true).pmpRefine .supervisor Priv.R addr.toNat (addr.toNat + n - 1)).2.ptwActive = true
    rw [h]
    rfl
  have e1 : (s.memRead t addr n).1 = s.peekPte t addr n := by
    unfold State.memRead State.peekPte
    simp only [c1, hs, hb, m]
    rfl
  refine ⟨e1, ?_, ?_, rfl,
    { write := false, addr := addr, size := n
      value := if ((s.setPtwActive true).ptwCheck Priv.R addr n).1
        then BitVec.ofNat 64 (((s.setPtwActive true).ptwCheck Priv.R addr n).2.mem.read
          (((s.setPtwActive true).ptwCheck Priv.R addr n).2.bigEndian t) addr.toNat n) else 0
      ok := ((s.setPtwActive true).ptwCheck Priv.R addr n).1
      ptwActive := ((s.setPtwActive true).ptwCheck Priv.R addr n).2.ptwActive
      s2Active := ((s.setPtwActive true).ptwCheck Priv.R addr n).2.s2Active }, ?_, rfl, rfl, rfl, hact, fr.s2Active, ?_⟩
  · exact WalkFrame.trans fr ⟨rfl, rfl, rfl, rfl, rfl, rfl, rfl, rfl, rfl, rfl, rfl, rfl, rfl, rfl⟩
  · exact m
  · exact congrArg (fun l => l ++ [_]) tr
  · unfold State.peekPte
    dsimp only
    rw [c1, hs]
    split <;> simp_all

/-- Everything a page-table write does. -/
theorem State.memWrite_spec (s : State) (t : TlbId) (addr : U64) (n : Nat) (v : U64) :
    (s.memWrite t addr n v).1 = s.ptwServes Priv.W addr.toNat (addr.toNat + n - 1)
      ∧ WalkFrame s (s.memWrite t addr n v).2
      ∧ (s.memWrite t addr n v).2.mem
          = (if s.ptwServes Priv.W addr.toNat (addr.toNat + n - 1)
              then s.mem.write (s.bigEndian t) addr.toNat n v.toNat else s.mem)
      ∧ (s.memWrite t addr n v).2.ptwActive = false
      ∧ ∃ a, (s.memWrite t addr n v).2.traffic = s.traffic ++ [a] ∧ a.write = true ∧ a.addr = addr ∧ a.size = n
          ∧ a.value = v ∧ a.ptwActive = true ∧ a.s2Active = s.s2Active
          ∧ a.ok = s.ptwServes Priv.W addr.toNat (addr.toNat + n - 1) := by
  obtain ⟨c1, f, m, tr⟩ := (s.setPtwActive true).ptwCheck_spec Priv.W addr n
  have fr : WalkFrame s ((s.setPtwActive true).ptwCheck Priv.W addr n).2 :=
    WalkFrame.trans (t := s.setPtwActive true) ⟨rfl, rfl, rfl, rfl, rfl, rfl, rfl, rfl, rfl, rfl, rfl, rfl, rfl, rfl⟩ f
  have hs : (s.setPtwActive true).ptwServes Priv.W addr.toNat (addr.toNat + n - 1)
      = s.ptwServes Priv.W addr.toNat (addr.toNat + n - 1) :=
    State.ptwServes_frame (s := s) (t := s.setPtwActive true) ⟨rfl, rfl, rfl, rfl, rfl, rfl, rfl, rfl, rfl, rfl, rfl, rfl, rfl, rfl⟩ _ _ _
  have hb := State.bigEndian_frame fr t
  have hact : ((s.setPtwActive true).ptwCheck Priv.W addr n).2.ptwActive = true := by
    obtain ⟨p, a, h⟩ := (s.setPtwActive true).pmpRefine_eq .supervisor Priv.W addr.toNat (addr.toNat + n - 1)
    show ((s.setPtwActive true).pmpRefine .supervisor Priv.W addr.toNat (addr.toNat + n - 1)).2.ptwActive = true
    rw [h]
    rfl
  have e1 : (s.memWrite t addr n v).1 = s.ptwServes Priv.W addr.toNat (addr.toNat + n - 1) := by
    unfold State.memWrite
    simp only [c1, hs]
  have emem : ((s.setPtwActive true).ptwCheck Priv.W addr n).2.mem = s.mem := m
  have etr : ((s.setPtwActive true).ptwCheck Priv.W addr n).2.traffic = s.traffic := tr
  rw [← e1] at *
  generalize hc : (s.setPtwActive true).ptwCheck Priv.W addr n = c at *
  have hdef : s.memWrite t addr n v
      = (c.1, ((if c.1 then c.2.setMem (c.2.mem.write (c.2.bigEndian t) addr.toNat n v.toNat) else c.2).logAccess
          { write := true, addr := addr, size := n, value := v, ok := c.1
            ptwActive := c.2.ptwActive, s2Active := c.2.s2Active }).setPtwActive false) := by
    rw [← hc]
    rfl
  rw [hdef]
  dsimp only
  cases h1 : c.1 with
  | true =>
    simp only [if_true]
    refine ⟨trivial, ((fr.trans (WalkFrame.setMem _ _)).trans (WalkFrame.logAccess _ _)).trans (WalkFrame.setPtwActive _ _),
      ?_, State.setPtwActive_ptwActive _ _, ?_⟩
    · simp only [State.setPtwActive_mem, State.logAccess_mem, State.setMem_mem, emem, hb]
    · refine ⟨PteAccess.mk true addr n v true c.2.ptwActive c.2.s2Active, ?_, rfl, rfl, rfl, rfl, hact, fr.s2Active, rfl⟩
      simp only [State.setPtwActive_traffic, State.logAccess_traffic, State.setMem_traffic, etr]
  | false =>
    simp only [Bool.false_eq_true, if_false]
    refine ⟨trivial, (fr.trans (WalkFrame.logAccess _ _)).trans (WalkFrame.setPtwActive _ _),
      ?_, State.setPtwActive_ptwActive _ _, ?_⟩
    · simp only [State.setPtwActive_mem, State.logAccess_mem, emem]
    · refine ⟨PteAccess.mk true addr n v false c.2.ptwActive c.2.s2Active, ?_, rfl, rfl, rfl, rfl, hact, fr.s2Active, rfl⟩
      simp only [State.setPtwActive_traffic, State.logAccess_traffic, etr]

/-! ### What arms `AFault` (10_state.md R45) -/

/-- From `s` to `t` the traffic grew, and `AFault` is armed in `t` iff it was or the PMP bank denied one of the new accesses. -/
def AFaultFollows (s t : State) : Prop :=
  ∃ l, t.traffic = s.traffic ++ l ∧ (t.afault = .pmp ↔ s.afault = .pmp ∨ s.pmpDenied l)

theorem AFaultFollows.refl (s : State) : AFaultFollows s s :=
  ⟨[], by simp, by simp [State.pmpDenied]⟩

theorem State.pmpDenied_bank {s t : State} (hp : t.params = s.params) (hc : t.pmpcfg = s.pmpcfg)
    (ha : t.pmpaddr = s.pmpaddr) (l : List PteAccess) : t.pmpDenied l ↔ s.pmpDenied l := by
  simp only [State.pmpDenied, State.pmpGrants_bank hp hc ha]

theorem AFaultFollows.trans {s t u : State} (f : WalkFrame s t) (h : AFaultFollows s t) (k : AFaultFollows t u) :
    AFaultFollows s u := by
  obtain ⟨l, h1, h2⟩ := h
  obtain ⟨l', k1, k2⟩ := k
  refine ⟨l ++ l', by rw [k1, h1, List.append_assoc], ?_⟩
  rw [k2, h2, State.pmpDenied_bank f.params f.pmpcfg f.pmpaddr]
  simp only [State.pmpDenied, List.mem_append, or_and_right, exists_or, or_assoc]

/-- A page-table access arms `AFault` iff the bank denies it. -/
theorem State.ptwCheck_afault (s : State) (req : Priv) (addr : U64) (n : Nat) :
    (s.ptwCheck req addr n).2.afault = .pmp
      ↔ s.afault = .pmp ∨ s.pmpGrants .supervisor req addr.toNat (addr.toNat + n - 1) = false := by
  show (s.pmpRefine .supervisor req addr.toNat (addr.toNat + n - 1)).2.afault = .pmp ↔ _
  rw [← State.pmpRefine_fst]
  rcases s.pmpRefine_cases .supervisor req addr.toNat (addr.toNat + n - 1) with ⟨-, h⟩ | ⟨-, -, h⟩ | ⟨-, -, h⟩ <;> rw [h]
  · simp
  · simp [State.protect]
  · simp

theorem State.memRead_afault (s : State) (t : TlbId) (addr : U64) (n : Nat) : AFaultFollows s (s.memRead t addr n).2 := by
  obtain ⟨-, -, -, -, a, h1, h2, h3, h4, -⟩ := s.memRead_spec t addr n
  refine ⟨[a], h1, ?_⟩
  show ((s.setPtwActive true).ptwCheck Priv.R addr n).2.afault = .pmp ↔ _
  rw [State.ptwCheck_afault]
  simp [State.pmpDenied, h2, h3, h4, State.pmpGrants_bank (s := s) (t := s.setPtwActive true) rfl rfl rfl]

theorem State.memWrite_afault (s : State) (t : TlbId) (addr : U64) (n : Nat) (v : U64) :
    AFaultFollows s (s.memWrite t addr n v).2 := by
  obtain ⟨-, -, -, -, a, h1, h2, h3, h4, -⟩ := s.memWrite_spec t addr n v
  refine ⟨[a], h1, ?_⟩
  have e : (s.memWrite t addr n v).2.afault = ((s.setPtwActive true).ptwCheck Priv.W addr n).2.afault := by
    unfold State.memWrite
    dsimp only
    split <;> rfl
  rw [e, State.ptwCheck_afault]
  simp [State.pmpDenied, h2, h3, h4, State.pmpGrants_bank (s := s) (t := s.setPtwActive true) rfl rfl rfl]

/-! ### Walks with untranslated page-table addresses -/

/-- The two readings of a page-table entry agree (30_encoding.md R109). -/
theorem pteMeaning_cases (fmt : PteFormat) (pte : U64) :
    (pteV pte = false ∧ pteMeaning fmt pte = .fails .v0)
      ∨ (pteV pte = true ∧ pteR pte = false ∧ pteW pte = true ∧ pteMeaning fmt pte = .fails .r0w1)
      ∨ (pteV pte = true ∧ ¬(pteR pte = false ∧ pteW pte = true)
          ∧ (pteR pte = true ∨ pteW pte = true ∨ pteX pte = true)
          ∧ pteMeaning fmt pte
            = .leaf (ptePriv pte) (pteU pte) (pteG pte) (pteA pte) (pteD pte) (ptePa fmt pte))
      ∨ (pteV pte = true ∧ pteR pte = false ∧ pteW pte = false ∧ pteX pte = false
          ∧ pteMeaning fmt pte = .pointer (ptePa fmt pte)) := by
  unfold pteMeaning
  cases pteV pte <;> cases pteR pte <;> cases pteW pte <;> cases pteX pte <;> simp

/-- A walk's loop reads what the rule over the snapshot reads, and changes nothing but the frame. -/
theorem walkLoop_direct (sh : WalkShape) (t : TlbId) (va : U64) (n : Nat) (a : U64) (s : State) :
    ∃ s', WalkFrame s s' ∧ s'.mem = s.mem ∧ (s.ptwActive = false → s'.ptwActive = false)
      ∧ walkLoop directPte sh t va n a s
        = match ruleLeaf (fun x => s.peekPte t x (pteBytes sh.fmt)) sh va n a with
          | .ok leaf => .ok leaf s'
          | .error e => .err { err := e, pteGpa := none } s' := by
  induction n generalizing a s with
  | zero => exact ⟨s, WalkFrame.refl s, rfl, id, rfl⟩
  | succ n ih =>
    obtain ⟨e1, f, m, act, -⟩ := s.memRead_spec t (a + vpn sh.w n va * BitVec.ofNat 64 (pteBytes sh.fmt)) (pteBytes sh.fmt)
    unfold walkLoop ruleLeaf
    simp only [directPte, Res.bind]
    rw [← e1]
    rcases hr : s.memRead t (a + vpn sh.w n va * BitVec.ofNat 64 (pteBytes sh.fmt)) (pteBytes sh.fmt) with ⟨o, s2⟩
    rw [hr] at f m act e1
    dsimp only at f m act e1 ⊢
    cases o with
    | none => exact ⟨s2, f, m, fun _ => act, rfl⟩
    | some pte =>
      dsimp only
      rcases pteMeaning_cases sh.fmt pte with ⟨hv, hm⟩ | ⟨hv, hr1, hw, hm⟩ | ⟨hv, hrw, hl, hm⟩ | ⟨hv, hr1, hw, hx, hm⟩
      · exact ⟨s2, f, m, fun _ => act, by rw [hm, if_pos hv]; rfl⟩
      · exact ⟨s2, f, m, fun _ => act, by rw [hm, if_neg (by simp [hv]), if_pos ⟨hr1, hw⟩]; rfl⟩
      · exact ⟨s2, f, m, fun _ => act, by rw [hm, if_neg (by simp [hv]), if_neg hrw, if_pos hl]⟩
      · obtain ⟨s', f', m', act', h'⟩ := ih (ptePpn sh.fmt pte <<< 12) s2
        refine ⟨s', WalkFrame.trans f f', m'.trans m, fun _ => act' act, ?_⟩
        rw [hm, if_neg (by simp [hv]), if_neg (by simp [hr1, hw]), if_neg (by simp [hr1, hw, hx])]
        have hpeek : (fun x => s2.peekPte t x (pteBytes sh.fmt)) = fun x => s.peekPte t x (pteBytes sh.fmt) :=
          funext (fun x => State.peekPte_frame f m t x _)
        rw [hpeek] at h'
        exact h'

theorem State.leafEntry_frame {s t : State} (h : WalkFrame s t) (sh : WalkShape) (i : TlbId) (va : U64) (art : Bool)
    (l : Nat) (pte : U64) : t.leafEntry sh i va art l pte = s.leafEntry sh i va art l pte := by
  have hk : t.liveKey = s.liveKey := by
    simp only [State.liveKey, State.hgatpMode, State.vsatpMode, State.sumVs, State.mxrVs, State.sumHs, State.mxrHs,
      State.hgatpVmid, State.vsatpAsid, State.satpAsid, h.params, h.env]
  simp only [State.leafEntry, h.params, hk]

theorem State.permGrants_frame {s t : State} (h : WalkFrame s t) (mode : Mode5) (e : Entry) (req : Priv) :
    t.permGrants mode e req = s.permGrants mode e req := by
  have h1 : t.effMxr = s.effMxr := by
    funext i
    cases i <;> simp only [State.effMxr, State.mxrHs, State.mxrVs, h.env]
  have h2 : t.effSum = s.effSum := by
    funext i
    cases i <;> simp only [State.effSum, State.sumHs, State.sumVs, h.env]
  simp only [State.permGrants, State.permEff, h1, h2, h.params]

/-- A walk with untranslated page-table addresses returns what the rule over the snapshot gives, and leaves the memory that
rule gives. -/
theorem walk_direct (sh : WalkShape) (t : TlbId) (root va : U64) (req : Priv) (mode : Mode5) (artifact : Bool) (s : State) :
    ∃ s', WalkFrame s s' ∧ (s.ptwActive = false → s'.ptwActive = false)
      ∧ s'.mem = (s.ruleOutcome sh artifact (s.ruleWalk sh t root va req mode artifact)).2
      ∧ walk directPte sh t root va req mode artifact s
        = match (s.ruleOutcome sh artifact (s.ruleWalk sh t root va req mode artifact)).1 with
          | .ok e => .ok e s'
          | .error e => .err { err := e, pteGpa := none } s' := by
  unfold walk State.ruleWalk
  by_cases hx : extensionOk sh va = true
  · simp only [hx, Bool.not_true, Bool.false_eq_true, if_false]
    obtain ⟨s1, f, m, act, h1⟩ := walkLoop_direct sh t va sh.levels root s
    rw [h1]
    cases hr : ruleLeaf (fun x => s.peekPte t x (pteBytes sh.fmt)) sh va sh.levels root with
    | error e => exact ⟨s1, f, act, m, rfl⟩
    | ok leaf =>
      simp only [Res.bind, finishWalk]
      by_cases hal : ptePa sh.fmt leaf.pte &&& lowMask (leaf.level * sh.w + 12) = 0
      · have hal' : ¬((ptePa sh.fmt leaf.pte &&& lowMask (leaf.level * sh.w + 12) != 0) = true) := by simp [hal]
        simp only [if_neg hal', if_neg (show ¬(ptePa sh.fmt leaf.pte &&& lowMask (leaf.level * sh.w + 12) ≠ 0)
          from fun h => h hal), State.leafEntry_frame f, State.permGrants_frame f]
        cases hg : s.permGrants mode (s.leafEntry sh t va artifact leaf.level leaf.pte) req with
        | false => exact ⟨s1, f, act, m, rfl⟩
        | true =>
          simp only [Bool.not_true, Bool.false_eq_true, if_false, Bool.true_eq_false]
          generalize he : s.leafEntry sh t va artifact leaf.level leaf.pte = e
          have het : e.tlb = t := by rw [← he]; rfl
          simp only [adUpdate, f.params]
          by_cases h0 : e.a = false ∧ s.params.updatePteA = false
          · exact ⟨s1, f, act, by simp [h0.1, h0.2, m, State.ruleOutcome], by simp [h0.1, h0.2, State.ruleOutcome, failWalk]⟩
          · have h0' : ¬((!e.a && !s.params.updatePteA) = true) := by
              intro hh
              simp only [Bool.and_eq_true, Bool.not_eq_true'] at hh
              exact h0 hh
            simp only [if_neg h0', if_neg h0]
            by_cases h2 : needsWrite req = true ∧ e.d = false ∧ s.params.updatePteD = false
            · refine ⟨s1, f, act, ?_, ?_⟩
              · rw [if_pos h2]
                exact m
              · rw [if_pos h2, if_pos (by simp [h2.1, h2.2.1, h2.2.2])]
                rfl
            · have h2' : ¬((needsWrite req && !e.d && !s.params.updatePteD) = true) := by
                intro hh
                simp only [Bool.and_eq_true, Bool.not_eq_true'] at hh
                exact h2 ⟨hh.1.1, hh.1.2, hh.2⟩
              simp only [if_neg h2', if_neg h2]
              have hch : ((!e.a || (needsWrite req && !e.d)) = true) ↔ (e.a = false ∨ (needsWrite req = true ∧ e.d = false)) := by
                simp
              by_cases hc : e.a = false ∨ (needsWrite req = true ∧ e.d = false)
              · simp only [if_pos hc]
                have hcb := hch.2 hc
                have haddr : leaf.addr = leaf.pteAddr := by
                  have aux : ∀ (n : Nat) (a : U64) (l : FoundLeaf),
                      ruleLeaf (fun x => s.peekPte t x (pteBytes sh.fmt)) sh va n a = .ok l → l.addr = l.pteAddr := by
                    intro n
                    induction n with
                    | zero => intro a l h; cases h
                    | succ n ih =>
                      intro a l h
                      unfold ruleLeaf at h
                      dsimp only at h
                      split at h
                      · cases h
                      · split at h
                        · cases h
                        · split at h
                          · cases h
                          · split at h
                            · cases h
                              rfl
                            · exact ih _ _ h
                  exact aux _ _ _ hr
                cases artifact with
                | true => exact ⟨s1, f, act, by simp [State.ruleOutcome, m], by simp [State.ruleOutcome, writeBack]⟩
                | false =>
                  obtain ⟨w1, wf, wm, wact, -⟩ := s1.memWrite_spec t leaf.pteAddr (pteBytes sh.fmt)
                    (pteWithAD leaf.pte true (e.d || needsWrite req))
                  have hserve := State.ptwServes_frame f Priv.W leaf.pteAddr.toNat (leaf.pteAddr.toNat + pteBytes sh.fmt - 1)
                  have hbig := State.bigEndian_frame f t
                  rcases hw : s1.memWrite t leaf.pteAddr (pteBytes sh.fmt)
                    (pteWithAD leaf.pte true (e.d || needsWrite req)) with ⟨ok, s2⟩
                  rw [hw] at w1 wf wm wact
                  dsimp only at w1 wf wm wact
                  rw [hserve] at w1 wm
                  refine ⟨s2, WalkFrame.trans f wf, fun _ => wact, ?_, ?_⟩
                  · rw [wm]
                    simp only [State.ruleOutcome, haddr, het, Bool.false_eq_true, if_false, hbig, m]
                    split <;> rfl
                  · simp only [writeBack, hcb, Bool.not_false, Bool.and_self, if_true, directPte, Res.bind, hw,
                      State.ruleOutcome, haddr, Bool.false_eq_true, if_false]
                    rw [← w1]
                    cases ok <;> rfl
              · simp only [if_neg hc]
                have hcb : (!e.a || (needsWrite req && !e.d)) = false := by
                  cases hh : (!e.a || (needsWrite req && !e.d))
                  · rfl
                  · exact absurd (hch.1 hh) hc
                exact ⟨s1, f, act, by simp [State.ruleOutcome, m], by simp [State.ruleOutcome, writeBack, hcb]⟩
      · have hal' : (ptePa sh.fmt leaf.pte &&& lowMask (leaf.level * sh.w + 12) != 0) = true := by
          rw [bne_iff_ne]
          exact hal
        refine ⟨s1, f, act, ?_, ?_⟩
        · rw [if_pos hal]
          exact m
        · rw [if_pos hal', if_pos hal]
          rfl
  · simp only [hx, Bool.not_false, if_true]
    exact ⟨s, WalkFrame.refl s, id, rfl, rfl⟩

end Sys2Proof.Machine
end

