-- ==== Sys2Proof/Laws/Lookup.lean ====
section
/-! SUPPORT. Lookups once for all: what a walk returns and keeps, whatever the way to its page tables, and what a lookup in a
TLB returns and keeps. A property closed under the few changes they make is kept by all of them. -/

namespace Sys2Proof.Machine

/-! ### Results -/

/-- `P` holds of a value and its state, `Q` of an error and its state, `S` of the reason of a stop. -/
def Res.Holds {ε α : Type} (r : Res ε α) (P : α → State → Prop) (Q : ε → State → Prop) (S : Fault → Prop) : Prop :=
  match r with
  | .ok a s => P a s
  | .err e s => Q e s
  | .stuck f => S f

theorem Res.Holds.bind {ε α β : Type} {r : Res ε α} {k : α → State → Res ε β} {P : α → State → Prop}
    {P' : β → State → Prop} {Q : ε → State → Prop} {S : Fault → Prop} (h : r.Holds P Q S)
    (hk : ∀ a s, P a s → (k a s).Holds P' Q S) : (r.bind k).Holds P' Q S := by
  cases r with
  | ok a s => exact hk a s h
  | err e s => exact h
  | stuck f => exact h

theorem Res.Holds.mono {ε α : Type} {r : Res ε α} {P P' : α → State → Prop} {Q Q' : ε → State → Prop}
    {S S' : Fault → Prop} (h : r.Holds P Q S) (hP : ∀ a s, P a s → P' a s) (hQ : ∀ e s, Q e s → Q' e s)
    (hS : ∀ f, S f → S' f) : r.Holds P' Q' S' := by
  cases r with
  | ok a s => exact hP a s h
  | err e s => exact hQ e s h
  | stuck f => exact hS f h

/-! ### Ranges -/

/-- The part of an address above a mask, with the mask filled in, is the address with the mask filled in. -/
theorem fill_mask (x m : U64) : (x &&& ~~~m) + m = x ||| m := by
  have h : (x &&& ~~~m) &&& m = 0#64 := by
    ext i hi
    simp
  rw [BitVec.add_eq_or_of_and_eq_zero _ _ h]
  ext i hi
  simp only [BitVec.getElem_or, BitVec.getElem_and, BitVec.getElem_not]
  cases x[i] <;> cases m[i] <;> rfl

/-- The range an address and a page size give contains the address. -/
theorem range_contains (x m : U64) : x &&& ~~~m ≤ x ∧ x ≤ (x &&& ~~~m) + m := by
  rw [fill_mask]
  refine ⟨?_, ?_⟩ <;> rw [BitVec.le_def]
  · rw [BitVec.toNat_and]
    exact Nat.and_le_left
  · rw [BitVec.toNat_or]
    exact Nat.left_le_or

/-- The entry covers the page of size `2^k` around `va`, and its physical base is aligned to it. -/
def pageRange (k : Nat) (va : U64) (e : Entry) : Prop :=
  e.lowVA = va &&& ~~~(lowMask k) ∧ e.highVA = (va &&& ~~~(lowMask k)) + lowMask k ∧ e.pa &&& lowMask k = 0

theorem pageRange.covers {k : Nat} {va : U64} {e : Entry} (h : pageRange k va e) : covers e va = true := by
  obtain ⟨h1, h2⟩ := range_contains va (lowMask k)
  simp only [Machine.covers, h.1, h.2.1, h1, h2, decide_true, Bool.and_self]

theorem pageRange.aligned {k : Nat} {va : U64} {e : Entry} (hk : k ∈ [12, 21, 22, 30, 39]) (h : pageRange k va e) :
    entryAligned e := by
  refine ⟨k, hk, ?_, h.2.2, by rw [h.1, h.2.1]⟩
  rw [h.1, BitVec.and_assoc, BitVec.and_comm (~~~lowMask k), BitVec.and_not_self]
  exact BitVec.and_zero

/-- Reinstating the extra bits of a guest-physical address gives the page around the whole address (40_walker.md R145). -/
theorem pageRange.reinstate {k n : Nat} (hk : k ≤ n) {gpa : U64} {e : Entry} (h : pageRange k (gpa &&& lowMask n) e) :
    pageRange k gpa (Machine.reinstate (gpa >>> n) n e) := by
  have hlow : ((gpa &&& lowMask n) &&& ~~~(lowMask k)) ||| ((gpa >>> n) <<< n) = gpa &&& ~~~(lowMask k) := by
    ext i hi
    simp only [lowMask, BitVec.getElem_or, BitVec.getElem_and, BitVec.getElem_not, BitVec.getElem_shiftLeft,
      BitVec.getElem_setWidth, BitVec.getLsbD_allOnes, BitVec.getElem_ushiftRight]
    by_cases h1 : i < n
    · simp [h1]
    · have h2 : ¬i < k := by omega
      have h3 : n + (i - n) = i := by omega
      simp [h1, h2, h3, BitVec.getLsbD_eq_getElem hi]
  have hhigh : (((gpa &&& lowMask n) &&& ~~~(lowMask k)) + lowMask k) ||| ((gpa >>> n) <<< n)
      = (gpa &&& ~~~(lowMask k)) + lowMask k := by
    rw [fill_mask, fill_mask]
    ext i hi
    simp only [lowMask, BitVec.getElem_or, BitVec.getElem_and, BitVec.getElem_shiftLeft,
      BitVec.getElem_setWidth, BitVec.getLsbD_allOnes, BitVec.getElem_ushiftRight]
    by_cases h1 : i < n
    · simp [h1]
    · have h2 : ¬i < k := by omega
      have h3 : n + (i - n) = i := by omega
      simp [h1, h2, h3, BitVec.getLsbD_eq_getElem hi]
  refine ⟨?_, ?_, h.2.2⟩
  · show e.lowVA ||| ((gpa >>> n) <<< n) = _
    rw [h.1, hlow]
  · show e.highVA ||| ((gpa >>> n) <<< n) = _
    rw [h.2.1, hhigh]

/-! ### Walks -/

/-- A property of states that page-table accesses keep: it fixes the parameters and the inputs, and is closed under a read
and, but for artifact accesses, under a write-back. When every page table is reached directly, the value written back is
that read from the same address, with `A` and `D` set. -/
structure WalkKeeps (s0 : State) (artifact : Bool) (I : State → Prop) : Prop where
  frame : ∀ s, I s → s.params = s0.params ∧ s.env = s0.env
  read : ∀ s t addr fmt, I s → I (s.memRead t addr (pteBytes fmt)).2
  write : ∀ s t addr fmt pte req, artifact = false → I s →
    (s0.params.vs1PtwViaS2 = false →
      pte = BitVec.ofNat 64 (s.mem.read (s.bigEndian t) addr.toNat (pteBytes fmt))) →
    I (s.memWrite t addr (pteBytes fmt) (pteWithAD pte true (pteD pte || needsWrite req))).2

/-- The way to a walk's page tables is direct, or the variant's, and then keeps `I`. -/
def TranslatorKeeps (s0 : State) (I : State → Prop) (S : Fault → Prop) (tr : PteTranslator) : Prop :=
  tr = directPte
    ∨ (s0.params.vs1PtwViaS2 = true ∧ ∀ a req s, I s → (tr a req s).Holds (fun _ s' => I s') (fun _ s' => I s') S)

/-- The leaf was read from the memory of the state at its address. -/
def LeafRead (s0 : State) (sh : WalkShape) (t : TlbId) (leaf : FoundLeaf) (s : State) : Prop :=
  leaf.level < sh.levels
    ∧ (s0.params.vs1PtwViaS2 = false →
        leaf.pte = BitVec.ofNat 64 (s.mem.read (s.bigEndian t) leaf.pteAddr.toNat (pteBytes sh.fmt)))

theorem TranslatorKeeps.apply {s0 : State} {I : State → Prop} {S : Fault → Prop} {tr : PteTranslator}
    (h : TranslatorKeeps s0 I S tr) (a : U64) (req : Priv) (s : State) (hs : I s) :
    (tr a req s).Holds (fun b s' => I s' ∧ (s0.params.vs1PtwViaS2 = false → b = a ∧ s' = s)) (fun _ s' => I s') S := by
  rcases h with rfl | ⟨hv, h⟩
  · exact ⟨hs, fun _ => ⟨rfl, rfl⟩⟩
  · exact (h a req s hs).mono (fun b s' hb => ⟨hb, fun hf => by rw [hv] at hf; cases hf⟩) (fun _ _ h => h) (fun _ h => h)

theorem walkLoop_keeps {s0 : State} {artifact : Bool} {I : State → Prop} {S : Fault → Prop} {tr : PteTranslator}
    (K : WalkKeeps s0 artifact I) (htr : TranslatorKeeps s0 I S tr) (sh : WalkShape) (t : TlbId) (va : U64) (n : Nat)
    (hn : n ≤ sh.levels) (a : U64) (s : State) (hs : I s) :
    (walkLoop tr sh t va n a s).Holds (fun leaf s' => I s' ∧ LeafRead s0 sh t leaf s') (fun _ s' => I s') S := by
  induction n generalizing a s with
  | zero => exact hs
  | succ n ih =>
    unfold walkLoop
    refine (htr.apply _ _ _ hs).bind fun addr s1 h1 => ?_
    obtain ⟨h1, hdir⟩ := h1
    obtain ⟨e1, f, m, -, -⟩ := s1.memRead_spec t addr (pteBytes sh.fmt)
    have h2 := K.read s1 t addr sh.fmt h1
    rcases hr : s1.memRead t addr (pteBytes sh.fmt) with ⟨o, s2⟩
    rw [hr] at e1 f m h2
    cases o with
    | none => exact h2
    | some pte =>
      dsimp only
      split
      · exact h2
      · exact ih (by omega) _ _ h2
      · refine ⟨h2, hn, fun hv => ?_⟩
        obtain ⟨ha, -⟩ := hdir hv
        subst ha
        have e1' : some pte = s1.peekPte t _ (pteBytes sh.fmt) := e1
        have hb : s2.bigEndian t = s1.bigEndian t := State.bigEndian_frame f t
        unfold State.peekPte at e1'
        split at e1'
        · rw [Option.some.injEq] at e1'
          show pte = _
          rw [e1', hb, m]
        · cases e1'

/-- The permission check reads the privileges, `U` and the TLB of an entry, and the inputs. -/
theorem State.permEff_congr {s t : State} (hp : t.params = s.params) (he : t.env = s.env) (mode : Mode5) {e f : Entry}
    (h1 : f.priv = e.priv) (h2 : f.u = e.u) (h3 : f.tlb = e.tlb) : t.permEff mode f = s.permEff mode e := by
  have hm : ∀ i, t.effMxr i = s.effMxr i := by
    intro i
    cases i <;> simp only [State.effMxr, State.mxrHs, State.mxrVs, he]
  have hs : ∀ i, t.effSum i = s.effSum i := by
    intro i
    cases i <;> simp only [State.effSum, State.sumHs, State.sumVs, he]
  simp only [State.permEff, h1, h2, h3, hp, hm, hs]

theorem State.permGrants_congr {s t : State} (hp : t.params = s.params) (he : t.env = s.env) (mode : Mode5) {e f : Entry}
    (h1 : f.priv = e.priv) (h2 : f.u = e.u) (h3 : f.tlb = e.tlb) (req : Priv) :
    t.permGrants mode f req = s.permGrants mode e req := by
  simp only [State.permGrants, State.permEff_congr hp he mode h1 h2 h3]

/-- The live key reads the parameters and the inputs. -/
theorem State.liveKey_congr {s t : State} (hp : t.params = s.params) (he : t.env = s.env) : t.liveKey = s.liveKey := by
  simp only [State.liveKey, State.hgatpMode, State.vsatpMode, State.sumVs, State.mxrVs, State.sumHs, State.mxrHs,
    State.hgatpVmid, State.vsatpAsid, State.satpAsid, hp, he]

/-- What a walk that fills `TLB[t]` for `va` returns, over the parameters and inputs of `s0`. -/
structure WalkedEntry (s0 : State) (t : TlbId) (va : U64) (req : Priv) (mode : Mode5) (artifact : Bool) (e : Entry) :
    Prop where
  tlb : e.tlb = t
  unmapped : e.mapped = 0
  unlinked : e.lutEntry = none
  artifact : e.artifact = artifact
  key : e.simASID = s0.liveKey
  accessed : e.a = true
  dirty : needsWrite req = true → e.d = true
  global : (t = .vs2 → e.g = true) ∧ (s0.params.asidBits = 0 → e.g = true)
  grants : s0.permGrants mode e req = true
  page : ∃ k ∈ [12, 21, 22, 30, 39], pageRange k va e

theorem WalkedEntry.walked {s0 : State} {t : TlbId} {va : U64} {req : Priv} {mode : Mode5} {artifact : Bool} {e : Entry}
    (h : WalkedEntry s0 t va req mode artifact e) : entryWalked s0.params t e := by
  obtain ⟨k, hk, hp⟩ := h.page
  exact ⟨hp.aligned hk, h.accessed, h.global.1, h.global.2⟩

theorem WalkedEntry.covers {s0 : State} {t : TlbId} {va : U64} {req : Priv} {mode : Mode5} {artifact : Bool} {e : Entry}
    (h : WalkedEntry s0 t va req mode artifact e) : Machine.covers e va = true := by
  obtain ⟨k, hk, hp⟩ := h.page
  exact hp.covers

/-- The page sizes of a walker's levels, all within its address bits. -/
theorem shapeOf_levels (sv : SvMode) (l : Nat) (hl : l < (shapeOf sv).levels) :
    l * (shapeOf sv).w + 12 ∈ [12, 21, 22, 30, 39] ∧ l * (shapeOf sv).w + 12 ≤ x4Bits sv := by
  cases sv <;> simp only [shapeOf, shapeSv32, shapeSv39, shapeSv48, x4Bits] at hl ⊢
  · have : l = 0 ∨ l = 1 := by omega
    rcases this with rfl | rfl <;> simp
  · have : l = 0 ∨ l = 1 ∨ l = 2 := by omega
    rcases this with rfl | rfl | rfl <;> simp
  · have : l = 0 ∨ l = 1 ∨ l = 2 ∨ l = 3 := by omega
    rcases this with rfl | rfl | rfl | rfl <;> simp

/-- What a walk returns but for its page. -/
def WalkedAt (s0 : State) (sh : WalkShape) (t : TlbId) (va : U64) (req : Priv) (mode : Mode5) (artifact : Bool)
    (e : Entry) : Prop :=
  ∃ l, l < sh.levels ∧ pageRange (l * sh.w + 12) va e
    ∧ ∀ (p : Entry), p.tlb = e.tlb → p.mapped = e.mapped → p.lutEntry = e.lutEntry → p.artifact = e.artifact →
        p.simASID = e.simASID → p.a = e.a → p.d = e.d → p.g = e.g → p.priv = e.priv → p.u = e.u → ∀ va',
        (∃ k ∈ [12, 21, 22, 30, 39], pageRange k va' p) → WalkedEntry s0 t va' req mode artifact p

theorem finishWalk_keeps {s0 : State} {artifact : Bool} {I : State → Prop} {S : Fault → Prop} {tr : PteTranslator}
    (K : WalkKeeps s0 artifact I) (htr : TranslatorKeeps s0 I S tr) (sh : WalkShape) (t : TlbId) (va : U64) (req : Priv)
    (mode : Mode5) (leaf : FoundLeaf) (s : State) (hs : I s) (hl : LeafRead s0 sh t leaf s) :
    (finishWalk tr sh t va req mode artifact leaf s).Holds
      (fun e s' => I s' ∧ WalkedAt s0 sh t va req mode artifact e) (fun _ s' => I s') S := by
  obtain ⟨fp, fe⟩ := K.frame s hs
  unfold finishWalk
  split
  · exact hs
  · rename_i hal
    have hal' : ptePa sh.fmt leaf.pte &&& lowMask (leaf.level * sh.w + 12) = 0 := by simpa using hal
    dsimp only
    split
    · exact hs
    · rename_i hg
      have hg' : s.permGrants mode (s.leafEntry sh t va artifact leaf.level leaf.pte) req = true := by simpa using hg
      unfold adUpdate
      by_cases h0 : (!(s.leafEntry sh t va artifact leaf.level leaf.pte).a && !s.params.updatePteA) = true
      · rw [if_pos h0]
        exact hs
      · rw [if_neg h0]
        by_cases h1 : (needsWrite req && !(s.leafEntry sh t va artifact leaf.level leaf.pte).d && !s.params.updatePteD)
            = true
        · rw [if_pos h1]
          exact hs
        · rw [if_neg h1]
          dsimp only
          have hW : WalkedAt s0 sh t va req mode artifact
              { s.leafEntry sh t va artifact leaf.level leaf.pte with
                a := true, d := (s.leafEntry sh t va artifact leaf.level leaf.pte).d || needsWrite req } := by
            refine ⟨leaf.level, hl.1, ⟨rfl, rfl, hal'⟩, ?_⟩
            intro p p1 p2 p3 p4 p5 p6 p7 p8 p9 p10 va' hpg
            refine ⟨p1, p2, p3, p4, ?_, p6, fun hw => ?_, ⟨fun ht => ?_, fun ha => ?_⟩, ?_, hpg⟩
            · rw [p5]
              exact State.liveKey_congr fp fe
            · rw [p7, hw, Bool.or_true]
            · rw [p8]
              simp [State.leafEntry, ht]
            · rw [p8]
              simp [State.leafEntry, fp, ha]
            · rw [← hg']
              exact State.permGrants_congr fp.symm fe.symm mode p9 p10 p1 req
          unfold writeBack
          split
          · rename_i hc
            have hart : artifact = false := by
              simp only [Bool.and_eq_true, Bool.not_eq_true'] at hc
              exact hc.2
            refine (htr.apply _ _ _ hs).bind fun addr s1 h1 => ?_
            obtain ⟨h1, hdir⟩ := h1
            have h2 := K.write s1 t addr sh.fmt leaf.pte req hart h1 (fun hv => by
              obtain ⟨ha, hs1⟩ := hdir hv
              subst ha hs1
              exact hl.2 hv)
            split
            · rename_i s2 hw
              have : (s1.memWrite t addr (pteBytes sh.fmt)
                (pteWithAD leaf.pte true (pteD leaf.pte || needsWrite req))).2 = s2 := congrArg Prod.snd hw
              rw [this] at h2
              exact ⟨h2, hW⟩
            · rename_i s2 hw
              have : (s1.memWrite t addr (pteBytes sh.fmt)
                (pteWithAD leaf.pte true (pteD leaf.pte || needsWrite req))).2 = s2 := congrArg Prod.snd hw
              rw [this] at h2
              exact h2
          · exact ⟨hs, hW⟩

theorem walk_keeps {s0 : State} {artifact : Bool} {I : State → Prop} {S : Fault → Prop} {tr : PteTranslator}
    (K : WalkKeeps s0 artifact I) (htr : TranslatorKeeps s0 I S tr) (sh : WalkShape) (t : TlbId) (root va : U64)
    (req : Priv) (mode : Mode5) (s : State) (hs : I s) :
    (walk tr sh t root va req mode artifact s).Holds
      (fun e s' => I s' ∧ WalkedAt s0 sh t va req mode artifact e) (fun _ s' => I s') S := by
  unfold walk
  split
  · exact hs
  · exact (walkLoop_keeps K htr sh t va sh.levels (Nat.le_refl _) root s hs).bind
      fun leaf s1 h => finishWalk_keeps K htr sh t va req mode leaf s1 h.1 h.2

/-- A walk with untranslated page-table addresses arms `AFault` iff the PMP bank denies one of its accesses (10_state.md R45). -/
theorem walkKeeps_afault (s0 : State) (artifact : Bool) :
    WalkKeeps s0 artifact (fun s => WalkFrame s0 s ∧ AFaultFollows s0 s) where
  frame _ h := ⟨h.1.params, h.1.env⟩
  read s t addr fmt h :=
    ⟨h.1.trans (s.memRead_spec t addr (pteBytes fmt)).2.1, h.2.trans h.1 (s.memRead_afault t addr (pteBytes fmt))⟩
  write s t addr fmt _ _ _ h _ :=
    ⟨h.1.trans (s.memWrite_spec t addr (pteBytes fmt) _).2.1, h.2.trans h.1 (s.memWrite_afault t addr _ _)⟩

/-- Everything a stage-2 walk returns and keeps (40_walker.md R145). -/
theorem walkX4_keeps {s0 : State} {artifact : Bool} {I : State → Prop} {S : Fault → Prop} (K : WalkKeeps s0 artifact I)
    (sv : SvMode) (gpa : U64) (req : Priv) (mode : Mode5) (s : State) (hs : I s) :
    (walkX4 sv gpa req mode artifact s).Holds
      (fun e s' => I s' ∧ WalkedEntry s0 .vs2 gpa req mode artifact e) (fun _ s' => I s') S := by
  unfold walkX4
  dsimp only
  split
  · exact hs
  · refine (walk_keeps K (S := S) (.inl rfl) _ .vs2 _ _ req mode s hs).bind fun e s1 h => ?_
    obtain ⟨h1, l, hl, hp, hw⟩ := h
    obtain ⟨hk, hb⟩ := shapeOf_levels sv l hl
    exact ⟨h1, hw (reinstate (gpa >>> x4Bits sv) (x4Bits sv) e) rfl rfl rfl rfl rfl rfl rfl rfl rfl rfl gpa
      ⟨_, hk, pageRange.reinstate hb hp⟩⟩

/-! ### Lookups -/

/-- A property of states that lookups in the TLBs of `T` keep: besides page-table accesses, it is closed under counting draws,
deleting entries, re-keying an entry and inserting what a walk returns. With `linked` it holds of linked stores only, and
then the entries deleted and re-keyed are in the store. -/
structure LookupKeeps (linked : Prop) (s0 : State) (artifact : Bool) (T : TlbId → Prop) (I : State → Prop) : Prop
    extends WalkKeeps s0 artifact I where
  links : linked → ∀ s, I s → s.linksOk
  draw : ∀ s n, I s → I (s.draw n)
  delete : ∀ (s : State) (t : TlbId) (l : List Entry), T t → I s → (linked → ∀ e ∈ l, e ∈ s.tlb t) → I (l.foldl State.tlbDelete s)
  rekey : ∀ (s : State) (t : TlbId) (mode : Mode5) (e : Entry), T t → I s → (linked → e ∈ s.tlb t) → I (s.rekey mode e).2
  insert : ∀ s t va req mode e, T t → I s → WalkedEntry s0 t va req mode artifact e → I (s.tlbInsert e).2

/-- What a lookup in `TLB[t]` for `x` returns. -/
structure Served (linked : Prop) (s0 : State) (t : TlbId) (x : U64) (req : Priv) (mode : Mode5) (artifact : Bool)
    (e : Entry) (s : State) : Prop where
  covers : Machine.covers e x = true
  grants : s0.permGrants mode e req = true
  dirty : needsWrite req = true → e.d = true
  artifact : artifact = false → e.artifact = false
  stored : linked → e ∈ s.tlb t

/-- In a linked store an entry survives the deletion of others. -/
theorem State.mem_foldl_tlbDelete {s : State} (h : s.linksOk) {t u : TlbId} {l : List Entry} (hl : ∀ e ∈ l, e ∈ s.tlb u)
    {e : Entry} (he : e ∈ s.tlb t) (hn : e ∉ l) : e ∈ (l.foldl State.tlbDelete s).tlb t := by
  rw [State.foldl_tlbDelete_tlb, List.mem_filter]
  refine ⟨he, ?_⟩
  rw [List.all_eq_true]
  intro f hf
  have : e.lutEntry ≠ f.lutEntry := by
    intro hh
    have := State.linksOk_unique h he (hl f hf) hh
    subst this
    exact hn hf
  simp [this]

/-- A re-keyed entry differs in its key only. -/
theorem State.rekey_fst (s : State) (mode : Mode5) (e : Entry) :
    (s.rekey mode e).1 = e ∨ (s.rekey mode e).1 = { e with simASID := s.liveKey } := by
  unfold State.rekey
  dsimp only
  split
  · exact .inr rfl
  · exact .inl rfl

/-- The re-keyed entry stands in its TLB. -/
theorem State.rekey_stored {s : State} {t : TlbId} {e : Entry} (he : e ∈ s.tlb t) (ht : e.tlb = t) (mode : Mode5) :
    (s.rekey mode e).1 ∈ (s.rekey mode e).2.tlb t := by
  unfold State.rekey
  dsimp only
  split
  · subst ht
    rw [State.setTlb_tlb_same]
    unfold replaceEntry
    rw [List.mem_map]
    exact ⟨e, he, if_pos rfl⟩
  · exact he

/-- Everything a lookup returns and keeps (42_translate.md R223 to R225), with whatever walker. -/
theorem findOrCreateWith_keeps {linked : Prop} {s0 : State} {artifact : Bool} {T : TlbId → Prop} {I : State → Prop}
    {S : Fault → Prop} (K : LookupKeeps linked s0 artifact T I) {t : TlbId} (hT : T t) {x : U64} {req : Priv}
    {mode : Mode5} {walker : State → Res WalkFailure Entry}
    (hw : ∀ s, I s → (walker s).Holds (fun e s' => I s' ∧ WalkedEntry s0 t x req mode artifact e) (fun _ s' => I s') S)
    (s : State) (hs : I s) :
    (findOrCreateWith walker t x req mode s).Holds
      (fun e s' => I s' ∧ Served linked s0 t x req mode artifact e s') (fun _ s' => I s') S := by
  obtain ⟨del, d1, d2, d3, -⟩ := s.tlbFind_spec t x
  have hdraw := K.draw s (s.overlapping t x).length hs
  have hdel : I (s.tlbFind t x).2 := by
    rw [d2]
    exact K.delete _ t del hT hdraw (fun _ e he => (d1 e he).1)
  have walked : ∀ s1, I s1 → ((walker s1).bind fun e s2 => Res.ok (s2.tlbInsert e).1 (s2.tlbInsert e).2).Holds
      (fun e s' => I s' ∧ Served linked s0 t x req mode artifact e s') (fun _ s' => I s') S := by
    intro s1 h1
    refine (hw s1 h1).bind fun e s2 h2 => ?_
    obtain ⟨h2, hwe⟩ := h2
    refine ⟨K.insert s2 t x req mode e hT h2 hwe, hwe.covers, ?_, hwe.dirty, fun ha => hwe.artifact.trans ha, fun _ => ?_⟩
    · rw [← hwe.grants]
      exact State.permGrants_congr rfl rfl mode rfl rfl rfl req
    · have ht := hwe.tlb
      subst ht
      rw [State.tlbInsert_snd, State.setTlb_tlb_same]
      simp
  unfold findOrCreateWith
  dsimp only
  cases hf : (s.tlbFind t x).1 with
  | none =>
    simp only [State.dirtyUpgrade]
    exact walked _ hdel
  | some e =>
    obtain ⟨m1, m2, m3, -⟩ := d3 e hf
    have hmem : linked → e ∈ (s.tlbFind t x).2.tlb t := by
      intro hl
      rw [d2]
      refine State.mem_foldl_tlbDelete (s := s.draw (s.overlapping t x).length) (K.links hl _ hdraw)
        (u := t) (fun f hf => (d1 f hf).1) m1 (fun hh => ?_)
      rw [(d1 e hh).2.2] at m3
      cases m3
    simp only [State.dirtyUpgrade]
    by_cases hdu : (needsWrite req && !e.d) = true
    · rw [if_pos hdu]
      refine walked _ ?_
      exact K.delete _ t [e] hT hdel (fun hl f hf => by rw [List.mem_singleton.1 hf]; exact hmem hl)
    · rw [if_neg hdu]
      dsimp only
      obtain ⟨fp, fe⟩ := K.frame _ hdel
      split
      · exact hdel
      · rename_i hg
        have hg' : (s.tlbFind t x).2.permGrants mode e req = true := by simpa using hg
        have hd : needsWrite req = true → e.d = true := by
          intro hn
          simpa [hn] using hdu
        have ht : linked → e.tlb = t := fun hl => ((K.links hl _ hdel).1 t e (hmem hl)).1
        refine ⟨K.rekey _ t mode e hT hdel hmem, ?_, ?_, ?_, ?_, fun hl => State.rekey_stored (hmem hl) (ht hl) mode⟩
        · rcases (s.tlbFind t x).2.rekey_fst mode e with h | h <;> rw [h] <;> exact m2
        · rw [← hg']
          rcases (s.tlbFind t x).2.rekey_fst mode e with h | h <;> rw [h]
          · exact State.permGrants_congr fp.symm fe.symm mode rfl rfl rfl req
          · exact State.permGrants_congr fp.symm fe.symm mode rfl rfl rfl req
        · rcases (s.tlbFind t x).2.rekey_fst mode e with h | h <;> rw [h] <;> exact hd
        · rcases (s.tlbFind t x).2.rekey_fst mode e with h | h <;> rw [h] <;> exact fun _ => m3

/-- No walker is present for stage 2 (93_implementation_defined.md U3). -/
def State.noStage2Walker (s : State) : Prop :=
  walkerOf s.params s.hgatpMode = none ∨ s.params.hasH = false

/-- Everything the VS2 lookup returns and keeps. -/
theorem lookupStage2_keeps {linked : Prop} {s0 : State} {artifact : Bool} {T : TlbId → Prop} {I : State → Prop}
    (K : LookupKeeps linked s0 artifact T I) (hT : T .vs2) (gpa : U64) (req : Priv) (mode : Mode5) (s : State) (hs : I s) :
    (lookupStage2 gpa req mode artifact s).Holds
      (fun e s' => I s' ∧ Served linked s0 .vs2 gpa req mode artifact e s') (fun _ s' => I s')
      (fun f => f = .modeWithoutWalker ∧ s0.noStage2Walker) := by
  refine findOrCreateWith_keeps K hT (fun s1 h1 => ?_) s hs
  obtain ⟨fp, fe⟩ := K.frame s1 h1
  have hm : s1.hgatpMode = s0.hgatpMode := by simp only [State.hgatpMode, fp, fe]
  unfold walkForStage2
  split
  · split
    · exact walkX4_keeps K.toWalkKeeps _ gpa req mode s1 h1
    · rename_i hh
      exact ⟨rfl, .inr (by rw [← fp]; simpa using hh)⟩
  · rename_i hn
    exact ⟨rfl, .inl (by rw [← fp, ← hm]; exact hn)⟩

/-- A property `I` of states that a stage-1 lookup keeps as well, with the property `J` its states have inside a stage-2
lookup (10_state.md R43): `J` holds when that lookup begins, is kept by it, and gives `I` back when it ends. -/
structure MissKeeps (linked : Prop) (s0 : State) (artifact : Bool) (T : TlbId → Prop) (I J : State → Prop) : Prop
    extends LookupKeeps linked s0 artifact T I where
  inner : LookupKeeps linked s0 artifact T J
  beginStage2 : ∀ s va, s0.hgatpMode ≠ 0 → I s → J (s.beginStage2 va)
  endStage2 : ∀ s, J s → I s.endStage2

/-- Why a stage-1 walk may stop: its `MODE`, or, in the variant of 20_memory.md R95, that of stage 2, has no walker. -/
def State.noWalker (s : State) (t : TlbId) : Prop :=
  match t with
  | .hs => walkerOf s.params s.satpMode = none
  | .vs1 => walkerOf s.params s.vsatpMode = none
      ∨ (s.params.vs1PtwViaS2 = true ∧ s.hgatpMode ≠ 0 ∧ s.noStage2Walker)
  | .vs2 => s.noStage2Walker

/-- How a stage-1 walk reaches its page tables keeps what a lookup in VS2 keeps. -/
theorem stage1Translator_keeps {linked : Prop} {s0 : State} {artifact : Bool} {T : TlbId → Prop} {I J : State → Prop}
    {S : Fault → Prop} (K : MissKeeps linked s0 artifact T I J) (hT : s0.params.vs1PtwViaS2 = true → T .vs2)
    (reg : Stage1Reg) (va : U64) (mode : Mode5)
    (hS : reg = .vsatp → s0.params.vs1PtwViaS2 = true → s0.hgatpMode ≠ 0 → s0.noStage2Walker → S .modeWithoutWalker)
    (s1 : State) (h1 : I s1) :
    TranslatorKeeps s0 I S (stage1Translator s1.params reg va mode artifact) := by
  rw [(K.frame s1 h1).1]
  cases reg with
  | satp => exact .inl rfl
  | vsatp =>
    unfold stage1Translator
    dsimp only
    cases hv : s0.params.vs1PtwViaS2 with
    | false => exact .inl rfl
    | true =>
      refine .inr ⟨hv, fun a req s hs => ?_⟩
      obtain ⟨fp, fe⟩ := K.frame s hs
      have hm : s.hgatpMode = s0.hgatpMode := by simp only [State.hgatpMode, fp, fe]
      show (pteViaStage2 va mode artifact a req s).Holds _ _ _
      unfold pteViaStage2
      split
      · exact hs
      · rename_i h0
        rw [hm] at h0
        have := lookupStage2_keeps K.inner (hT hv) a req mode _ (K.beginStage2 s va h0 hs)
        revert this
        generalize lookupStage2 a req mode artifact (s.beginStage2 va) = r
        intro this
        cases r with
        | ok e s2 => exact K.endStage2 _ this.1
        | err f s2 => exact K.endStage2 _ this
        | stuck f =>
          obtain ⟨rfl, hn⟩ := this
          exact hS rfl hv h0 hn

/-- Everything a stage-1 walk returns and keeps. -/
theorem walkStage1_keeps {linked : Prop} {s0 : State} {artifact : Bool} {T : TlbId → Prop} {I J : State → Prop}
    {S : Fault → Prop} (K : MissKeeps linked s0 artifact T I J) (hT : s0.params.vs1PtwViaS2 = true → T .vs2)
    (sv : SvMode) (reg : Stage1Reg) (va : U64) (req : Priv) (mode : Mode5)
    (hS : reg = .vsatp → s0.params.vs1PtwViaS2 = true → s0.hgatpMode ≠ 0 → s0.noStage2Walker → S .modeWithoutWalker)
    (s : State) (hs : I s) :
    (walkStage1 sv reg va req mode artifact s).Holds
      (fun e s' => I s' ∧ WalkedEntry s0 reg.tlb va req mode artifact e) (fun _ s' => I s') S := by
  refine (walk_keeps K.toWalkKeeps (stage1Translator_keeps K hT reg va mode hS s hs) _ reg.tlb _ va req mode s hs).mono
    (fun e s' h => ?_) (fun _ _ h => h) (fun _ h => h)
  obtain ⟨h1, l, hl, hp, hw⟩ := h
  exact ⟨h1, hw e rfl rfl rfl rfl rfl rfl rfl rfl rfl rfl va ⟨_, (shapeOf_levels sv l hl).1, hp⟩⟩

/-- Everything `FindOrCreate` returns and keeps (42_translate.md R223). -/
theorem findOrCreate_keeps {linked : Prop} {s0 : State} {artifact : Bool} {T : TlbId → Prop} {I J : State → Prop}
    (K : MissKeeps linked s0 artifact T I J) (hT : s0.params.vs1PtwViaS2 = true → T .vs2) (t : TlbId) (hTt : T t) (x : U64)
    (req : Priv) (mode : Mode5) (s : State) (hs : I s) :
    (findOrCreate t x req mode artifact s).Holds
      (fun e s' => I s' ∧ Served linked s0 t x req mode artifact e s') (fun _ s' => I s')
      (fun f => f = .modeWithoutWalker ∧ s0.noWalker t) := by
  have aux : ∀ reg : Stage1Reg, t = reg.tlb → ∀ s1, I s1 → (walkForStage1 reg x req mode artifact s1).Holds
      (fun e s' => I s' ∧ WalkedEntry s0 t x req mode artifact e) (fun _ s' => I s')
      (fun f => f = .modeWithoutWalker ∧ s0.noWalker t) := by
    intro reg ht s1 h1
    obtain ⟨fp, fe⟩ := K.frame s1 h1
    subst ht
    unfold walkForStage1
    split
    · refine walkStage1_keeps K hT _ reg x req mode (fun hr hv hm hn => ⟨rfl, ?_⟩) s1 h1
      subst hr
      exact .inr ⟨hv, hm, hn⟩
    · rename_i hn
      refine ⟨rfl, ?_⟩
      cases reg
      · show walkerOf _ _ = none
        rw [← hn]
        simp only [State.stage1Mode, State.satpMode, fp, fe]
      · refine .inl ?_
        rw [← hn]
        simp only [State.stage1Mode, State.vsatpMode, fp, fe]
  cases t with
  | hs => exact findOrCreateWith_keeps K.toLookupKeeps hTt (aux .satp rfl) s hs
  | vs1 => exact findOrCreateWith_keeps K.toLookupKeeps hTt (aux .vsatp rfl) s hs
  | vs2 => exact lookupStage2_keeps K.toLookupKeeps hTt x req mode s hs

end Sys2Proof.Machine
end

