-- ==== Sys2Proof/Laws/Translate.lean ====
section
/-! SUPPORT. The orchestrator once for all: what the lookups of a chunk return and keep, what the physical check does, and
what the span loop and a `MISS` can answer. -/

namespace Sys2Proof.Machine

/-! ### The physical access -/

/-- Everything the physical check of an access does: it allows when refinement grants and the PMA hook allows; a grant
changes the permission cache only, a denial of refinement arms `AFault` only. -/
theorem State.checkPhysical_spec (s : State) (mode : Mode5) (req : Priv) (lo hi : Nat) :
    (s.checkPhysical mode req lo hi).1 = (s.pmpGrants mode req lo hi && s.pmaAllows req lo hi)
      ∧ (s.pmpGrants mode req lo hi = true → ∃ p, (s.checkPhysical mode req lo hi).2 = s.setPmpPerm p)
      ∧ (s.pmpGrants mode req lo hi = false → (s.checkPhysical mode req lo hi).2 = s.setAFault .pmp) := by
  have hf := s.pmpRefine_fst mode req lo hi
  have he : (s.pmpRefine mode req lo hi).2.pmaAllows req lo hi = s.pmaAllows req lo hi := by
    obtain ⟨p, a, h⟩ := s.pmpRefine_eq mode req lo hi
    rw [h]; rfl
  refine ⟨by simp only [State.checkPhysical, hf, he], fun hg => ?_, fun hg => ?_⟩ <;> rw [hg] at hf
  · rcases s.pmpRefine_cases mode req lo hi with ⟨-, h⟩ | ⟨-, -, h⟩ | ⟨-, -, h⟩
    · exact ⟨s.pmpPerm, by simp only [State.checkPhysical, h]; rfl⟩
    · exact ⟨_, by simp only [State.checkPhysical, h]; rfl⟩
    · rw [h] at hf; cases hf
  · rcases s.pmpRefine_cases mode req lo hi with ⟨-, h⟩ | ⟨-, -, h⟩ | ⟨-, -, h⟩
    · rw [h] at hf; cases hf
    · rw [h] at hf; cases hf
    · simp only [State.checkPhysical, h]

/-- Without PMA denials a denied access has armed `AFault` (43_pmp.md R287). -/
theorem State.checkPhysical_denied {s : State} {mode : Mode5} {req : Priv} {lo hi : Nat} (hp : s.env.pma = [])
    (h : (s.checkPhysical mode req lo hi).1 = false) : (s.checkPhysical mode req lo hi).2.afault = .pmp := by
  obtain ⟨h1, -, h3⟩ := s.checkPhysical_spec mode req lo hi
  have ha : s.pmaAllows req lo hi = true := by simp [State.pmaAllows, hp]
  have hg : s.pmpGrants mode req lo hi = false := by simpa [h1, ha] using h
  rw [h3 hg]
  rfl

/-! ### One chunk -/

/-- What a nested lookup in VS2 keeps besides: the address under translation and, in a linked store, the other TLBs. -/
theorem LookupKeeps.nested {linked : Prop} {s0 : State} {artifact : Bool} {T : TlbId → Prop} {I : State → Prop}
    (K : LookupKeeps linked s0 artifact T I) (hT : T .vs2) (va : U64) (es : TlbId → List Entry) :
    LookupKeeps linked s0 artifact (fun t => t = .vs2)
      (fun s => I s ∧ s.s1VA = va ∧ (linked → ∀ t, t ≠ .vs2 → s.tlb t = es t)) where
  frame s h := K.frame s h.1
  read s t addr fmt h := by
    obtain ⟨-, f, -⟩ := s.memRead_spec t addr (pteBytes fmt)
    refine ⟨K.read s t addr fmt h.1, f.s1VA.trans h.2.1, fun hl u hu => ?_⟩
    rw [← h.2.2 hl u hu]
    simp only [State.tlb, f.tlbs]
  write s t addr fmt pte req ha h hv := by
    obtain ⟨-, f, -⟩ := s.memWrite_spec t addr (pteBytes fmt) (pteWithAD pte true (pteD pte || needsWrite req))
    refine ⟨K.write s t addr fmt pte req ha h.1 hv, f.s1VA.trans h.2.1, fun hl u hu => ?_⟩
    rw [← h.2.2 hl u hu]
    simp only [State.tlb, f.tlbs]
  links hl s h := K.links hl s h.1
  draw s n h := ⟨K.draw s n h.1, h.2.1, fun hl u hu => h.2.2 hl u hu⟩
  delete s t l ht h hm := by
    subst ht
    refine ⟨K.delete s .vs2 l hT h.1 hm, ?_, fun hl u hu => ?_⟩
    · obtain ⟨a, t, he⟩ := State.foldl_tlbDelete_eq l s
      rw [he]
      exact h.2.1
    · rw [← h.2.2 hl u hu, State.foldl_tlbDelete_tlb, List.filter_eq_self]
      intro f _
      rw [List.all_eq_true]
      intro e he
      have h1 : e.tlb = .vs2 := ((K.links hl s h.1).1 .vs2 e (hm hl e he)).1
      have : ¬e.tlb = u := fun hh => hu (hh.symm.trans h1)
      simp [this]
  rekey s t mode e ht h hm := by
    subst ht
    refine ⟨K.rekey s .vs2 mode e hT h.1 hm, ?_, fun hl u hu => ?_⟩
    · rw [← h.2.1]
      unfold State.rekey
      dsimp only
      split <;> rfl
    · have h1 : e.tlb = .vs2 := ((K.links hl s h.1).1 .vs2 e (hm hl)).1
      rw [← h.2.2 hl u hu]
      unfold State.rekey
      dsimp only
      split
      · rw [State.setTlb_tlb_ne _ _ _ _ (by rw [h1]; exact hu)]
        rfl
      · rfl
  insert s t x req mode e ht h he := by
    subst ht
    refine ⟨K.insert s .vs2 x req mode e hT h.1 he, h.2.1, fun hl u hu => ?_⟩
    rw [← h.2.2 hl u hu, State.tlbInsert_snd, State.setTlb_tlb_ne _ _ _ _ (by rw [he.tlb]; exact hu)]
    rfl

/-- The lookups of a chunk at `x` returned `c` and left `s`. -/
structure ChunkServed (linked : Prop) (s0 : State) (t1 : TlbId) (x : U64) (req : Priv) (mode : Mode5) (artifact : Bool)
    (c : Chunk) (s : State) : Prop where
  first : Served linked s0 t1 x req mode artifact c.e1 s
  single : c.e2 = none → ¬(t1 = .vs1 ∧ s0.hgatpMode ≠ 0)
  second : ∀ e2, c.e2 = some e2 →
    t1 = .vs1 ∧ s0.hgatpMode ≠ 0 ∧ Served linked s0 .vs2 (guestPhysical x c.e1) req mode artifact e2 s

/-- The failure of a chunk at `x`: the address is reported, and a guest-physical one iff the lookup failed in VS2
(42_translate.md R227, R234, 60_exceptions.md R342). -/
structure ChunkFails (t1 : TlbId) (x : U64) (f : ChunkFailure) : Prop where
  tval : f.tval = x
  gpa : f.gpa.isSome = true ↔ f.tlb = .vs2
  tlb : f.tlb = t1 ∨ f.tlb = .vs2

/-- Why the lookups of a chunk may stop: an active regime has no walker. -/
def State.noChunkWalker (s : State) (t1 : TlbId) : Prop :=
  s.noWalker t1 ∨ (t1 = .vs1 ∧ s.hgatpMode ≠ 0 ∧ s.noStage2Walker)

theorem firstFailure_fails (t1 : TlbId) (x : U64) (f : WalkFailure) : ChunkFails t1 x (firstFailure t1 x f) := by
  unfold firstFailure
  split
  · exact ⟨rfl, by simp, .inr rfl⟩
  · refine ⟨rfl, ?_, .inl rfl⟩
    dsimp only
    split <;> simp [*]

/-- Everything the lookups of a chunk return and keep (42_translate.md R226, R227). -/
theorem lookupChunk_keeps {linked : Prop} {s0 : State} {artifact : Bool} {T : TlbId → Prop} {I J : State → Prop}
    (K : MissKeeps linked s0 artifact T I J) (hT : T .vs2) (t1 : TlbId) (hT1 : T t1) (x : U64) (req : Priv) (mode : Mode5)
    (s : State) (hs : I s) :
    (lookupChunk t1 x req mode artifact s).Holds
      (fun c s' => I s' ∧ ChunkServed linked s0 t1 x req mode artifact c s')
      (fun f s' => I s' ∧ ChunkFails t1 x f)
      (fun f => f = .modeWithoutWalker ∧ s0.noChunkWalker t1) := by
  have h1 := findOrCreate_keeps K (fun _ => hT) t1 hT1 x req mode s hs
  unfold lookupChunk
  revert h1
  generalize findOrCreate t1 x req mode artifact s = r
  intro h1
  cases r with
  | err f s1 => exact ⟨h1, firstFailure_fails t1 x f⟩
  | stuck f => exact ⟨h1.1, .inl h1.2⟩
  | ok e1 s1 =>
    obtain ⟨hI, hserved⟩ := h1
    obtain ⟨fp, fe⟩ := K.frame s1 hI
    have hm : s1.hgatpMode = s0.hgatpMode := by simp only [State.hgatpMode, fp, fe]
    dsimp only
    split
    · rename_i hc
      obtain ⟨rfl, h0⟩ := hc
      rw [hm] at h0
      have hnest := lookupStage2_keeps (K.inner.nested hT x s1.tlb) rfl (guestPhysical x e1) req mode
        (s1.beginStage2 x) ⟨K.beginStage2 s1 x h0 hI, rfl, fun _ t _ => rfl⟩
      unfold lookupNested
      have hfc : findOrCreate .vs2 (guestPhysical x e1) req mode artifact (s1.beginStage2 x)
          = lookupStage2 (guestPhysical x e1) req mode artifact (s1.beginStage2 x) := rfl
      rw [← hfc] at hnest
      dsimp only
      revert hnest
      generalize findOrCreate .vs2 (guestPhysical x e1) req mode artifact (s1.beginStage2 x) = r2
      intro hnest
      cases r2 with
      | err f s2 =>
        refine ⟨K.endStage2 _ hnest.1, hnest.2.1, ?_, .inr rfl⟩
        simp
      | stuck f => exact ⟨hnest.1, .inr ⟨rfl, h0, hnest.2⟩⟩
      | ok e2 s2 =>
        obtain ⟨⟨hI2, -, hfr⟩, hs2⟩ := hnest
        refine ⟨K.endStage2 _ hI2, ⟨hserved.covers, hserved.grants, hserved.dirty, hserved.artifact, fun hl => ?_⟩,
          fun hn => (by cases hn), fun e hn => ?_⟩
        · show e1 ∈ s2.tlb .vs1
          rw [hfr hl .vs1 (by decide)]
          exact hserved.stored hl
        · cases hn
          exact ⟨rfl, h0, hs2.covers, hs2.grants, hs2.dirty, hs2.artifact, fun hl => hs2.stored hl⟩
    · rename_i hc
      rw [hm] at hc
      exact ⟨hI, hserved, fun _ => hc, fun e hn => by cases hn⟩

/-! ### The mapping of a served chunk -/

/-- The window of an address reaches at least to the address. -/
theorem le_cap_high {m : Mapping} {x : U64} (h : x ≤ m.highVA) : x ≤ (cap m x).highVA := by
  show x ≤ (if (x &&& ~~~(lowMask chunkBits)) + lowMask chunkBits < m.highVA
    then (x &&& ~~~(lowMask chunkBits)) + lowMask chunkBits else m.highVA)
  split
  · exact (range_contains x (lowMask chunkBits)).2
  · exact h

/-- A composition for a chunk at `x` reaches `x` when its first mapping does (42_translate.md R228). -/
theorem le_composeAt_high (c : Nat) {x : U64} {m1 m2 : Mapping} (h : x ≤ m1.highVA) : x ≤ (composeAt c x m1 m2).highVA := by
  have hx : x.toNat ≤ m1.highVA.toNat := h
  have hm := m1.highVA.isLt
  unfold composeAt
  split
  · show x ≤ x + BitVec.ofNat 64 (Config.free c % (m1.highVA.toNat - x.toNat + 1))
    have hk : Config.free c % (m1.highVA.toNat - x.toNat + 1) < m1.highVA.toNat - x.toNat + 1 :=
      Nat.mod_lt _ (Nat.succ_pos _)
    generalize Config.free c % (m1.highVA.toNat - x.toNat + 1) = k at *
    rw [BitVec.le_def, BitVec.toNat_add, BitVec.toNat_ofNat]
    omega
  · rename_i hc
    show x ≤ BitVec.ofInt 64 (composedHigh m1 m2)
    have hle : composedHigh m1 m2 ≤ (m1.highVA.toNat : Int) := by unfold composedHigh; exact Int.min_le_left _ _
    rw [BitVec.le_def, BitVec.toNat_ofInt]
    omega

/-- Every served chunk's mapping reaches the chunk's address, whatever entries serve it, so that the span loop makes progress
(42_translate.md R222). -/
theorem ChunkServed.reaches {linked : Prop} {s0 : State} {t1 : TlbId} {x : U64} {req : Priv} {mode : Mode5}
    {artifact : Bool} {c : Chunk} {s : State} (h : ChunkServed linked s0 t1 x req mode artifact c s) :
    x ≤ (s.chunkMapping mode x c).highVA := by
  have hx : x ≤ (s.single mode c.e1).highVA := by
    have := h.first.covers
    simp only [covers, Bool.and_eq_true, decide_eq_true_eq] at this
    exact this.2
  unfold State.chunkMapping
  split
  · exact le_cap_high hx
  · exact le_cap_high (le_composeAt_high _ hx)

/-! ### The span loop and `MISS` -/

/-- A property of states that a `MISS` keeps: it is closed under the physical check and under the install of a served chunk
as well. -/
structure AccessKeeps (linked : Prop) (s0 : State) (artifact : Bool) (I J : State → Prop) : Prop
    extends MissKeeps linked s0 artifact (fun _ => True) I J where
  check : ∀ (s : State) (mode : Mode5) (req : Priv) (lo hi : Nat), I s → I (s.checkPhysical mode req lo hi).2
  install : ∀ (s : State) (t1 : TlbId) (x : U64) (req : Priv) (mode : Mode5) (c : Chunk), s0.activeTlb mode = some t1 →
    missOperandsOk s0.params mode req = true → I s → ChunkServed linked s0 t1 x req mode artifact c s →
    I ((s.draw 1).installChunk mode c (s.chunkMapping mode x c))

/-- `m` is the mapping of a chunk at `x`, inside the access from `lo` to `last`. -/
def ServedMapping (linked : Prop) (s0 : State) (I : State → Prop) (t1 : TlbId) (req : Priv) (mode : Mode5)
    (artifact : Bool) (lo last x : U64) (m : Mapping) : Prop :=
  ∃ c s, I s ∧ ChunkServed linked s0 t1 x req mode artifact c s ∧ m = s.chunkMapping mode x c
    ∧ lo ≤ x ∧ x ≤ last ∧ x ≤ m.highVA

/-- What the span loop answers from `lo` on: the failure of a chunk, a denied physical access, or the mappings that cover the
rest of the access, the last installed and checked last. -/
def SpanAnswer (linked : Prop) (s0 : State) (I : State → Prop) (t1 : TlbId) (req : Priv) (mode : Mode5)
    (artifact : Bool) (last lo : U64) (done : List Mapping) (t : State) : Prop :=
  ∃ s', I s' ∧
    ((∃ f x more, lo ≤ x ∧ x ≤ last ∧ ChunkFails t1 x f ∧ t = s'.failLookup mode req artifact f more)
      ∨ (∃ more, (s0.env.pma = [] → s'.afault = .pmp) ∧ t = s'.respondMiss .afault more)
      ∨ ∃ ms, t = s'.respondMiss .ok (done ++ ms)
          ∧ (∀ m ∈ ms, ∃ x, ServedMapping linked s0 I t1 req mode artifact lo last x m)
          ∧ (∀ y, lo ≤ y → y ≤ last → ∃ m ∈ ms, ∃ x, ServedMapping linked s0 I t1 req mode artifact lo last x m
              ∧ x ≤ y ∧ y ≤ m.highVA)
          ∧ ∃ init m x c s1 a b, ms = init ++ [m] ∧ I s1 ∧ ChunkServed linked s0 t1 x req mode artifact c s1
              ∧ m = s1.chunkMapping mode x c ∧ s' = (((s1.draw 1).installChunk mode c m).checkPhysical mode req a b).2)

theorem ServedMapping.mono {linked : Prop} {s0 : State} {I : State → Prop} {t1 : TlbId} {req : Priv} {mode : Mode5}
    {artifact : Bool} {lo lo' last x : U64} {m : Mapping} (h : lo ≤ lo')
    (hm : ServedMapping linked s0 I t1 req mode artifact lo' last x m) :
    ServedMapping linked s0 I t1 req mode artifact lo last x m := by
  obtain ⟨c, s, h1, h2, h3, h4, h5⟩ := hm
  exact ⟨c, s, h1, h2, h3, BitVec.le_trans h h4, h5⟩

/-- Everything the span loop can answer (42_translate.md R222, R233). -/
theorem spanLoop_keeps {linked : Prop} {s0 : State} {artifact : Bool} {I J : State → Prop}
    (K : AccessKeeps linked s0 artifact I J) {t1 : TlbId} {req : Priv} {mode : Mode5} (hA : s0.activeTlb mode = some t1)
    (hO : missOperandsOk s0.params mode req = true) (last : U64) (n : Nat) (lo : U64) (hlo : lo ≤ last)
    (hn : last.toNat + 1 ≤ lo.toNat + n) (done : List Mapping) (s t : State) (hs : I s)
    (h : spanLoop t1 req mode artifact last n lo done s = .next t) :
    SpanAnswer linked s0 I t1 req mode artifact last lo done t := by
  induction n generalizing lo done s with
  | zero =>
    have : lo.toNat ≤ last.toNat := hlo
    omega
  | succ n ih =>
    unfold spanLoop at h
    have hc := lookupChunk_keeps K.toMissKeeps trivial t1 trivial lo req mode s hs
    revert hc h
    generalize lookupChunk t1 lo req mode artifact s = r
    intro h hc
    cases r with
    | stuck f => cases h
    | err f s1 =>
      cases h
      exact ⟨s1, hc.1, .inl ⟨f, lo, done, BitVec.le_refl _, hlo, hc.2, rfl⟩⟩
    | ok c s1 =>
      obtain ⟨h1, hserved⟩ := hc
      dsimp only at h
      have hprog' : lo ≤ (s1.chunkMapping mode lo c).highVA := hserved.reaches
      have hinst := K.install s1 t1 lo req mode c hA hO h1 hserved
      have hm : ServedMapping linked s0 I t1 req mode artifact lo last lo (s1.chunkMapping mode lo c) :=
        ⟨c, s1, h1, hserved, rfl, BitVec.le_refl _, hlo, hprog'⟩
      unfold finishChunk at h
      dsimp only at h
      generalize hm' : s1.chunkMapping mode lo c = m at *
      generalize ha : (m.lowPA + (lo - m.lowVA)).toNat = a at h
      generalize hb : (m.lowPA + ((if last < m.highVA then last else m.highVA) - m.lowVA)).toNat = b at h
      have hck := K.check _ mode req a b hinst
      have hden := State.checkPhysical_denied (s := (s1.draw 1).installChunk mode c m) (mode := mode) (req := req) (lo := a)
        (hi := b)
      have hpma : s0.env.pma = [] → ((s1.draw 1).installChunk mode c m).env.pma = [] := by
        intro hp
        rw [(K.frame _ hinst).2]
        exact hp
      rcases hr : ((s1.draw 1).installChunk mode c m).checkPhysical mode req a b with ⟨ok, s2⟩
      rw [hr] at h hck hden
      dsimp only at hck hden
      cases ok with
      | false =>
        cases h
        exact ⟨s2, hck, .inr (.inl ⟨done, fun hp => hden (hpma hp) rfl, rfl⟩)⟩
      | true =>
        dsimp only at h
        split at h
        · rename_i hend
          cases h
          refine ⟨s2, hck, .inr (.inr ⟨[m], rfl, ?_, ?_, [], m, lo, c, s1, a, b, rfl, h1, hserved, hm'.symm, ?_⟩)⟩
          · intro m1 hm1
            rw [List.mem_singleton.1 hm1]
            exact ⟨lo, hm⟩
          · intro y hy1 hy2
            exact ⟨m, by simp, lo, hm, hy1, BitVec.le_trans hy2 hend⟩
          · rw [hr]
        · rename_i hend
          have hlt : m.highVA < last := BitVec.not_le.1 hend
          have e : (m.highVA + 1).toNat = m.highVA.toNat + 1 := by
            rw [BitVec.toNat_add]
            have := last.isLt
            have h2 : m.highVA.toNat < last.toNat := hlt
            simp
            omega
          have hn' : last.toNat + 1 ≤ (m.highVA + 1).toNat + n := by
            have : lo.toNat ≤ m.highVA.toNat := hprog'
            omega
          have hstep : lo ≤ m.highVA + 1 ∧ m.highVA + 1 ≤ last ∧ ∀ y, m.highVA < y → m.highVA + 1 ≤ y := by
            refine ⟨?_, ?_, fun y hy => ?_⟩ <;> rw [BitVec.le_def, e]
            · have : lo.toNat ≤ m.highVA.toNat := hprog'
              omega
            · exact hlt
            · exact hy
          obtain ⟨s', hs', hans⟩ := ih (m.highVA + 1) hstep.2.1 hn' (done ++ [m]) s2 hck h
          refine ⟨s', hs', ?_⟩
          rcases hans with ⟨f, x, more, hx1, hx2, hf, ht⟩ | ⟨more, hp, ht⟩ | ⟨ms, ht, hall, hcov, init, m1, x, c1, s3, a1,
            b1, hms, h3, hsv, hmm, hlast⟩
          · exact .inl ⟨f, x, more, BitVec.le_trans hstep.1 hx1, hx2, hf, ht⟩
          · exact .inr (.inl ⟨more, hp, ht⟩)
          · refine .inr (.inr ⟨m :: ms, by rw [ht]; simp, ?_, ?_, m :: init, m1, x, c1, s3, a1, b1, by rw [hms]; rfl, h3,
              hsv, hmm, hlast⟩)
            · intro m2 hm2
              rcases List.mem_cons.1 hm2 with rfl | hm2
              · exact ⟨lo, hm⟩
              · obtain ⟨x2, hx2⟩ := hall m2 hm2
                exact ⟨x2, hx2.mono hstep.1⟩
            · intro y hy1 hy2
              by_cases hy : y ≤ m.highVA
              · exact ⟨m, by simp, lo, hm, hy1, hy⟩
              · obtain ⟨m2, hm2, x2, hx2, hx3⟩ := hcov y (hstep.2.2 y (BitVec.not_le.1 hy)) hy2
                exact ⟨m2, by simp [hm2], x2, hx2.mono hstep.1, hx3⟩

theorem lastByte_toNat {va : U64} {bytes : Nat} (h : validSpan va bytes = true) :
    (lastByte va bytes).toNat = va.toNat + bytes - 1 ∧ 1 ≤ bytes := by
  simp only [validSpan, Bool.and_eq_true, decide_eq_true_eq] at h
  refine ⟨?_, h.1⟩
  unfold lastByte
  rw [BitVec.toNat_ofNat]
  exact Nat.mod_eq_of_lt h.2

theorem le_lastByte {va : U64} {bytes : Nat} (h : validSpan va bytes = true) : va ≤ lastByte va bytes := by
  obtain ⟨h1, h2⟩ := lastByte_toNat h
  rw [BitVec.le_def, h1]
  omega

/-- A property that a `MISS` keeps holds when it has answered; and it answers a `MISS` response. -/
theorem execMiss_keeps {linked : Prop} {s0 : State} {artifact : Bool} {I J : State → Prop}
    (K : AccessKeeps linked s0 artifact I J) (h0 : I s0) (h1 : I (s0.setAFault .none)) (cls : DomainClass) (mode : Mode5)
    (req : Priv) (va : U64) (bytes : Nat) (t : State) (h : execMiss cls mode req va bytes artifact s0 = .next t) :
    ∃ s' r, I s' ∧ t = s'.respond (.miss r) := by
  have phys : ∀ pa, ∃ s' r, I s' ∧ (s0.setAFault .none).physMiss mode req pa bytes = s'.respond (.miss r) := by
    intro pa
    unfold State.physMiss
    have := K.check _ mode req pa.toNat (pa.toNat + bytes - 1) h1
    rcases hr : (s0.setAFault .none).checkPhysical mode req pa.toNat (pa.toNat + bytes - 1) with ⟨ok, s2⟩
    rw [hr] at this
    cases ok <;> exact ⟨s2, _, this, rfl⟩
  unfold execMiss at h
  split at h
  · rename_i hOv
    rw [Bool.and_eq_true] at hOv
    obtain ⟨hO, hv⟩ := hOv
    cases cls with
    | other => cases h; exact ⟨_, _, h1, rfl⟩
    | phys => obtain ⟨s', r, a, b⟩ := phys va; cases h; exact ⟨s', r, a, b⟩
    | pmp => obtain ⟨s', r, a, b⟩ := phys va; cases h; exact ⟨s', r, a, b⟩
    | virt =>
      unfold virtMiss at h
      dsimp only at h
      have hact : (s0.setAFault .none).activeTlb mode = s0.activeTlb mode := rfl
      rw [hact] at h
      cases ha : s0.activeTlb mode with
      | none =>
        rw [ha] at h
        cases h
        unfold State.noRegime
        have := K.check _ mode req va.toNat (va.toNat + bytes - 1) h1
        rcases hr : (s0.setAFault .none).checkPhysical mode req va.toNat (va.toNat + bytes - 1) with ⟨ok, s2⟩
        rw [hr] at this
        cases ok
        · exact ⟨s2, _, this, rfl⟩
        · exact ⟨s2.draw 2, _, K.draw _ 2 this, rfl⟩
      | some t1 =>
        rw [ha] at h
        dsimp only at h
        obtain ⟨l1, l2⟩ := lastByte_toNat hv
        obtain ⟨s', hI, hans⟩ := spanLoop_keeps K ha hO (lastByte va bytes) bytes va (le_lastByte hv) (by omega) [] _ t h1 h
        rcases hans with ⟨f, x, more, -, -, -, ht⟩ | ⟨more, -, ht⟩ | ⟨ms, ht, -⟩
        · rw [ht]
          unfold State.failLookup
          cases artifact <;> exact ⟨s', _, hI, rfl⟩
        · exact ⟨s', _, hI, ht⟩
        · exact ⟨s', _, hI, ht⟩
  · cases h; exact ⟨_, _, h0, rfl⟩

/-- A property that a walk and a write of `AFault` keep holds when a walker has answered. -/
theorem walker_keeps {linked : Prop} {s0 : State} {artifact : Bool} {T : TlbId → Prop} {I J : State → Prop}
    (K : MissKeeps linked s0 artifact T I J) (hT : s0.params.vs1PtwViaS2 = true → T .vs2)
    (hA : ∀ s a, I s → I (s.setAFault a)) (h0 : I s0) (t : State)
    (h : (∃ sv reg va req mode, runStage1 sv reg va req mode artifact s0 = .next t)
      ∨ ∃ sv gpa req mode, runStage2 sv gpa req mode artifact s0 = .next t) :
    ∃ s' r, I s' ∧ t = s'.respond r := by
  have hk : ∀ s old, I s → I (s.keepAFault old) := by
    intro s old hs
    unfold State.keepAFault
    split
    · exact hA s old hs
    · exact hs
  rcases h with ⟨sv, reg, va, req, mode, h⟩ | ⟨sv, gpa, req, mode, h⟩
  · unfold runStage1 at h
    split at h
    · have hw := walkStage1_keeps (S := fun _ => True) K hT sv reg va req mode (fun _ _ _ _ => trivial) _ (hA s0 .none h0)
      revert hw h
      generalize walkStage1 sv reg va req mode artifact (s0.setAFault .none) = r
      intro h hw
      cases r with
      | ok e s => cases h; exact ⟨_, _, hk s _ hw.1, rfl⟩
      | err e s => cases h; exact ⟨_, _, hk s _ hw, rfl⟩
      | stuck f => cases h
    · cases h; exact ⟨_, _, h0, rfl⟩
  · unfold runStage2 at h
    split at h
    · have hw := walkX4_keeps (S := fun _ => True) K.toWalkKeeps sv gpa req mode _ (hA s0 .none h0)
      revert hw h
      generalize walkX4 sv gpa req mode artifact (s0.setAFault .none) = r
      intro h hw
      cases r with
      | ok e s => cases h; exact ⟨_, _, hk s _ hw.1, rfl⟩
      | err e s => cases h; exact ⟨_, _, hk s _ hw, rfl⟩
      | stuck f => cases h
    · cases h; exact ⟨_, _, h0, rfl⟩

end Sys2Proof.Machine
end

