-- ==== Sys2Proof/Laws/Links.lean ====
section
/-! SUPPORT. Each operation on the TLBs and the alias store keeps them linked (10_state.md R31, R32, R37). -/

namespace Sys2Proof.Machine

/-! ### Modes -/

/-- A mode that is not machine mode is one of the mapped modes of an entry of its regime that is mapped in its base mode. -/
theorem mem_mappedModes {e : Entry} {mode : Mode5} (hm : mode ≠ .machine) (hv : virtOf mode = decide (e.tlb ≠ .hs))
    (hb : inMapped e.mapped (baseOf mode) = true) : mode ∈ mappedModes e := by
  unfold mappedModes
  rw [← hv]
  cases mode <;> simp_all [baseOf, virtOf, modeOf]

theorem inMapped_addMapped (m : BitVec 4) (b c : BaseMode) :
    inMapped (addMapped m b) c = (inMapped m c || decide (b = c)) := by
  revert m
  cases b <;> cases c <;> decide

/-- Only user and supervisor mode are ever added. -/
theorem addMapped_high (m : BitVec 4) (b : BaseMode) (hb : b ≠ .machine) (h : m &&& 0b1100 = 0) :
    addMapped m b &&& 0b1100 = 0 := by
  revert m
  cases b
  · decide
  · decide
  · exact absurd rfl hb

/-- The regime of a mode (40_walker.md R154). -/
theorem State.activeTlb_spec {s : State} {mode : Mode5} {t1 : TlbId} (h : s.activeTlb mode = some t1) :
    baseOf mode ≠ .machine ∧ mode ≠ .machine ∧ virtOf mode = decide (t1 ≠ .hs) := by
  unfold State.activeTlb at h
  split at h
  · cases h
  · rename_i hb
    refine ⟨hb, fun hm => hb (by rw [hm]; rfl), ?_⟩
    split at h
    · rename_i hv
      split at h
      · cases h; exact hv
      · split at h
        · cases h; exact hv
        · cases h
    · rename_i hv
      split at h
      · cases h; simpa using hv
      · cases h

/-! ### Deletion -/

/-- Deleting linked entries one after another keeps the store linked: the aliases built from them go first (41_tlb.md
R184). -/
theorem State.LinkInv.deleteAll {s : State} (h : s.LinkInv) {t : TlbId} {l : List Entry} (hl : ∀ e ∈ l, e ∈ s.tlb t) :
    (l.foldl State.tlbDelete s).LinkInv := by
  refine ⟨State.linksOk_deleteAll h.links l, ?_, fun mode a ha => ?_⟩
  · rw [State.foldl_tlbDelete_aliases, h.aliases.1]
    rfl
  · rw [State.foldl_tlbDelete_aliases, List.mem_filter, List.all_eq_true] at ha
    obtain ⟨ha, hkeep⟩ := ha
    have hmode : mode ≠ .machine := by
      intro hm
      subst hm
      rw [h.aliases.1] at ha
      cases ha
    obtain ⟨e1, he1, hh1, hm1, ha1, hv1, h2⟩ := h.aliases.2 mode a ha
    obtain ⟨t1, ht1⟩ := (s.mem_entries e1).1 he1
    have keep : ∀ (u : TlbId) (e : Entry), e ∈ s.tlb u → inMapped e.mapped (baseOf mode) = true →
        virtOf mode = decide (e.tlb ≠ .hs) → builtFrom a e = true → e ∈ (l.foldl State.tlbDelete s).tlb u := by
      intro u e he hm hv hb
      refine State.mem_foldl_tlbDelete h.links hl he (fun hmem => ?_)
      have := hkeep e hmem
      simp [mem_mappedModes hmode hv hm, hb] at this
    refine ⟨e1, ?_, hh1, hm1, ha1, hv1, fun x hx => ?_⟩
    · rw [State.mem_entries]
      exact ⟨t1, keep t1 e1 ht1 hm1 hv1 (by simp [builtFrom, hh1])⟩
    · obtain ⟨ht, e2, he2, hh2, hm2, ha2⟩ := h2 x hx
      refine ⟨ht, e2, keep .vs2 e2 he2 hm2 ?_ (by simp [builtFrom, hh2, hx]), hh2, hm2, ha2⟩
      rw [hv1, ht, (h.links.1 .vs2 e2 he2).1]
      rfl

/-! ### Updates that keep handles -/

/-- Two states hold the same handles entry by entry, in stores related by `f` in each TLB. -/
theorem State.linksOk_map {s t : State} (h : s.linksOk) (hn : t.nextHandle = s.nextHandle) (f : TlbId → Entry → Entry)
    (ht : ∀ i, t.tlb i = (s.tlb i).map (f i))
    (hf : ∀ i, ∀ e ∈ s.tlb i, (f i e).lutEntry = e.lutEntry ∧ (f i e).tlb = e.tlb
      ∧ ((e.artifact = true → e.mapped = 0) → (f i e).artifact = true → (f i e).mapped = 0)
      ∧ (e.mapped &&& 0b1100 = 0 → (f i e).mapped &&& 0b1100 = 0)) : t.linksOk := by
  refine ⟨fun i e he => ?_, ?_⟩
  · rw [ht i, List.mem_map] at he
    obtain ⟨e', he', rfl⟩ := he
    obtain ⟨h1, h2, h3, h4⟩ := hf i e' he'
    obtain ⟨l1, l2, l3, l4⟩ := h.1 i e' he'
    exact ⟨h2.trans l1, by rw [h1, hn]; exact l2, h3 l3, h4 l4⟩
  · have : t.entries.map (fun e => e.lutEntry) = s.entries.map (fun e => e.lutEntry) := by
      rw [State.entries_tlb, State.entries_tlb, ht, ht, ht]
      simp only [List.map_append, List.map_map]
      have aux : ∀ i, (s.tlb i).map ((fun e => e.lutEntry) ∘ f i) = (s.tlb i).map (fun e => e.lutEntry) :=
        fun i => List.map_congr_left (fun e he => (hf i e he).1)
      rw [aux, aux, aux]
    rw [this]
    exact h.2

/-- An alias stays linked when the entries keep their handles, TLBs and artifact flags and lose no mapped mode. -/
theorem State.aliasLinked_map {s t : State} (f : TlbId → Entry → Entry) (ht : ∀ i, t.tlb i = (s.tlb i).map (f i))
    (hf : ∀ i, ∀ e ∈ s.tlb i, (f i e).lutEntry = e.lutEntry ∧ (f i e).tlb = e.tlb ∧ (f i e).artifact = e.artifact
      ∧ ∀ b, inMapped e.mapped b = true → inMapped (f i e).mapped b = true) {mode : Mode5} {a : Alias}
    (ha : s.aliasLinked mode a) : t.aliasLinked mode a := by
  obtain ⟨e1, he1, hh1, hm1, ha1, hv1, h2⟩ := ha
  obtain ⟨t1, ht1⟩ := (s.mem_entries e1).1 he1
  obtain ⟨f1, f2, f3, f4⟩ := hf t1 e1 ht1
  refine ⟨f t1 e1, ?_, by rw [f1, hh1], f4 _ hm1, by rw [f3, ha1], by rw [f2, hv1], fun x hx => ?_⟩
  · rw [State.mem_entries]
    exact ⟨t1, by rw [ht]; exact List.mem_map_of_mem ht1⟩
  · obtain ⟨h3, e2, he2, hh2, hm2, ha2⟩ := h2 x hx
    obtain ⟨g1, g2, g3, g4⟩ := hf .vs2 e2 he2
    exact ⟨by rw [f2, h3], f .vs2 e2, by rw [ht]; exact List.mem_map_of_mem he2, by rw [g1, hh2], g4 _ hm2, by rw [g3, ha2]⟩

/-- The entries after a re-keying: the one re-keyed has the live key. -/
theorem State.rekey_tlb (s : State) (mode : Mode5) (e : Entry) :
    (∃ r, (s.rekey mode e).2 = r ∧ ∀ i, r.tlb i
        = (s.tlb i).map (fun f => if i = e.tlb ∧ f.lutEntry = e.lutEntry then { e with simASID := s.liveKey } else f))
      ∨ (s.rekey mode e).2 = s := by
  unfold State.rekey
  dsimp only
  split
  · refine .inl ⟨_, rfl, fun i => ?_⟩
    by_cases hi : i = e.tlb
    · subst hi
      rw [State.setTlb_tlb_same]
      simp only [replaceEntry, true_and]
      rfl
    · rw [State.setTlb_tlb_ne _ _ _ _ hi]
      simp only [hi, false_and, if_false, List.map_id']
      rfl
  · exact .inr rfl

/-- A re-keying changes the TLBs and the alias store only, and adds no alias. -/
theorem State.rekey_eq (s : State) (mode : Mode5) (e : Entry) :
    (∃ a t, (s.rekey mode e).2 = (s.setAliases a).setTlbs t)
      ∧ ∀ m, ((s.rekey mode e).2.aliasesOf m).Sublist (s.aliasesOf m) := by
  unfold State.rekey
  dsimp only
  split
  · refine ⟨⟨_, _, rfl⟩, fun m => ?_⟩
    show ((s.removeAliases mode e).aliasesOf m).Sublist _
    unfold State.removeAliases
    by_cases hm : m = mode
    · subst hm
      rw [State.setAliasesOf_same]
      exact List.filter_sublist
    · simp only [State.setAliasesOf_ne _ _ _ _ hm, List.Sublist.refl]
  · exact ⟨⟨s.aliases, s.tlbs, rfl⟩, fun m => List.Sublist.refl _⟩

/-- In a linked store, what a re-keying does to an entry: it keeps all but the key. -/
theorem rekeyed_same {s : State} (h : s.linksOk) {t i : TlbId} {e f : Entry} (he : e ∈ s.tlb t) (hf : f ∈ s.tlb i) :
    (if i = e.tlb ∧ f.lutEntry = e.lutEntry then { e with simASID := s.liveKey } else f) = f
      ∨ (if i = e.tlb ∧ f.lutEntry = e.lutEntry then { e with simASID := s.liveKey } else f)
        = { f with simASID := s.liveKey } := by
  split
  · rename_i hc
    have := State.linksOk_unique h hf he hc.2
    subst this
    exact .inr rfl
  · exact .inl rfl

theorem State.linksOk_rekey {s : State} (h : s.linksOk) {t : TlbId} {e : Entry} (he : e ∈ s.tlb t) (mode : Mode5) :
    (s.rekey mode e).2.linksOk := by
  obtain ⟨a, u, hr⟩ := (s.rekey_eq mode e).1
  rcases s.rekey_tlb mode e with ⟨r, hr2, htlb⟩ | hr2
  · subst hr2
    refine State.linksOk_map h (by rw [hr]; rfl) _ htlb (fun i f hf => ?_)
    rcases rekeyed_same h he hf with hh | hh <;> rw [hh] <;> exact ⟨rfl, rfl, id, id⟩
  · rw [hr2]
    exact h

/-- Re-keying a stored entry keeps the store linked (41_tlb.md R203). -/
theorem State.LinkInv.rekey {s : State} (h : s.LinkInv) {t : TlbId} {e : Entry} (he : e ∈ s.tlb t) (mode : Mode5) :
    (s.rekey mode e).2.LinkInv := by
  obtain ⟨-, hsub⟩ := s.rekey_eq mode e
  refine ⟨State.linksOk_rekey h.links he mode, ?_, fun m a ha => ?_⟩
  · have := hsub .machine
    rw [h.aliases.1] at this
    exact List.sublist_nil.1 this
  · have hal := h.aliases.2 m a ((hsub m).subset ha)
    rcases s.rekey_tlb mode e with ⟨r, hr2, htlb⟩ | hr2
    · subst hr2
      refine State.aliasLinked_map _ htlb (fun i f hf => ?_) hal
      rcases rekeyed_same h.links he hf with hh | hh <;> rw [hh] <;> exact ⟨rfl, rfl, rfl, fun _ hb => hb⟩
    · rw [hr2]
      exact hal

/-! ### Insertion -/

theorem State.tlbInsert_tlb (s : State) (e : Entry) (t : TlbId) :
    (s.tlbInsert e).2.tlb t
      = s.tlb t ++ (if t = e.tlb then [{ e with lutEntry := some s.nextHandle }] else []) := by
  by_cases h : t = e.tlb
  · subst h
    rw [State.tlbInsert_snd, State.setTlb_tlb_same, if_pos rfl]
    rfl
  · rw [State.tlbInsert_snd, State.setTlb_tlb_ne _ _ _ _ h, if_neg h, List.append_nil]
    rfl

theorem State.linksOk_insert {s : State} (h : s.linksOk) {e : Entry} (he : e.mapped = 0) :
    (s.tlbInsert e).2.linksOk := by
  have hn : (s.tlbInsert e).2.nextHandle = s.nextHandle + 1 := rfl
  refine ⟨fun t f hf => ?_, ?_⟩
  · rw [State.tlbInsert_tlb, List.mem_append] at hf
    rw [hn]
    rcases hf with hf | hf
    · obtain ⟨l1, ⟨x, l2, l3⟩, l4⟩ := h.1 t f hf
      exact ⟨l1, ⟨x, l2, by omega⟩, l4⟩
    · split at hf
      · rename_i ht
        rw [List.mem_singleton.1 hf]
        exact ⟨ht.symm, ⟨_, rfl, by omega⟩, fun _ => he, by show e.mapped &&& _ = 0; rw [he]; rfl⟩
      · cases hf
  · have hfresh : ∀ t, ∀ f ∈ s.tlb t, f.lutEntry ≠ some s.nextHandle := by
      intro t f hf hh
      obtain ⟨-, ⟨x, l2, l3⟩, -⟩ := h.1 t f hf
      rw [l2, Option.some.injEq] at hh
      omega
    have hperm : ((s.tlbInsert e).2.entries.map fun f => f.lutEntry).Perm
        (some s.nextHandle :: s.entries.map fun f => f.lutEntry) := by
      have : (s.tlbInsert e).2.entries.Perm ({ e with lutEntry := some s.nextHandle } :: s.entries) := by
        rw [State.entries_tlb, State.tlbInsert_tlb, State.tlbInsert_tlb, State.tlbInsert_tlb, State.entries_tlb]
        cases ht : e.tlb
        · simp only [if_true, reduceCtorEq, if_false, List.append_nil, List.append_assoc]
          exact List.perm_middle
        · simp only [if_true, reduceCtorEq, if_false, List.append_nil, List.append_assoc]
          exact (List.Perm.append_left _ List.perm_middle).trans List.perm_middle
        · simp only [if_true, reduceCtorEq, if_false, List.append_nil]
          rw [← List.append_assoc, ← List.append_assoc, List.append_assoc (s.tlb .hs)]
          exact List.perm_append_singleton _ _
      exact this.map _
    refine (hperm.nodup_iff).2 (List.nodup_cons.2 ⟨fun hm => ?_, h.2⟩)
    obtain ⟨f, hf, hh⟩ := List.mem_map.1 hm
    obtain ⟨t, ht⟩ := (s.mem_entries f).1 hf
    exact hfresh t f ht hh

/-- Inserting an entry that is not mapped keeps the store linked (41_tlb.md R183). -/
theorem State.LinkInv.insert {s : State} (h : s.LinkInv) {e : Entry} (he : e.mapped = 0) :
    (s.tlbInsert e).2.LinkInv := by
  have hmem : ∀ t f, f ∈ s.tlb t → f ∈ (s.tlbInsert e).2.tlb t := by
    intro t f hf
    rw [State.tlbInsert_tlb]
    exact List.mem_append_left _ hf
  refine ⟨State.linksOk_insert h.links he, h.aliases.1, fun mode a ha => ?_⟩
  have ha : a ∈ s.aliasesOf mode := ha
  obtain ⟨e1, he1, hh1, hm1, ha1, hv1, h2⟩ := h.aliases.2 mode a ha
  obtain ⟨t1, ht1⟩ := (s.mem_entries e1).1 he1
  refine ⟨e1, ?_, hh1, hm1, ha1, hv1, fun x hx => ?_⟩
  · rw [State.mem_entries]
    exact ⟨t1, hmem t1 e1 ht1⟩
  · obtain ⟨h3, e2, he2, h4⟩ := h2 x hx
    exact ⟨h3, e2, hmem .vs2 e2 he2, h4⟩

/-! ### Installing an alias -/

theorem State.markEntry_tlb (s : State) (t : TlbId) (h : Nat) (b : BaseMode) (i : TlbId) :
    (s.markEntry t h b).tlb i
      = (s.tlb i).map (fun f => if i = t ∧ f.lutEntry = some h then { f with mapped := addMapped f.mapped b } else f) := by
  unfold State.markEntry markMapped
  by_cases hi : i = t
  · subst hi
    simp only [State.setTlb_tlb_same, true_and]
  · rw [State.setTlb_tlb_ne _ _ _ _ hi]
    simp only [hi, false_and, if_false, List.map_id']

/-- The entries after an install: the ones the alias was built from record the mode (41_tlb.md R200). -/
theorem State.installAlias_tlb (s : State) (mode : Mode5) (mp : Mapping) (t1 : TlbId) (h1 : Nat) (h2 : Option Nat)
    (i : TlbId) :
    (s.installAlias mode mp t1 h1 h2).tlb i
      = (s.tlb i).map (fun f =>
          if (i = t1 ∧ f.lutEntry = some h1) ∨ (i = .vs2 ∧ h2 ≠ none ∧ f.lutEntry = h2)
          then { f with mapped := addMapped f.mapped (baseOf mode) } else f) := by
  unfold State.installAlias
  cases h2 with
  | none =>
    dsimp only
    rw [State.markEntry_tlb]
    simp only [ne_eq, not_true_eq_false, false_and, and_false, or_false]
    rfl
  | some h =>
    dsimp only
    rw [State.markEntry_tlb, State.markEntry_tlb, List.map_map]
    refine List.map_congr_left (fun f _ => ?_)
    have idem : addMapped (addMapped f.mapped (baseOf mode)) (baseOf mode) = addMapped f.mapped (baseOf mode) := by
      unfold addMapped
      rw [BitVec.or_assoc, BitVec.or_self]
    have hne : (some h : Option Nat) ≠ none := by simp
    rw [Function.comp_apply]
    by_cases c1 : i = t1 ∧ f.lutEntry = some h1
    · have c : (i = t1 ∧ f.lutEntry = some h1) ∨ (i = .vs2 ∧ (some h : Option Nat) ≠ none ∧ f.lutEntry = some h) :=
        .inl c1
      rw [if_pos c1, if_pos c]
      dsimp only
      rw [idem]
      split <;> rfl
    · rw [if_neg c1]
      by_cases c2 : i = .vs2 ∧ f.lutEntry = some h
      · rw [if_pos c2, if_pos (.inr ⟨c2.1, hne, c2.2⟩)]
      · rw [if_neg c2, if_neg]
        rintro (c | c)
        · exact c1 c
        · exact c2 ⟨c.1, c.2.2⟩

/-- The aliases after an install. -/
theorem State.installAlias_aliases (s : State) (mode : Mode5) (mp : Mapping) (t1 : TlbId) (h1 : Nat) (h2 : Option Nat)
    (m : Mode5) :
    (s.installAlias mode mp t1 h1 h2).aliasesOf m
      = if m = mode then
          { lowVA := mp.lowVA, highVA := mp.highVA, lowPA := mp.lowPA, priv := mp.priv, mask := mp.mask
            key := s.liveKey, from1 := h1, from2 := h2 }
            :: (s.aliasesOf mode).filter (fun a => !aliasOverlaps a mp.lowVA mp.highVA)
        else s.aliasesOf m := by
  have h : ∀ (l : List Alias), ((s.setAliasesOf mode l)).aliasesOf m = if m = mode then l else s.aliasesOf m := by
    intro l
    split
    · rename_i hm
      subst hm
      exact State.setAliasesOf_same _ _ _
    · rename_i hm
      exact State.setAliasesOf_ne _ _ _ _ hm
  unfold State.installAlias
  cases h2 <;> exact h _

/-- An install changes the TLBs and the alias store only. -/
theorem State.installAlias_eq (s : State) (mode : Mode5) (mp : Mapping) (t1 : TlbId) (h1 : Nat) (h2 : Option Nat) :
    ∃ a t, s.installAlias mode mp t1 h1 h2 = (s.setAliases a).setTlbs t := by
  unfold State.installAlias
  cases h2 <;> exact ⟨_, _, rfl⟩

theorem State.installChunk_eq (s : State) (mode : Mode5) (c : Chunk) (m : Mapping) :
    ∃ a t, s.installChunk mode c m = (s.setAliases a).setTlbs t := by
  unfold State.installChunk
  split
  · exact ⟨s.aliases, s.tlbs, rfl⟩
  · split
    · exact s.installAlias_eq _ _ _ _ _
    · exact ⟨s.aliases, s.tlbs, rfl⟩

/-- In a linked store, an install for a served chunk marks no artifact entry. -/
theorem installed_noArtifact {s : State} (h : s.linksOk) {s0 : State} {t1 : TlbId} {x : U64} {req : Priv}
    {mode : Mode5} {artifact : Bool} {c : Chunk} (hc : ChunkServed True s0 t1 x req mode artifact c s)
    (hart : c.artifact = false) {x1 : Nat} (l2 : c.e1.lutEntry = some x1) :
    (∀ x2, (c.e2.bind fun e2 => e2.lutEntry) = some x2 →
        t1 = .vs1 ∧ ∃ e2 ∈ s.tlb .vs2, e2.lutEntry = some x2 ∧ e2.artifact = false)
      ∧ ∀ i, ∀ f ∈ s.tlb i, ((i = t1 ∧ f.lutEntry = some x1)
          ∨ (i = .vs2 ∧ (c.e2.bind fun e2 => e2.lutEntry) ≠ none ∧ f.lutEntry = (c.e2.bind fun e2 => e2.lutEntry))) →
        f.artifact = false := by
  have h1 := hc.first.stored trivial
  have ha1 : c.e1.artifact = false := by
    cases hh : c.e1.artifact
    · rfl
    · simp [Chunk.artifact, hh] at hart
  have hsecond : ∀ x2, (c.e2.bind fun e2 => e2.lutEntry) = some x2 →
      t1 = .vs1 ∧ ∃ e2 ∈ s.tlb .vs2, e2.lutEntry = some x2 ∧ e2.artifact = false := by
    intro x2 hx2
    cases he2 : c.e2 with
    | none => rw [he2] at hx2; cases hx2
    | some e2 =>
      rw [he2] at hx2
      obtain ⟨s1, -, s3⟩ := hc.second e2 he2
      refine ⟨s1, e2, s3.stored trivial, hx2, ?_⟩
      cases hh : e2.artifact
      · rfl
      · simp [Chunk.artifact, he2, hh] at hart
  refine ⟨hsecond, fun i f hf hcond => ?_⟩
  rcases hcond with ⟨-, hh⟩ | ⟨-, hne, hh⟩
  · rw [State.linksOk_unique h hf h1 (hh.trans l2.symm)]
    exact ha1
  · cases hx : (c.e2.bind fun e2 => e2.lutEntry) with
    | none => exact absurd hx hne
    | some x2 =>
      obtain ⟨-, e2, he2, hl2, hz⟩ := hsecond x2 hx
      rw [State.linksOk_unique h hf he2 ((hh.trans hx).trans hl2.symm)]
      exact hz

theorem State.linksOk_installChunk {s : State} (h : s.linksOk) {s0 : State} {t1 : TlbId} {x : U64} {req : Priv}
    {mode : Mode5} {artifact : Bool} {c : Chunk} (hA : s0.activeTlb mode = some t1)
    (hc : ChunkServed True s0 t1 x req mode artifact c s) (m : Mapping) : (s.installChunk mode c m).linksOk := by
  obtain ⟨hb, -, -⟩ := State.activeTlb_spec hA
  have h1 := hc.first.stored trivial
  obtain ⟨l1, ⟨x1, l2, -⟩, -⟩ := h.1 t1 c.e1 h1
  unfold State.installChunk
  split
  · exact h
  · rename_i hart
    obtain ⟨-, hmarked⟩ := installed_noArtifact h hc (by simpa using hart) l2
    rw [l2]
    dsimp only
    rw [l1]
    refine State.linksOk_map h ?_ _ (fun i => s.installAlias_tlb mode m t1 x1 _ i) (fun i f hf => ?_)
    · obtain ⟨a, t, he⟩ := s.installAlias_eq mode m t1 x1 (c.e2.bind fun e2 => e2.lutEntry)
      rw [he]
      rfl
    · split
      · rename_i hcond
        have := hmarked i f hf hcond
        refine ⟨rfl, rfl, fun _ hh => ?_, fun hh => addMapped_high _ _ hb hh⟩
        rw [show f.artifact = true from hh] at this
        cases this
      · exact ⟨rfl, rfl, id, id⟩

/-- Installing the alias of a served chunk keeps the store linked (41_tlb.md R200, 42_translate.md R231, R235). -/
theorem State.LinkInv.installChunk {s : State} (h : s.LinkInv) {s0 : State} {t1 : TlbId} {x : U64} {req : Priv}
    {mode : Mode5} {artifact : Bool} {c : Chunk} (hA : s0.activeTlb mode = some t1)
    (hc : ChunkServed True s0 t1 x req mode artifact c s) (m : Mapping) : (s.installChunk mode c m).LinkInv := by
  obtain ⟨hb, hm, hv⟩ := State.activeTlb_spec hA
  have h1 := hc.first.stored trivial
  obtain ⟨l1, ⟨x1, l2, -⟩, -⟩ := h.links.1 t1 c.e1 h1
  have hlk := State.linksOk_installChunk h.links hA hc m
  revert hlk
  unfold State.installChunk
  split
  · exact fun _ => h
  · rename_i hart
    have ha1 : c.e1.artifact = false := by
      cases hh : c.e1.artifact
      · rfl
      · exact absurd (by simp [Chunk.artifact, hh]) hart
    obtain ⟨hsecond, -⟩ := installed_noArtifact h.links hc (by simpa using hart) l2
    rw [l2]
    dsimp only
    rw [l1]
    intro hlk
    generalize (c.e2.bind fun e2 => e2.lutEntry) = h2 at *
    have htlb := fun i => s.installAlias_tlb mode m t1 x1 h2 i
    refine ⟨hlk, ?_, fun mo a ha => ?_⟩
    · rw [State.installAlias_aliases, if_neg (fun hh => hm hh.symm)]
      exact h.aliases.1
    · have old : a ∈ s.aliasesOf mo → (s.installAlias mode m t1 x1 h2).aliasLinked mo a := by
        intro ha
        refine State.aliasLinked_map _ htlb (fun i f hf => ?_) (h.aliases.2 mo a ha)
        split
        · exact ⟨rfl, rfl, rfl, fun b hb => by rw [inMapped_addMapped, hb]; rfl⟩
        · exact ⟨rfl, rfl, rfl, fun _ hb => hb⟩
      rw [State.installAlias_aliases] at ha
      split at ha
      · rename_i hmo
        subst hmo
        rcases List.mem_cons.1 ha with rfl | ha
        · refine ⟨{ c.e1 with mapped := addMapped c.e1.mapped (baseOf mo) }, ?_, l2, ?_, ha1, ?_, fun x2 hx2 => ?_⟩
          · rw [State.mem_entries]
            refine ⟨t1, ?_⟩
            rw [htlb, List.mem_map]
            exact ⟨c.e1, h1, if_pos (.inl ⟨rfl, l2⟩)⟩
          · rw [inMapped_addMapped]
            simp
          · rw [hv, ← l1]
          · obtain ⟨q1, e2, q2, q3, q4⟩ := hsecond x2 hx2
            refine ⟨l1.trans q1, { e2 with mapped := addMapped e2.mapped (baseOf mo) }, ?_, q3, ?_, q4⟩
            · rw [htlb, List.mem_map]
              exact ⟨e2, q2, if_pos (.inr ⟨rfl, ⟨fun hh => (nomatch hh.symm.trans hx2), q3.trans hx2.symm⟩⟩)⟩
            · rw [inMapped_addMapped]
              simp
        · exact old (List.mem_filter.1 ha).1
      · exact old ha

/-! ### What does not touch the store -/

/-- The store is linked in a state with the same TLBs, aliases and next handle. -/
theorem State.LinkInv.congr {s t : State} (h : s.LinkInv) (h1 : t.tlbs = s.tlbs) (h2 : t.aliases = s.aliases)
    (h3 : t.nextHandle = s.nextHandle) : t.LinkInv := by
  have ht : ∀ i, t.tlb i = s.tlb i := fun i => by simp only [State.tlb, h1]
  have ha : ∀ m, t.aliasesOf m = s.aliasesOf m := fun m => by simp only [State.aliasesOf, h2]
  have he : t.entries = s.entries := by rw [State.entries_tlb, State.entries_tlb, ht, ht, ht]
  refine ⟨⟨fun i e hi => ?_, by rw [he]; exact h.links.2⟩, by rw [ha]; exact h.aliases.1, fun m a hm => ?_⟩
  · rw [ht] at hi
    rw [h3]
    exact h.links.1 i e hi
  · rw [ha] at hm
    obtain ⟨e1, q1, q2, q3, q4, q5, q6⟩ := h.aliases.2 m a hm
    refine ⟨e1, by rw [he]; exact q1, q2, q3, q4, q5, fun x hx => ?_⟩
    rw [ht]
    exact q6 x hx

end Sys2Proof.Machine
end

