-- ==== Sys2Proof/Laws/AFault.lean ====
section
/-! SUPPORT. What `AFault` holds when a lookup begun with it clear has ended (10_state.md R45): nothing when the lookup found or
made an entry, and a PMP denial only behind a bus error. -/

namespace Sys2Proof.Machine

/-- A result leaves `AFault` clear, a failure arms it only with a bus error. -/
def ArmsOnDenial {ε α : Type} (errOf : ε → WalkErr) (r : Res ε α) : Prop :=
  r.Holds (fun _ s => s.afault = .none) (fun f s => s.afault = .pmp → isBusError (errOf f) = true) (fun _ => True)

theorem failWalk_arms {α : Type} (e : WalkErr) {s : State} (h : s.afault = .none) :
    ArmsOnDenial WalkFailure.err (failWalk e s : Res WalkFailure α) := by
  intro hp
  rw [h] at hp
  cases hp

/-- A page-table access that is served leaves `AFault` as it was. -/
theorem State.ptwCheck_served {s : State} {req : Priv} {addr : U64} {n : Nat} (h : s.afault = .none)
    (hs : (s.ptwCheck req addr n).1 = true) : (s.ptwCheck req addr n).2.afault = .none := by
  have hg : s.pmpGrants .supervisor req addr.toNat (addr.toNat + n - 1) = true := by
    rw [(s.ptwCheck_spec req addr n).1] at hs
    simp only [State.ptwServes, Bool.and_eq_true] at hs
    exact hs.1.1
  have := s.ptwCheck_afault req addr n
  rw [h, hg] at this
  cases ha : (s.ptwCheck req addr n).2.afault with
  | none => rfl
  | pmp => simp [ha] at this

theorem State.memRead_served {s : State} {t : TlbId} {addr : U64} {n : Nat} {v : U64} (h : s.afault = .none)
    (hs : (s.memRead t addr n).1 = some v) : (s.memRead t addr n).2.afault = .none := by
  have hc : ((s.setPtwActive true).ptwCheck Priv.R addr n).1 = true := by
    cases hc : ((s.setPtwActive true).ptwCheck Priv.R addr n).1 with
    | true => rfl
    | false =>
      have : (s.memRead t addr n).1 = none := by
        unfold State.memRead
        dsimp only
        rw [hc]
        rfl
      rw [this] at hs
      cases hs
  exact State.ptwCheck_served (s := s.setPtwActive true) h hc

theorem State.memWrite_served {s : State} {t : TlbId} {addr : U64} {n : Nat} {v : U64} (h : s.afault = .none)
    (hs : (s.memWrite t addr n v).1 = true) : (s.memWrite t addr n v).2.afault = .none := by
  have hc : ((s.setPtwActive true).ptwCheck Priv.W addr n).1 = true := hs
  have := State.ptwCheck_served (s := s.setPtwActive true) h hc
  unfold State.memWrite
  dsimp only
  split <;> exact this

/-- The way to a walk's page tables arms `AFault` on a denial only. -/
def TranslatorArms (tr : PteTranslator) : Prop :=
  ∀ a req s, s.afault = .none → ArmsOnDenial WalkFailure.err (tr a req s)

theorem directPte_arms : TranslatorArms directPte :=
  fun _ _ _ h => h

theorem walkLoop_arms {tr : PteTranslator} (htr : TranslatorArms tr) (sh : WalkShape) (t : TlbId) (va : U64) (n : Nat)
    (a : U64) (s : State) (h : s.afault = .none) : ArmsOnDenial WalkFailure.err (walkLoop tr sh t va n a s) := by
  induction n generalizing a s with
  | zero => exact failWalk_arms .leaf h
  | succ n ih =>
    unfold walkLoop
    refine Res.Holds.bind (htr _ _ _ h) fun addr s1 h1 => ?_
    have hserved := fun v => State.memRead_served (t := t) (addr := addr) (n := pteBytes sh.fmt) (v := v) h1
    rcases hr : s1.memRead t addr (pteBytes sh.fmt) with ⟨o, s2⟩
    rw [hr] at hserved
    cases o with
    | none => exact fun _ => rfl
    | some pte =>
      have h2 : s2.afault = .none := hserved pte rfl
      dsimp only
      split
      · exact failWalk_arms _ h2
      · exact ih _ _ h2
      · exact h2

theorem finishWalk_arms {tr : PteTranslator} (htr : TranslatorArms tr) (sh : WalkShape) (t : TlbId) (va : U64) (req : Priv)
    (mode : Mode5) (artifact : Bool) (leaf : FoundLeaf) (s : State) (h : s.afault = .none) :
    ArmsOnDenial WalkFailure.err (finishWalk tr sh t va req mode artifact leaf s) := by
  unfold finishWalk
  split
  · exact failWalk_arms _ h
  · dsimp only
    split
    · exact failWalk_arms _ h
    · split
      · exact failWalk_arms _ h
      · rename_i e changed _
        unfold writeBack
        split
        · refine Res.Holds.bind (htr _ _ _ h) fun addr s1 h1 => ?_
          have hserved := State.memWrite_served (t := t) (addr := addr) (n := pteBytes sh.fmt)
            (v := pteWithAD leaf.pte e.a e.d) h1
          rcases hw : s1.memWrite t addr (pteBytes sh.fmt) (pteWithAD leaf.pte e.a e.d) with ⟨ok, s2⟩
          rw [hw] at hserved
          cases ok with
          | true => exact hserved rfl
          | false => exact fun _ => rfl
        · exact h

/-- A walk arms `AFault` on a denied page-table access only, and then fails with a bus error (40_walker.md R141). -/
theorem walk_arms {tr : PteTranslator} (htr : TranslatorArms tr) (sh : WalkShape) (t : TlbId) (root va : U64) (req : Priv)
    (mode : Mode5) (artifact : Bool) (s : State) (h : s.afault = .none) :
    ArmsOnDenial WalkFailure.err (walk tr sh t root va req mode artifact s) := by
  unfold walk
  split
  · exact failWalk_arms _ h
  · exact Res.Holds.bind (walkLoop_arms htr sh t va sh.levels root s h)
      fun leaf s1 h1 => finishWalk_arms htr sh t va req mode artifact leaf s1 h1

theorem walkX4_arms (sv : SvMode) (gpa : U64) (req : Priv) (mode : Mode5) (artifact : Bool) (s : State)
    (h : s.afault = .none) : ArmsOnDenial WalkFailure.err (walkX4 sv gpa req mode artifact s) := by
  unfold walkX4
  dsimp only
  split
  · exact failWalk_arms _ h
  · exact Res.Holds.bind (walk_arms directPte_arms _ .vs2 _ _ req mode artifact s h) fun _ _ h1 => h1

theorem walkForStage2_arms (gpa : U64) (req : Priv) (mode : Mode5) (artifact : Bool) (s : State) (h : s.afault = .none) :
    ArmsOnDenial WalkFailure.err (walkForStage2 gpa req mode artifact s) := by
  unfold walkForStage2
  split
  · split
    · exact walkX4_arms _ gpa req mode artifact s h
    · trivial
  · trivial

theorem State.tlbFind_afault (s : State) (t : TlbId) (x : U64) : (s.tlbFind t x).2.afault = s.afault := by
  obtain ⟨del, -, d2, -⟩ := s.tlbFind_spec t x
  obtain ⟨a, u, he⟩ := State.foldl_tlbDelete_eq del (s.draw (s.overlapping t x).length)
  rw [d2, he]
  rfl

theorem State.dirtyUpgrade_afault (s : State) (req : Priv) (found : Option Entry) :
    (s.dirtyUpgrade req found).2.afault = s.afault := by
  unfold State.dirtyUpgrade
  cases found with
  | none => rfl
  | some e =>
    dsimp only
    split
    · obtain ⟨a, u, he⟩ := s.tlbDelete_eq e
      rw [he]
      rfl
    · rfl

theorem State.rekey_afault (s : State) (mode : Mode5) (e : Entry) : (s.rekey mode e).2.afault = s.afault := by
  obtain ⟨a, u, he⟩ := (s.rekey_eq mode e).1
  rw [he]
  rfl

/-- A lookup arms `AFault` as its walker does (42_translate.md R223). -/
theorem findOrCreateWith_arms {walker : State → Res WalkFailure Entry} {t : TlbId} {x : U64} {req : Priv} {mode : Mode5}
    (hw : ∀ s, s.afault = .none → ArmsOnDenial WalkFailure.err (walker s)) (s : State) (h : s.afault = .none) :
    ArmsOnDenial WalkFailure.err (findOrCreateWith walker t x req mode s) := by
  have hd : ((s.tlbFind t x).2.dirtyUpgrade req (s.tlbFind t x).1).2.afault = .none := by
    rw [State.dirtyUpgrade_afault, State.tlbFind_afault, h]
  unfold findOrCreateWith
  dsimp only
  rcases hr : (s.tlbFind t x).2.dirtyUpgrade req (s.tlbFind t x).1 with ⟨found, s1⟩
  rw [hr] at hd
  cases found with
  | some e =>
    dsimp only
    split
    · exact failWalk_arms _ hd
    · exact (State.rekey_afault s1 mode e).trans hd
  | none => exact Res.Holds.bind (hw s1 hd) fun _ _ h1 => h1

theorem lookupStage2_arms (gpa : U64) (req : Priv) (mode : Mode5) (artifact : Bool) (s : State) (h : s.afault = .none) :
    ArmsOnDenial WalkFailure.err (lookupStage2 gpa req mode artifact s) :=
  findOrCreateWith_arms (fun s1 h1 => walkForStage2_arms gpa req mode artifact s1 h1) s h

theorem stage1Translator_arms (p : Params) (reg : Stage1Reg) (va : U64) (mode : Mode5) (artifact : Bool) :
    TranslatorArms (stage1Translator p reg va mode artifact) := by
  unfold stage1Translator
  split
  · exact directPte_arms
  · split
    · intro a req s h
      unfold pteViaStage2
      split
      · exact h
      · have hl := lookupStage2_arms a req mode artifact (s.beginStage2 va) h
        revert hl
        generalize lookupStage2 a req mode artifact (s.beginStage2 va) = r
        intro hl
        cases r with
        | ok e s1 => exact hl
        | err f s1 => exact hl
        | stuck f => trivial
    · exact directPte_arms

theorem walkStage1_arms (sv : SvMode) (reg : Stage1Reg) (va : U64) (req : Priv) (mode : Mode5) (artifact : Bool) (s : State)
    (h : s.afault = .none) : ArmsOnDenial WalkFailure.err (walkStage1 sv reg va req mode artifact s) :=
  walk_arms (stage1Translator_arms s.params reg va mode artifact) _ reg.tlb _ va req mode artifact s h

theorem findOrCreate_arms (t : TlbId) (x : U64) (req : Priv) (mode : Mode5) (artifact : Bool) (s : State)
    (h : s.afault = .none) : ArmsOnDenial WalkFailure.err (findOrCreate t x req mode artifact s) := by
  have hw : ∀ reg s, s.afault = .none → ArmsOnDenial WalkFailure.err (walkForStage1 reg x req mode artifact s) := by
    intro reg s1 h1
    unfold walkForStage1
    split
    · exact walkStage1_arms _ reg x req mode artifact s1 h1
    · trivial
  cases t with
  | hs => exact findOrCreateWith_arms (hw .satp) s h
  | vs1 => exact findOrCreateWith_arms (hw .vsatp) s h
  | vs2 => exact lookupStage2_arms x req mode artifact s h

/-- The lookups of a chunk leave `AFault` clear, or fail with it armed behind a bus error (42_translate.md R226, 60_exceptions.md
R331). -/
theorem lookupChunk_arms (t1 : TlbId) (lo : U64) (req : Priv) (mode : Mode5) (artifact : Bool) (s : State)
    (h : s.afault = .none) : ArmsOnDenial ChunkFailure.err (lookupChunk t1 lo req mode artifact s) := by
  unfold lookupChunk
  have h1 := findOrCreate_arms t1 lo req mode artifact s h
  revert h1
  generalize findOrCreate t1 lo req mode artifact s = r
  intro h1
  cases r with
  | stuck f => trivial
  | err f s1 =>
    show s1.afault = .pmp → isBusError (firstFailure t1 lo f).err = true
    have : (firstFailure t1 lo f).err = f.err := by
      unfold firstFailure
      split <;> rfl
    rw [this]
    exact h1
  | ok e1 s1 =>
    dsimp only
    split
    · unfold lookupNested
      have h2 := findOrCreate_arms .vs2 (guestPhysical lo e1) req mode artifact (s1.beginStage2 lo) h1
      revert h2
      dsimp only
      generalize findOrCreate .vs2 (guestPhysical lo e1) req mode artifact (s1.beginStage2 lo) = r
      intro h2
      cases r with
      | ok e2 s2 => exact h2
      | err f s2 => exact h2
      | stuck f => trivial
    · exact h1

end Sys2Proof.Machine
end

