-- ==== Sys2Proof/Laws/Encoding.lean ====
section
/-! SUPPORT. Fields of packets: what reading a written field gives, and the codes of 30_encoding.md R120 read back. -/

namespace Sys2Proof

/-- Reading a little-endian field that stands before other bytes. -/
theorem takeLE_leBytes (n v : Nat) (rest : List Byte) : takeLE n (leBytes n v ++ rest) = some (v % 256 ^ n, rest) := by
  induction n generalizing v with
  | zero => simp [takeLE, leBytes, Nat.mod_one]
  | succ n ih =>
    simp only [leBytes, List.cons_append, takeLE, ih, Option.some.injEq, Prod.mk.injEq, and_true]
    rw [BitVec.toNat_ofNat, show 256 ^ (n + 1) = 256 * 256 ^ n from Nat.pow_succ', Nat.mod_mul]

/-- Going on after a little-endian field. -/
theorem withField_leBytes {α : Type} (n v : Nat) (rest : List Byte) (k : Nat → List Byte → Except DecodeError α) :
    withField n (leBytes n v ++ rest) k = k (v % 256 ^ n) rest := by
  simp [withField, takeLE_leBytes]

/-- Going on after a little-endian field that ends the packet. -/
theorem withField_leBytes_end {α : Type} (n v : Nat) (k : Nat → List Byte → Except DecodeError α) :
    withField n (leBytes n v) k = k (v % 256 ^ n) [] := by
  simpa using withField_leBytes n v [] k

/-- Going on after a one-byte field. -/
theorem withField_one {α : Type} (b : Byte) (rest : List Byte) (k : Nat → List Byte → Except DecodeError α) :
    withField 1 (b :: rest) k = k b.toNat rest := by
  simp [withField, takeLE]

/-- Going on after a one-byte coded field. -/
theorem withCode_one {α β : Type} (b : Byte) (rest : List Byte) (f : Nat → Option β) (e : DecodeError)
    (k : β → List Byte → Except DecodeError α) :
    withCode 1 f e (b :: rest) k = (match f b.toNat with
      | some x => k x rest
      | none => .error e) :=
  withField_one b rest _

/-- Reading a field ignores what follows it. -/
theorem takeLE_append (n : Nat) (bs tail rest : List Byte) (v : Nat) (h : takeLE n bs = some (v, rest)) :
    takeLE n (bs ++ tail) = some (v, rest ++ tail) := by
  induction n generalizing bs v with
  | zero => simp_all [takeLE]
  | succ n ih =>
    cases bs with
    | nil => simp [takeLE] at h
    | cons b bs =>
      simp only [takeLE, List.cons_append] at h ⊢
      cases ht : takeLE n bs with
      | none => rw [ht] at h; cases h
      | some p =>
        rw [ht] at h
        rw [ih bs p.1 (by rw [ht]; simp at h; simp [← h.2])]
        simp at h ⊢
        exact h.1

/-- Mode codes read back. -/
@[simp] theorem Mode5.ofCode_code (m : Mode5) : Mode5.ofCode (BitVec.ofNat 8 m.code).toNat = some m := by
  cases m <;> decide

/-- Class codes read back. -/
@[simp] theorem DomainClass.ofCode_code (c : DomainClass) : DomainClass.ofCode (BitVec.ofNat 8 c.code).toNat = some c := by
  cases c <;> decide

/-- TLB codes read back. -/
@[simp] theorem TlbId.ofCode_code (t : TlbId) : TlbId.ofCode (BitVec.ofNat 8 t.code).toNat = some t := by
  cases t <;> decide

/-- PTE format codes read back. -/
@[simp] theorem PteFormat.ofCode_code (f : PteFormat) : PteFormat.ofCode (BitVec.ofNat 8 f.code).toNat = some f := by
  cases f <;> decide

/-- Flag bytes read back. -/
@[simp] theorem flagOfCode_byte (b : Bool) : flagOfCode (flagByte b).toNat = some b := by
  cases b <;> decide

/-- Privilege codes read back. -/
@[simp] theorem privOfCode_byte (p : Priv) : privOfCode (BitVec.ofNat 8 p.toNat).toNat = some p := by
  revert p
  decide

end Sys2Proof
end

