-- ==== Sys2Proof/Laws/Exec.lean ====
section
/-! SUPPORT. What a command can do, by kind of command: the inversion of `exec`. -/

namespace Sys2Proof.Machine

/-- The command touched no TLB, alias, memory or flag: at most the bank, the permission cache, the key, the data mode, the
count of draws and the answer. -/
structure PlainStep (s t : State) : Prop where
  params : t.params = s.params
  tlbs : t.tlbs = s.tlbs
  aliases : t.aliases = s.aliases
  ptwActive : t.ptwActive = s.ptwActive
  s2Active : t.s2Active = s.s2Active
  s1VA : t.s1VA = s.s1VA
  afault : t.afault = s.afault
  env : t.env = s.env
  mem : t.mem = s.mem
  input : t.input = s.input
  traffic : t.traffic = s.traffic
  nextHandle : t.nextHandle = s.nextHandle

theorem PlainStep.respond (s : State) (r : Response) : PlainStep s (s.respond r) :=
  ⟨rfl, rfl, rfl, rfl, rfl, rfl, rfl, rfl, rfl, rfl, rfl, rfl⟩

theorem PlainStep.answerRegion (s : State) (i : Nat) (r : Region) (p : Priv) (l : Bool) :
    PlainStep s (s.answerRegion i r p l) := by
  unfold State.answerRegion
  split <;> exact PlainStep.respond _ _

theorem execPmpcfgWrite_plain {s t : State} {w : Nat} {v : U64} (h : execPmpcfgWrite w v s = .next t) : PlainStep s t := by
  unfold execPmpcfgWrite at h
  split at h
  · cases h
    obtain ⟨c, p, he⟩ := s.writeCfgWord_eq w v (cfgWordBytes s.params.xlen)
    rw [he]
    exact ⟨rfl, rfl, rfl, rfl, rfl, rfl, rfl, rfl, rfl, rfl, rfl, rfl⟩
  · cases h
    exact PlainStep.respond _ _

theorem execPmpaddrWrite_plain {s t : State} {i : Nat} {v : U64} (h : execPmpaddrWrite i v s = .next t) :
    PlainStep s t := by
  cases h
  obtain ⟨a, p, he, -⟩ := s.writeAddr_eq i v
  rw [he]
  exact ⟨rfl, rfl, rfl, rfl, rfl, rfl, rfl, rfl, rfl, rfl, rfl, rfl⟩

theorem execRefreshMprv_plain {s t : State} (h : execRefreshMprv s = .next t) :
    PlainStep s t ∧ t = { s with dataMode := t.dataMode, response := .noReply } := by
  unfold execRefreshMprv at h
  split at h
  · split at h
    · cases h
      exact ⟨⟨rfl, rfl, rfl, rfl, rfl, rfl, rfl, rfl, rfl, rfl, rfl, rfl⟩, rfl⟩
    · cases h
  · cases h
    exact ⟨⟨rfl, rfl, rfl, rfl, rfl, rfl, rfl, rfl, rfl, rfl, rfl, rfl⟩, rfl⟩

/-- What a command that answers can be: a `MISS`, a walker, `VM_INIT`, `VM_FREE`, `VM_RESTORE`, an invalidation, or one that
touches no TLB, alias, memory or flag. -/
theorem exec_cases {i : Instr} {s t : State} (h : exec i s = .next t) :
    (∃ cls mode req va bytes artifact, i = .miss cls mode req va bytes artifact
        ∧ execMiss cls mode req va bytes artifact s = .next t)
      ∨ (isWalker i ∧ ∃ artifact, (∃ sv reg va req mode, runStage1 sv reg va req mode artifact s = .next t)
          ∨ ∃ sv gpa req mode, runStage2 sv gpa req mode artifact s = .next t)
      ∨ (i = .vmInit ∧ t = s.initVm.respond .noReply)
      ∨ (i = .vmFree ∧ t = (((s.freeTlb .hs).freeTlb .vs1).freeTlb .vs2).respond .noReply)
      ∨ (∃ stream r, i = .vmRestore stream ∧ t = (s.restore stream).2.respond r)
      ∨ (isInval i ∧ ∃ lo hi im, t = (s.tlbInvalidate s.invalTarget lo hi im).respond .noReply)
      ∨ PlainStep s t := by
  have w1 : ∀ sv reg va req mode art, i = stage1Instr sv reg va req mode art →
      runStage1 sv reg va req mode art s = .next t →
      isWalker i ∧ ∃ artifact, (∃ sv reg va req mode, runStage1 sv reg va req mode artifact s = .next t)
          ∨ ∃ sv gpa req mode, runStage2 sv gpa req mode artifact s = .next t :=
    fun sv reg va req mode art hi hr => ⟨.inl ⟨sv, reg, va, req, mode, art, hi⟩, art, .inl ⟨sv, reg, va, req, mode, hr⟩⟩
  have w2 : ∀ sv gpa req mode art, i = stage2Instr sv gpa req mode art →
      runStage2 sv gpa req mode art s = .next t →
      isWalker i ∧ ∃ artifact, (∃ sv reg va req mode, runStage1 sv reg va req mode artifact s = .next t)
          ∨ ∃ sv gpa req mode, runStage2 sv gpa req mode artifact s = .next t :=
    fun sv gpa req mode art hi hr => ⟨.inr ⟨sv, gpa, req, mode, art, hi⟩, art, .inr ⟨sv, gpa, req, mode, hr⟩⟩
  cases i with
  | vmInit => cases h; exact .inr (.inr (.inl ⟨rfl, rfl⟩))
  | vmFree => cases h; exact .inr (.inr (.inr (.inl ⟨rfl, rfl⟩)))
  | miss cls mode req va bytes artifact => exact .inl ⟨_, _, _, _, _, _, rfl, h⟩
  | invalAll => cases h; exact .inr (.inr (.inr (.inr (.inr (.inl ⟨.inl rfl, _, _, _, rfl⟩)))))
  | invalAllAsid a => cases h; exact .inr (.inr (.inr (.inr (.inr (.inl ⟨.inr (.inl ⟨a, rfl⟩), _, _, _, rfl⟩)))))
  | invalVa va => cases h; exact .inr (.inr (.inr (.inr (.inr (.inl ⟨.inr (.inr (.inl ⟨va, rfl⟩)), _, _, _, rfl⟩)))))
  | invalVaAsid va a =>
    cases h; exact .inr (.inr (.inr (.inr (.inr (.inl ⟨.inr (.inr (.inr ⟨va, a, rfl⟩)), _, _, _, rfl⟩)))))
  | setAsid => cases h; exact .inr (.inr (.inr (.inr (.inr (.inr ⟨rfl, rfl, rfl, rfl, rfl, rfl, rfl, rfl, rfl, rfl, rfl, rfl⟩)))))
  | refreshMprv => exact .inr (.inr (.inr (.inr (.inr (.inr (execRefreshMprv_plain h).1)))))
  | pmpcfgRead w =>
    have h : execPmpcfgRead w s = .next t := h
    unfold execPmpcfgRead at h
    split at h <;> cases h <;> exact .inr (.inr (.inr (.inr (.inr (.inr (PlainStep.respond _ _))))))
  | pmpcfgWrite w v => exact .inr (.inr (.inr (.inr (.inr (.inr (execPmpcfgWrite_plain h))))))
  | pmpaddrRead j => cases h; exact .inr (.inr (.inr (.inr (.inr (.inr (PlainStep.respond _ _))))))
  | pmpaddrWrite j v => exact .inr (.inr (.inr (.inr (.inr (.inr (execPmpaddrWrite_plain h))))))
  | pmpReset => cases h; exact .inr (.inr (.inr (.inr (.inr (.inr ⟨rfl, rfl, rfl, rfl, rfl, rfl, rfl, rfl, rfl, rfl, rfl, rfl⟩)))))
  | pmpNew => cases h; exact .inr (.inr (.inr (.inr (.inr (.inr ⟨rfl, rfl, rfl, rfl, rfl, rfl, rfl, rfl, rfl, rfl, rfl, rfl⟩)))))
  | pmpFree => cases h; exact .inr (.inr (.inr (.inr (.inr (.inr ⟨rfl, rfl, rfl, rfl, rfl, rfl, rfl, rfl, rfl, rfl, rfl, rfl⟩)))))
  | vmSave => cases h; exact .inr (.inr (.inr (.inr (.inr (.inr ⟨rfl, rfl, rfl, rfl, rfl, rfl, rfl, rfl, rfl, rfl, rfl, rfl⟩)))))
  | vmRestore stream => cases h; exact .inr (.inr (.inr (.inr (.inl ⟨stream, _, rfl, rfl⟩))))
  | dumpTlb => cases h; exact .inr (.inr (.inr (.inr (.inr (.inr ⟨rfl, rfl, rfl, rfl, rfl, rfl, rfl, rfl, rfl, rfl, rfl, rfl⟩)))))
  | dumpVs1Tlb => cases h; exact .inr (.inr (.inr (.inr (.inr (.inr ⟨rfl, rfl, rfl, rfl, rfl, rfl, rfl, rfl, rfl, rfl, rfl, rfl⟩)))))
  | dumpVs2Tlb => cases h; exact .inr (.inr (.inr (.inr (.inr (.inr ⟨rfl, rfl, rfl, rfl, rfl, rfl, rfl, rfl, rfl, rfl, rfl, rfl⟩)))))
  | walkSv32 reg va req mode art => exact .inr (.inl (w1 .sv32 reg va req mode art rfl h))
  | walkSv39 reg va req mode art => exact .inr (.inl (w1 .sv39 reg va req mode art rfl h))
  | walkSv48 reg va req mode art => exact .inr (.inl (w1 .sv48 reg va req mode art rfl h))
  | walkSv32x4 gpa req mode art => exact .inr (.inl (w2 .sv32 gpa req mode art rfl h))
  | walkSv39x4 gpa req mode art => exact .inr (.inl (w2 .sv39 gpa req mode art rfl h))
  | walkSv48x4 gpa req mode art => exact .inr (.inl (w2 .sv48 gpa req mode art rfl h))
  | pmpOff l x w r j => cases h; exact .inr (.inr (.inr (.inr (.inr (.inr (PlainStep.answerRegion _ _ _ _ _))))))
  | pmpTor l x w r j => cases h; exact .inr (.inr (.inr (.inr (.inr (.inr (PlainStep.answerRegion _ _ _ _ _))))))
  | pmpNa4 l x w r j =>
    have h : execPmpNa4 l x w r j s = .next t := h
    unfold execPmpNa4 at h
    split at h
    · cases h; exact .inr (.inr (.inr (.inr (.inr (.inr (PlainStep.answerRegion _ _ _ _ _))))))
    · cases h; exact .inr (.inr (.inr (.inr (.inr (.inr (PlainStep.respond _ _))))))
  | pmpNapot l x w r j => cases h; exact .inr (.inr (.inr (.inr (.inr (.inr (PlainStep.answerRegion _ _ _ _ _))))))
  | pteInvalid x w r u f => cases h; exact .inr (.inr (.inr (.inr (.inr (.inr (PlainStep.respond _ _))))))
  | pteReserved x u f => cases h; exact .inr (.inr (.inr (.inr (.inr (.inr (PlainStep.respond _ _))))))
  | ptePointer u f => cases h; exact .inr (.inr (.inr (.inr (.inr (.inr (PlainStep.respond _ _))))))
  | pteLeaf x w r u f => cases h; exact .inr (.inr (.inr (.inr (.inr (.inr (PlainStep.respond _ _))))))

/-! ### Frames of the commands that empty TLBs -/

theorem State.freeTlb_eq (s : State) (t : TlbId) : ∃ a u, s.freeTlb t = (s.setAliases a).setTlbs u :=
  State.foldl_tlbDelete_eq _ _

theorem State.tlbInvalidate_eq (s : State) (t : TlbId) (lo hi : U64) (im : InvalMode) :
    ∃ a u, s.tlbInvalidate t lo hi im = (s.setAliases a).setTlbs u :=
  State.foldl_tlbDelete_eq _ _

/-- `VM_FREE` changes the TLBs and the alias store only. -/
theorem State.vmFree_eq (s : State) :
    ∃ a u, ((s.freeTlb .hs).freeTlb .vs1).freeTlb .vs2 = (s.setAliases a).setTlbs u := by
  obtain ⟨a, u, h1⟩ := s.freeTlb_eq .hs
  obtain ⟨b, v, h2⟩ := ((s.setAliases a).setTlbs u).freeTlb_eq .vs1
  obtain ⟨c, w, h3⟩ := ((((s.setAliases a).setTlbs u).setAliases b).setTlbs v).freeTlb_eq .vs2
  exact ⟨c, w, by rw [h1, h2, h3]; rfl⟩

theorem State.clearTlbs_eq (s : State) : ∃ a u, s.clearTlbs = (s.setAliases a).setTlbs u := by
  obtain ⟨a, u, h1⟩ := s.tlbInvalidate_eq .hs 0 (BitVec.allOnes 64) .any
  obtain ⟨b, v, h2⟩ := ((s.setAliases a).setTlbs u).tlbInvalidate_eq .vs1 0 (BitVec.allOnes 64) .any
  obtain ⟨c, w, h3⟩ := ((((s.setAliases a).setTlbs u).setAliases b).setTlbs v).tlbInvalidate_eq .vs2 0
    (BitVec.allOnes 64) .any
  refine ⟨c, w, ?_⟩
  unfold State.clearTlbs State.clearTlb
  rw [h1, h2, h3]
  rfl

/-- Reinserting records changes the TLBs and gives out handles; the restored entries are not mapped. -/
theorem restoreLoop_eq (n : Nat) (bs : List Byte) (s : State) :
    ∃ u k, (restoreLoop n bs s).2 = { s with tlbs := u, nextHandle := k } := by
  induction n generalizing bs s with
  | zero => exact ⟨s.tlbs, s.nextHandle, rfl⟩
  | succ n ih =>
    unfold restoreLoop
    split
    · exact ⟨s.tlbs, s.nextHandle, rfl⟩
    · exact ⟨s.tlbs, s.nextHandle, rfl⟩
    · rename_i e rest _
      obtain ⟨u, k, h⟩ := ih rest (s.tlbInsert e).2
      exact ⟨u, k, by rw [h]; rfl⟩

/-- `VM_RESTORE` changes the TLBs and the alias store and gives out handles. -/
theorem State.restore_eq (s : State) (stream : List Byte) :
    ∃ a u k, (s.restore stream).2 = { s with tlbs := u, aliases := a, nextHandle := k } := by
  obtain ⟨a, u, h1⟩ := s.clearTlbs_eq
  obtain ⟨v, k, h2⟩ := restoreLoop_eq (stream.length + 1) stream ((s.setAliases a).setTlbs u)
  exact ⟨a, v, k, by unfold State.restore; rw [h1, h2]; rfl⟩

end Sys2Proof.Machine
end

