-- ==== Sys2Proof/Laws/PerInstr.lean ====
section
/-! SUPPORT. Statements made for every instruction, one lemma per constructor: the bytes after an instruction's operands do
not matter to the decoder (log 1), which is what lets the host pad a table word with zeros. -/

namespace Sys2Proof.Laws

/-- A packet with more bytes after it. -/
def extend (p : Packet) (tail : List Byte) : Packet :=
  { p with bytes := p.bytes ++ tail }

/-- The statement: an encoded instruction decodes alike whatever follows it. -/
def Trailing.Statement (i : Instr) : Prop :=
  ∀ tail, decode (extend (encode i) tail) = decode (encode i)

/-- One of the stock shapes: a command without operands. -/
theorem Trailing.bare (code : Byte) (k : Except DecodeError Instr) (h : ∀ bs, decodeCommand code.toNat bs = k)
    (tail : List Byte) : decode (extend (commandPacket code []) tail) = decode (commandPacket code []) := by
  simp [decode, extend, commandPacket, withField_one, h]

/-- A walker's packet. -/
theorem Trailing.walker (sv : SvMode) (t : TlbId) (a : U64) (req : Priv) (m : Mode5) (art : Bool) (tail : List Byte) :
    decode (extend (walkerPacket sv (walkerOperands t a req m art)) tail)
      = decode (walkerPacket sv (walkerOperands t a req m art)) := by
  cases sv <;> cases t <;>
    simp [decode, extend, walkerPacket, walkerOperands, withField_one, decodeMode1, decodeMode4, decodeWalker,
      withCode_one, List.append_assoc, withField_leBytes]

/-- A PMP config packet. -/
theorem Trailing.pmpcfg (b : Byte) (i : Nat) (tail : List Byte) :
    decode (extend (pmpcfgPacket b i) tail) = decode (pmpcfgPacket b i) := by
  simp [decode, extend, pmpcfgPacket, withField_one, decodePmpcfg]

/-- A PTE packet. -/
theorem Trailing.pte (v : U64) (fmt : PteFormat) (tail : List Byte) :
    decode (extend (ptePacket v fmt) tail) = decode (ptePacket v fmt) := by
  simp [decode, extend, ptePacket, List.append_assoc, withField_leBytes, withCode_one]

theorem Trailing.vmInit : Trailing.Statement .vmInit :=
  fun tail => Trailing.bare _ _ (fun _ => rfl) tail

theorem Trailing.vmFree : Trailing.Statement .vmFree :=
  fun tail => Trailing.bare _ _ (fun _ => rfl) tail

theorem Trailing.miss (cls : DomainClass) (mode : Mode5) (req : Priv) (va : U64) (bytes : Nat) (artifact : Bool) :
    Trailing.Statement (.miss cls mode req va bytes artifact) := by
  intro tail
  simp [decode, extend, encode, commandPacket, withField_one, decodeCommand, decodeMiss, withCode_one, List.append_assoc,
    withField_leBytes, withField_leBytes_end]

theorem Trailing.invalAll : Trailing.Statement .invalAll :=
  fun tail => Trailing.bare _ _ (fun _ => rfl) tail

theorem Trailing.invalAllAsid (asid : U64) : Trailing.Statement (.invalAllAsid asid) := by
  intro tail
  simp [decode, extend, encode, commandPacket, withField_one, decodeCommand, withField_leBytes, withField_leBytes_end]

theorem Trailing.invalVa (va : U64) : Trailing.Statement (.invalVa va) := by
  intro tail
  simp [decode, extend, encode, commandPacket, withField_one, decodeCommand, withField_leBytes, withField_leBytes_end]

theorem Trailing.invalVaAsid (va asid : U64) : Trailing.Statement (.invalVaAsid va asid) := by
  intro tail
  simp [decode, extend, encode, commandPacket, withField_one, decodeCommand, List.append_assoc, withField_leBytes, withField_leBytes_end]

theorem Trailing.setAsid : Trailing.Statement .setAsid :=
  fun tail => Trailing.bare _ _ (fun _ => rfl) tail

theorem Trailing.refreshMprv : Trailing.Statement .refreshMprv :=
  fun tail => Trailing.bare _ _ (fun _ => rfl) tail

theorem Trailing.pmpcfgRead (w : Nat) : Trailing.Statement (.pmpcfgRead w) := by
  intro tail
  simp [decode, extend, encode, commandPacket, withField_one, decodeCommand]

theorem Trailing.pmpcfgWrite (w : Nat) (value : U64) : Trailing.Statement (.pmpcfgWrite w value) := by
  intro tail
  simp [decode, extend, encode, commandPacket, withField_one, decodeCommand, withField_leBytes, withField_leBytes_end]

theorem Trailing.pmpaddrRead (i : Nat) : Trailing.Statement (.pmpaddrRead i) := by
  intro tail
  simp [decode, extend, encode, commandPacket, withField_one, decodeCommand]

theorem Trailing.pmpaddrWrite (i : Nat) (value : U64) : Trailing.Statement (.pmpaddrWrite i value) := by
  intro tail
  simp [decode, extend, encode, commandPacket, withField_one, decodeCommand, withField_leBytes, withField_leBytes_end]

theorem Trailing.pmpReset : Trailing.Statement .pmpReset :=
  fun tail => Trailing.bare _ _ (fun _ => rfl) tail

theorem Trailing.pmpNew : Trailing.Statement .pmpNew :=
  fun tail => Trailing.bare _ _ (fun _ => rfl) tail

theorem Trailing.pmpFree : Trailing.Statement .pmpFree :=
  fun tail => Trailing.bare _ _ (fun _ => rfl) tail

theorem Trailing.vmSave : Trailing.Statement .vmSave :=
  fun tail => Trailing.bare _ _ (fun _ => rfl) tail

theorem Trailing.vmRestore (stream : List Byte) : Trailing.Statement (.vmRestore stream) := by
  intro tail
  have h : stream.length % 256 ^ 4 ≤ stream.length := Nat.mod_le _ _
  have h' : ¬(stream ++ tail).length < stream.length % 256 ^ 4 := by rw [List.length_append]; omega
  simp only [decode, extend, encode, commandPacket, List.cons_append, List.append_assoc, withField_one]
  simp only [show ((0x12 : Byte).toNat) = 0x12 from rfl, decodeCommand, decodeRestore, withField_leBytes, if_neg h',
    if_neg (Nat.not_lt.2 h), List.take_append_of_le_length h]

theorem Trailing.dumpTlb : Trailing.Statement .dumpTlb :=
  fun tail => Trailing.bare _ _ (fun _ => rfl) tail

theorem Trailing.dumpVs1Tlb : Trailing.Statement .dumpVs1Tlb :=
  fun tail => Trailing.bare _ _ (fun _ => rfl) tail

theorem Trailing.dumpVs2Tlb : Trailing.Statement .dumpVs2Tlb :=
  fun tail => Trailing.bare _ _ (fun _ => rfl) tail

theorem Trailing.walkSv32 (reg : Stage1Reg) (va : U64) (req : Priv) (mode : Mode5) (artifact : Bool) :
    Trailing.Statement (.walkSv32 reg va req mode artifact) :=
  fun tail => Trailing.walker _ _ _ _ _ _ tail

theorem Trailing.walkSv39 (reg : Stage1Reg) (va : U64) (req : Priv) (mode : Mode5) (artifact : Bool) :
    Trailing.Statement (.walkSv39 reg va req mode artifact) :=
  fun tail => Trailing.walker _ _ _ _ _ _ tail

theorem Trailing.walkSv48 (reg : Stage1Reg) (va : U64) (req : Priv) (mode : Mode5) (artifact : Bool) :
    Trailing.Statement (.walkSv48 reg va req mode artifact) :=
  fun tail => Trailing.walker _ _ _ _ _ _ tail

theorem Trailing.walkSv32x4 (gpa : U64) (req : Priv) (mode : Mode5) (artifact : Bool) :
    Trailing.Statement (.walkSv32x4 gpa req mode artifact) :=
  fun tail => Trailing.walker _ _ _ _ _ _ tail

theorem Trailing.walkSv39x4 (gpa : U64) (req : Priv) (mode : Mode5) (artifact : Bool) :
    Trailing.Statement (.walkSv39x4 gpa req mode artifact) :=
  fun tail => Trailing.walker _ _ _ _ _ _ tail

theorem Trailing.walkSv48x4 (gpa : U64) (req : Priv) (mode : Mode5) (artifact : Bool) :
    Trailing.Statement (.walkSv48x4 gpa req mode artifact) :=
  fun tail => Trailing.walker _ _ _ _ _ _ tail

theorem Trailing.pmpOff (l x w r : Bool) (i : Nat) : Trailing.Statement (.pmpOff l x w r i) :=
  fun tail => Trailing.pmpcfg _ _ tail

theorem Trailing.pmpTor (l x w r : Bool) (i : Nat) : Trailing.Statement (.pmpTor l x w r i) :=
  fun tail => Trailing.pmpcfg _ _ tail

theorem Trailing.pmpNa4 (l x w r : Bool) (i : Nat) : Trailing.Statement (.pmpNa4 l x w r i) :=
  fun tail => Trailing.pmpcfg _ _ tail

theorem Trailing.pmpNapot (l x w r : Bool) (i : Nat) : Trailing.Statement (.pmpNapot l x w r i) :=
  fun tail => Trailing.pmpcfg _ _ tail

theorem Trailing.pteInvalid (x w r : Bool) (upper : BitVec 60) (fmt : PteFormat) :
    Trailing.Statement (.pteInvalid x w r upper fmt) :=
  fun tail => Trailing.pte _ _ tail

theorem Trailing.pteReserved (x : Bool) (upper : BitVec 60) (fmt : PteFormat) :
    Trailing.Statement (.pteReserved x upper fmt) :=
  fun tail => Trailing.pte _ _ tail

theorem Trailing.ptePointer (upper : BitVec 60) (fmt : PteFormat) : Trailing.Statement (.ptePointer upper fmt) :=
  fun tail => Trailing.pte _ _ tail

theorem Trailing.pteLeaf (x w r : Bool) (upper : BitVec 60) (fmt : PteFormat) :
    Trailing.Statement (.pteLeaf x w r upper fmt) :=
  fun tail => Trailing.pte _ _ tail

end Sys2Proof.Laws
end

