-- ==== Sys2Proof/Laws/Stream.lean ====
section
/-! SUPPORT. The save stream (30_encoding.md R122): a record reads back as the entry it was written from, and what reinserting
a stream does. -/

namespace Sys2Proof.Machine

/-- A field of eight bytes reads back whole. -/
theorem u64_back (v : U64) : BitVec.ofNat 64 (v.toNat % 256 ^ 8) = v := by
  have := v.isLt
  rw [Nat.mod_eq_of_lt (by omega), BitVec.ofNat_toNat, BitVec.setWidth_eq]

theorem takeLE_byte (b : Byte) (rest : List Byte) : takeLE 1 (b :: rest) = some (b.toNat, rest) := by
  simp [takeLE]

/-- The flags byte reads back. -/
theorem entryFlags_bits (e : Entry) :
    (entryFlags e).toNat.testBit 0 = e.u ∧ (entryFlags e).toNat.testBit 1 = e.g ∧ (entryFlags e).toNat.testBit 2 = e.a
      ∧ (entryFlags e).toNat.testBit 3 = e.d ∧ (entryFlags e).toNat.testBit 4 = e.artifact := by
  unfold entryFlags
  cases e.u <;> cases e.g <;> cases e.a <;> cases e.d <;> cases e.artifact <;> decide

theorem privByte_back (p : Priv) : BitVec.ofNat 3 (p.setWidth 8 : Byte).toNat = p := by
  revert p
  decide

/-- A payload reads back as its entry, unlinked and not mapped, and leaves what follows. -/
theorem parseEntry_payload (e : Entry) (rest : List Byte) :
    parseEntry (entryPayload e ++ rest) = some (e.unlinked, rest) := by
  obtain ⟨f0, f1, f2, f3, f4⟩ := entryFlags_bits e
  unfold parseEntry entryPayload
  simp only [List.append_assoc, List.cons_append, Option.bind_eq_bind, Option.bind_some, takeLE_byte,
    takeLE_leBytes, TlbId.ofCode_code, f0, f1, f2, f3, f4, privByte_back, u64_back]
  rfl

/-- A record reads back as its entry. -/
theorem parseRecord_entry (e : Entry) (rest : List Byte) :
    parseRecord (entryRecord e ++ rest) = some (.entry e.unlinked rest) := by
  unfold parseRecord entryRecord
  have h1 : (saveTag ++ (leBytes 4 44 ++ entryPayload e) ++ rest).take 9 = saveTag := rfl
  have h2 : (saveTag ++ (leBytes 4 44 ++ entryPayload e) ++ rest).drop 9 = leBytes 4 44 ++ (entryPayload e ++ rest) := rfl
  rw [if_pos h1, h2, takeLE_leBytes]
  show (parseEntry (entryPayload e ++ rest)).map _ = _
  rw [parseEntry_payload]
  rfl

/-- The terminator reads back. -/
theorem parseRecord_terminator (rest : List Byte) : parseRecord (terminator ++ rest) = some .terminator := rfl

/-- Reinserting entries one after another. -/
def State.insertAll (s : State) (es : List Entry) : State :=
  es.foldl (fun st e => (st.tlbInsert e).2) s

/-- Reading a stream of records reinserts them, then goes on with what follows. -/
theorem restoreLoop_records (es : List Entry) (n : Nat) (rest : List Byte) (s : State) :
    restoreLoop (n + es.length) (es.flatMap entryRecord ++ rest) s
      = restoreLoop n rest (s.insertAll (es.map Entry.unlinked)) := by
  induction es generalizing s with
  | nil => rfl
  | cons e es ih =>
    rw [List.flatMap_cons, List.append_assoc, List.length_cons, ← Nat.add_assoc]
    conv => lhs; unfold restoreLoop
    rw [parseRecord_entry]
    exact ih _

/-- What reinserting entries that are not mapped leaves in the TLBs: each after the entries already there, in its order. -/
theorem State.insertAll_tlb (es : List Entry) (s : State) (t : TlbId) :
    ∃ l, (s.insertAll es).tlb t = s.tlb t ++ l
      ∧ l.map Entry.unlinked = (es.filter fun e => decide (e.tlb = t)).map Entry.unlinked
      ∧ ((∀ e ∈ es, e.mapped = 0) → ∀ e ∈ l, e.mapped = 0) := by
  induction es generalizing s with
  | nil => exact ⟨[], by simp [State.insertAll], rfl, fun _ e he => by cases he⟩
  | cons e es ih =>
    obtain ⟨l, h1, h2, h3⟩ := ih (s.tlbInsert e).2
    refine ⟨(if t = e.tlb then [{ e with lutEntry := some s.nextHandle }] else []) ++ l, ?_, ?_, ?_⟩
    · rw [← List.append_assoc, ← State.tlbInsert_tlb]
      exact h1
    · rw [List.map_append, h2]
      by_cases ht : t = e.tlb
      · rw [if_pos ht, List.filter_cons, if_pos (by simp [ht])]
        rfl
      · rw [if_neg ht, List.filter_cons, if_neg (by simp; exact fun h => ht h.symm)]
        rfl
    · intro hm f hf
      rcases List.mem_append.1 hf with hf | hf
      · split at hf
        · rw [List.mem_singleton.1 hf]
          exact hm e (by simp)
        · cases hf
      · exact h3 (fun g hg => hm g (by simp [hg])) f hf

/-- Reinserting changes the TLBs and gives out handles. -/
theorem State.insertAll_eq (es : List Entry) (s : State) :
    ∃ u k, s.insertAll es = { s with tlbs := u, nextHandle := k } := by
  induction es generalizing s with
  | nil => exact ⟨s.tlbs, s.nextHandle, rfl⟩
  | cons e es ih =>
    obtain ⟨u, k, h⟩ := ih (s.tlbInsert e).2
    exact ⟨u, k, h.trans rfl⟩

/-- In a linked store, clearing the TLBs leaves no entry and, with the aliases linked, no alias. -/
theorem State.clearTlbs_empty {s : State} (h : s.LinkInv) :
    (∀ t, s.clearTlbs.tlb t = []) ∧ ∀ mode, s.clearTlbs.aliasesOf mode = [] := by
  have clear : ∀ (u : State) (t : TlbId), u.LinkInv → (u.clearTlb t).LinkInv ∧ (u.clearTlb t).tlb t = []
      ∧ ∀ v, v ≠ t → (u.clearTlb t).tlb v = u.tlb v := by
    intro u t hu
    have hall : ((u.tlb t).filter fun e => decide (e.lowVA ≤ BitVec.allOnes 64) && decide (0 ≤ e.highVA)
        && u.invalPred .any e) = u.tlb t := by
      rw [List.filter_eq_self]
      intro e _
      have h1 : e.lowVA ≤ BitVec.allOnes 64 := by
        rw [BitVec.le_def, BitVec.toNat_allOnes]
        have := e.lowVA.isLt
        omega
      have h2 : (0 : U64) ≤ e.highVA := by
        rw [BitVec.le_def]
        exact Nat.zero_le _
      simp only [h1, h2, State.invalPred, decide_true, Bool.and_self]
    have heq : u.clearTlb t = (u.tlb t).foldl State.tlbDelete u := by
      unfold State.clearTlb State.tlbInvalidate
      rw [hall]
    have h3 := State.foldl_tlbDelete_linked hu.links t (fun _ => true)
    have h4 := fun v hv => State.foldl_tlbDelete_other hu.links t v hv (fun _ => true)
    have hft : (u.tlb t).filter (fun _ => true) = u.tlb t := List.filter_eq_self.2 (fun _ _ => rfl)
    rw [hft] at h3
    simp only [hft] at h4
    rw [heq]
    exact ⟨hu.deleteAll (fun _ he => he), by rw [h3]; simp, h4⟩
  obtain ⟨l1, e1, o1⟩ := clear s .hs h
  obtain ⟨l2, e2, o2⟩ := clear (s.clearTlb .hs) .vs1 l1
  obtain ⟨l3, e3, o3⟩ := clear ((s.clearTlb .hs).clearTlb .vs1) .vs2 l2
  have ht : ∀ t, s.clearTlbs.tlb t = [] := by
    intro t
    unfold State.clearTlbs
    cases t
    · rw [o3 .hs (by decide), o2 .hs (by decide), e1]
    · rw [o3 .vs1 (by decide), e2]
    · exact e3
  refine ⟨ht, fun mode => ?_⟩
  rw [List.eq_nil_iff_forall_not_mem]
  intro a ha
  obtain ⟨e, he, -⟩ := l3.aliases.2 mode a ha
  obtain ⟨t, het⟩ := (State.mem_entries _ e).1 he
  have := ht t
  unfold State.clearTlbs at this
  rw [this] at het
  cases het

end Sys2Proof.Machine
end

