-- ==== Sys2Proof/Tests/Slice0.lean ====
section
/-! SUPPORT. Tests: ill-formed terms refused, words written out from the spec's encodings decoded, single steps against the
vectors of 95_test_vectors.md (their ids in the comments), and for every statement with hypotheses a state and operands that
meet them. -/

namespace Sys2Proof.Tests

open Sys2Proof Sys2Proof.Machine

/-! ### Small states -/

/-- The next state of an outcome. -/
def nextOf (o : Host.Outcome State Fault Refusal) : Option State :=
  match o with
  | .next s => some s
  | .fault _ => none
  | .refused _ => none

/-- The answer of an instruction. -/
def answer (i : Instr) (s : State) : Option Response :=
  (nextOf (exec i s)).map fun t => t.response

/-- The instruction a packet decodes to. -/
def reads (p : Packet) : Option Instr :=
  match decode p with
  | .ok i => some i
  | .error _ => none

/-- Why a packet decodes to none. -/
def rejects (p : Packet) : Option DecodeError :=
  match decode p with
  | .ok _ => none
  | .error e => some e

/-- Eight little-endian bytes of memory. -/
def put8 (a v : Nat) (m : Memory) : Memory := m.write false a 8 v

/-- Four little-endian bytes of memory. -/
def put4 (a v : Nat) (m : Memory) : Memory := m.write false a 4 v

/-- A block at power-on with parameters, CSR inputs and memory. -/
def block (p : Params) (csr : Csrs) (m : Memory) : State :=
  State.powerOn p { Env.launch with csr := csr } m

/-- `satp` with Sv39, ASID 0 and root `0x80000000`. -/
def csrSv39 : Csrs := { Csrs.zero with satp := 0x8000000000080000 }

/-- The tables of scenario S1. -/
def memS1 : Memory := put8 0x80000008 0x20000001 (put8 0x80000000 0x20000401 (put8 0x80001000 0xDF []))

/-- Scenario S1. -/
def stS1 : State := block Params.default csrSv39 memS1

/-- The entry of scenario S1, as it is walked. -/
def eS1 : Entry :=
  { lowVA := 0x40000000, highVA := 0x40000FFF, pa := 0, tlb := .hs, priv := 7, u := true, g := false, a := true, d := true
    mapped := 0, artifact := false, simASID := 0, lutEntry := none }

/-- The mapping of scenario S1. -/
def mS1 : Mapping := { lowVA := 0x40000000, highVA := 0x40000FFF, lowPA := 0, priv := 7, mask := 0x000100000000FFFF }

/-- Scenario S1 with its entry already linked under handle 0. -/
def stHit : State := { stS1 with tlbs := { Tlbs.empty with hs := [{ eS1 with lutEntry := some 0 }] }, nextHandle := 1 }

/-- The tables of 42_translate.md R242. -/
def memR242 : Memory :=
  put8 0x80010000 0x20004401 (put8 0x80011008 0x1000CF (put8 0x80020000 0x20008401 (put8 0x80021010 0x20008801
    (put8 0x80022008 0x240004DF []))))

/-- The inputs of 42_translate.md R242. -/
def csrR242 : Csrs := { Csrs.zero with vsatp := 0x8000200000080010, hgatp := 0x8000100000080020 }

/-- 42_translate.md R242. -/
def stR242 : State := block Params.default csrR242 memR242

/-- Scenario S6. -/
def stS6 : State :=
  block Params.default { Csrs.zero with vsatp := 0x8000000000080010, hgatp := 0x8000000000090000 }
    (put8 0x80010000 0x20004401 (put8 0x80011000 0x20004801 (put8 0x80012028 0x4CF [])))

/-- The bank of scenario S4: `addr[0] = 0x40`, `addr[1] = 0x80`, `cfg[1]` TOR with R. -/
def stS4 : State :=
  { block { Params.default with pmpN := 2 } Csrs.zero [] with pmpcfg := [0, 0x09], pmpaddr := [0x40, 0x80] }

/-- The entry H1 saves. -/
def eH1 : Entry :=
  { lowVA := 0x40000000, highVA := 0x40000FFF, pa := 0, tlb := .hs, priv := 7, u := true, g := false, a := true, d := true
    mapped := 1, artifact := false, simASID := 5, lutEntry := some 0 }

/-- A block that holds H1's entry, mapped in mode U under one alias. -/
def stH1 : State :=
  { block Params.default Csrs.zero [] with
    tlbs := { Tlbs.empty with hs := [eH1] }
    aliases := { AliasStore.empty with
      u := [{ lowVA := 0x40000000, highVA := 0x40000FFF, lowPA := 0, priv := 7, mask := mAsidHs, key := 5, from1 := 0
              from2 := none }] }
    nextHandle := 1 }

/-- The stream of vector H1. -/
def bytesH1 : List Byte :=
  [0x54, 0x4C, 0x42, 0x5F, 0x45, 0x4E, 0x54, 0x52, 0x59, 0x2C, 0, 0, 0,
   0, 0, 0, 0x40, 0, 0, 0, 0, 0xFF, 0x0F, 0, 0x40, 0, 0, 0, 0,
   0, 0, 0, 0, 0, 0, 0, 0, 5, 0, 0, 0, 0, 0, 0, 0,
   0, 7, 0x0D, 0, 0, 0, 0, 0, 0, 0, 0, 0,
   0x54, 0x4C, 0x42, 0x5F, 0x45, 0x4E, 0x54, 0x52, 0x59, 0, 0, 0, 0]

/-- Line 10 of Program 4: the entry `E`, with its handle. -/
def eRekey : Entry :=
  { lowVA := 0x00C03000, highVA := 0x00C03FFF, pa := 0x12345000, tlb := .hs, priv := Priv.X, u := true, g := false, a := true
    d := true, mapped := 1, artifact := false, simASID := 1, lutEntry := some 0 }

/-- The alias of `E` under the key it was walked with. -/
def aRekey : Alias :=
  { lowVA := 0x00C03000, highVA := 0x00C03FFF, lowPA := 0x12345000, priv := Priv.X, mask := 0x000100000000FFFF
    key := 1, from1 := 0, from2 := none }

/-- Line 10 of Program 4: `E` is mapped in mode U, and `mstatus.MXR` has been set since. -/
def stRekey : State :=
  { block { Params.default with xlen := .x32 } { Csrs.zero with satp := 0x80400010, mstatus := 0x80000 } [] with
    tlbs := { Tlbs.empty with hs := [eRekey] }
    aliases := { AliasStore.empty with u := [aRekey] }
    nextHandle := 1 }

/-- Scenario S1 under a bank that grants loads of the page tables and nothing else (vector M19). -/
def stM19 : State :=
  { block { Params.default with pmpN := 1 } csrSv39 memS1 with pmpcfg := [0x19], pmpaddr := [0x21FFFFFF] }

/-- Scenario S1 under a bank at reset (vector W25; Program 1, line 8). -/
def stDenied : State := block { Params.default with pmpN := 16 } csrSv39 memS1

/-! ### Well-formedness refuses -/

theorem test_wf_req : (Instr.miss .virt .user 3 0 4 false).wf = false := by decide
theorem test_wf_bytes : (Instr.miss .virt .user Priv.R 0 0 false).wf = false := by decide
theorem test_wf_cfg_index : (Instr.pmpcfgRead 256).wf = false ∧ (Instr.pmpcfgWrite 256 0).wf = false := by decide
theorem test_wf_addr_index : (Instr.pmpaddrRead 256).wf = false ∧ (Instr.pmpaddrWrite 256 0).wf = false := by decide
theorem test_wf_stream : (Instr.vmRestore (List.replicate (2 ^ 32) 0)).wf = false := by
  simp only [Instr.wf, wfStream, List.length_replicate]
  decide
theorem test_wf_walker_req :
    (Instr.walkSv39 .satp 0 0 .user false).wf = false ∧ (Instr.walkSv39x4 0 7 .user false).wf = false := by decide
theorem test_wf_region_index : (Instr.pmpTor false false false false 256).wf = false := by decide
theorem test_wf_pte_upper : (Instr.ptePointer (1#60 <<< 28) .pte32).wf = false := by decide
theorem test_wf_leaf : (Instr.pteLeaf false true false 0 .pte64).wf = false ∧ (Instr.pteLeaf false false false 0 .pte64).wf = false := by
  decide

/-! ### Words of the spec's encodings decode (30_encoding.md R130, R113, R115, R109) -/

theorem test_decode_plain_commands :
    [0x01, 0x02, 0x04, 0x08, 0x09, 0x0E, 0x0F, 0x10, 0x11, 0x13, 0x14, 0x15].map
        (fun b => reads { format := .cmd8, bytes := [b] })
      = [some .vmInit, some .vmFree, some .invalAll, some .setAsid, some .refreshMprv, some .pmpReset, some .pmpNew, some .pmpFree,
         some .vmSave, some .dumpTlb, some .dumpVs1Tlb, some .dumpVs2Tlb] := by decide
theorem test_decode_miss :
    reads { format := .cmd8, bytes := [0x03, 3, 0, 1, 0, 0, 0, 0, 0x40, 0, 0, 0, 0, 4, 0, 0, 0, 0, 0, 0, 0, 0] }
      = some (.miss .virt .user Priv.R 0x40000000 4 false) := by decide
theorem test_decode_inval :
    reads { format := .cmd8, bytes := [0x05, 5, 0, 0, 0, 0, 0, 0, 0] } = some (.invalAllAsid 5)
      ∧ reads { format := .cmd8, bytes := [0x06, 0x78, 0x56, 0x34, 0x12, 0, 0, 0, 0] } = some (.invalVa 0x12345678)
      ∧ reads { format := .cmd8, bytes := [0x07, 0, 0, 0, 0x40, 0, 0, 0, 0, 6, 0, 0, 0, 0, 0, 0, 0] }
        = some (.invalVaAsid 0x40000000 6) := by decide
theorem test_decode_pmp_commands :
    reads { format := .cmd8, bytes := [0x0A, 2] } = some (.pmpcfgRead 2)
      ∧ reads { format := .cmd8, bytes := [0x0B, 0, 0, 9, 0, 0, 0, 0, 0, 0] } = some (.pmpcfgWrite 0 0x900)
      ∧ reads { format := .cmd8, bytes := [0x0C, 5] } = some (.pmpaddrRead 5)
      ∧ reads { format := .cmd8, bytes := [0x0D, 1, 0x40, 0, 0, 0, 0, 0, 0, 0] } = some (.pmpaddrWrite 1 0x40) := by decide
theorem test_decode_restore :
    reads { format := .cmd8, bytes := [0x12, 2, 0, 0, 0, 0xAA, 0xBB, 0xCC] } = some (.vmRestore [0xAA, 0xBB]) := by decide
theorem test_decode_walkers :
    reads { format := .mode1, bytes := [1, 0, 0xBC, 0x3A, 0xC0, 0, 0, 0, 0, 0, 1, 0, 0] }
        = some (.walkSv32 .satp 0x00C03ABC Priv.R .user false)
      ∧ reads { format := .mode4, bytes := [8, 0, 0, 0, 0, 0x40, 0, 0, 0, 0, 2, 1, 1] }
        = some (.walkSv39 .satp 0x40000000 Priv.W .supervisor true)
      ∧ reads { format := .mode4, bytes := [9, 1, 0, 0x10, 0, 0, 0, 0x80, 0xFF, 0xFF, 4, 4, 0] }
        = some (.walkSv48 .vsatp 0xFFFF800000001000 Priv.X .vu false) := by decide
theorem test_decode_walkers_x4 :
    reads { format := .mode1, bytes := [1, 2, 0xBC, 0x3A, 0xC0, 0, 2, 0, 0, 0, 1, 5, 0] }
        = some (.walkSv32x4 0x200C03ABC Priv.R .vs false)
      ∧ reads { format := .mode4, bytes := [8, 2, 0, 0x10, 0, 0, 0, 0, 0, 0, 1, 5, 0] }
        = some (.walkSv39x4 0x1000 Priv.R .vs false)
      ∧ reads { format := .mode4, bytes := [9, 2, 0, 0, 0, 0, 0, 0, 3, 0, 1, 3, 0] }
        = some (.walkSv48x4 0x3000000000000 Priv.R .machine false) := by decide
-- L 0 0 A A X W R: 10000111, 00001001, 00010001, 10011010
theorem test_decode_regions :
    reads { format := .pmpcfg8, bytes := [0x87, 0] } = some (.pmpOff true true true true 0)
      ∧ reads { format := .pmpcfg8, bytes := [0x09, 1] } = some (.pmpTor false false false true 1)
      ∧ reads { format := .pmpcfg8, bytes := [0x11, 2] } = some (.pmpNa4 false false false true 2)
      ∧ reads { format := .pmpcfg8, bytes := [0x9A, 63] } = some (.pmpNapot true false true false 63) := by decide
-- X W R V in bits 3:0: ???0, ?101, 0001, ?011 and 1001
theorem test_decode_ptes :
    reads { format := .pte4, bytes := [0x0E, 0, 0, 0, 0, 0, 0, 0, 0] } = some (.pteInvalid true true true 0 .pte64)
      ∧ reads { format := .pte4, bytes := [0x0D, 0, 0, 0, 0, 0, 0, 0, 0] } = some (.pteReserved true 0 .pte64)
      ∧ reads { format := .pte4, bytes := [0x01, 0x44, 0, 0, 0, 0, 0, 0, 1] } = some (.ptePointer 0x440 .pte32)
      ∧ reads { format := .pte4, bytes := [0x43, 0, 0, 0, 0, 0, 0, 0, 0] } = some (.pteLeaf false false true 4 .pte64)
      ∧ reads { format := .pte4, bytes := [0x59, 0, 0, 0, 0, 0, 0, 0, 0] } = some (.pteLeaf true false false 5 .pte64) := by
  decide
-- codes of no mode, no class, no command; MODE 0; MODE 10
theorem test_decode_rejects :
    rejects { format := .cmd8, bytes := [0x16] } = some .unknownCommand
      ∧ rejects { format := .cmd8, bytes := 0x03 :: 4 :: List.replicate 20 0 } = some .badClass
      ∧ rejects { format := .cmd8, bytes := 0x03 :: 3 :: 2 :: List.replicate 20 0 } = some .badMode
      ∧ rejects { format := .mode4, bytes := [0] } = some .bareMode
      ∧ rejects { format := .mode4, bytes := [10] } = some .reservedMode
      ∧ rejects { format := .cmd8, bytes := [0x06, 1, 2, 3] } = some .truncated := by decide

-- R120's codes of the answers and of the invalidate mode
theorem test_codes :
    [none, some .vaextend, some .v0, some .r0w1, some .leaf, some .align, some .priv, some .a0, some .d0, some .read,
        some .write].map errCode = List.range 11
      ∧ InvalMode.any.code = 0 ∧ (InvalMode.asid 5).code = 1 := by decide

/-! ### Single steps -/

-- S1, S6, S4's accesses
theorem test_miss_answers :
    answer (.miss .virt .user Priv.R 0x40000000 4 false) stS1
        = some (.miss { status := .ok, err := none, exc := none, mappings := [mS1], afault := .none })
      ∧ answer (.miss .virt .vs Priv.R 0x5000 4 false) stS6
        = some (.miss
          { status := .exc, err := some .v0, mappings := [], afault := .none
            exc := some { kind := .loadGuestPageFault, tval := 0x5000, gva := true, gpa := some 0x1000 } })
      ∧ answer (.miss .pmp .supervisor Priv.R 0x1FE 4 false) stS4
        = some (.miss { status := .afault, err := none, exc := none, mappings := [], afault := .pmp })
      ∧ answer (.miss .pmp .machine Priv.W 0x200 4 false) stS4
        = some (.miss { status := .ok, err := none, exc := none, mappings := [], afault := .none }) := by decide
-- Program 4, line 10: the re-keyed hit; M19: entry and alias stay; Program 1, line 8: nothing linked; M2: nothing changes
theorem test_miss_effects :
    (nextOf (exec (.miss .virt .user Priv.R 0x00C03ABC 4 false) stRekey)).map (fun t => (t.tlb .hs, t.aliasesOf .user))
        = some ([{ eRekey with simASID := 0x0001000000000001 }],
            [{ aRekey with priv := Priv.R ||| Priv.X, key := 0x0001000000000001 }])
      ∧ (nextOf (exec (.miss .virt .user Priv.R 0x40000000 4 false) stM19)).map
          (fun t => (t.response, t.afault, (t.tlb .hs).length, (t.aliasesOf .user).length))
        = some (.miss { status := .afault, err := none, exc := none, mappings := [], afault := .pmp }, .pmp, 1, 1)
      ∧ (nextOf (exec (.miss .virt .user Priv.R 0x40000000 4 false) stDenied)).map (fun t => (t.response, t.afault, t.tlbs))
        = some (.miss
            { status := .exc, err := some .read, mappings := [], afault := .pmp
              exc := some { kind := .loadAccessFault, tval := 0x40000000, gva := false, gpa := none } }, .pmp, Tlbs.empty)
      ∧ (nextOf (exec (.miss .virt .supervisor Priv.R 0xFFFFFFFFFFFFFFFE 4 false) { stS1 with afault := .pmp })).map
          (fun t => (t.response, t.afault))
        = some (.miss { status := .refused, err := none, exc := none, mappings := [], afault := .none }, .pmp) := by decide
-- W1 (R142's example)
theorem test_walk_sv32 :
    answer (.walkSv32 .satp 0x00C03ABC Priv.R .user false)
        (block { Params.default with xlen := .x32 } { Csrs.zero with satp := 0x80000010 }
          (put4 0x1000C 0x00004401 (put4 0x1100C 0x048D14DF [])))
      = some (.walked
          { lowVA := 0x00C03000, highVA := 0x00C03FFF, pa := 0x12345000, tlb := .hs, priv := 7, u := true, g := false
            a := true, d := true, mapped := 0, artifact := false, simASID := 0, lutEntry := none }) := by decide
-- A3: the write-back
theorem test_walk_sv39_writes_back :
    ((nextOf (exec (.walkSv39 .satp 0 Priv.W .user false)
        (block Params.default csrSv39
          (put8 0x80000000 0x20000401 (put8 0x80001000 0x20000801 (put8 0x80002000 0x20000417 [])))))).map
      fun t => t.mem.read false 0x80002000 8) = some 0x200004D7 := by decide
-- S2; W25: the first read is denied by an empty bank
theorem test_walk_sv39_fails :
    answer (.walkSv39 .satp 0x1000 Priv.R .supervisor false) (block Params.default csrSv39 (put8 0x80000000 0x800CF []))
        = some (.walkFailed .align .none)
      ∧ (nextOf (exec (.walkSv39 .satp 0x40000000 Priv.R .user false) stDenied)).map (fun t => (t.response, t.afault))
        = some (.walkFailed .read .pmp, .pmp) := by decide
-- R144's example
theorem test_walk_sv48 :
    ((nextOf (exec (.walkSv48 .vsatp 0xFFFF800000001000 Priv.R .vs false)
        (block Params.default { Csrs.zero with vsatp := 0x9000000000080000 }
          (put8 0x80000800 0x20000401 (put8 0x80001000 0x20000801 (put8 0x80002000 0x20000C01
            (put8 0x80003008 0x2AF3784B []))))))).map fun t => t.response)
      = some (.walked
          { lowVA := 0xFFFF800000001000, highVA := 0xFFFF800000001FFF, pa := 0xABCDE000, tlb := .vs1, priv := 5, u := false
            g := false, a := true, d := false, mapped := 0, artifact := false, simASID := 0x0010000000000000
            lutEntry := none }) := by decide
-- W16
theorem test_walk_sv32x4 :
    answer (.walkSv32x4 0x200C03ABC Priv.R .vs false)
        (block { Params.default with xlen := .x32 } { Csrs.zero with hgatp := 0x80000020 } (put4 0x2200C 0x049000DF []))
      = some (.walked
          { lowVA := 0x200C00000, highVA := 0x200FFFFFF, pa := 0x12400000, tlb := .vs2, priv := 7, u := true, g := true
            a := true, d := true, mapped := 0, artifact := false, simASID := 0x0020000000000000, lutEntry := none }) := by
  decide
-- W19, W22: the root offset
theorem test_walk_sv39x4_reads_its_root :
    ((nextOf (exec (.walkSv39x4 0x10000000000 Priv.R .vs false)
        (block Params.default { Csrs.zero with hgatp := 0x8000000000090000 } []))).map
      fun t => t.traffic.map fun a => a.addr) = some [0x90002000] := by decide
theorem test_walk_sv48x4_reads_its_root :
    ((nextOf (exec (.walkSv48x4 0x3000000000000 Priv.R .vs false)
        (block Params.default { Csrs.zero with hgatp := 0x9000000000090000 } []))).map
      fun t => t.traffic.map fun a => a.addr) = some [0x90003000] := by decide
-- T8 and T9
theorem test_inval_va :
    (nextOf (exec (.invalVa 0x40000ABC) stH1)).map (fun t => (t.tlb .hs, t.aliases)) = some ([], AliasStore.empty) := by decide
theorem test_inval_all : (nextOf (exec .invalAll stH1)).map (fun t => t.tlb .hs) = some [] := by decide
-- T6 and T16
theorem test_inval_all_asid :
    (nextOf (exec (.invalAllAsid 0x10005) stH1)).map (fun t => t.tlb .hs) = some []
      ∧ (nextOf (exec (.invalAllAsid 6) stH1)).map (fun t => t.tlb .hs) = some [eH1] := by decide
theorem test_inval_va_asid :
    (nextOf (exec (.invalVaAsid 0x40000000 6) stH1)).map (fun t => t.tlb .hs) = some [eH1] := by decide
-- Program 2, line 7
theorem test_set_asid : (nextOf (exec .setAsid stR242)).map (fun t => t.pubKey) = some 0x0030000100020000 := by decide
-- D3 and D5
theorem test_refresh_mprv :
    (nextOf (exec .refreshMprv (block Params.default { Csrs.zero with mstatus := 0x8000020000 } []))).map
        (fun t => t.dataMode) = some .vu
      ∧ (nextOf (exec .refreshMprv { block Params.default { Csrs.zero with mstatus := 0x20800 } [] with
          env := { Env.launch with csr := { Csrs.zero with mstatus := 0x20800 }, inDebug := true } })).map
        (fun t => t.dataMode) = some .machine := by decide
-- R261's example
theorem test_pmpcfg_read :
    answer (.pmpcfgRead 0)
        { block { Params.default with xlen := .x32, pmpN := 4 } Csrs.zero [] with pmpcfg := [0x09, 0x00, 0x1F, 0x98] }
      = some (.word 0x981F0009) := by decide
-- B11, B13, B14 in one word
theorem test_pmpcfg_write :
    (nextOf (exec (.pmpcfgWrite 0 0xFF1F11)
        { block { Params.default with pmpN := 3, pmpG := 1 } Csrs.zero [] with pmpcfg := [0x0F, 0x80, 0x00] })).map
      (fun t => t.pmpcfg) = some [0x09, 0x80, 0x9F] := by decide
-- B2, B3
theorem test_pmpaddr_read :
    answer (.pmpaddrRead 0)
        { block { Params.default with pmpN := 1, pmpG := 3 } Csrs.zero [] with pmpaddr := [0x0C] } = some (.word 0x08)
      ∧ answer (.pmpaddrRead 0)
        { block { Params.default with pmpN := 1, pmpG := 3 } Csrs.zero [] with pmpaddr := [0x0C], pmpcfg := [0x19] }
        = some (.word 0x0F) := by decide
-- B1, B6; R117: a word of XLEN = 32 holds address bits 33:2
theorem test_pmpaddr_write :
    (nextOf (exec (.pmpaddrWrite 0 0x0F) (block { Params.default with pmpN := 1, pmpG := 3 } Csrs.zero []))).map
        (fun t => t.pmpaddr) = some [0x0C]
      ∧ (nextOf (exec (.pmpaddrWrite 0 0xFFFFFFFFFFFFFFFF) (block { Params.default with pmpN := 1 } Csrs.zero []))).map
        (fun t => t.pmpaddr) = some [0x003FFFFFFFFFFFFF]
      ∧ (nextOf (exec (.pmpaddrWrite 0 0xFFFFFFFFFFFFFFFF)
          (block { Params.default with xlen := .x32, paBits := 56, pmpN := 1 } Csrs.zero []))).map
        (fun t => t.pmpaddr) = some [0xFFFFFFFF] := by decide
-- B29
theorem test_pmp_clears :
    [Instr.pmpReset, .pmpNew, .pmpFree].map (fun i => (nextOf (exec i { stS4 with pmpcfg := [0x80, 0x89] })).map
        fun t => (t.pmpcfg, t.pmpaddr)) = List.replicate 3 (some ([0, 0], [0, 0])) := by decide
-- S4's region, R281's byte, B10, S5
theorem test_region_tor :
    answer (.pmpTor false false false true 1) stS4 = some (.region (.active 0x100 0x1FF) 1 false)
      ∧ answer (.pmpOff true true true true 1) stS4 = some (.region .inactive 7 true) := by decide
theorem test_region_na4 :
    answer (.pmpNa4 false false false true 0) { stS4 with pmpaddr := [0x20000000, 0] }
      = some (.region (.active 0x80000000 0x80000003) 1 false) := by decide
theorem test_region_napot :
    answer (.pmpNapot false false false true 0)
        { block { Params.default with pmpN := 1, pmpG := 3 } Csrs.zero [] with pmpaddr := [0x0C] }
      = some (.region (.active 0 0x7F) 1 false) := by decide
-- 30_encoding.md R109, R126
theorem test_pte_kinds :
    answer (.pteInvalid false true false 0 .pte64) stS1 = some (.pte (.fails .v0))
      ∧ answer (.pteReserved false 0 .pte64) stS1 = some (.pte (.fails .r0w1))
      ∧ answer (.ptePointer 0x2000000 .pte64) stS1 = some (.pte (.pointer 0x80000000))
      ∧ answer (.pteLeaf true true true 0xC .pte64) stS1 = some (.pte (.leaf 7 false false true true 0)) := by decide
-- H7 and R311's example
theorem test_vm_init : (nextOf (exec .vmInit { stH1 with pubKey := 9 })).map (fun t => (t.tlbs, t.aliases, t.pubKey))
    = some (Tlbs.empty, AliasStore.empty, 0) := by decide
theorem test_vm_free : (nextOf (exec .vmFree { stH1 with pubKey := 9 })).map (fun t => (t.tlbs, t.aliases, t.pubKey))
    = some (Tlbs.empty, AliasStore.empty, 9) := by decide
-- H1, H3, H4
theorem test_save : answer .vmSave stH1 = some (.stream bytesH1) := by decide
theorem test_restore :
    (nextOf (exec (.vmRestore bytesH1) stH1)).map (fun t => (t.tlbs, t.aliases))
        = some ({ Tlbs.empty with hs := [{ eH1 with mapped := 0, lutEntry := some 1 }] }, AliasStore.empty)
      ∧ (nextOf (exec (.vmRestore [0x54, 0x4C, 0x42, 0x5F, 0x45, 0x4E, 0x54, 0x52, 0x58, 0, 0, 0, 0]) stH1)).map
        (fun t => (t.tlbs, t.response)) = some (Tlbs.empty, .restoreRefused) := by decide
-- H5, H6
theorem test_dump :
    answer .dumpTlb stH1 = some (.text
      ("VA 0x0000000040000000:0x0000000040000FFF PA 0x0000000000000000:0x0000000000000FFF rwx U-AD ASID=5\n").toList) := by
  decide
theorem test_dump_vs2 :
    answer .dumpVs2Tlb { stH1 with tlbs := { Tlbs.empty with
        vs2 := [{ eH1 with lowVA := 0x401000, highVA := 0x401FFF, pa := 0x90001000, tlb := .vs2, g := true }] } }
      = some (.text
        ("VA 0x0000000000401000:0x0000000000401FFF PA 0x0000000090001000:0x0000000090001FFF rwx UGAD\n").toList) := by
  decide
theorem test_dump_vs1 :
    answer .dumpVs1Tlb { stH1 with tlbs := { Tlbs.empty with vs1 := [{ eH1 with tlb := .vs1, g := true }] }
                                   params := { Params.default with hasH := false } } = some (.text []) := by decide
-- K2, K5, K6
theorem test_asid_mask :
    asidMask { eS1 with g := false } .supervisor = 0x000300000000FFFF
      ∧ asidMask { eS1 with tlb := .vs1, u := false } .vs = 0x0035FFFFFFFF0000
      ∧ asidMask { eS1 with tlb := .vs1 } .vs = 0x003DFFFFFFFF0000 := by decide

/-! ### The statements' hypotheses are met -/

/-- A single linked entry of `TLB[HS]`, no alias. -/
theorem links_of_one {s : State} {e : Entry} {h : Nat} (hs : s.tlbs = { Tlbs.empty with hs := [e] }) (ht : e.tlb = .hs)
    (hl : e.lutEntry = some h) (hh : h < s.nextHandle) (ha : e.artifact = false) (hm : e.mapped &&& 0b1100 = 0) :
    s.linksOk := by
  refine ⟨fun t f hf => ?_, by simp [State.entries, hs, Tlbs.empty]⟩
  simp only [State.tlb, hs] at hf
  cases t
  · rw [show f = e by simpa [Tlbs.get] using hf]
    exact ⟨ht, ⟨h, hl, hh⟩, by simp [ha], hm⟩
  · simp [Tlbs.get, Tlbs.empty] at hf
  · simp [Tlbs.get, Tlbs.empty] at hf

/-- Empty TLBs are linked. -/
theorem links_of_none {s : State} (hs : s.tlbs = Tlbs.empty) : s.linksOk ∧ ∀ t x, s.uncovered t x := by
  refine ⟨⟨fun t f hf => ?_, by simp [State.entries, hs, Tlbs.empty]⟩, fun t x f hf => ?_⟩ <;>
    simp only [State.tlb, hs] at hf <;> cases t <;> simp [Tlbs.get, Tlbs.empty] at hf

theorem links_stH1 : stH1.LinkInv := by
  refine ⟨links_of_one rfl rfl rfl (by decide) rfl rfl, rfl, fun mode a ha => ?_⟩
  cases mode
  · refine ⟨eH1, by decide, ?_⟩
    rw [show a = _ by simpa [State.aliasesOf, stH1, AliasStore.get] using ha]
    exact ⟨rfl, rfl, rfl, rfl, fun h hh => by cases hh⟩
  all_goals simp [State.aliasesOf, stH1, AliasStore.get, AliasStore.empty] at ha

theorem links_stHit : stHit.linksOk := links_of_one rfl rfl rfl (by decide) rfl rfl

theorem ok_stHit : stHit.entriesOk := by
  intro t e he
  cases t
  · rw [show e = { eS1 with lutEntry := some 0 } by simpa [State.tlb, stHit, Tlbs.get] using he]
    exact ⟨⟨12, by decide, by decide, by decide, by decide⟩, rfl, by decide, by decide⟩
  all_goals simp [State.tlb, stHit, Tlbs.get, Tlbs.empty] at he

/-- A script of one command. -/
def runs (i : Instr) (s : State) : State := { s with input := [.command (encode i)] }

theorem block_inv (p : Params) (hp : p.pmpN = 0) (csr : Csrs) (i : Instr) : (runs i (block p csr [])).BlockInv where
  memory := ⟨rfl, by intro c hc; cases hc⟩
  bank := by
    refine ⟨by simp [runs, block, State.powerOn, hp], by simp [runs, block, State.powerOn, hp], ?_, ?_⟩ <;>
      intro c hc <;> simp [runs, block, State.powerOn, hp] at hc
  perms := rfl
  quiet := ⟨rfl, rfl⟩

theorem links_runs {s : State} (h : s.LinkInv) (i : Instr) : (runs i s).LinkInv :=
  ⟨⟨fun t e he => h.links.1 t e he, h.links.2⟩, h.aliases.1, fun m a ha => h.aliases.2 m a ha⟩

/-- A step that runs one instruction to a next state. -/
theorem steps_of (i : Instr) (s : State) (h : (nextOf (step (runs i s))).isSome = true) :
    ∃ t, step (runs i s) = .next t := by
  cases hs : step (runs i s) with
  | next t => exact ⟨t, rfl⟩
  | fault f => rw [hs] at h; cases h
  | refused r => rw [hs] at h; cases h

theorem nexts_of (i : Instr) (s : State) (h : (nextOf (exec i s)).isSome = true) : ∃ t, exec i s = .next t := by
  cases hs : exec i s with
  | next t => exact ⟨t, rfl⟩
  | fault f => rw [hs] at h; cases h
  | refused r => rw [hs] at h; cases h

theorem nexts_with (i : Instr) (s : State) (r : Response) (h : answer i s = some r) :
    ∃ t, exec i s = .next t ∧ t.response = r := by
  unfold answer at h
  cases hs : exec i s with
  | next t => rw [hs] at h; exact ⟨t, rfl, by simpa [nextOf] using h⟩
  | fault f => rw [hs] at h; cases h
  | refused r => rw [hs] at h; cases h

theorem witness_DecodeEncodeAgree : (Instr.miss .virt .vs Priv.X 0x201234 (2 ^ 64) true).wf = true ∧ Instr.vmInit.wf = true := by
  decide

theorem witness_StepRunsTheDecodedInstruction :
    (∃ (s : State) (p : Packet) (rest : List Input) (i : Instr), s.input = .command p :: rest ∧ decode p = .ok i)
      ∧ (∃ (s : State) (p : Packet) (rest : List Input) (e : DecodeError), s.input = .command p :: rest ∧ decode p = .error e)
      ∧ (∃ (s : State) (d : Directive) (rest : List Input), s.input = .directive d :: rest)
      ∧ State.reset.input = [] ∧ decodeTableWord 8 0x08 = some .setAsid :=
  ⟨⟨runs .setAsid stS1, encode .setAsid, [], .setAsid, rfl, rfl⟩,
    ⟨{ stS1 with input := [.command { format := .cmd8, bytes := [0x16] }] }, _, _, .unknownCommand, rfl, rfl⟩,
    ⟨{ stS1 with input := [.directive (.mode .vs)] }, _, _, rfl⟩, rfl, by decide⟩

theorem witness_ResetSequenceGivesResetValues : Instr.pmpNew = Instr.pmpNew ∨ Instr.pmpNew = Instr.pmpReset := .inl rfl

theorem witness_InvariantsHoldAtPowerOn : Memory.wf memS1 = true ∧ ∀ c ∈ memS1, c.1 < 2 ^ 64 := by decide

theorem witness_BlockInvKept : ∃ s t : State, s.BlockInv ∧ step s = .next t := by
  obtain ⟨t, h⟩ := steps_of (.miss .virt .user Priv.R 0x40000000 4 false) (block Params.default csrSv39 []) (by decide)
  exact ⟨_, t, block_inv _ rfl _ _, h⟩

theorem witness_LinkInvKept : ∃ s t : State, s.LinkInv ∧ step s = .next t := by
  obtain ⟨t, h⟩ := steps_of (.invalVa 0x40000000) stH1 (by decide)
  exact ⟨_, t, links_runs links_stH1 _, h⟩

theorem witness_EntriesOkKept : ∃ s t : State, s.LinkInv ∧ s.entriesOk
    ∧ (∀ p rest stream, s.input = .command p :: rest → decode p ≠ .ok (.vmRestore stream)) ∧ step s = .next t := by
  obtain ⟨t, h⟩ := steps_of .invalAll stHit (by decide)
  refine ⟨_, t, links_runs ⟨links_stHit, rfl, fun m a ha => ?_⟩ _, fun i e he => ok_stHit i e he, ?_, h⟩
  · cases m <;> cases ha
  · intro p rest stream hp hd
    obtain ⟨rfl, -⟩ : encode .invalAll = p ∧ ([] : List Input) = rest := by simpa [runs] using hp
    cases hd

theorem witness_CacheSoundKept : ∃ s t : State, s.BlockInv ∧ s.cacheSound ∧ step s = .next t := by
  obtain ⟨t, h⟩ := steps_of (.miss .virt .user Priv.R 0x40000000 4 false) (block Params.default csrSv39 []) (by decide)
  refine ⟨_, t, block_inv _ rfl _ _, fun b k x _ => ?_, h⟩
  cases b <;> cases k <;> simp [runs, block, State.powerOn, PmpPerm.empty, PmpPerm.get, PermMap.lookup]

theorem witness_CacheConfinedKept : ∃ s t : State, s.BlockInv ∧ s.cacheConfined ∧ step s = .next t := by
  obtain ⟨t, h⟩ := steps_of (.miss .virt .user Priv.R 0x40000000 4 false) (block Params.default csrSv39 []) (by decide)
  exact ⟨_, t, block_inv _ rfl _ _, fun mode req lo hi _ _ _ _ _ => rfl, h⟩

theorem witness_OnlyNamedCommandsWrite : ∃ t, exec .setAsid stR242 = .next t ∧ t.pubKey ≠ stR242.pubKey :=
  ⟨_, rfl, by decide⟩

theorem witness_CommandsOnlySetAccessedAndDirty :
    stS1.memoryOk ∧ stS1.params.vs1PtwViaS2 = false ∧ ∃ t, exec (.miss .virt .user Priv.R 0x40000000 4 false) stS1 = .next t :=
  ⟨⟨by decide, by decide⟩, rfl, nexts_of _ _ (by decide)⟩

theorem witness_MemoryChangesOnlyWhereWritten :
    stS1.traffic = [] ∧ ∃ t, exec (.miss .virt .user Priv.R 0x40000000 4 false) stS1 = .next t :=
  ⟨rfl, nexts_of _ _ (by decide)⟩

theorem witness_PageTableTrafficIsLabelled :
    stR242.quiet ∧ stR242.traffic = [] ∧ ∃ t, exec (.miss .virt .vs Priv.R 0x201234 4 false) stR242 = .next t :=
  ⟨⟨rfl, rfl⟩, rfl, nexts_of _ _ (by decide)⟩

/-- S4's bank with region 1 locked. -/
def stLocked : State := { stS4 with pmpcfg := [0, 0x89] }

theorem bank_stLocked : stLocked.bankOk :=
  ⟨rfl, rfl, by intro c hc; simp [stLocked] at hc; rcases hc with rfl | rfl <;> exact ⟨rfl, by decide⟩,
    by intro a ha; simp [stLocked, stS4] at ha; rcases ha with rfl | rfl <;> exact ⟨by decide, by decide, by decide⟩⟩

theorem witness_LocksHold :
    (stLocked.bankOk ∧ (∃ t, exec (.pmpcfgWrite 0 0) stLocked = .next t) ∧ ¬clearsBank (.pmpcfgWrite 0 0)
        ∧ stLocked.locked 1 = true ∧ cfgA (stLocked.cfg 1) = aTor)
      ∧ 0x100 ≤ maxU64 ∧ stLocked.decides 0x100 (some 1) ∧ stLocked.locked 1 = true := by
  refine ⟨⟨bank_stLocked, nexts_of _ _ (by decide), by simp [clearsBank], by decide, by decide⟩, by decide, ?_, by decide⟩
  refine ⟨by decide, ⟨0x100, 0x1FF, by decide, by decide, by decide⟩, fun j hj lo hi h => ?_⟩
  obtain rfl : j = 0 := by omega
  have : stLocked.region 0 = .inactive := by decide
  rw [this] at h
  cases h

theorem witness_VmFreeEmptiesEverything : stH1.LinkInv ∧ stH1.quiet := ⟨links_stH1, rfl, rfl⟩

theorem witness_InvalidationByAddress : stH1.linksOk := links_stH1.links

theorem witness_InvalidationByAsid : stH1.linksOk ∧ stH1.asidScope 5 eH1 := ⟨links_stH1.links, .inr ⟨rfl, by decide, .inl rfl⟩⟩

theorem witness_SetAsidPublishesTheLiveKey :
    stR242.params.hasH = true ∧ (block { Params.default with hasH := false } csrSv39 []).params.hasH = false := ⟨rfl, rfl⟩

theorem witness_KeyMaskCoversThePermission : ∃ (s t : State) (mode : Mode5) (e : Entry), t.params = s.params
    ∧ baseOf mode ≠ .machine ∧ virtOf mode = decide (e.tlb ≠ .hs) ∧ (s.params.hasH = true ∨ e.tlb = .hs)
    ∧ s.liveKey &&& asidMask e mode = t.liveKey &&& asidMask e mode ∧ t.env ≠ s.env :=
  ⟨block Params.default { Csrs.zero with mstatus := 0x40000 } [], block Params.default Csrs.zero [], .user, eS1, rfl, by decide, by decide,
    .inl rfl, by decide, by decide⟩

theorem witness_Stage1WalkersFollowTheRules :
    walkOperandsOk stS1.params Stage1Reg.satp.tlb .user Priv.R = true ∧ stS1.directTables .satp ∧ stS1.quiet
      ∧ walkOperandsOk stR242.params Stage1Reg.vsatp.tlb .vs Priv.R = true ∧ stR242.directTables .vsatp :=
  ⟨by decide, .inl rfl, ⟨rfl, rfl⟩, by decide, .inr (.inl rfl)⟩

theorem witness_Stage2WalkersFollowTheRules : walkOperandsOk stR242.params .vs2 .vs Priv.R = true ∧ stR242.quiet :=
  ⟨by decide, rfl, rfl⟩

theorem witness_WalksAreBounded : stR242.directTables .vsatp := .inr (.inl rfl)

theorem witness_BadExtensionFailsBeforeAnyAccess :
    walkOperandsOk stR242.params Stage1Reg.satp.tlb .user Priv.R = true ∧ walkOperandsOk stR242.params .vs2 .vs Priv.R = true
      ∧ (2 ^ 38 ≤ (0x4000000000 : U64).toNat ∧ (0x4000000000 : U64).toNat < 2 ^ 64 - 2 ^ 38)
      ∧ (2 ^ 38 ≤ (0xFFFFFFBFFFFFFFFF : U64).toNat ∧ (0xFFFFFFBFFFFFFFFF : U64).toNat < 2 ^ 64 - 2 ^ 38)
      ∧ (2 ^ 47 ≤ (0x800000000000 : U64).toNat ∧ (0x800000000000 : U64).toNat < 2 ^ 64 - 2 ^ 47)
      ∧ 2 ^ 34 ≤ (0x400000000 : U64).toNat ∧ 2 ^ 41 ≤ (0x20000000000 : U64).toNat ∧ 2 ^ 50 ≤ (0x4000000000000 : U64).toNat := by
  decide

theorem witness_PermissionCorners :
    Priv.isSingleton Priv.X = true
      ∧ (∃ (s : State) (e : Entry), e.tlb = .hs ∧ baseOf .user = .user ∧ e.u = true ∧ e.priv = Priv.X ∧ s.mxrHs = true)
      ∧ (∃ (s : State) (e : Entry), e.tlb ≠ .vs2 ∧ baseOf .supervisor = .supervisor ∧ e.u = true
          ∧ fromVersion1_11 s.params = true)
      ∧ (∃ (s : State) (e : Entry), e.tlb ≠ .vs2 ∧ baseOf .supervisor = .supervisor ∧ e.u = true
          ∧ fromVersion1_11 s.params = false ∧ s.effSum e.tlb = true)
      ∧ (∃ (s : State) (e : Entry), e.tlb ≠ .vs2 ∧ baseOf .supervisor = .supervisor ∧ e.u = true ∧ s.effSum e.tlb = false)
      ∧ ∃ e : Entry, e.tlb = .vs2 ∧ e.u = false :=
  ⟨by decide,
    ⟨block Params.default { Csrs.zero with mstatus := 0x80000 } [], { eS1 with priv := Priv.X }, rfl, rfl, rfl, rfl, by decide⟩,
    ⟨stS1, eS1, by decide, rfl, rfl, rfl⟩,
    ⟨block { Params.default with privVersion := .v1_10 } { Csrs.zero with mstatus := 0x40000 } [], eS1, by decide, rfl, rfl, rfl,
      by decide⟩,
    ⟨stS1, eS1, by decide, rfl, rfl, by decide⟩, ⟨{ eS1 with tlb := .vs2, u := false }, rfl, rfl⟩⟩

/-- S4's bank and a range the PMA hook denies to loads. -/
def stPma : State :=
  { stS4 with env := { Env.launch with pma := [{ lo := 0x100, hi := 0x10F, deny := Priv.R }] } }

theorem witness_MissWithoutTranslation :
    missOperandsOk stPma.params .supervisor Priv.R = true ∧ validSpan 0xFFFFFFFFFFFFFFFE 4 = false ∧ validSpan 0x1F0 4 = true
      ∧ (stPma.pmpGrants .supervisor Priv.R 0x1F0 0x1F3 = true ∧ stPma.pmaAllows Priv.R 0x1F0 0x1F3 = true)
      ∧ stPma.pmpGrants .supervisor Priv.R 0x1FE 0x201 = false
      ∧ (stPma.pmpGrants .supervisor Priv.R 0x100 0x103 = true ∧ stPma.pmaAllows Priv.R 0x100 0x103 = false)
      ∧ stPma.activeTlb .supervisor = none := by decide

theorem rule_stS1 (artifact : Bool) :
    stS1.ruleWalkFor .hs 0x40000000 Priv.R .user artifact = some (.ok { eS1 with artifact := artifact }, memS1) := by
  cases artifact <;> rfl

theorem witness_MissServedByAWalk : ∀ artifact,
    stS1.missesIn .hs .user Priv.R 0x40000000 4 ∧ stS1.oneStage .hs ∧ stS1.linksOk ∧ stS1.uncovered .hs 0x40000000
      ∧ stS1.ruleWalkFor .hs 0x40000000 Priv.R .user artifact = some (.ok { eS1 with artifact := artifact }, memS1)
      ∧ mS1 = cap (stS1.single .user { eS1 with artifact := artifact }) 0x40000000 ∧ lastByte 0x40000000 4 ≤ mS1.highVA
      ∧ (stS1.servedAnswer .user Priv.R mS1 0x40000000 (lastByte 0x40000000 4)).status = .ok := by
  intro artifact
  refine ⟨⟨by decide, by decide, by decide⟩, by intro h; (cases h), (links_of_none rfl).1, (links_of_none rfl).2 _ _,
    rule_stS1 artifact, ?_, by decide, by decide⟩
  cases artifact <;> decide

-- M19; a PMA range over the final address
theorem witness_MissServedByAWalk_denied :
    stM19.missesIn .hs .user Priv.R 0x40000000 4 ∧ stM19.oneStage .hs ∧ stM19.linksOk ∧ stM19.uncovered .hs 0x40000000
      ∧ stM19.ruleWalkFor .hs 0x40000000 Priv.R .user false = some (.ok eS1, memS1)
      ∧ mS1 = cap (stM19.single .user eS1) 0x40000000 ∧ lastByte 0x40000000 4 ≤ mS1.highVA
      ∧ stM19.servedAnswer .user Priv.R mS1 0x40000000 (lastByte 0x40000000 4)
        = { status := .afault, err := none, exc := none, mappings := [], afault := .pmp }
      ∧ { stS1 with env := { stS1.env with pma := [{ lo := 0, hi := 15, deny := Priv.R }] } }.servedAnswer .user Priv.R mS1
          0x40000000 (lastByte 0x40000000 4)
        = { status := .afault, err := none, exc := none, mappings := [], afault := .none } :=
  ⟨⟨by decide, by decide, by decide⟩, by intro h; (cases h), (links_of_none rfl).1, (links_of_none rfl).2 _ _, rfl, by decide,
    by decide, by decide, by decide⟩

theorem witness_MissReportsAFailedWalk :
    stS1.missesIn .hs .user Priv.R 0x40001000 4 ∧ stS1.oneStage .hs ∧ stS1.uncovered .hs 0x40001000
      ∧ stS1.ruleWalkFor .hs 0x40001000 Priv.R .user false = some (.error .v0, memS1) :=
  ⟨⟨by decide, by decide, by decide⟩, by intro h; (cases h), (links_of_none rfl).2 _ _, rfl⟩

/-- The VS1 entry of 42_translate.md R242. -/
def e1R242 : Entry :=
  { lowVA := 0x200000, highVA := 0x3FFFFF, pa := 0x400000, tlb := .vs1, priv := 7, u := false, g := false, a := true, d := true
    mapped := 0, artifact := false, simASID := 0x0030000100020000, lutEntry := none }

/-- The VS2 entry of 42_translate.md R242. -/
def e2R242 : Entry :=
  { lowVA := 0x401000, highVA := 0x401FFF, pa := 0x90001000, tlb := .vs2, priv := 7, u := true, g := true, a := true, d := true
    mapped := 0, artifact := false, simASID := 0x0030000100020000, lutEntry := none }

/-- The mapping of 42_translate.md R242. -/
def mR242 : Mapping := { lowVA := 0x201000, highVA := 0x201FFF, lowPA := 0x90001000, priv := 7, mask := 0x0035FFFFFFFF0000 }

theorem witness_MissServedByTwoWalks :
    stR242.missesIn .vs1 .vs Priv.R 0x201234 4 ∧ stR242.hgatpMode ≠ 0 ∧ stR242.params.vs1PtwViaS2 = false ∧ stR242.linksOk
      ∧ stR242.uncovered .vs1 0x201234
      ∧ stR242.ruleWalkFor .vs1 0x201234 Priv.R .vs false = some (.ok e1R242, memR242)
      ∧ 0x401234 = 0x201234 + e1R242.pa - e1R242.lowVA ∧ stR242.uncovered .vs2 0x401234
      ∧ (stR242.setMem memR242).ruleWalkFor .vs2 0x401234 Priv.R .vs false = some (.ok e2R242, memR242)
      ∧ mR242 = cap (compose (stR242.single .vs e1R242) (stR242.single .vs e2R242)) 0x201234
      ∧ lastByte 0x201234 4 ≤ mR242.highVA
      ∧ (stR242.servedAnswer .vs Priv.R mR242 0x201234 (lastByte 0x201234 4)).status = .ok :=
  ⟨⟨by decide, by decide, by decide⟩, by decide, rfl, (links_of_none rfl).1, (links_of_none rfl).2 _ _, rfl, by decide,
    (links_of_none rfl).2 _ _, rfl, by decide, by decide, by decide⟩

theorem witness_MissReportsAFailedStage2 : ∃ e1 mem1 mem2,
    stR242.missesIn .vs1 .vs Priv.R 0x202000 4 ∧ stR242.hgatpMode ≠ 0 ∧ stR242.params.vs1PtwViaS2 = false ∧ stR242.linksOk
      ∧ stR242.uncovered .vs1 0x202000
      ∧ stR242.ruleWalkFor .vs1 0x202000 Priv.R .vs false = some (.ok e1, mem1)
      ∧ 0x402000 = 0x202000 + e1.pa - e1.lowVA ∧ stR242.uncovered .vs2 0x402000
      ∧ (stR242.setMem mem1).ruleWalkFor .vs2 0x402000 Priv.R .vs false = some (.error .v0, mem2) :=
  ⟨e1R242, memR242, memR242, ⟨by decide, by decide, by decide⟩, by decide, rfl, (links_of_none rfl).1,
    (links_of_none rfl).2 _ _, rfl, by decide, (links_of_none rfl).2 _ _, rfl⟩

theorem sole_stHit (x : U64) (h : covers { eS1 with lutEntry := some 0 } x = true) :
    stHit.soleCover .hs x { eS1 with lutEntry := some 0 } :=
  ⟨by decide, h, fun f hf _ => by simpa [State.tlb, stHit, Tlbs.get] using hf⟩

theorem witness_MissServedByAHit : ∃ e,
    stHit.missesIn .hs .user Priv.R 0x40000010 4 ∧ stHit.missesIn .hs .supervisor Priv.R 0x40000010 4 ∧ stHit.oneStage .hs
      ∧ stHit.linksOk ∧ stHit.soleCover .hs 0x40000010 e ∧ e.artifact = false ∧ stHit.matchEntry e = true
      ∧ (needsWrite Priv.R = true → e.d = true) ∧ stHit.permGrants .supervisor e Priv.R = false
      ∧ stHit.permGrants .user e Priv.R = true ∧ ¬stHit.keyMoved .user e
      ∧ mS1 = cap (stHit.single .user e) 0x40000010 ∧ lastByte 0x40000010 4 ≤ mS1.highVA
      ∧ (stHit.servedAnswer .user Priv.R mS1 0x40000010 (lastByte 0x40000010 4)).status = .ok :=
  ⟨{ eS1 with lutEntry := some 0 }, ⟨by decide, by decide, by decide⟩, ⟨by decide, by decide, by decide⟩,
    by intro h; (cases h), links_stHit, sole_stHit _ (by decide), rfl, by decide, by decide, by decide, by decide, by decide,
    by decide, by decide, by decide⟩

theorem links_stRekey : stRekey.linksOk := links_of_one rfl rfl rfl (by decide) rfl rfl

theorem witness_MissServedByAHit_rekeyed :
    stRekey.missesIn .hs .user Priv.R 0x00C03ABC 4 ∧ stRekey.oneStage .hs ∧ stRekey.linksOk
      ∧ stRekey.soleCover .hs 0x00C03ABC eRekey ∧ eRekey.artifact = false ∧ stRekey.matchEntry eRekey = true
      ∧ (needsWrite Priv.R = true → eRekey.d = true) ∧ stRekey.permGrants .user eRekey Priv.R = true
      ∧ stRekey.keyMoved .user eRekey
      ∧ lastByte 0x00C03ABC 4 ≤ (cap (stRekey.single .user eRekey) 0x00C03ABC).highVA
      ∧ (stRekey.servedAnswer .user Priv.R (cap (stRekey.single .user eRekey) 0x00C03ABC) 0x00C03ABC
          (lastByte 0x00C03ABC 4)).status = .ok :=
  ⟨⟨by decide, by decide, by decide⟩, by intro h; (cases h), links_stRekey,
    ⟨by decide, by decide, fun f hf _ => by simpa [State.tlb, stRekey, Tlbs.get] using hf⟩, rfl, by decide, by decide, by decide,
    by decide, by decide, by decide⟩

/-- `stHit` with its entry not dirty. -/
def stClean : State := { stHit with tlbs := { Tlbs.empty with hs := [{ eS1 with lutEntry := some 0, d := false }] } }

theorem witness_MissRewalksAfterDeletion : ∃ e,
    stClean.missesIn .hs .user Priv.W 0x40000010 4 ∧ stClean.linksOk ∧ stClean.soleCover .hs 0x40000010 e
      ∧ (e.artifact = true ∨ (stClean.matchEntry e = true ∧ e.d = false ∧ needsWrite Priv.W = true)) :=
  ⟨{ eS1 with lutEntry := some 0, d := false }, ⟨by decide, by decide, by decide⟩, links_of_one rfl rfl rfl (by decide) rfl rfl,
    ⟨by decide, by decide, fun f hf _ => by simpa [State.tlb, stClean, Tlbs.get] using hf⟩, .inr ⟨by decide, rfl, by decide⟩⟩

theorem witness_MissAnswers : stHit.modesOk := ⟨by decide, by decide, by decide⟩

theorem witness_OkMappingsCoverTheAccess : ∃ t r,
    stHit.missesIn .hs .user Priv.R 0x40000010 4 ∧ stHit.linksOk ∧ stHit.entriesOk
      ∧ exec (.miss .virt .user Priv.R 0x40000010 4 false) stHit = .next t ∧ t.response = .miss r ∧ r.status = .ok
      ∧ r.mappings = [mS1] ∧ stHit.pubKey = stHit.liveKey := by
  obtain ⟨t, h, hr⟩ := nexts_with (.miss .virt .user Priv.R 0x40000010 4 false) stHit
    (.miss { status := .ok, err := none, exc := none, mappings := [mS1], afault := .none }) (by decide)
  exact ⟨t, _, ⟨by decide, by decide, by decide⟩, links_stHit, ok_stHit, h, hr, rfl, rfl, by decide⟩

theorem witness_AccessHitsAfterAMiss : ∃ t r m,
    stHit.missesIn .hs .user Priv.R 0x40000010 4 ∧ stHit.linksOk ∧ stHit.entriesOk ∧ stHit.pubKey = stHit.liveKey
      ∧ exec (.miss .virt .user Priv.R 0x40000010 4 false) stHit = .next t ∧ t.response = .miss r ∧ r.status = .ok
      ∧ r.mappings = [m] := by
  obtain ⟨t, r, h1, h2, h3, h4, h5, h6, h7, h8⟩ := witness_OkMappingsCoverTheAccess
  exact ⟨t, r, mS1, h1, h2, h3, h8, h4, h5, h6, h7⟩

theorem witness_MissAnswersConsistently : ∃ t r x e,
    exec (.miss .virt .vs Priv.R 0x5000 4 false) stS6 = .next t ∧ t.response = .miss r ∧ r.exc = some x ∧ r.err = some e
      ∧ x.gpa.isSome = true ∧ stS6.env.pma = [] := by
  obtain ⟨t, h, hr⟩ := nexts_with _ _ _ test_miss_answers.2.1
  exact ⟨t, _, _, _, h, hr, rfl, rfl, rfl, rfl⟩

theorem witness_MissAnswersConsistently_afault : ∃ t r,
    exec (.miss .pmp .supervisor Priv.R 0x1FE 4 false) stS4 = .next t ∧ t.response = .miss r ∧ r.status = .afault
      ∧ stS4.env.pma = [] := by
  obtain ⟨t, h, hr⟩ := nexts_with _ _ _ test_miss_answers.2.2.1
  exact ⟨t, _, h, hr, rfl, rfl⟩

theorem witness_MissAnswersConsistently_refused : ∃ t r,
    exec (.miss .virt .supervisor Priv.R 0xFFFFFFFFFFFFFFFE 4 false) { stS1 with afault := .pmp } = .next t
      ∧ t.response = .miss r ∧ r.status = .refused :=
  ⟨_, _, rfl, rfl, rfl⟩

theorem witness_MissAnswersConsistently_busError : ∃ t r,
    exec (.miss .virt .user Priv.R 0x40000000 4 false) stDenied = .next t ∧ t.response = .miss r ∧ r.afault = .pmp
      ∧ r.err = some .read := by
  obtain ⟨t, h, hr⟩ := nexts_with (.miss .virt .user Priv.R 0x40000000 4 false) stDenied (.miss
    { status := .exc, err := some .read, mappings := [], afault := .pmp
      exc := some { kind := .loadAccessFault, tval := 0x40000000, gva := false, gpa := none } }) (by decide)
  exact ⟨t, _, h, hr, rfl, rfl⟩

-- M14
theorem witness_ArtifactAccessesObserve : ∃ t r,
    exec (.miss .virt .user Priv.R 0 4 true) (block Params.default csrSv39 []) = .next t ∧ t.response = .miss r
      ∧ r = { status := .probeFail, err := some .v0, exc := none, mappings := [], afault := .none } := by
  obtain ⟨t, h, hr⟩ := nexts_with (.miss .virt .user Priv.R 0 4 true) (block Params.default csrSv39 []) _
    (show _ = some (Response.miss { status := .probeFail, err := some .v0, exc := none, mappings := [], afault := .none }) by decide)
  exact ⟨t, _, h, hr, rfl⟩

theorem witness_ExceptionTable : isBusError .read = true ∧ isBusError .v0 = false ∧ TlbId.vs1 ≠ .vs2 := by decide

theorem witness_CompositionIsTheSmallerMapping : entryAligned e1R242 ∧ entryAligned e2R242 ∧ e1R242.lowVA ≤ 0x201234
    ∧ 0x201234 ≤ e1R242.highVA ∧ e2R242.lowVA ≤ 0x201234 + e1R242.pa - e1R242.lowVA
    ∧ 0x201234 + e1R242.pa - e1R242.lowVA ≤ e2R242.highVA :=
  ⟨⟨21, by decide, by decide, by decide, by decide⟩, ⟨12, by decide, by decide, by decide, by decide⟩, by decide, by decide,
    by decide, by decide⟩

theorem witness_CapKeepsTheWindow : ∃ (m : Mapping) (va : U64), m.lowVA ≤ va ∧ va ≤ m.highVA
    ∧ m.lowVA.toNat / 2 ^ 32 = va.toNat / 2 ^ 32 ∧ m.highVA.toNat / 2 ^ 32 = va.toNat / 2 ^ 32 :=
  ⟨mS1, 0x40000FFF, by decide, by decide, by decide, by decide⟩

/-- A block whose `mstatus` holds a value. -/
def stMprv (mstatus : U64) (debug : Bool) : State :=
  { block Params.default Csrs.zero [] with
    env := { Env.launch with csr := { Csrs.zero with mstatus := mstatus }, inDebug := debug } }

theorem witness_RefreshMprvSelectsTheDataMode :
    (stMprv 0 false).mprv = false ∧ ((stMprv 0x20800 true).env.inDebug = true ∧ (stMprv 0x20800 true).mprven = false)
      ∧ ((stMprv 0x20800 false).mprv = true ∧ (stMprv 0x20800 false).env.inDebug = false ∧ (stMprv 0x20800 false).mpp ≠ 2)
      ∧ ((stMprv 0x21000 false).mprv = true ∧ (stMprv 0x21000 false).env.inDebug = false ∧ (stMprv 0x21000 false).mpp = 2) := by
  decide

theorem witness_PmpcfgReadGivesTheWord :
    (14 < 16 ∧ (stS4.params.xlen = .x64 → 14 % 2 = 0)) ∧ (stS4.params.xlen = .x64 ∧ 1 % 2 = 1)
      ∧ (block { Params.default with xlen := .x32 } Csrs.zero []).params.xlen = .x32 := by decide

theorem bank_stS4 : stS4.bankOk :=
  ⟨rfl, rfl, by intro c hc; simp [stS4] at hc; rcases hc with rfl | rfl <;> exact ⟨rfl, by decide⟩,
    by intro a ha; simp [stS4] at ha; rcases ha with rfl | rfl <;> exact ⟨by decide, by decide, by decide⟩⟩

theorem witness_PmpcfgWriteStoresTheCanonicalBytes :
    stS4.bankOk ∧ (0 < 16 ∧ (stS4.params.xlen = .x64 → 0 % 2 = 0)) ∧ (1 = 4 * 0 + 1 ∧ 1 < stS4.params.pmpN ∧ stS4.locked 1 = false)
      ∧ (stS4.params.xlen = .x64 ∧ 15 % 2 = 1) :=
  ⟨bank_stS4, by decide, by decide, by decide⟩

theorem witness_PmpaddrReadGivesTheEffectiveAddress :
    stS4.params.wf = true ∧ stS4.params.pmpN ≤ 2 ∧ (1 < stS4.params.pmpN ∧ cfgA (stS4.cfg 1) ≠ aNapot)
      ∧ cfgA ({ stS4 with pmpcfg := [0x19, 0] }.cfg 0) = aNapot := by decide

theorem witness_PmpaddrWriteStoresTheMaskedValue :
    stS4.params.wf = true ∧ stS4.bankOk
      ∧ (0 < stS4.params.pmpN ∧ stS4.locked 0 = false
          ∧ ¬(0 + 1 < stS4.params.pmpN ∧ stS4.locked (0 + 1) = true ∧ cfgA (stS4.cfg (0 + 1)) = aTor))
      ∧ (0 + 1 < stLocked.params.pmpN ∧ stLocked.locked (0 + 1) = true ∧ cfgA (stLocked.cfg (0 + 1)) = aTor) :=
  ⟨by decide, bank_stS4, by decide, by decide⟩

theorem witness_BankIsEmptied : clearsBank .pmpReset ∧ clearsBank .pmpNew ∧ clearsBank .pmpFree :=
  ⟨.inl rfl, .inr (.inl rfl), .inr (.inr rfl)⟩

theorem witness_OffTorNa4Geometry : 0 < stS4.params.pmpN ∧ 1 < stS4.params.pmpN ∧ stS4.params.pmpG ≤ 62 ∧ stS4.params.pmpG = 0 := by
  decide

theorem witness_NapotGeometry : 1 < stS4.params.pmpN ∧ stS4.params.pmpG ≤ 62 := by decide

theorem witness_OperandsOutsideTheirDomainRefused :
    (∃ s : State, s.input = [.command { format := .cmd8, bytes := [0x16] }] ∧ 0x15 < (0x16 : Byte).toNat)
      ∧ (3 < (4 : Byte).toNat ∧ 5 < (6 : Byte).toNat)
      ∧ ((3 : Priv) ≠ Priv.R ∧ (3 : Priv) ≠ Priv.W ∧ (3 : Priv) ≠ Priv.X)
      ∧ (virtOf .vs = true ∧ (block { Params.default with hasH := false } Csrs.zero []).params.hasH = false)
      ∧ baseNum (baseOf .user) < baseNum (block { Params.default with minMode := .supervisor } Csrs.zero []).params.minMode
      ∧ stS4.params.pmpN ≤ 2 ∧ 1 ≤ (block { Params.default with pmpN := 1, pmpG := 1 } Csrs.zero []).params.pmpG :=
  ⟨⟨{ stS1 with input := [.command { format := .cmd8, bytes := [0x16] }] }, rfl, by decide⟩, by decide, by decide, by decide,
    by decide, by decide, by decide⟩

theorem regions_stS4 (j lo hi : Nat) (h : stS4.region j = .active lo hi) : j = 1 ∧ lo = 0x100 ∧ hi = 0x1FF := by
  by_cases hj : j < 2
  · rcases (show j = 0 ∨ j = 1 by omega) with rfl | rfl
    · have : stS4.region 0 = .inactive := by decide
      rw [this] at h
      cases h
    · have : stS4.region 1 = .active 0x100 0x1FF := by decide
      rw [this] at h
      cases h
      exact ⟨rfl, rfl, rfl⟩
  · have : stS4.cfg j = 0 := if_neg hj
    rw [State.region, this] at h
    cases h

theorem witness_LowestRegionDecides : 0x1FF ≤ maxU64 ∧ stS4.decides 0x1FF (some 1) ∧ stS4.decides 0x200 none := by
  refine ⟨by decide, ⟨by decide, ⟨0x100, 0x1FF, by decide, by decide, by decide⟩, fun j hj lo hi h => ?_⟩, fun j hj lo hi h => ?_⟩
  · have := (regions_stS4 j lo hi h).1
    omega
  · obtain ⟨-, rfl, rfl⟩ := regions_stS4 j lo hi h
    omega

theorem witness_RefinementGrantsUniformAccesses :
    0x1FE ≤ 0x201 ∧ 0x201 ≤ maxU64 ∧ stS4.decides 0x1FE (some 1) := by
  refine ⟨by decide, by decide, by decide, ⟨0x100, 0x1FF, by decide, by decide, by decide⟩, fun j hj lo hi h => ?_⟩
  have := (regions_stS4 j lo hi h).1
  omega

theorem witness_RefinementRecordsItsGrant :
    stS4.permsOk ∧ 0x100 ≤ 0x103 ∧ 0x103 ≤ maxU64 ∧ stS4.pmpGrants .supervisor Priv.W 0x100 0x103 = false
      ∧ stS4.pmpGrants .supervisor Priv.R 0x100 0x103 = true ∧ stS4.params.pmpN ≠ 0 :=
  ⟨rfl, by decide, by decide, by decide, by decide, by decide⟩

-- B30
theorem witness_RegionInvalidationCutsTheCache :
    stS4.permsOk ∧ stS4.region 1 = .active 0x100 0x1FF
      ∧ 0x100 = (if stS4.params.unaligned = true ∨ stS4.params.wideRegs = true then 0x100 - 1 else 0x100)
      ∧ 0x1FF = (if stS4.params.unaligned = true ∨ stS4.params.wideRegs = true then min (0x1FF + 1) maxU64 else 0x1FF) :=
  ⟨rfl, by decide, by decide, by decide⟩

theorem witness_PteKinds : wfLeaf true false false = true ∧ wfLeaf true true true = true := by decide

theorem witness_SaveRestoreRoundTrip : stH1.linksOk ∧ stH1.LinkInv := ⟨links_stH1.links, links_stH1⟩

theorem witness_MalformedStreamStopsTheRestore :
    stH1.LinkInv ∧ malformed [] ∧ malformed (saveTag ++ (leBytes 4 43 ++ [])) ∧ malformed (saveTag ++ (leBytes 4 44 ++ []))
      ∧ malformed (0 :: terminator) :=
  ⟨links_stH1, .inl (by decide), .inr (.inr (.inl ⟨43, [], by decide, by decide, by decide, rfl⟩)),
    .inr (.inr (.inr ⟨[], rfl, .inl (by decide)⟩)), .inl (by decide)⟩

end Sys2Proof.Tests
end

section
/-! What a step can do, said once: the effect of every command that is neither a `MISS` nor a walker, the effect of a
directive, and the induction step of every invariant. -/

namespace Sys2Proof.Machine

/-! ### Commands other than `MISS` and the walkers -/

/-- The state a command leaves that is neither a `MISS` nor a walker. -/
inductive CommandEffect (s : State) : Instr → State → Prop
  | answer (i : Instr) (n : Nat) (r : Response) : CommandEffect s i ((s.draw n).respond r)
  | clearBank (i : Instr) (h : clearsBank i) : CommandEffect s i (s.clearBank.respond .noReply)
  | writeCfg (w : Nat) (v : U64) :
      CommandEffect s (.pmpcfgWrite w v) ((s.writeCfgWord w v (cfgWordBytes s.params.xlen)).respond .noReply)
  | writeAddr (j : Nat) (v : U64) : CommandEffect s (.pmpaddrWrite j v) ((s.writeAddr j v).respond .noReply)
  | publish : CommandEffect s .setAsid ((s.setPubKey s.liveKey).respond .noReply)
  | selectMode (mode : Mode5) : CommandEffect s .refreshMprv ((s.setDataMode mode).respond .noReply)
  | init : CommandEffect s .vmInit (s.initVm.respond .noReply)
  | free : CommandEffect s .vmFree ((((s.freeTlb .hs).freeTlb .vs1).freeTlb .vs2).respond .noReply)
  | inval (i : Instr) (h : isInval i) (lo hi : U64) (im : InvalMode) :
      CommandEffect s i ((s.tlbInvalidate s.invalTarget lo hi im).respond .noReply)
  | restore (stream : List Byte) (r : Response) :
      CommandEffect s (.vmRestore stream) ((s.restore stream).2.respond r)

/-- A region kind or PTE kind only answers. -/
theorem CommandEffect.respond (s : State) (i : Instr) (r : Response) : CommandEffect s i (s.respond r) :=
  .answer i 0 r

theorem CommandEffect.answerRegion (s : State) (i : Instr) (j : Nat) (r : Region) (p : Priv) (l : Bool) :
    CommandEffect s i (s.answerRegion j r p l) := by
  unfold State.answerRegion
  split <;> exact .respond s i _

/-- Every command that answers is a `MISS`, a walker, or has one of the effects listed. `exec_cases` says the same of the
stores; the effects also say what becomes of the bank, the key and the data mode. -/
theorem exec_effect {i : Instr} {s t : State} (h : exec i s = .next t) :
    isMiss i ∨ isWalker i ∨ CommandEffect s i t := by
  have stage1 (sv reg va req mode artifact) : isWalker (stage1Instr sv reg va req mode artifact) :=
    .inl ⟨sv, reg, va, req, mode, artifact, rfl⟩
  have stage2 (sv gpa req mode artifact) : isWalker (stage2Instr sv gpa req mode artifact) :=
    .inr ⟨sv, gpa, req, mode, artifact, rfl⟩
  cases i with
  | miss cls mode req va bytes artifact => exact .inl ⟨cls, mode, req, va, bytes, artifact, rfl⟩
  | walkSv32 reg va req mode art => exact .inr (.inl (stage1 .sv32 reg va req mode art))
  | walkSv39 reg va req mode art => exact .inr (.inl (stage1 .sv39 reg va req mode art))
  | walkSv48 reg va req mode art => exact .inr (.inl (stage1 .sv48 reg va req mode art))
  | walkSv32x4 gpa req mode art => exact .inr (.inl (stage2 .sv32 gpa req mode art))
  | walkSv39x4 gpa req mode art => exact .inr (.inl (stage2 .sv39 gpa req mode art))
  | walkSv48x4 gpa req mode art => exact .inr (.inl (stage2 .sv48 gpa req mode art))
  | vmInit => cases h; exact .inr (.inr .init)
  | vmFree => cases h; exact .inr (.inr .free)
  | invalAll => cases h; exact .inr (.inr (.inval _ (.inl rfl) _ _ _))
  | invalAllAsid a => cases h; exact .inr (.inr (.inval _ (.inr (.inl ⟨a, rfl⟩)) _ _ _))
  | invalVa va => cases h; exact .inr (.inr (.inval _ (.inr (.inr (.inl ⟨va, rfl⟩))) _ _ _))
  | invalVaAsid va a => cases h; exact .inr (.inr (.inval _ (.inr (.inr (.inr ⟨va, a, rfl⟩))) _ _ _))
  | setAsid => cases h; exact .inr (.inr .publish)
  | refreshMprv =>
    change execRefreshMprv s = .next t at h
    unfold execRefreshMprv at h
    split at h
    · split at h <;> cases h
      exact .inr (.inr (.selectMode _))
    · cases h
      exact .inr (.inr (.selectMode _))
  | pmpcfgRead w =>
    change execPmpcfgRead w s = .next t at h
    unfold execPmpcfgRead at h
    split at h <;> cases h <;> exact .inr (.inr (.respond _ _ _))
  | pmpcfgWrite w v =>
    change execPmpcfgWrite w v s = .next t at h
    unfold execPmpcfgWrite at h
    split at h <;> cases h
    · exact .inr (.inr (.writeCfg w v))
    · exact .inr (.inr (.respond _ _ _))
  | pmpaddrRead j => cases h; exact .inr (.inr (.respond _ _ _))
  | pmpaddrWrite j v => cases h; exact .inr (.inr (.writeAddr j v))
  | pmpReset => cases h; exact .inr (.inr (.clearBank _ (.inl rfl)))
  | pmpNew => cases h; exact .inr (.inr (.clearBank _ (.inr (.inl rfl))))
  | pmpFree => cases h; exact .inr (.inr (.clearBank _ (.inr (.inr rfl))))
  | vmSave => cases h; exact .inr (.inr (.answer _ _ _))
  | vmRestore stream => cases h; exact .inr (.inr (.restore stream _))
  | dumpTlb => cases h; exact .inr (.inr (.answer _ _ _))
  | dumpVs1Tlb => cases h; exact .inr (.inr (.answer _ _ _))
  | dumpVs2Tlb => cases h; exact .inr (.inr (.answer _ _ _))
  | pmpOff l x w r j => cases h; exact .inr (.inr (.answerRegion _ _ _ _ _ _))
  | pmpTor l x w r j => cases h; exact .inr (.inr (.answerRegion _ _ _ _ _ _))
  | pmpNa4 l x w r j =>
    change execPmpNa4 l x w r j s = .next t at h
    unfold execPmpNa4 at h
    split at h <;> cases h
    · exact .inr (.inr (.answerRegion _ _ _ _ _ _))
    · exact .inr (.inr (.respond _ _ _))
  | pmpNapot l x w r j => cases h; exact .inr (.inr (.answerRegion _ _ _ _ _ _))
  | pteInvalid x w r u f => cases h; exact .inr (.inr (.respond _ _ _))
  | pteReserved x u f => cases h; exact .inr (.inr (.respond _ _ _))
  | ptePointer u f => cases h; exact .inr (.inr (.respond _ _ _))
  | pteLeaf x w r u f => cases h; exact .inr (.inr (.respond _ _ _))

/-- What such a command leaves unchanged, and which command it is where the key, the data mode, `AFault` or a store
changes. -/
structure CommandFrame (s : State) (i : Instr) (t : State) : Prop where
  params : t.params = s.params
  env : t.env = s.env
  input : t.input = s.input
  mem : t.mem = s.mem
  traffic : t.traffic = s.traffic
  quiet : s.quiet → t.quiet
  pubKey : t.pubKey = s.pubKey ∨ i = .vmInit ∨ i = .setAsid
  dataMode : t.dataMode = s.dataMode ∨ i = .vmInit ∨ i = .refreshMprv
  afault : t.afault = s.afault ∨ i = .vmInit
  stores : (t.tlbs = s.tlbs ∧ t.aliases = s.aliases)
    ∨ i = .vmInit ∨ i = .vmFree ∨ isInval i ∨ ∃ stream, i = .vmRestore stream

theorem CommandEffect.frame {s t : State} {i : Instr} (h : CommandEffect s i t) : CommandFrame s i t := by
  cases h with
  | answer _ n r => exact ⟨rfl, rfl, rfl, rfl, rfl, id, .inl rfl, .inl rfl, .inl rfl, .inl ⟨rfl, rfl⟩⟩
  | clearBank _ hi => exact ⟨rfl, rfl, rfl, rfl, rfl, id, .inl rfl, .inl rfl, .inl rfl, .inl ⟨rfl, rfl⟩⟩
  | writeCfg w v =>
    obtain ⟨c, p, he⟩ := s.writeCfgWord_eq w v (cfgWordBytes s.params.xlen)
    rw [he]
    exact ⟨rfl, rfl, rfl, rfl, rfl, id, .inl rfl, .inl rfl, .inl rfl, .inl ⟨rfl, rfl⟩⟩
  | writeAddr j v =>
    obtain ⟨a, p, he, -⟩ := s.writeAddr_eq j v
    rw [he]
    exact ⟨rfl, rfl, rfl, rfl, rfl, id, .inl rfl, .inl rfl, .inl rfl, .inl ⟨rfl, rfl⟩⟩
  | publish => exact ⟨rfl, rfl, rfl, rfl, rfl, id, .inr (.inr rfl), .inl rfl, .inl rfl, .inl ⟨rfl, rfl⟩⟩
  | selectMode mode => exact ⟨rfl, rfl, rfl, rfl, rfl, id, .inl rfl, .inr (.inr rfl), .inl rfl, .inl ⟨rfl, rfl⟩⟩
  | init =>
    exact ⟨rfl, rfl, rfl, rfl, rfl, fun _ => ⟨rfl, rfl⟩, .inr (.inl rfl), .inr (.inl rfl), .inr rfl, .inr (.inl rfl)⟩
  | free =>
    obtain ⟨a, u, he⟩ := s.vmFree_eq
    rw [he]
    exact ⟨rfl, rfl, rfl, rfl, rfl, id, .inl rfl, .inl rfl, .inl rfl, .inr (.inr (.inl rfl))⟩
  | inval _ hi lo hi' im =>
    obtain ⟨a, u, he⟩ := s.tlbInvalidate_eq s.invalTarget lo hi' im
    rw [he]
    exact ⟨rfl, rfl, rfl, rfl, rfl, id, .inl rfl, .inl rfl, .inl rfl, .inr (.inr (.inr (.inl hi)))⟩
  | restore stream r =>
    obtain ⟨a, u, k, he⟩ := s.restore_eq stream
    rw [he]
    exact ⟨rfl, rfl, rfl, rfl, rfl, id, .inl rfl, .inl rfl, .inl rfl, .inr (.inr (.inr (.inr ⟨stream, rfl⟩)))⟩

/-- The bank and the permission cache are as they were. -/
structure SameBank (s t : State) : Prop where
  params : t.params = s.params
  pmpcfg : t.pmpcfg = s.pmpcfg
  pmpaddr : t.pmpaddr = s.pmpaddr
  pmpPerm : t.pmpPerm = s.pmpPerm

/-- A command writes the bank and its permission cache by clearing the bank or by a register write, or not at all. -/
theorem CommandEffect.bank {s t : State} {i : Instr} (h : CommandEffect s i t) :
    (clearsBank i ∧ t = s.clearBank.respond .noReply)
      ∨ (∃ w v, i = .pmpcfgWrite w v ∧ t = (s.writeCfgWord w v (cfgWordBytes s.params.xlen)).respond .noReply)
      ∨ (∃ j v, i = .pmpaddrWrite j v ∧ t = (s.writeAddr j v).respond .noReply)
      ∨ SameBank s t := by
  cases h with
  | answer _ n r => exact .inr (.inr (.inr ⟨rfl, rfl, rfl, rfl⟩))
  | clearBank _ h => exact .inl ⟨h, rfl⟩
  | writeCfg w v => exact .inr (.inl ⟨w, v, rfl, rfl⟩)
  | writeAddr j v => exact .inr (.inr (.inl ⟨j, v, rfl, rfl⟩))
  | publish => exact .inr (.inr (.inr ⟨rfl, rfl, rfl, rfl⟩))
  | selectMode mode => exact .inr (.inr (.inr ⟨rfl, rfl, rfl, rfl⟩))
  | init => exact .inr (.inr (.inr ⟨rfl, rfl, rfl, rfl⟩))
  | free =>
    obtain ⟨a, u, he⟩ := s.vmFree_eq
    rw [he]
    exact .inr (.inr (.inr ⟨rfl, rfl, rfl, rfl⟩))
  | inval _ h lo hi im =>
    obtain ⟨a, u, he⟩ := s.tlbInvalidate_eq s.invalTarget lo hi im
    rw [he]
    exact .inr (.inr (.inr ⟨rfl, rfl, rfl, rfl⟩))
  | restore stream r =>
    obtain ⟨a, u, k, he⟩ := s.restore_eq stream
    rw [he]
    exact .inr (.inr (.inr ⟨rfl, rfl, rfl, rfl⟩))

/-! ### What every command keeps -/

/-- A walker is one of the two runs. -/
theorem isWalker.runs {i : Instr} {s t : State} (hi : isWalker i) (h : exec i s = .next t) :
    ∃ artifact, (∃ sv reg va req mode, runStage1 sv reg va req mode artifact s = .next t)
      ∨ ∃ sv gpa req mode, runStage2 sv gpa req mode artifact s = .next t := by
  rcases hi with ⟨sv, reg, va, req, mode, artifact, rfl⟩ | ⟨sv, gpa, req, mode, artifact, rfl⟩
  · exact ⟨artifact, .inl ⟨sv, reg, va, req, mode, by cases sv <;> exact h⟩⟩
  · exact ⟨artifact, .inr ⟨sv, gpa, req, mode, by cases sv <;> exact h⟩⟩

/-- A property that lookups and physical checks keep, and to which `AFault` and the answer do not matter, is kept by a `MISS`
and by a walker. -/
theorem exec_keeps_of_access {linked : Prop} {s t : State} {I J : State → Prop} {i : Instr}
    (K : ∀ artifact, AccessKeeps linked s artifact I J) (hs : I s) (hA : ∀ u a, I u → I (u.setAFault a))
    (hR : ∀ u r, I u → I (u.respond r)) (hi : isMiss i ∨ isWalker i) (h : exec i s = .next t) : I t := by
  rcases hi with ⟨cls, mode, req, va, bytes, artifact, rfl⟩ | hw
  · obtain ⟨u, r, hu, rfl⟩ := execMiss_keeps (K artifact) hs (hA s .none hs) cls mode req va bytes t h
    exact hR u _ hu
  · obtain ⟨artifact, hrun⟩ := hw.runs h
    obtain ⟨u, r, hu, rfl⟩ := walker_keeps (K artifact).toMissKeeps (fun _ => trivial) hA hs t hrun
    exact hR u _ hu

/-- Such a property is kept by every command, when the other commands keep it. -/
theorem exec_keeps {linked : Prop} {s t : State} {I J : State → Prop} {i : Instr}
    (K : ∀ artifact, AccessKeeps linked s artifact I J) (hs : I s) (hA : ∀ u a, I u → I (u.setAFault a))
    (hR : ∀ u r, I u → I (u.respond r)) (hE : CommandEffect s i t → I t) (h : exec i s = .next t) : I t := by
  rcases exec_effect h with hm | hw | he
  · exact exec_keeps_of_access K hs hA hR (.inl hm) h
  · exact exec_keeps_of_access K hs hA hR (.inr hw) h
  · exact hE he

/-! ### Steps -/

/-- A directive sets the inputs, or bytes of memory inside the address space. -/
theorem applyDirective_cases {d : Directive} {s t : State} (h : applyDirective d s = .next t) :
    (∃ env, t = s.setEnv env)
      ∨ ∃ n a v, a + n ≤ 2 ^ 64 ∧ t = s.setMem (s.mem.write false a n v) := by
  cases d with
  | mem n a v =>
    change (if a.toNat + n ≤ 2 ^ 64 then _ else _) = _ at h
    split at h
    · rename_i hin
      cases h
      exact .inr ⟨n, a.toNat, v, hin, rfl⟩
    · cases h
  | csr f v => cases h; exact .inl ⟨_, rfl⟩
  | mode m => cases h; exact .inl ⟨_, rfl⟩
  | debug on => cases h; exact .inl ⟨_, rfl⟩
  | endian i big => cases h; exact .inl ⟨_, rfl⟩
  | absent ranges => cases h; exact .inl ⟨_, rfl⟩
  | pma denials => cases h; exact .inl ⟨_, rfl⟩

/-- A property every step keeps: taking a line off the script, refusing it, setting the inputs or memory and running the
line's instruction keep it. -/
theorem step_keeps {P : State → Prop} {s t : State} (hs : P s) (hbegin : ∀ rest, P s → P (s.begin rest))
    (hrefuse : ∀ u, P u → P (u.respond .refused)) (henv : ∀ u env, P u → P (u.setEnv env))
    (hmem : ∀ (u : State) (a n v : Nat), a + n ≤ 2 ^ 64 → P u → P (u.setMem (u.mem.write false a n v)))
    (hexec : ∀ p rest i, s.input = .command p :: rest → decode p = .ok i → P (s.begin rest) →
      exec i (s.begin rest) = .next t → P t)
    (h : step s = .next t) : P t := by
  unfold step at h
  split at h
  · cases h
    exact hs
  · rename_i p rest hin
    unfold runPacket at h
    split at h
    · rename_i i hi
      exact hexec p rest i hin hi (hbegin rest hs) h
    · cases h
      exact hrefuse _ (hbegin rest hs)
  · rename_i d rest hin
    rcases applyDirective_cases h with ⟨env, rfl⟩ | ⟨n, a, v, hav, rfl⟩
    · exact henv _ env (hbegin rest hs)
    · exact hmem _ a n v hav (hbegin rest hs)

end Sys2Proof.Machine
end

section
/-! Power-on: the reset values and the invariants (10_state.md R48). -/

namespace Sys2Proof.Machine

/-! ### The bank at power-on -/

theorem State.cfg_of_zero {s : State} (h : s.pmpcfg = List.replicate s.params.pmpN 0) (i : Nat) : s.cfg i = 0 := by
  unfold State.cfg
  split
  · rename_i hi
    simp [h, List.getD_eq_getElem?_getD, hi]
  · rfl

theorem State.addr_of_zero {s : State} (h : s.pmpaddr = List.replicate s.params.pmpN 0) (i : Nat) : s.addr i = 0 := by
  unfold State.addr
  split
  · rename_i hi
    simp [h, List.getD_eq_getElem?_getD, hi]
  · rfl

/-- A zero config byte is mode OFF. -/
theorem State.region_of_cfg_zero {s : State} {i : Nat} (h : s.cfg i = 0) : s.region i = .inactive := by
  unfold State.region
  simp [h, cfgA, regionOff]

theorem State.locked_of_cfg_zero {s : State} {i : Nat} (h : s.cfg i = 0) : s.locked i = false := by
  simp [State.locked, h, cfgL]

theorem cfgCanonical_zero (p : Params) : cfgCanonical p 0 :=
  ⟨rfl, fun _ => by decide⟩

theorem addrCanonical_zero (p : Params) : addrCanonical p 0 :=
  ⟨Nat.pow_pos (by decide), Nat.pow_pos (by decide), Nat.zero_mod _⟩

/-- A bank of zero registers is in its stored form. -/
theorem State.bankOk_of_zero {s : State} (hc : s.pmpcfg = List.replicate s.params.pmpN 0)
    (ha : s.pmpaddr = List.replicate s.params.pmpN 0) : s.bankOk := by
  refine ⟨by rw [hc, List.length_replicate], by rw [ha, List.length_replicate], fun c h => ?_, fun a h => ?_⟩
  · rw [hc] at h
    rw [List.eq_of_mem_replicate h]
    exact cfgCanonical_zero _
  · rw [ha] at h
    rw [List.eq_of_mem_replicate h]
    exact addrCanonical_zero _

/-! ### An empty permission cache -/

theorem PmpPerm.lookup_empty (b : BaseMode) (k : AccessKind) (x : Nat) :
    PermMap.lookup x (PmpPerm.empty.get b k) = Priv.NONE := by
  cases b <;> cases k <;> rfl

/-- Without grants the cache claims nothing. -/
theorem State.cacheSound_of_empty {s : State} (h : s.pmpPerm = PmpPerm.empty) : s.cacheSound := by
  intro b k x _
  rw [h, PmpPerm.lookup_empty]
  exact BitVec.zero_and

/-- Without grants no access is let through. -/
theorem State.cacheConfined_of_empty {s : State} (h : s.pmpPerm = PmpPerm.empty) : s.cacheConfined := by
  intro mode req lo hi _ hreq hle _ hgrants
  have hlow := (List.all_eq_true.1 hgrants) 0 (List.mem_range.2 (by omega))
  rw [h, PmpPerm.lookup_empty] at hlow
  have hzero : Priv.NONE &&& req = 0 := BitVec.zero_and
  simp only [satisfies, hzero, beq_iff_eq] at hlow
  rw [← hlow] at hreq
  exact absurd hreq (by decide)

/-! ### Empty stores -/

theorem State.tlb_of_empty {s : State} (h : s.tlbs = Tlbs.empty) (t : TlbId) : s.tlb t = [] := by
  unfold State.tlb
  rw [h]
  cases t <;> rfl

theorem State.aliasesOf_of_empty {s : State} (h : s.aliases = AliasStore.empty) (mode : Mode5) :
    s.aliasesOf mode = [] := by
  unfold State.aliasesOf
  rw [h]
  cases mode <;> rfl

/-- Empty stores are linked. -/
theorem State.linkInv_of_empty {s : State} (ht : s.tlbs = Tlbs.empty) (ha : s.aliases = AliasStore.empty) :
    s.LinkInv := by
  have noEntry := State.tlb_of_empty ht
  have noAliases := State.aliasesOf_of_empty ha
  refine ⟨⟨fun t e he => ?_, ?_⟩, noAliases _, fun mode a h => ?_⟩
  · rw [noEntry] at he
    cases he
  · rw [State.entries_tlb, noEntry, noEntry, noEntry]
    exact List.nodup_nil
  · rw [noAliases] at h
    cases h

/-! ### Power-on -/

theorem State.powerOn_atReset (p : Params) (env : Env) (mem : Memory) : (State.powerOn p env mem).AtReset where
  cfg := State.cfg_of_zero rfl
  addr := State.addr_of_zero rfl
  regions i := ⟨State.region_of_cfg_zero (State.cfg_of_zero rfl i), State.locked_of_cfg_zero (State.cfg_of_zero rfl i)⟩
  cache := PmpPerm.lookup_empty
  tlbs := State.tlb_of_empty rfl
  aliases := State.aliasesOf_of_empty rfl
  key := rfl
  flags := ⟨rfl, rfl⟩
  afault := rfl
  dataMode := rfl

/-- Every invariant holds at power-on with well-formed memory. -/
theorem State.powerOn_invariants (p : Params) (env : Env) (mem : Memory) (hw : mem.wf = true)
    (hin : ∀ c ∈ mem, c.1 < 2 ^ 64) :
    (State.powerOn p env mem).BlockInv ∧ (State.powerOn p env mem).LinkInv ∧ (State.powerOn p env mem).entriesOk
      ∧ (State.powerOn p env mem).cacheSound ∧ (State.powerOn p env mem).cacheConfined := by
  refine ⟨⟨⟨hw, hin⟩, State.bankOk_of_zero rfl rfl, rfl, rfl, rfl⟩, State.linkInv_of_empty rfl rfl, fun t e he => ?_,
    State.cacheSound_of_empty rfl, State.cacheConfined_of_empty rfl⟩
  rw [State.tlb_of_empty rfl] at he
  cases he

end Sys2Proof.Machine

section
open Sys2Proof Sys2Proof.Machine

/-- Settles O4: each element of the power-on state is its reset value. -/
theorem powerOnGivesResetValues : Obligations.PowerOnGivesResetValues :=
  ⟨State.powerOn_atReset, rfl⟩

/-- Settles O6: the bank is zero and the cache and the stores are empty. -/
theorem invariantsHoldAtPowerOn : Obligations.InvariantsHoldAtPowerOn :=
  ⟨State.powerOn_invariants, State.powerOn_invariants Params.default Env.launch [] rfl (by simp)⟩

end
end

section
/-! Properties that do not look at the stores: an interface that asks only for what page-table accesses and physical checks
do, and the statements that follow from it (10_state.md R42, R43, R21). -/

namespace Sys2Proof.Machine

/-! ### Changes of the stores -/

/-- `t` is `s` but for the TLBs, the aliases, the count of draws and the handles given out. -/
def StoreStep (s t : State) : Prop :=
  t = { s with tlbs := t.tlbs, aliases := t.aliases, choice := t.choice, nextHandle := t.nextHandle }

theorem StoreStep.draw (s : State) (n : Nat) : StoreStep s (s.draw n) :=
  rfl

theorem StoreStep.tlbInsert (s : State) (e : Entry) : StoreStep s (s.tlbInsert e).2 :=
  rfl

theorem StoreStep.deleteAll (s : State) (l : List Entry) : StoreStep s (l.foldl State.tlbDelete s) := by
  obtain ⟨a, u, h⟩ := State.foldl_tlbDelete_eq l s
  rw [h]
  rfl

theorem StoreStep.rekey (s : State) (mode : Mode5) (e : Entry) : StoreStep s (s.rekey mode e).2 := by
  obtain ⟨a, u, h⟩ := (s.rekey_eq mode e).1
  rw [h]
  rfl

theorem StoreStep.installChunk (s : State) (mode : Mode5) (c : Chunk) (m : Mapping) :
    StoreStep s (s.installChunk mode c m) := by
  obtain ⟨a, u, h⟩ := s.installChunk_eq mode c m
  rw [h]
  rfl

/-! ### The interface -/

/-- A property of states, given for each value of `s2Active`, that fixes the parameters and the inputs, does not look at the
stores, and is kept by page-table accesses, by physical checks and by entering and leaving stage 2. -/
structure MemoryKeeps (s0 : State) (P : Bool → State → Prop) : Prop where
  frame : ∀ b s, P b s → s.params = s0.params ∧ s.env = s0.env
  store : ∀ b s t, StoreStep s t → P b s → P b t
  read : ∀ b s t addr fmt, P b s → P b (s.memRead t addr (pteBytes fmt)).2
  write : ∀ b s t addr fmt v, P b s → P b (s.memWrite t addr (pteBytes fmt) v).2
  check : ∀ b (s : State) mode req lo hi, P b s → P b (s.checkPhysical mode req lo hi).2
  beginStage2 : ∀ (s : State) va, s0.hgatpMode ≠ 0 → P false s → P true (s.beginStage2 va)
  endStage2 : ∀ s : State, P true s → P false s.endStage2

theorem MemoryKeeps.lookup {s0 : State} {P : Bool → State → Prop} (K : MemoryKeeps s0 P) (artifact b : Bool) :
    LookupKeeps False s0 artifact (fun _ => True) (P b) where
  frame := K.frame b
  read := K.read b
  write s t addr fmt _ _ _ h _ := K.write b s t addr fmt _ h
  links h := h.elim
  draw s n h := K.store b s _ (.draw s n) h
  delete s _ l _ h _ := K.store b s _ (.deleteAll s l) h
  rekey s _ mode e _ h _ := K.store b s _ (.rekey s mode e) h
  insert s _ _ _ _ e _ h _ := K.store b s _ (.tlbInsert s e) h

/-- Such a property is kept by everything a `MISS` or a walker does. -/
theorem MemoryKeeps.access {s0 : State} {P : Bool → State → Prop} (K : MemoryKeeps s0 P) (artifact : Bool) :
    AccessKeeps False s0 artifact (P false) (P true) where
  toLookupKeeps := K.lookup artifact false
  inner := K.lookup artifact true
  beginStage2 := K.beginStage2
  endStage2 := K.endStage2
  check := K.check false
  install s _ x _ mode c _ _ h _ :=
    K.store false (s.draw 1) _ (.installChunk _ mode c (s.chunkMapping mode x c)) (K.store false s _ (.draw s 1) h)

/-- The physical check changes the permission cache and `AFault` only. -/
theorem State.checkPhysical_eq (s : State) (mode : Mode5) (req : Priv) (lo hi : Nat) :
    ∃ p a, (s.checkPhysical mode req lo hi).2 = (s.setPmpPerm p).setAFault a :=
  s.pmpRefine_eq mode req lo hi

/-! ### The labels of page-table accesses (10_state.md R42, R43) -/

/-- The access carried `PTWActive`, has the width of an entry, and carried `s2Active` only with stage 2 on. -/
def PteAccess.labelled (s0 : State) (a : PteAccess) : Prop :=
  a.ptwActive = true ∧ (a.size = 4 ∨ a.size = 8) ∧ (a.s2Active = true → s0.hgatpMode ≠ 0)

/-- Every recorded access is labelled, and stage 2 is active only where it is on. -/
structure LabelInv (s0 : State) (b : Bool) (s : State) : Prop where
  params : s.params = s0.params
  env : s.env = s0.env
  s2Active : s.s2Active = b
  stage2On : b = true → s0.hgatpMode ≠ 0
  traffic : ∀ a ∈ s.traffic, a.labelled s0

theorem pteBytes_eq (fmt : PteFormat) : pteBytes fmt = 4 ∨ pteBytes fmt = 8 := by
  cases fmt
  · exact .inl rfl
  · exact .inr rfl

/-- One more labelled access, in a state that agrees outside what an access changes. -/
theorem LabelInv.access {s0 s t : State} {b : Bool} (h : LabelInv s0 b s) (f : WalkFrame s t) {a : PteAccess}
    (ht : t.traffic = s.traffic ++ [a]) (ha : a.ptwActive = true) {fmt : PteFormat} (hsize : a.size = pteBytes fmt)
    (hs2 : a.s2Active = s.s2Active) : LabelInv s0 b t := by
  refine ⟨f.params.trans h.params, f.env.trans h.env, f.s2Active.trans h.s2Active, h.stage2On, fun c hc => ?_⟩
  rw [ht, List.mem_append, List.mem_singleton] at hc
  rcases hc with hc | rfl
  · exact h.traffic c hc
  · exact ⟨ha, hsize ▸ pteBytes_eq fmt, fun hb => h.stage2On (by rw [← h.s2Active, ← hs2, hb])⟩

theorem memoryKeeps_labels (s0 : State) : MemoryKeeps s0 (LabelInv s0) where
  frame _ _ h := ⟨h.params, h.env⟩
  store _ s t hst h := by
    rw [hst]
    exact ⟨h.params, h.env, h.s2Active, h.stage2On, h.traffic⟩
  read _ s t addr fmt h := by
    obtain ⟨-, f, -, -, a, ht, -, -, hsize, ha, hs2, -⟩ := s.memRead_spec t addr (pteBytes fmt)
    exact h.access f ht ha hsize hs2
  write _ s t addr fmt v h := by
    obtain ⟨-, f, -, -, a, ht, -, -, hsize, -, ha, hs2, -⟩ := s.memWrite_spec t addr (pteBytes fmt) v
    exact h.access f ht ha hsize hs2
  check _ s mode req lo hi h := by
    obtain ⟨p, a, he⟩ := s.checkPhysical_eq mode req lo hi
    rw [he]
    exact ⟨h.params, h.env, h.s2Active, h.stage2On, h.traffic⟩
  beginStage2 s va hon h := ⟨h.params, h.env, rfl, fun _ => hon, h.traffic⟩
  endStage2 s h := ⟨h.params, h.env, rfl, fun hb => (nomatch hb), h.traffic⟩

/-! ### A `MISS` answers (44_host_ops.md R323) -/

/-- The parameters and the inputs are those of `s0`. -/
def SameInputs (s0 s : State) : Prop :=
  s.params = s0.params ∧ s.env = s0.env

theorem memoryKeeps_inputs (s0 : State) : MemoryKeeps s0 (fun _ => SameInputs s0) where
  frame _ _ h := h
  store _ s t hst h := by
    rw [hst]
    exact h
  read _ s t addr fmt h := by
    obtain ⟨-, f, -⟩ := s.memRead_spec t addr (pteBytes fmt)
    exact ⟨f.params.trans h.1, f.env.trans h.2⟩
  write _ s t addr fmt v h := by
    obtain ⟨-, f, -⟩ := s.memWrite_spec t addr (pteBytes fmt) v
    exact ⟨f.params.trans h.1, f.env.trans h.2⟩
  check _ s mode req lo hi h := by
    obtain ⟨p, a, he⟩ := s.checkPhysical_eq mode req lo hi
    rw [he]
    exact h
  beginStage2 _ _ _ h := h
  endStage2 _ h := h

/-- Where every active `MODE` has a walker, no walk of an active regime is stuck (93_implementation_defined.md U3): a guest
caller is admitted only with `HAS_H`. -/
theorem State.modesOk.chunkWalker {s : State} (h : s.modesOk) {mode : Mode5} {req : Priv} {t1 : TlbId}
    (hop : missOperandsOk s.params mode req = true) (hact : s.activeTlb mode = some t1) : ¬s.noChunkWalker t1 := by
  obtain ⟨hsatp, hvsatp, hhgatp⟩ := h
  have hasH : virtOf mode = true → s.params.hasH = true := by
    intro hv
    simp only [missOperandsOk, modeAllowed, hv, Bool.and_eq_true] at hop
    simpa using hop.2.1
  have stage2 : virtOf mode = true → s.hgatpMode ≠ 0 → ¬s.noStage2Walker := by
    rintro hv h0 (hn | hn)
    · exact absurd (hhgatp h0) (by simp [hn])
    · exact absurd (hasH hv) (by simp [hn])
  unfold State.activeTlb at hact
  split at hact
  · cases hact
  split at hact
  · rename_i hv
    split at hact
    · rename_i h0
      cases hact
      rintro ((hn | ⟨-, hg, hn⟩) | ⟨-, hg, hn⟩)
      · exact absurd (hvsatp (by simpa using h0)) (by simp [hn])
      · exact stage2 hv hg hn
      · exact stage2 hv hg hn
    · split at hact
      · rename_i h0
        cases hact
        rintro (hn | ⟨hn, -⟩)
        · exact stage2 hv (by simpa using h0) hn
        · cases hn
      · cases hact
  · split at hact
    · rename_i h0
      cases hact
      rintro (hn | ⟨hn, -⟩)
      · exact absurd (hsatp (by simpa using h0)) (by rw [show walkerOf _ _ = none from hn]; simp)
      · cases hn
    · cases hact

/-- The end of a chunk answers when the rest of the loop does. -/
theorem finishChunk_next {req : Priv} {mode : Mode5} {last lo : U64} {done : List Mapping} {c : Chunk} {m : Mapping}
    {s s0 : State} (hs : SameInputs s0 s)
    {rest : U64 → List Mapping → State → Host.Outcome State Fault Refusal}
    (hrest : ∀ lo done u, SameInputs s0 u → ∃ t, rest lo done u = .next t) :
    ∃ t, finishChunk req mode last lo done c m s rest = .next t := by
  have hinst : SameInputs s0 (s.installChunk mode c m) :=
    (memoryKeeps_inputs s0).store false s _ (.installChunk s mode c m) hs
  unfold finishChunk
  dsimp only
  generalize (m.lowPA + (lo - m.lowVA)).toNat = a
  generalize (m.lowPA + ((if last < m.highVA then last else m.highVA) - m.lowVA)).toNat = b
  have hck := (memoryKeeps_inputs s0).check false _ mode req a b hinst
  rcases hr : (s.installChunk mode c m).checkPhysical mode req a b with ⟨ok, u⟩
  rw [hr] at hck
  cases ok with
  | false => exact ⟨_, rfl⟩
  | true =>
    dsimp only
    split
    · exact ⟨_, rfl⟩
    · exact hrest _ _ u hck

/-- The span loop answers when no lookup of its regime can be stuck. -/
theorem spanLoop_next {s0 : State} {t1 : TlbId} (hw : ¬s0.noChunkWalker t1) (req : Priv) (mode : Mode5) (artifact : Bool)
    (last : U64) (n : Nat) (lo : U64) (done : List Mapping) (s : State) (hs : SameInputs s0 s) :
    ∃ t, spanLoop t1 req mode artifact last n lo done s = .next t := by
  induction n generalizing lo done s with
  | zero => exact ⟨_, rfl⟩
  | succ n ih =>
    have hc := lookupChunk_keeps ((memoryKeeps_inputs s0).access artifact).toMissKeeps trivial t1 trivial lo req mode s hs
    unfold spanLoop
    cases hr : lookupChunk t1 lo req mode artifact s with
    | stuck f =>
      rw [hr] at hc
      exact absurd hc.2 hw
    | err f u => exact ⟨_, rfl⟩
    | ok c u =>
      rw [hr] at hc
      exact finishChunk_next (s := u.draw 1) (s0 := s0) hc.1 ih

/-- A virtual `MISS` is never stuck where every active `MODE` has a walker. -/
theorem execMiss_virt_next {s : State} (h : s.modesOk) (mode : Mode5) (req : Priv) (va : U64) (bytes : Nat)
    (artifact : Bool) : ∃ t, execMiss .virt mode req va bytes artifact s = .next t := by
  unfold execMiss
  split
  · rename_i hop
    rw [Bool.and_eq_true] at hop
    dsimp only
    unfold virtMiss
    cases hact : (s.setAFault .none).activeTlb mode with
    | none => exact ⟨_, rfl⟩
    | some t1 =>
      exact spanLoop_next (h.chunkWalker hop.1 hact) req mode artifact _ bytes va [] _ (s0 := s) ⟨rfl, rfl⟩
  · exact ⟨_, rfl⟩

end Sys2Proof.Machine

section
open Sys2Proof Sys2Proof.Machine

/-- Settles O15: the labels are an invariant of the accesses a command records, stage 2 being entered only where it is on. -/
theorem pageTableTrafficIsLabelled : Obligations.PageTableTrafficIsLabelled := by
  intro i s t hq htraffic h
  have start : LabelInv s false s := ⟨rfl, rfl, hq.2, fun hb => (nomatch hb), fun a ha => by rw [htraffic] at ha; cases ha⟩
  have kept : LabelInv s false t := by
    refine exec_keeps (memoryKeeps_labels s).access start (fun u _ hu => ?_) (fun u _ hu => ?_) (fun he => ?_) h
    · exact ⟨hu.params, hu.env, hu.s2Active, hu.stage2On, hu.traffic⟩
    · exact ⟨hu.params, hu.env, hu.s2Active, hu.stage2On, hu.traffic⟩
    · have f := he.frame
      exact ⟨f.params, f.env, (f.quiet hq).2, start.stage2On, fun a ha => start.traffic a (f.traffic ▸ ha)⟩
  exact kept.traffic

/-- Settles O35: no lookup of an active regime is stuck, and the span loop runs on a count. -/
theorem missAnswers : Obligations.MissAnswers := by
  intro mode req va bytes artifact s hmodes
  obtain ⟨t, ht⟩ := execMiss_virt_next hmodes mode req va bytes artifact
  obtain ⟨u, r, -, rfl⟩ := execMiss_keeps ((memoryKeeps_inputs s).access artifact) ⟨rfl, rfl⟩ ⟨rfl, rfl⟩ .virt mode req va
    bytes t ht
  exact ⟨_, r, ht, rfl⟩

end
end

section
/-! The bank keeps its stored form, the permission cache its canonical form, memory its canonical form and the transient
flags are false between commands (10_state.md R25, R26, R28, R42, R43). -/

namespace Sys2Proof.Machine

/-! ### What the register writes store -/

/-- Bits 6:5 of a stored config byte are zero. -/
theorem canonCfg_reserved (p : Params) {old new : Byte} : canonCfg p old new &&& 0x60 = 0 := by
  unfold canonCfg
  dsimp only
  split
  · rw [BitVec.and_or_distrib_right, BitVec.and_assoc, BitVec.and_assoc, BitVec.and_assoc]
    simp
  · rw [BitVec.and_assoc]
    simp

/-- A refused NA4 keeps the old mode. -/
theorem cfgA_keepMode (n old : Byte) : cfgA ((n &&& 0xE7) ||| (old &&& 0x18)) = cfgA old := by
  unfold cfgA
  ext i hi
  have : i = 0 ∨ i = 1 := by omega
  rcases this with rfl | rfl <;> simp

/-- A written config byte is in its stored form (43_pmp.md R263, R270). -/
theorem cfgCanonical_canonCfg {p : Params} {old : Byte} (h : cfgCanonical p old) (new : Byte) :
    cfgCanonical p (canonCfg p old new) := by
  refine ⟨canonCfg_reserved p, fun hG => ?_⟩
  unfold canonCfg
  dsimp only
  split
  · rw [cfgA_keepMode]
    exact h.2 hG
  · rename_i hn
    exact fun hna4 => hn ⟨hG, hna4⟩

theorem lowMask_toNat_lt (n : Nat) : (lowMask n).toNat < 2 ^ n := by
  unfold lowMask
  rw [BitVec.toNat_setWidth, BitVec.toNat_allOnes]
  have hle := Nat.mod_le (2 ^ n - 1) (2 ^ 64)
  have hpos := Nat.pow_pos (n := n) (show 0 < 2 by decide)
  omega

/-- A word with its `n` low bits cleared is a multiple of `2^n`. -/
theorem clear_lowMask_mod (v : U64) (n : Nat) : (v &&& ~~~(lowMask n)).toNat % 2 ^ n = 0 := by
  refine Nat.eq_of_testBit_eq fun i => ?_
  rw [Nat.testBit_mod_two_pow, Nat.zero_testBit, BitVec.testBit_toNat, BitVec.getLsbD_and, BitVec.getLsbD_not, lowMask,
    BitVec.getLsbD_setWidth, BitVec.getLsbD_allOnes]
  by_cases hn : i < n <;> by_cases h64 : i < 64 <;> simp [hn, h64]

theorem and_toNat_le_right (a b : U64) : (a &&& b).toNat ≤ b.toNat := by
  rw [BitVec.toNat_and]
  exact Nat.and_le_right

theorem and_toNat_le_left (a b : U64) : (a &&& b).toNat ≤ a.toNat := by
  rw [BitVec.toNat_and]
  exact Nat.and_le_left

/-- Four times the mask of implemented address bits stays within the address space. -/
theorem extMask_toNat_lt (p : Params) : 4 * (extMask p).toNat < 2 ^ p.paBits := by
  unfold extMask
  rw [BitVec.toNat_ushiftRight, Nat.shiftRight_eq_div_pow]
  have := lowMask_toNat_lt p.paBits
  omega

/-- The value a write of an address word stores is below the two masks, and a multiple of the grain. -/
theorem canonAddr_bounds (p : Params) (v : U64) :
    (canonAddr p v).toNat ≤ (extMask p).toNat ∧ (canonAddr p v).toNat ≤ (lowMask (addrWordBits p.xlen)).toNat
      ∧ (canonAddr p v).toNat % 2 ^ (p.pmpG - 1) = 0 := by
  have hmasked : (v &&& extMask p &&& lowMask (addrWordBits p.xlen)).toNat ≤ (extMask p).toNat :=
    Nat.le_trans (and_toNat_le_left _ _) (and_toNat_le_right _ _)
  have hword := and_toNat_le_right (v &&& extMask p) (lowMask (addrWordBits p.xlen))
  unfold canonAddr
  dsimp only
  split
  · exact ⟨Nat.le_trans (and_toNat_le_left _ _) hmasked, Nat.le_trans (and_toNat_le_left _ _) hword, clear_lowMask_mod _ _⟩
  · rename_i hG
    refine ⟨hmasked, hword, ?_⟩
    rw [show p.pmpG - 1 = 0 by omega, Nat.pow_zero, Nat.mod_one]

/-- A written address word is in its stored form (43_pmp.md R265). -/
theorem addrCanonical_canonAddr (p : Params) (v : U64) : addrCanonical p (canonAddr p v) := by
  obtain ⟨hext, hword, hgrain⟩ := canonAddr_bounds p v
  have hbits := extMask_toNat_lt p
  refine ⟨by omega, ?_, hgrain⟩
  have := lowMask_toNat_lt (addrWordBits p.xlen)
  cases hx : p.xlen <;> rw [hx] at hword this <;> exact Nat.lt_of_le_of_lt hword this

/-! ### The bank -/

/-- The stored form is about the registers and the parameters. -/
theorem State.bankOk.congr {s t : State} (h : s.bankOk) (hp : t.params = s.params) (hc : t.pmpcfg = s.pmpcfg)
    (ha : t.pmpaddr = s.pmpaddr) : t.bankOk := by
  unfold State.bankOk
  rw [hp, hc, ha]
  exact h

/-- A config byte of the bank is in its stored form. -/
theorem State.bankOk.cfg {s : State} (h : s.bankOk) {i : Nat} (hi : i < s.params.pmpN) :
    cfgCanonical s.params (s.cfg i) := by
  obtain ⟨hlen, -, hcfg, -⟩ := h
  have hi' : i < s.pmpcfg.length := by omega
  rw [State.cfg, if_pos hi, List.getD_eq_getElem?_getD, List.getElem?_eq_getElem hi', Option.getD_some]
  exact hcfg _ (List.getElem_mem hi')

theorem State.bankOk.writeCfgByte {s : State} (h : s.bankOk) {i : Nat} (hi : i < s.params.pmpN) (new : Byte) :
    (s.writeCfgByte i new).bankOk := by
  obtain ⟨p, he⟩ := s.writeCfgByte_eq i new hi
  rw [he]
  split
  · exact h
  · have hnew := cfgCanonical_canonCfg (h.cfg hi) new
    obtain ⟨hlc, hla, hcfg, haddr⟩ := h
    refine ⟨(List.length_set ..).trans hlc, hla, fun c hc => ?_, haddr⟩
    rcases List.mem_or_eq_of_mem_set hc with hc | rfl
    · exact hcfg c hc
    · exact hnew

theorem State.bankOk.writeCfgWord {s : State} (h : s.bankOk) (w : Nat) (value : U64) (k : Nat) :
    (s.writeCfgWord w value k).bankOk := by
  induction k generalizing s with
  | zero => exact h
  | succ k ih =>
    unfold State.writeCfgWord
    split
    · rename_i hi
      exact ih (h.writeCfgByte hi _)
    · exact ih h

theorem State.bankOk.writeAddr {s : State} (h : s.bankOk) (i : Nat) (value : U64) : (s.writeAddr i value).bankOk := by
  obtain ⟨a, p, he, ha⟩ := s.writeAddr_eq i value
  rw [he]
  rcases ha with rfl | ⟨-, -, rfl⟩
  · exact h
  · obtain ⟨hlc, hla, hcfg, haddr⟩ := h
    refine ⟨hlc, (List.length_set ..).trans hla, hcfg, fun c hc => ?_⟩
    rcases List.mem_or_eq_of_mem_set hc with hc | rfl
    · exact haddr c hc
    · exact addrCanonical_canonAddr s.params value

/-! ### The permission maps -/

theorem PmpPerm.wf_assign {p : PmpPerm} (h : p.wf = true) (b : BaseMode) (k : AccessKind) (lo hi : Nat) (g : Priv) :
    (p.assign b k lo hi g).wf = true :=
  (p.assign_spec b k lo hi g h).1

/-- The grants after an assignment: old, or the one assigned. -/
theorem PmpPerm.lookup_assign {p : PmpPerm} (h : p.wf = true) (b : BaseMode) (k : AccessKind) (lo hi : Nat) (g : Priv)
    (c : BaseMode) (l : AccessKind) (x : Nat) :
    PermMap.lookup x ((p.assign b k lo hi g).get c l) = PermMap.lookup x (p.get c l)
      ∨ (c = b ∧ lo ≤ x ∧ x ≤ hi ∧ PermMap.lookup x ((p.assign b k lo hi g).get c l) = g) := by
  rw [(p.assign_spec b k lo hi g h).2]
  split
  · rename_i hx
    exact .inr ⟨hx.1, hx.2.2.1, hx.2.2.2, rfl⟩
  · exact .inl rfl

/-- The grants after one map of `Protect`, whatever the bounds: none, old, or the refined one inside the bounds. -/
theorem PmpPerm.protectMap_grants {p : PmpPerm} (h : p.wf = true) (b : BaseMode) (k : AccessKind) (lo hi : Nat) (g : Priv) :
    (p.protectMap b k lo hi g).wf = true
      ∧ ∀ c l x, PermMap.lookup x ((p.protectMap b k lo hi g).get c l) = Priv.NONE
          ∨ PermMap.lookup x ((p.protectMap b k lo hi g).get c l) = PermMap.lookup x (p.get c l)
          ∨ (c = b ∧ lo ≤ x ∧ x ≤ hi ∧ PermMap.lookup x ((p.protectMap b k lo hi g).get c l) = g) := by
  have guard : ∀ (q : PmpPerm) (y : Nat) (P : Prop) [Decidable P], q.wf = true →
      (if P then q.assign b k y y Priv.NONE else q).wf = true
        ∧ ∀ c l x, PermMap.lookup x ((if P then q.assign b k y y Priv.NONE else q).get c l) = Priv.NONE
          ∨ PermMap.lookup x ((if P then q.assign b k y y Priv.NONE else q).get c l) = PermMap.lookup x (q.get c l) := by
    intro q y P _ hq
    split
    · refine ⟨PmpPerm.wf_assign hq b k y y _, fun c l x => ?_⟩
      rcases PmpPerm.lookup_assign hq b k y y Priv.NONE c l x with hx | ⟨-, -, -, hx⟩
      · exact .inr hx
      · exact .inl hx
    · exact ⟨hq, fun c l x => .inr rfl⟩
  have w1 := PmpPerm.wf_assign h b k lo hi g
  obtain ⟨w2, l2⟩ := guard _ (lo - 1) (0 < lo) w1
  obtain ⟨w3, l3⟩ := guard _ (hi + 1) (hi < maxU64) w2
  refine ⟨w3, fun c l x => ?_⟩
  unfold PmpPerm.protectMap
  rcases l3 c l x with e3 | e3
  · exact .inl e3
  · rw [e3]
    rcases l2 c l x with e2 | e2
    · exact .inl e2
    · rw [e2]
      exact .inr (PmpPerm.lookup_assign h b k lo hi g c l x)

/-- Refinement of an access keeps the maps canonical. -/
theorem State.permsOk.pmpRefine {s : State} (h : s.permsOk) (mode : Mode5) (req : Priv) (lo hi : Nat) :
    (s.pmpRefine mode req lo hi).2.permsOk := by
  rcases s.pmpRefine_cases mode req lo hi with ⟨-, e⟩ | ⟨-, -, e⟩ | ⟨-, -, e⟩ <;> rw [e]
  · exact h
  · exact (PmpPerm.protectMap_grants (PmpPerm.protectMap_grants h _ _ _ _ _).1 _ _ _ _ _).1
  · exact h

/-- What a page-table read leaves in the cache is what its refinement leaves. -/
theorem State.memRead_pmpPerm (s : State) (t : TlbId) (addr : U64) (n : Nat) :
    (s.memRead t addr n).2.pmpPerm
      = ((s.setPtwActive true).pmpRefine .supervisor Priv.R addr.toNat (addr.toNat + n - 1)).2.pmpPerm :=
  rfl

/-- What a page-table write leaves in the cache is what its refinement leaves. -/
theorem State.memWrite_pmpPerm (s : State) (t : TlbId) (addr : U64) (n : Nat) (v : U64) :
    (s.memWrite t addr n v).2.pmpPerm
      = ((s.setPtwActive true).pmpRefine .supervisor Priv.W addr.toNat (addr.toNat + n - 1)).2.pmpPerm := by
  unfold State.memWrite
  dsimp only
  split <;> rfl

theorem State.permsOk.memRead {s : State} (h : s.permsOk) (t : TlbId) (addr : U64) (n : Nat) :
    (s.memRead t addr n).2.permsOk := by
  unfold State.permsOk
  rw [State.memRead_pmpPerm]
  exact State.permsOk.pmpRefine (s := s.setPtwActive true) h _ _ _ _

theorem State.permsOk.memWrite {s : State} (h : s.permsOk) (t : TlbId) (addr : U64) (n : Nat) (v : U64) :
    (s.memWrite t addr n v).2.permsOk := by
  unfold State.permsOk
  rw [State.memWrite_pmpPerm]
  exact State.permsOk.pmpRefine (s := s.setPtwActive true) h _ _ _ _

/-! ### Cutting the cache -/

/-- The region contains the byte. -/
def Region.holds (r : Region) (x : Nat) : Prop :=
  ∃ lo hi, r = .active lo hi ∧ lo ≤ x ∧ x ≤ hi

theorem State.permsOk.pmpInvalidate {s : State} (h : s.permsOk) (i : Nat) : (s.pmpInvalidate i).permsOk := by
  unfold State.pmpInvalidate
  split
  · exact h
  · dsimp only
    have hsu := fun lo hi => ((s.pmpPerm.remove .supervisor lo hi).remove_spec .user lo hi
      (s.pmpPerm.remove_spec .supervisor lo hi h).1).1
    unfold State.permsOk
    rw [State.setPmpPerm_pmpPerm]
    split
    · exact (PmpPerm.remove_spec _ .machine _ _ (hsu _ _)).1
    · exact hsu _ _

theorem State.permsOk.invalidateWithTor {s : State} (h : s.permsOk) (i : Nat) : (s.invalidateWithTor i).permsOk := by
  unfold State.invalidateWithTor
  dsimp only
  split
  · exact (h.pmpInvalidate i).pmpInvalidate (i + 1)
  · exact h.pmpInvalidate i

theorem State.permsOk.writeCfgByte {s : State} (h : s.permsOk) (i : Nat) (new : Byte) :
    (s.writeCfgByte i new).permsOk := by
  unfold State.writeCfgByte
  dsimp only
  split
  · exact h
  · split
    · exact h
    · refine State.permsOk.pmpInvalidate ?_ i
      exact h.pmpInvalidate i

theorem State.permsOk.writeCfgWord {s : State} (h : s.permsOk) (w : Nat) (value : U64) (k : Nat) :
    (s.writeCfgWord w value k).permsOk := by
  induction k generalizing s with
  | zero => exact h
  | succ k ih =>
    unfold State.writeCfgWord
    split
    · exact ih (h.writeCfgByte _ _)
    · exact ih h

theorem State.permsOk.writeAddr {s : State} (h : s.permsOk) (i : Nat) (value : U64) : (s.writeAddr i value).permsOk := by
  unfold State.writeAddr
  dsimp only
  split
  · exact h
  · split
    · exact h
    · split
      · exact h
      · refine State.permsOk.invalidateWithTor ?_ i
        exact h.invalidateWithTor i

/-! ### Memory -/

/-- A write inside the address space keeps memory canonical. -/
theorem State.memoryOk.write {s : State} (h : s.memoryOk) (big : Bool) {a n : Nat} (v : Nat) (hin : a + n ≤ 2 ^ 64) :
    (s.setMem (s.mem.write big a n v)).memoryOk :=
  ⟨Memory.wf_write big a n v h.1, Memory.write_mem big a n v _ h.2 hin⟩

/-- A page-table write is served inside the address space only (20_memory.md R80). -/
theorem State.memoryOk.memWrite {s : State} (h : s.memoryOk) (t : TlbId) (addr : U64) (fmt : PteFormat) (v : U64) :
    (s.memWrite t addr (pteBytes fmt) v).2.memoryOk := by
  obtain ⟨-, -, hm, -⟩ := s.memWrite_spec t addr (pteBytes fmt) v
  unfold State.memoryOk
  rw [hm]
  split
  · rename_i hserves
    simp only [State.ptwServes, State.responds, Bool.and_eq_true, decide_eq_true_eq] at hserves
    obtain ⟨-, hin, -⟩ := hserves
    have := pteBytes_eq fmt
    exact h.write _ _ (by omega)
  · exact h

/-! ### `BlockInv` -/

/-- `BlockInv` inside a command, with `s2Active` given. -/
structure BlockInvAt (s0 : State) (b : Bool) (s : State) : Prop where
  params : s.params = s0.params
  env : s.env = s0.env
  memory : s.memoryOk
  bank : s.bankOk
  perms : s.permsOk
  ptwActive : s.ptwActive = false
  s2Active : s.s2Active = b

/-- A page-table access keeps it when it keeps memory and the maps. -/
theorem BlockInvAt.access {s0 s t : State} {b : Bool} (h : BlockInvAt s0 b s) (f : WalkFrame s t)
    (hact : t.ptwActive = false) (hm : t.memoryOk) (hp : t.permsOk) : BlockInvAt s0 b t :=
  ⟨f.params.trans h.params, f.env.trans h.env, hm, h.bank.congr f.params f.pmpcfg f.pmpaddr, hp, hact,
    f.s2Active.trans h.s2Active⟩

theorem memoryKeeps_blockInv (s0 : State) : MemoryKeeps s0 (BlockInvAt s0) where
  frame _ _ h := ⟨h.params, h.env⟩
  store _ s t hst h := by
    rw [hst]
    exact ⟨h.params, h.env, h.memory, h.bank, h.perms, h.ptwActive, h.s2Active⟩
  read _ s t addr fmt h := by
    obtain ⟨-, f, hm, hact, -⟩ := s.memRead_spec t addr (pteBytes fmt)
    refine h.access f hact ?_ (h.perms.memRead t addr _)
    unfold State.memoryOk
    rw [hm]
    exact h.memory
  write _ s t addr fmt v h := by
    obtain ⟨-, f, -, hact, -⟩ := s.memWrite_spec t addr (pteBytes fmt) v
    exact h.access f hact (h.memory.memWrite t addr fmt v) (h.perms.memWrite t addr _ v)
  check _ s mode req lo hi h := by
    have hp : (s.checkPhysical mode req lo hi).2.permsOk := h.perms.pmpRefine mode req lo hi
    obtain ⟨p, a, he⟩ := s.checkPhysical_eq mode req lo hi
    rw [he] at hp ⊢
    exact ⟨h.params, h.env, h.memory, h.bank, hp, h.ptwActive, h.s2Active⟩
  beginStage2 s va _ h := ⟨h.params, h.env, h.memory, h.bank, h.perms, h.ptwActive, rfl⟩
  endStage2 s h := ⟨h.params, h.env, h.memory, h.bank, h.perms, h.ptwActive, rfl⟩

theorem CommandEffect.bankOk {s t : State} {i : Instr} (he : CommandEffect s i t) (h : s.bankOk) : t.bankOk := by
  rcases he.bank with ⟨-, rfl⟩ | ⟨w, v, -, rfl⟩ | ⟨j, v, -, rfl⟩ | hb
  · exact State.bankOk_of_zero (s := s.clearBank.respond .noReply) rfl rfl
  · exact h.writeCfgWord w v _
  · exact h.writeAddr j v
  · exact h.congr hb.params hb.pmpcfg hb.pmpaddr

theorem CommandEffect.permsOk {s t : State} {i : Instr} (he : CommandEffect s i t) (h : s.permsOk) : t.permsOk := by
  rcases he.bank with ⟨-, rfl⟩ | ⟨w, v, -, rfl⟩ | ⟨j, v, -, rfl⟩ | hb
  · exact (rfl : PmpPerm.empty.wf = true)
  · exact h.writeCfgWord w v _
  · exact h.writeAddr j v
  · unfold State.permsOk
    rw [hb.pmpPerm]
    exact h

/-- Every command keeps `BlockInv`. -/
theorem State.BlockInv.exec {s t : State} (h : s.BlockInv) {i : Instr} (he : exec i s = .next t) : t.BlockInv := by
  have start : BlockInvAt s false s := ⟨rfl, rfl, h.memory, h.bank, h.perms, h.quiet.1, h.quiet.2⟩
  have kept : BlockInvAt s false t := by
    refine exec_keeps (memoryKeeps_blockInv s).access start (fun u _ hu => ?_) (fun u _ hu => ?_) (fun hc => ?_) he
    · exact ⟨hu.params, hu.env, hu.memory, hu.bank, hu.perms, hu.ptwActive, hu.s2Active⟩
    · exact ⟨hu.params, hu.env, hu.memory, hu.bank, hu.perms, hu.ptwActive, hu.s2Active⟩
    · have f := hc.frame
      obtain ⟨hptw, hs2⟩ := f.quiet h.quiet
      refine ⟨f.params, f.env, ?_, hc.bankOk h.bank, hc.permsOk h.perms, hptw, hs2⟩
      unfold State.memoryOk
      rw [f.mem]
      exact h.memory
  exact ⟨kept.memory, kept.bank, kept.perms, kept.ptwActive, kept.s2Active⟩

/-- Every step keeps `BlockInv`. -/
theorem State.BlockInv.step {s t : State} (h : s.BlockInv) (hstep : Machine.step s = .next t) : t.BlockInv :=
  step_keeps h (fun _ hs => ⟨hs.memory, hs.bank, hs.perms, hs.quiet⟩) (fun _ hs => ⟨hs.memory, hs.bank, hs.perms, hs.quiet⟩)
    (fun _ _ hs => ⟨hs.memory, hs.bank, hs.perms, hs.quiet⟩)
    (fun _ _ _ v hin hs => ⟨hs.memory.write false v hin, hs.bank, hs.perms, hs.quiet⟩)
    (fun _ _ _ _ _ hs he => hs.exec he) hstep

end Sys2Proof.Machine

section
open Sys2Proof Sys2Proof.Machine

/-- Settles O7: page-table accesses, register writes and directives each keep memory, the bank, the maps and the flags. -/
theorem blockInvKept : Obligations.BlockInvKept :=
  fun _ _ h hstep => h.step hstep

end
end

section
/-! The permission cache claims no more than refinement gives (10_state.md R28): a refined access records what it was given,
and a register write cuts every grant that the new bank might not give. -/

namespace Sys2Proof.Machine

/-! ### Privilege sets -/

theorem Priv.subset_trans {p q r : Priv} (h : p &&& ~~~q = 0) (k : q &&& ~~~r = 0) : p &&& ~~~r = 0 := by
  revert p q r
  decide

theorem Priv.subset_refl (p : Priv) : p &&& ~~~p = 0 :=
  BitVec.and_not_self p

theorem Priv.none_subset (p : Priv) : Priv.NONE &&& ~~~p = 0 :=
  BitVec.zero_and

theorem Priv.subset_all (p : Priv) : p &&& ~~~Priv.RWX = 0 := by
  revert p
  decide

theorem Priv.and_subset (p q : Priv) : (p &&& q) &&& ~~~p = 0 := by
  revert p q
  decide

/-! ### The privilege refinement gives a byte -/

/-- The base mode of the unvirtualized mode of a base mode. -/
theorem baseOf_modeOf (b : BaseMode) : baseOf (modeOf b false) = b := by
  cases b <;> rfl

/-- Refinement looks at the base mode only. -/
theorem State.refineBounds_base (s : State) (mode : Mode5) (x : Nat) :
    s.refineBounds (modeOf (baseOf mode) false) x = s.refineBounds mode x := by
  unfold State.refineBounds
  rw [baseOf_modeOf]

/-- The bounds of an access hold the privilege of every byte in them. -/
theorem State.refineBounds_uniform (s : State) (mode : Mode5) {pa x : Nat} (hx : x ≤ maxU64)
    (hin : (s.refineBounds mode pa).contains x) : s.refineBounds mode x = s.refineBounds mode pa := by
  unfold State.refineBounds at *
  exact (s.refineLoop_agree _ pa x hx _ _ _ (.inl rfl)).resolve_right (fun hout => hout hin)

/-- A region that contains the byte decides it, over those above it. -/
theorem refineRegion_priv_of_holds (machine : Bool) {x : Nat} {r : Region} (h : r.holds x) (c : Byte) (i : Nat)
    (b : Bounds) :
    (refineRegion machine x r c i b).priv = if !machine || cfgL c then cfgPriv c else Priv.RWX := by
  obtain ⟨lo, hi, rfl, hlo, hhi⟩ := h
  simp [refineRegion, hlo, hhi]

/-- A region that does not contain the byte leaves its privilege. -/
theorem refineRegion_priv_of_not_holds (machine : Bool) {x : Nat} {r : Region} (h : ¬r.holds x) (c : Byte) (i : Nat)
    (b : Bounds) : (refineRegion machine x r c i b).priv = b.priv := by
  cases r with
  | inactive => rfl
  | active lo hi =>
    have hout : ¬(lo ≤ x ∧ x ≤ hi) := fun hx => h ⟨lo, hi, rfl, hx⟩
    simp only [refineRegion, if_neg hout]
    split <;> split <;> rfl

/-- The two banks agree on region `j`, or the byte is out of it in both, but for machine mode: there the old region may go
when no region after it is locked in the new bank, and the new one may come when it is not locked. -/
def RegionCut (s t : State) (machine : Bool) (x j : Nat) : Prop :=
  (t.region j = s.region j ∧ t.cfg j = s.cfg j)
    ∨ (((s.region j).holds x → machine = true ∧ ∀ k, j < k → t.locked k = false)
        ∧ ((t.region j).holds x → machine = true ∧ t.locked j = false))

/-- An unlocked region that contains the byte gives machine mode everything. -/
theorem refineRegion_priv_unlocked {machine : Bool} (hm : machine = true) {x : Nat} {r : Region} (h : r.holds x) {c : Byte}
    (hc : cfgL c = false) (i : Nat) (b : Bounds) : (refineRegion machine x r c i b).priv = Priv.RWX := by
  rw [refineRegion_priv_of_holds machine h, hm, hc]
  rfl

/-- From a bank to one cut in that way, no byte loses a privilege: by induction over the loop; where only unlocked regions
have been passed, machine mode still has everything. -/
theorem State.refineLoop_mono (s t : State) (machine : Bool) (x n : Nat) (b d : Bounds) (hbd : b.priv &&& ~~~d.priv = 0)
    (hopen : machine = true → (∀ k, n ≤ k → t.locked k = false) → d.priv = Priv.RWX)
    (hcut : ∀ j, j < n → RegionCut s t machine x j) :
    (s.refineLoop machine x n b).priv &&& ~~~(t.refineLoop machine x n d).priv = 0 := by
  induction n generalizing b d with
  | zero => exact hbd
  | succ n ih =>
    refine ih _ _ ?_ (fun hm hk => ?_) (fun j hj => hcut j (by omega))
    · rcases hcut n (by omega) with ⟨hr, hc⟩ | ⟨hold, hnew⟩
      · rw [hr, hc]
        by_cases hs : (s.region n).holds x
        · rw [refineRegion_priv_of_holds machine hs, refineRegion_priv_of_holds machine hs]
          exact Priv.subset_refl _
        · rw [refineRegion_priv_of_not_holds machine hs, refineRegion_priv_of_not_holds machine hs]
          exact hbd
      · by_cases ht : (t.region n).holds x
        · obtain ⟨hm, hl⟩ := hnew ht
          rw [refineRegion_priv_unlocked hm ht hl n d]
          exact Priv.subset_all _
        · rw [refineRegion_priv_of_not_holds machine ht]
          by_cases hs : (s.region n).holds x
          · obtain ⟨hm, hafter⟩ := hold hs
            rw [hopen hm hafter]
            exact Priv.subset_all _
          · rw [refineRegion_priv_of_not_holds machine hs]
            exact hbd
    · by_cases ht : (t.region n).holds x
      · exact refineRegion_priv_unlocked hm ht (hk n (Nat.le_refl n)) n d
      · rw [refineRegion_priv_of_not_holds machine ht]
        exact hopen hm (fun k hnk => hk k (by omega))

/-! ### The soundness of a cache -/

/-- Soundness is about the bank and the cache. -/
theorem State.cacheSound.congr {s t : State} (h : s.cacheSound) (hb : SameBank s t) : t.cacheSound := by
  intro b k x hx
  rw [hb.pmpPerm, State.refineBounds_bank hb.params hb.pmpcfg hb.pmpaddr]
  exact h b k x hx

/-- A cache whose grants are none, or old ones at bytes the new bank cuts in that way, is sound. -/
theorem State.cacheSound.recut {s t : State} (h : s.cacheSound) (hp : t.params = s.params)
    (hcut : ∀ b k x, x ≤ maxU64 → PermMap.lookup x (t.pmpPerm.get b k) = Priv.NONE
      ∨ (PermMap.lookup x (t.pmpPerm.get b k) = PermMap.lookup x (s.pmpPerm.get b k)
          ∧ ∀ j, RegionCut s t (decide (b = .machine)) x j)) : t.cacheSound := by
  intro b k x hx
  rcases hcut b k x hx with hnone | ⟨hold, hregions⟩
  · rw [hnone]
    exact Priv.none_subset _
  · rw [hold]
    refine Priv.subset_trans (h b k x hx) ?_
    unfold State.refineBounds
    dsimp only
    rw [baseOf_modeOf, hp]
    refine s.refineLoop_mono t _ x _ _ _ (Priv.subset_refl _) (fun hm _ => ?_) (fun j _ => hregions j)
    rw [if_pos hm]

/-- A refined access records at most what refinement gives each byte (43_pmp.md R295). -/
theorem State.cacheSound.protect {s : State} (hp : s.permsOk) (h : s.cacheSound) (mode : Mode5) (pa : Nat) :
    (s.protect mode (s.refineBounds mode pa).lowMap (s.refineBounds mode pa).highMap
      (s.refineBounds mode pa).priv).cacheSound := by
  intro b k x hx
  have hbank : (s.protect mode (s.refineBounds mode pa).lowMap (s.refineBounds mode pa).highMap
      (s.refineBounds mode pa).priv).refineBounds (modeOf b false) x = s.refineBounds (modeOf b false) x := by
    refine State.refineBounds_bank ?_ ?_ ?_ _ _ <;> rfl
  rw [hbank]
  have refined : b = baseOf mode → (s.refineBounds mode pa).lowMap ≤ x → x ≤ (s.refineBounds mode pa).highMap →
      ∀ q : Priv, (if s.params.splitCodeData then (s.refineBounds mode pa).priv &&& q else (s.refineBounds mode pa).priv)
        &&& ~~~(s.refineBounds (modeOf b false) x).priv = 0 := by
    rintro rfl hlo hhi q
    rw [State.refineBounds_base, s.refineBounds_uniform mode hx ⟨hlo, hhi⟩]
    split
    · exact Priv.and_subset _ _
    · exact Priv.subset_refl _
  unfold State.protect
  dsimp only
  rw [State.setPmpPerm_pmpPerm]
  obtain ⟨hwf, hdata⟩ := PmpPerm.protectMap_grants hp (baseOf mode) .data (s.refineBounds mode pa).lowMap
    (s.refineBounds mode pa).highMap (if s.params.splitCodeData = true
      then (s.refineBounds mode pa).priv &&& (Priv.R ||| Priv.W) else (s.refineBounds mode pa).priv)
  obtain ⟨-, hcode⟩ := PmpPerm.protectMap_grants hwf (baseOf mode) .code (s.refineBounds mode pa).lowMap
    (s.refineBounds mode pa).highMap (if s.params.splitCodeData = true
      then (s.refineBounds mode pa).priv &&& Priv.X else (s.refineBounds mode pa).priv)
  rcases hcode b k x with e | e | ⟨hb, hlo, hhi, e⟩
  · rw [e]
    exact Priv.none_subset _
  · rw [e]
    rcases hdata b k x with e | e | ⟨hb, hlo, hhi, e⟩
    · rw [e]
      exact Priv.none_subset _
    · rw [e]
      exact h b k x hx
    · rw [e]
      exact refined hb hlo hhi _
  · rw [e]
    exact refined hb hlo hhi _

theorem State.cacheSound.pmpRefine {s : State} (hp : s.permsOk) (h : s.cacheSound) (mode : Mode5) (req : Priv)
    (lo hi : Nat) : (s.pmpRefine mode req lo hi).2.cacheSound := by
  rcases s.pmpRefine_cases mode req lo hi with ⟨-, e⟩ | ⟨-, -, e⟩ | ⟨-, -, e⟩ <;> rw [e]
  · exact h
  · exact h.protect hp mode lo
  · exact h.congr ⟨rfl, rfl, rfl, rfl⟩

/-! ### Register writes cut the cache (43_pmp.md R291, R294) -/

/-- No region from `i` on is locked. -/
theorem State.unlocked_of_lockedAtOrBelow {s : State} {i : Nat} (h : s.lockedAtOrBelow i = false) {k : Nat} (hk : i ≤ k) :
    s.locked k = false := by
  simp only [State.lockedAtOrBelow, Bool.or_eq_false_iff, List.any_eq_false, List.mem_range] at h
  obtain ⟨hi, hafter⟩ := h
  rcases Nat.eq_or_lt_of_le hk with rfl | hlt
  · exact hi
  · by_cases hn : k < s.params.pmpN
    · simpa [hlt] using hafter k hn
    · exact State.locked_of_cfg_zero (if_neg hn)

/-- The grants an invalidation leaves: none, or old ones out of the region, but for machine mode when the region and those
after it are not locked. -/
def State.cuts (s : State) (i : Nat) (b : BaseMode) (x : Nat) : Prop :=
  (s.region i).holds x → b = .machine ∧ s.lockedAtOrBelow i = false

theorem State.pmpInvalidate_grant {s : State} (h : s.permsOk) (i : Nat) (b : BaseMode) (k : AccessKind) {x : Nat}
    (hx : x ≤ maxU64) :
    PermMap.lookup x ((s.pmpInvalidate i).pmpPerm.get b k) = Priv.NONE
      ∨ (PermMap.lookup x ((s.pmpInvalidate i).pmpPerm.get b k) = PermMap.lookup x (s.pmpPerm.get b k) ∧ s.cuts i b x) := by
  unfold State.pmpInvalidate State.cuts
  split
  · rename_i hr
    exact .inr ⟨rfl, fun ⟨lo, hi, he, _⟩ => by rw [hr] at he; cases he⟩
  · rename_i lo hi hr
    dsimp only
    rw [State.setPmpPerm_pmpPerm]
    generalize hlo : (if (s.params.unaligned || s.params.wideRegs) = true then lo - 1 else lo) = lo'
    generalize hhi : (if (s.params.unaligned || s.params.wideRegs) = true then min (hi + 1) maxU64 else hi) = hi'
    have inside : (s.region i).holds x → lo' ≤ x ∧ x ≤ hi' := by
      rintro ⟨l, u, he, h1, h2⟩
      rw [hr] at he
      cases he
      subst hlo hhi
      constructor <;> split <;> omega
    obtain ⟨w1, l1⟩ := PmpPerm.remove_spec s.pmpPerm .supervisor lo' hi' h
    obtain ⟨w2, l2⟩ := PmpPerm.remove_spec _ .user lo' hi' w1
    obtain ⟨-, l3⟩ := PmpPerm.remove_spec _ .machine lo' hi' w2
    cases hl : s.lockedAtOrBelow i with
    | true =>
      rw [if_pos rfl, l3, l2, l1]
      by_cases hin : lo' ≤ x ∧ x ≤ hi'
      · left
        cases b <;> simp [hin]
      · exact .inr ⟨by simp [hin], fun hx => absurd (inside hx) hin⟩
    | false =>
      rw [if_neg (by simp), l2, l1]
      by_cases hin : lo' ≤ x ∧ x ≤ hi'
      · cases b with
        | machine => exact .inr ⟨by simp, fun _ => ⟨rfl, rfl⟩⟩
        | user => exact .inl (by simp [hin])
        | supervisor => exact .inl (by simp [hin])
      · exact .inr ⟨by simp [hin], fun hx => absurd (inside hx) hin⟩

/-- What an address write affects: region `i`, and region `i + 1` when it is TOR. -/
def State.torOf (s : State) (i j : Nat) : Prop :=
  j = i ∨ (j = i + 1 ∧ cfgA (s.cfg j) = aTor)

theorem State.lockedAtOrBelow_bank {s t : State} (hp : t.params = s.params) (hc : t.pmpcfg = s.pmpcfg) (i : Nat) :
    t.lockedAtOrBelow i = s.lockedAtOrBelow i := by
  simp only [State.lockedAtOrBelow, State.locked, State.cfg, hp, hc]

theorem State.cuts_bank {s t : State} (hp : t.params = s.params) (hc : t.pmpcfg = s.pmpcfg) (ha : t.pmpaddr = s.pmpaddr)
    (i : Nat) (b : BaseMode) (x : Nat) : t.cuts i b x ↔ s.cuts i b x := by
  unfold State.cuts
  rw [State.region_bank hp hc ha, State.lockedAtOrBelow_bank hp hc]

theorem State.invalidateWithTor_grant {s : State} (h : s.permsOk) (i : Nat) (b : BaseMode) (k : AccessKind) {x : Nat}
    (hx : x ≤ maxU64) :
    PermMap.lookup x ((s.invalidateWithTor i).pmpPerm.get b k) = Priv.NONE
      ∨ (PermMap.lookup x ((s.invalidateWithTor i).pmpPerm.get b k) = PermMap.lookup x (s.pmpPerm.get b k)
          ∧ ∀ j, s.torOf i j → s.cuts j b x) := by
  obtain ⟨p, he⟩ := s.pmpInvalidate_eq i
  have hfirst := State.pmpInvalidate_grant h i b k hx
  have hwf := h.pmpInvalidate i
  unfold State.invalidateWithTor
  dsimp only
  rw [he] at hfirst hwf ⊢
  split
  · rcases State.pmpInvalidate_grant hwf (i + 1) b k hx with e | ⟨e, hcut⟩
    · exact .inl e
    · rw [e]
      refine hfirst.imp id (fun ⟨e', hi⟩ => ⟨e', ?_⟩)
      rintro j (rfl | ⟨rfl, -⟩)
      · exact hi
      · exact (State.cuts_bank rfl rfl rfl _ _ _).1 hcut
  · rename_i htor
    refine hfirst.imp id (fun ⟨e', hi⟩ => ⟨e', ?_⟩)
    rintro j (rfl | ⟨rfl, hA⟩)
    · exact hi
    · by_cases hn : i + 1 < s.params.pmpN
      · exact absurd ⟨hn, hA⟩ htor
      · have hzero : s.cfg (i + 1) = 0 := if_neg hn
        rw [hzero] at hA
        exact absurd hA (by decide)

/-- A region that is not TOR does not depend on the address word below. -/
theorem State.region_congr_notTor {s t : State} {i : Nat} (hp : t.params = s.params) (hc : t.cfg i = s.cfg i)
    (ha : t.addr i = s.addr i) (hA : cfgA (s.cfg i) ≠ aTor) : t.region i = s.region i := by
  simp only [State.region, hc, if_neg hA, State.regionNa4, State.regionNapot, hp, ha]

/-- A cut region of two banks that lock alike after it. -/
theorem RegionCut.of_cuts {s t : State} {b : BaseMode} {x j : Nat} (hlock : ∀ k, j < k → t.locked k = s.locked k)
    (hs : s.cuts j b x) (ht : t.cuts j b x) : RegionCut s t (decide (b = .machine)) x j := by
  refine .inr ⟨fun hold => ?_, fun hnew => ?_⟩
  · obtain ⟨rfl, hl⟩ := hs hold
    exact ⟨rfl, fun k hk => (hlock k hk).trans (State.unlocked_of_lockedAtOrBelow hl (Nat.le_of_lt hk))⟩
  · obtain ⟨rfl, hl⟩ := ht hnew
    exact ⟨rfl, State.unlocked_of_lockedAtOrBelow hl (Nat.le_refl j)⟩

theorem getD_set_of_ne {α : Type} (l : List α) {i j : Nat} (h : j ≠ i) (v d : α) : (l.set i v).getD j d = l.getD j d := by
  rw [List.getD_eq_getElem?_getD, List.getD_eq_getElem?_getD, List.getElem?_set_ne (Ne.symm h)]

/-- The grants of `t` are none, or those of `s`, and those at bytes of the regions in `C` were cut. -/
def CutGrants (C : Nat → Prop) (s t : State) : Prop :=
  ∀ b k x, x ≤ maxU64 → PermMap.lookup x (t.pmpPerm.get b k) = Priv.NONE
    ∨ (PermMap.lookup x (t.pmpPerm.get b k) = PermMap.lookup x (s.pmpPerm.get b k) ∧ ∀ j, C j → s.cuts j b x)

/-- A register write keeps the cache sound when the regions it affects are cut from the cache of `s` before it, which leaves
`v`, and from that of the new bank `u` after it, which leaves `t`. -/
theorem State.cacheSound.rebank {C : Nat → Prop} {s v u t : State} (h : s.cacheSound) (hv : CutGrants C s v)
    (htu : ∃ q, t = u.setPmpPerm q) (ht : CutGrants C u t) (huv : u.pmpPerm = v.pmpPerm) (hp : u.params = s.params)
    (hsame : ∀ j, ¬C j → u.region j = s.region j ∧ u.cfg j = s.cfg j)
    (hlock : ∀ j, C j → ∀ k, j < k → u.locked k = s.locked k) : t.cacheSound := by
  obtain ⟨q, rfl⟩ := htu
  refine h.recut hp (fun b k x hx => ?_)
  rcases ht b k x hx with e2 | ⟨e2, hnew⟩
  · exact .inl e2
  rw [e2, huv]
  refine (hv b k x hx).imp id (fun ⟨e1, hold⟩ => ⟨e1, fun j => ?_⟩)
  have hregion : (u.setPmpPerm q).region j = u.region j := State.region_bank rfl rfl rfl j
  by_cases hj : C j
  · exact RegionCut.of_cuts (hlock j hj) (hold j hj) ((State.cuts_bank rfl rfl rfl _ _ _).1 (hnew j hj))
  · exact .inl (hregion ▸ hsame j hj)

/-- A write of a config byte keeps the cache sound. -/
theorem State.cacheSound.writeCfgByte {s : State} (hw : s.permsOk) (h : s.cacheSound) (i : Nat) (new : Byte) :
    (s.writeCfgByte i new).cacheSound := by
  unfold State.writeCfgByte
  dsimp only
  split
  · exact h
  split
  · exact h
  have cut : ∀ {r : State}, r.permsOk → CutGrants (· = i) r (r.pmpInvalidate i) := fun hr b k x hx =>
    (State.pmpInvalidate_grant hr i b k hx).imp id (fun ⟨e, hc⟩ => ⟨e, fun j hj => hj ▸ hc⟩)
  have hv := cut hw
  have hw1 := hw.pmpInvalidate i
  obtain ⟨p, he⟩ := s.pmpInvalidate_eq i
  rw [he] at hv hw1 ⊢
  have hcfg : ∀ j, j ≠ i → ((s.setPmpPerm p).setPmpcfg (s.pmpcfg.set i (canonCfg s.params (s.cfg i) new))).cfg j
      = s.cfg j := by
    intro j hj
    show (if j < s.params.pmpN then (s.pmpcfg.set i _).getD j 0 else 0) = _
    rw [getD_set_of_ne _ hj]
    rfl
  refine h.rebank hv (State.pmpInvalidate_eq _ i) (cut ?_) rfl rfl (fun j hj => ⟨?_, hcfg j hj⟩) (fun j hj k hk => ?_)
  · exact hw1
  · exact State.region_congr s _ j rfl (hcfg j hj) rfl rfl
  · subst hj
    exact congrArg cfgL (hcfg k (by omega))

theorem State.cacheSound.writeCfgWord {s : State} (hw : s.permsOk) (h : s.cacheSound) (w : Nat) (value : U64) (k : Nat) :
    (s.writeCfgWord w value k).cacheSound := by
  induction k generalizing s with
  | zero => exact h
  | succ k ih =>
    unfold State.writeCfgWord
    split
    · exact ih (hw.writeCfgByte _ _) (h.writeCfgByte hw _ _)
    · exact ih hw h

/-- A write of an address word keeps the cache sound. -/
theorem State.cacheSound.writeAddr {s : State} (hw : s.permsOk) (h : s.cacheSound) (i : Nat) (value : U64) :
    (s.writeAddr i value).cacheSound := by
  unfold State.writeAddr
  dsimp only
  split
  · exact h
  split
  · exact h
  split
  · exact h
  have hv : CutGrants (s.torOf i) s (s.invalidateWithTor i) := fun b k x hx => State.invalidateWithTor_grant hw i b k hx
  have hw1 := hw.invalidateWithTor i
  obtain ⟨p, he⟩ := s.invalidateWithTor_eq i
  rw [he] at hv hw1 ⊢
  have haddr : ∀ j, j ≠ i → ((s.setPmpPerm p).setPmpaddr (s.pmpaddr.set i (canonAddr s.params value))).addr j
      = s.addr j := by
    intro j hj
    show (if j < s.params.pmpN then (s.pmpaddr.set i _).getD j 0 else 0) = _
    rw [getD_set_of_ne _ hj]
    rfl
  refine h.rebank hv (State.invalidateWithTor_eq _ i) (fun b k x hx => State.invalidateWithTor_grant ?_ i b k hx) rfl rfl
    (fun j hj => ⟨?_, rfl⟩) (fun _ _ _ _ => rfl)
  · exact hw1
  · have hji : j ≠ i := fun hh => hj (.inl hh)
    by_cases hsucc : j = i + 1
    · exact State.region_congr_notTor rfl rfl (haddr j hji) (fun hA => hj (.inr ⟨hsucc, hA⟩))
    · exact State.region_congr s _ j rfl rfl (haddr j hji) (haddr _ (by omega))

/-! ### Every step -/

/-- The bank is that of `s0`, and the cache is canonical and sound for it. -/
structure SoundAt (s0 s : State) : Prop where
  params : s.params = s0.params
  env : s.env = s0.env
  pmpcfg : s.pmpcfg = s0.pmpcfg
  pmpaddr : s.pmpaddr = s0.pmpaddr
  perms : s.permsOk
  sound : s.cacheSound

/-- A page-table access keeps it: its effect on the cache is that of its refinement. -/
theorem SoundAt.access {s0 s t : State} (h : SoundAt s0 s) (f : WalkFrame s t) {req : Priv} {lo hi : Nat}
    (hp : t.pmpPerm = ((s.setPtwActive true).pmpRefine .supervisor req lo hi).2.pmpPerm) : SoundAt s0 t := by
  have hperms : (s.setPtwActive true).permsOk := h.perms
  have hsound : (s.setPtwActive true).cacheSound := h.sound.congr ⟨rfl, rfl, rfl, rfl⟩
  have hrefined := hsound.pmpRefine hperms .supervisor req lo hi
  obtain ⟨g, -, -⟩ := (s.setPtwActive true).pmpRefine_frame .supervisor req lo hi
  refine ⟨f.params.trans h.params, f.env.trans h.env, f.pmpcfg.trans h.pmpcfg, f.pmpaddr.trans h.pmpaddr, ?_, ?_⟩
  · unfold State.permsOk
    rw [hp]
    exact hperms.pmpRefine _ _ _ _
  · exact hrefined.congr ⟨f.params.trans g.params.symm, f.pmpcfg.trans g.pmpcfg.symm, f.pmpaddr.trans g.pmpaddr.symm, hp⟩

theorem SoundAt.congr {s0 s t : State} (h : SoundAt s0 s) (he : t.env = s.env) (hb : SameBank s t) : SoundAt s0 t := by
  refine ⟨hb.params.trans h.params, he.trans h.env, hb.pmpcfg.trans h.pmpcfg, hb.pmpaddr.trans h.pmpaddr, ?_,
    h.sound.congr hb⟩
  unfold State.permsOk
  rw [hb.pmpPerm]
  exact h.perms

theorem memoryKeeps_sound (s0 : State) : MemoryKeeps s0 (fun _ => SoundAt s0) where
  frame _ _ h := ⟨h.params, h.env⟩
  store _ s t hst h := by
    rw [hst]
    exact h.congr rfl ⟨rfl, rfl, rfl, rfl⟩
  read _ s t addr fmt h := h.access (s.memRead_spec t addr _).2.1 (s.memRead_pmpPerm t addr _)
  write _ s t addr fmt v h := h.access (s.memWrite_spec t addr _ v).2.1 (s.memWrite_pmpPerm t addr _ v)
  check _ s mode req lo hi h := by
    have hperms : (s.checkPhysical mode req lo hi).2.permsOk := h.perms.pmpRefine mode req lo hi
    have hsound : (s.checkPhysical mode req lo hi).2.cacheSound := h.sound.pmpRefine h.perms mode req lo hi
    obtain ⟨p, a, he⟩ := s.checkPhysical_eq mode req lo hi
    rw [he] at hperms hsound ⊢
    exact ⟨h.params, h.env, h.pmpcfg, h.pmpaddr, hperms, hsound⟩
  beginStage2 s va _ h := h.congr rfl ⟨rfl, rfl, rfl, rfl⟩
  endStage2 s h := h.congr rfl ⟨rfl, rfl, rfl, rfl⟩

theorem CommandEffect.cacheSound {s t : State} {i : Instr} (he : CommandEffect s i t) (hw : s.permsOk) (h : s.cacheSound) :
    t.cacheSound := by
  rcases he.bank with ⟨-, rfl⟩ | ⟨w, v, -, rfl⟩ | ⟨j, v, -, rfl⟩ | hb
  · exact State.cacheSound_of_empty rfl
  · exact (h.writeCfgWord hw w v _).congr ⟨rfl, rfl, rfl, rfl⟩
  · exact (h.writeAddr hw j v).congr ⟨rfl, rfl, rfl, rfl⟩
  · exact h.congr hb

/-- Every command keeps the cache sound: lookups and checks record what they are granted, register writes cut the cache. -/
theorem State.cacheSound.exec {s t : State} (h : s.cacheSound) (hw : s.permsOk) {i : Instr}
    (he : Machine.exec i s = .next t) : t.cacheSound := by
  have start : SoundAt s s := ⟨rfl, rfl, rfl, rfl, hw, h⟩
  have access (hi : isMiss i ∨ isWalker i) : SoundAt s t :=
    exec_keeps_of_access (memoryKeeps_sound s).access start (fun _ _ hu => hu.congr rfl ⟨rfl, rfl, rfl, rfl⟩)
      (fun _ _ hu => hu.congr rfl ⟨rfl, rfl, rfl, rfl⟩) hi he
  rcases exec_effect he with hm | hwalk | heffect
  · exact (access (.inl hm)).sound
  · exact (access (.inr hwalk)).sound
  · exact heffect.cacheSound hw h

end Sys2Proof.Machine

section
open Sys2Proof Sys2Proof.Machine

/-- Settles O10: a refined access records its grant inside its bounds, and a register write cuts the old and the new range of
each region it affects, for machine mode too once that region or one after it is locked. -/
theorem cacheSoundKept : Obligations.CacheSoundKept := by
  intro s t hblock hsound h
  have congr {u v : State} (hu : u.permsOk ∧ u.cacheSound) (hb : SameBank u v) : v.permsOk ∧ v.cacheSound :=
    ⟨by unfold State.permsOk; rw [hb.pmpPerm]; exact hu.1, hu.2.congr hb⟩
  have kept : t.permsOk ∧ t.cacheSound :=
    step_keeps (P := fun u => u.permsOk ∧ u.cacheSound) ⟨hblock.perms, hsound⟩ (fun _ hu => congr hu ⟨rfl, rfl, rfl, rfl⟩)
      (fun _ hu => congr hu ⟨rfl, rfl, rfl, rfl⟩) (fun _ _ hu => congr hu ⟨rfl, rfl, rfl, rfl⟩)
      (fun _ _ _ _ _ hu => congr hu ⟨rfl, rfl, rfl, rfl⟩)
      (fun _ _ _ _ _ hu he => ⟨(hblock.step h).perms, hu.2.exec hu.1 he⟩) h
  exact kept.2

end
end

section
/-! The stores: every step keeps the entries and the aliases linked, and every step but a restore keeps each entry as a
walk leaves it (10_state.md R31, R32, R37). -/

namespace Sys2Proof.Machine

/-! ### Properties of entries -/

/-- A property of the entries of each TLB that lookups do not disturb: the mapped set, the key and the handle do not matter to
it, and what a walk returns has it. -/
structure EntryProperty (s0 : State) (q : TlbId → Entry → Prop) : Prop where
  relabel : ∀ t e m k h, q t e → q t { e with mapped := m, simASID := k, lutEntry := h }
  walked : ∀ t va req mode artifact e, WalkedEntry s0 t va req mode artifact e → q t e

/-- The stores are linked and each entry has the property; the parameters and the inputs are those of `s0`. -/
structure StoreInv (s0 : State) (q : TlbId → Entry → Prop) (s : State) : Prop where
  params : s.params = s0.params
  env : s.env = s0.env
  linked : s.LinkInv
  entries : ∀ t, ∀ e ∈ s.tlb t, q t e

/-- It is about the stores, the parameters and the inputs. -/
theorem StoreInv.congr {s0 s t : State} {q : TlbId → Entry → Prop} (h : StoreInv s0 q s) (hp : t.params = s.params)
    (he : t.env = s.env) (ht : t.tlbs = s.tlbs) (ha : t.aliases = s.aliases) (hn : t.nextHandle = s.nextHandle) :
    StoreInv s0 q t := by
  refine ⟨hp.trans h.params, he.trans h.env, h.linked.congr ht ha hn, fun i e hi => h.entries i e ?_⟩
  unfold State.tlb at *
  rwa [← ht]

theorem StoreInv.frame {s0 s t : State} {q : TlbId → Entry → Prop} (h : StoreInv s0 q s) (f : WalkFrame s t) :
    StoreInv s0 q t :=
  h.congr f.params f.env f.tlbs f.aliases f.nextHandle

theorem StoreInv.deleteAll {s0 s : State} {q : TlbId → Entry → Prop} (h : StoreInv s0 q s) {t : TlbId} {l : List Entry}
    (hl : ∀ e ∈ l, e ∈ s.tlb t) : StoreInv s0 q (l.foldl State.tlbDelete s) := by
  have hlinked := h.linked.deleteAll hl
  have hentries : ∀ i, ∀ e ∈ (l.foldl State.tlbDelete s).tlb i, q i e := by
    intro i e he
    rw [State.foldl_tlbDelete_tlb] at he
    exact h.entries i e (List.mem_filter.1 he).1
  obtain ⟨a, u, he⟩ := State.foldl_tlbDelete_eq l s
  rw [he] at hlinked hentries ⊢
  exact ⟨h.params, h.env, hlinked, hentries⟩

/-- The entries of `t` are those of `s`, their mapped sets and keys aside. -/
theorem StoreInv.of_relabelled {s0 s t : State} {q : TlbId → Entry → Prop} (Q : EntryProperty s0 q) (h : StoreInv s0 q s)
    (hst : StoreStep s t) (hlinked : t.LinkInv)
    (hent : ∀ i, ∀ e ∈ t.tlb i, ∃ f ∈ s.tlb i, e = { f with mapped := e.mapped, simASID := e.simASID }) :
    StoreInv s0 q t := by
  have hp : t.params = s.params := by rw [hst]
  have he : t.env = s.env := by rw [hst]
  refine ⟨hp.trans h.params, he.trans h.env, hlinked, fun i e hi => ?_⟩
  obtain ⟨f, hf, e_eq⟩ := hent i e hi
  rw [e_eq]
  exact Q.relabel i f _ _ f.lutEntry (h.entries i f hf)

theorem StoreInv.rekey {s0 s : State} {q : TlbId → Entry → Prop} (Q : EntryProperty s0 q) (h : StoreInv s0 q s) {t : TlbId}
    {e : Entry} (he : e ∈ s.tlb t) (mode : Mode5) : StoreInv s0 q (s.rekey mode e).2 := by
  refine h.of_relabelled Q (.rekey s mode e) (h.linked.rekey he mode) (fun i f hf => ?_)
  rcases s.rekey_tlb mode e with ⟨r, hr, htlb⟩ | hr
  · rw [hr, htlb, List.mem_map] at hf
    obtain ⟨g, hg, rfl⟩ := hf
    refine ⟨g, hg, ?_⟩
    rcases rekeyed_same h.linked.links he hg with hh | hh <;> rw [hh]
  · rw [hr] at hf
    exact ⟨f, hf, rfl⟩

theorem StoreInv.insert {s0 s : State} {q : TlbId → Entry → Prop} (Q : EntryProperty s0 q) (h : StoreInv s0 q s) {e : Entry}
    (hm : e.mapped = 0) (hq : q e.tlb e) : StoreInv s0 q (s.tlbInsert e).2 := by
  refine ⟨h.params, h.env, h.linked.insert hm, fun t f hf => ?_⟩
  rw [State.tlbInsert_tlb, List.mem_append] at hf
  rcases hf with hf | hf
  · exact h.entries t f hf
  · split at hf
    · rename_i ht
      subst ht
      rw [List.mem_singleton.1 hf]
      exact Q.relabel e.tlb e e.mapped e.simASID _ hq
    · cases hf

theorem State.installChunk_entries (s : State) (mode : Mode5) (c : Chunk) (m : Mapping) (i : TlbId) (e : Entry)
    (he : e ∈ (s.installChunk mode c m).tlb i) :
    ∃ f ∈ s.tlb i, e = { f with mapped := e.mapped, simASID := e.simASID } := by
  unfold State.installChunk at he
  split at he
  · exact ⟨e, he, rfl⟩
  split at he
  · rw [State.installAlias_tlb, List.mem_map] at he
    obtain ⟨f, hf, rfl⟩ := he
    refine ⟨f, hf, ?_⟩
    split <;> rfl
  · exact ⟨e, he, rfl⟩

theorem StoreInv.installChunk {s0 s : State} {q : TlbId → Entry → Prop} (Q : EntryProperty s0 q) (h : StoreInv s0 q s)
    {t1 : TlbId} {x : U64} {req : Priv} {mode : Mode5} {artifact : Bool} {c : Chunk} (hA : s0.activeTlb mode = some t1)
    (hc : ChunkServed True s0 t1 x req mode artifact c s) (m : Mapping) : StoreInv s0 q (s.installChunk mode c m) :=
  h.of_relabelled Q (.installChunk s mode c m) (h.linked.installChunk hA hc m) (s.installChunk_entries mode c m)

/-! ### Lookups -/

theorem lookupKeeps_store {s0 : State} {q : TlbId → Entry → Prop} (Q : EntryProperty s0 q) (artifact : Bool) :
    LookupKeeps True s0 artifact (fun _ => True) (StoreInv s0 q) where
  frame _ h := ⟨h.params, h.env⟩
  read s t addr fmt h := h.frame (s.memRead_spec t addr (pteBytes fmt)).2.1
  write s t addr fmt _ _ _ h _ := h.frame (s.memWrite_spec t addr (pteBytes fmt) _).2.1
  links _ _ h := h.linked.links
  draw _ _ h := h.congr rfl rfl rfl rfl rfl
  delete _ _ _ _ h hl := h.deleteAll (hl trivial)
  rekey _ _ mode _ _ h he := h.rekey Q (he trivial) mode
  insert _ t va req mode e _ h hw := h.insert Q hw.unmapped (hw.tlb ▸ Q.walked t va req mode artifact e hw)

/-- Served in a state, served in the same state with a draw more. -/
theorem ChunkServed.draw {s0 s : State} {t1 : TlbId} {x : U64} {req : Priv} {mode : Mode5} {artifact : Bool} {c : Chunk}
    (h : ChunkServed True s0 t1 x req mode artifact c s) (n : Nat) :
    ChunkServed True s0 t1 x req mode artifact c (s.draw n) where
  first := ⟨h.first.covers, h.first.grants, h.first.dirty, h.first.artifact, h.first.stored⟩
  single := h.single
  second e2 he2 := by
    obtain ⟨h1, h0, hs⟩ := h.second e2 he2
    exact ⟨h1, h0, hs.covers, hs.grants, hs.dirty, hs.artifact, hs.stored⟩

theorem accessKeeps_store {s0 : State} {q : TlbId → Entry → Prop} (Q : EntryProperty s0 q) (artifact : Bool) :
    AccessKeeps True s0 artifact (StoreInv s0 q) (StoreInv s0 q) where
  toLookupKeeps := lookupKeeps_store Q artifact
  inner := lookupKeeps_store Q artifact
  beginStage2 _ _ _ h := h.congr rfl rfl rfl rfl rfl
  endStage2 _ h := h.congr rfl rfl rfl rfl rfl
  check s mode req lo hi h := by
    obtain ⟨p, a, he⟩ := s.checkPhysical_eq mode req lo hi
    rw [he]
    exact h.congr rfl rfl rfl rfl rfl
  install s t1 x req mode c hA _ h hc :=
    StoreInv.installChunk Q (s := s.draw 1) (h.congr rfl rfl rfl rfl rfl) hA (hc.draw 1) _

/-! ### The other commands -/

theorem StoreInv.freeTlb {s0 s : State} {q : TlbId → Entry → Prop} (h : StoreInv s0 q s) (t : TlbId) :
    StoreInv s0 q (s.freeTlb t) :=
  h.deleteAll (t := t) (fun _ he => he)

theorem StoreInv.tlbInvalidate {s0 s : State} {q : TlbId → Entry → Prop} (h : StoreInv s0 q s) (t : TlbId) (lo hi : U64)
    (im : InvalMode) : StoreInv s0 q (s.tlbInvalidate t lo hi im) :=
  h.deleteAll (t := t) (fun _ he => (List.mem_filter.1 he).1)

theorem StoreInv.init {s : State} (q : TlbId → Entry → Prop) : StoreInv s q s.initVm :=
  ⟨rfl, rfl, State.linkInv_of_empty rfl rfl, fun t e he => by rw [State.tlb_of_empty rfl] at he; cases he⟩

/-- A restored entry is not mapped (44_host_ops.md R313). -/
theorem parseEntry_unmapped {bs rest : List Byte} {e : Entry} (h : parseEntry bs = some (e, rest)) : e.mapped = 0 := by
  simp only [parseEntry, Option.bind_eq_bind, Option.bind_eq_some_iff, Option.pure_def, Option.some.injEq,
    Prod.mk.injEq] at h
  obtain ⟨_, _, _, _, _, _, _, _, _, _, _, _, _, _, _, _, _, _, _, _, rfl, -⟩ := h
  rfl

theorem parseRecord_unmapped {bs rest : List Byte} {e : Entry} (h : parseRecord bs = some (.entry e rest)) :
    e.mapped = 0 := by
  unfold parseRecord at h
  split at h
  · split at h
    · cases h
    · split at h
      · cases h
      · split at h
        · obtain ⟨⟨f, r⟩, hp, he⟩ := Option.map_eq_some_iff.1 h
          cases he
          exact parseEntry_unmapped hp
        · cases h
  · cases h

/-- Reinserting records keeps the stores linked, when any entry may be inserted. -/
theorem StoreInv.restoreLoop {s0 : State} {q : TlbId → Entry → Prop} (Q : EntryProperty s0 q) (hq : ∀ e, q e.tlb e) (n : Nat)
    (bs : List Byte) (s : State) (h : StoreInv s0 q s) : StoreInv s0 q (restoreLoop n bs s).2 := by
  induction n generalizing bs s with
  | zero => exact h
  | succ n ih =>
    unfold Machine.restoreLoop
    split
    · exact h
    · exact h
    · rename_i e rest hr
      exact ih rest _ (h.insert Q (parseRecord_unmapped hr) (hq e))

theorem StoreInv.restore {s0 s : State} {q : TlbId → Entry → Prop} (Q : EntryProperty s0 q) (hq : ∀ e, q e.tlb e)
    (h : StoreInv s0 q s) (stream : List Byte) : StoreInv s0 q (s.restore stream).2 :=
  StoreInv.restoreLoop Q hq _ stream _ (((h.tlbInvalidate .hs _ _ _).tlbInvalidate .vs1 _ _ _).tlbInvalidate .vs2 _ _ _)

/-- Every command keeps the stores linked and the property of the entries; a restore, when any entry may be inserted. -/
theorem StoreInv.exec {s t : State} {q : TlbId → Entry → Prop} (Q : EntryProperty s q) (h : StoreInv s q s) {i : Instr}
    (hq : ∀ stream, i = .vmRestore stream → ∀ e, q e.tlb e) (he : Machine.exec i s = .next t) : StoreInv s q t := by
  have respond {u : State} (hu : StoreInv s q u) (r : Response) : StoreInv s q (u.respond r) :=
    hu.congr rfl rfl rfl rfl rfl
  refine exec_keeps (accessKeeps_store Q) h (fun _ _ hu => hu.congr rfl rfl rfl rfl rfl) (fun _ r hu => respond hu r)
    (fun hc => ?_) he
  cases hc with
  | answer _ n r => exact h.congr rfl rfl rfl rfl rfl
  | clearBank _ hi => exact h.congr rfl rfl rfl rfl rfl
  | writeCfg w v =>
    obtain ⟨c, p, hw⟩ := s.writeCfgWord_eq w v (cfgWordBytes s.params.xlen)
    rw [hw]
    exact h.congr rfl rfl rfl rfl rfl
  | writeAddr j v =>
    obtain ⟨a, p, hw, -⟩ := s.writeAddr_eq j v
    rw [hw]
    exact h.congr rfl rfl rfl rfl rfl
  | publish => exact h.congr rfl rfl rfl rfl rfl
  | selectMode mode => exact h.congr rfl rfl rfl rfl rfl
  | init => exact respond (.init q) _
  | free => exact respond (((h.freeTlb .hs).freeTlb .vs1).freeTlb .vs2) _
  | inval _ hi lo hi' im => exact respond (h.tlbInvalidate _ _ _ _) _
  | restore stream r => exact respond (h.restore Q (hq stream rfl) stream) _

/-! ### Every step -/

/-- No property of the entries. -/
theorem entryProperty_true (s0 : State) : EntryProperty s0 (fun _ _ => True) :=
  ⟨fun _ _ _ _ _ _ => trivial, fun _ _ _ _ _ _ _ => trivial⟩

/-- An entry is as a walk leaves it. -/
theorem entryProperty_walked (s0 : State) : EntryProperty s0 (entryWalked s0.params) :=
  ⟨fun _ _ _ _ _ h => h, fun _ _ _ _ _ _ h => h.walked⟩

/-- Every command keeps the stores linked. -/
theorem State.LinkInv.exec {s t : State} (h : s.LinkInv) {i : Instr} (he : Machine.exec i s = .next t) : t.LinkInv :=
  (StoreInv.exec (entryProperty_true s) ⟨rfl, rfl, h, fun _ _ _ => trivial⟩ (fun _ _ _ => trivial) he).linked

/-- Every step keeps the stores linked. -/
theorem State.LinkInv.step {s t : State} (h : s.LinkInv) (hstep : Machine.step s = .next t) : t.LinkInv :=
  step_keeps h (fun _ hs => hs.congr rfl rfl rfl) (fun _ hs => hs.congr rfl rfl rfl) (fun _ _ hs => hs.congr rfl rfl rfl)
    (fun _ _ _ _ _ hs => hs.congr rfl rfl rfl) (fun _ _ _ _ _ hs he => hs.exec he) hstep

/-- Every command but a restore keeps the entries as walks leave them. -/
theorem State.entriesOk.exec {s t : State} (h : s.entriesOk) (hl : s.LinkInv) {i : Instr}
    (hi : ∀ stream, i ≠ .vmRestore stream) (he : Machine.exec i s = .next t) : t.entriesOk := by
  have kept := StoreInv.exec (entryProperty_walked s) ⟨rfl, rfl, hl, h⟩ (fun stream hr => absurd hr (hi stream)) he
  intro i e hmem
  rw [kept.params]
  exact kept.entries i e hmem

end Sys2Proof.Machine

section
open Sys2Proof Sys2Proof.Machine

/-- Settles O8: lookups, installs, deletions and reinsertions each keep handles, mapped sets and aliases linked. -/
theorem linkInvKept : Obligations.LinkInvKept :=
  fun _ _ h hstep => h.step hstep

/-- Settles O9: what a lookup inserts is as a walk leaves it, and nothing else but the mapped set and the key of an entry is
ever rewritten. -/
theorem entriesOkKept : Obligations.EntriesOkKept := by
  intro s t hlinked hentries hnoRestore h
  have kept : t.LinkInv ∧ t.entriesOk :=
    step_keeps (P := fun u => u.LinkInv ∧ u.entriesOk) ⟨hlinked, hentries⟩ (fun _ hu => ⟨hu.1.congr rfl rfl rfl, hu.2⟩)
      (fun _ hu => ⟨hu.1.congr rfl rfl rfl, hu.2⟩) (fun _ _ hu => ⟨hu.1.congr rfl rfl rfl, hu.2⟩)
      (fun _ _ _ _ _ hu => ⟨hu.1.congr rfl rfl rfl, hu.2⟩)
      (fun p rest i hin hi hu he => ⟨hu.1.exec he, hu.2.exec hu.1
        (fun stream hr => hnoRestore p rest stream hin (hr ▸ hi)) he⟩) h
  exact kept.2

end
end

section
/-! Which commands write which part of the state (10_state.md R25, R26, R38, R40, R41, R45, R46, 42_translate.md R244). -/

namespace Sys2Proof.Machine

/-! ### The other commands -/

/-- The config bytes and the address words are as they were, or the command is one of those named for them. -/
theorem CommandEffect.namedBank {s t : State} {i : Instr} (h : CommandEffect s i t) :
    (t.pmpcfg = s.pmpcfg ∨ clearsBank i ∨ ∃ w v, i = .pmpcfgWrite w v)
      ∧ (t.pmpaddr = s.pmpaddr ∨ clearsBank i ∨ ∃ j v, i = .pmpaddrWrite j v)
      ∧ (t.pmpPerm = s.pmpPerm ∨ clearsBank i ∨ (∃ w v, i = .pmpcfgWrite w v) ∨ ∃ j v, i = .pmpaddrWrite j v) := by
  rcases h.bank with ⟨hi, -⟩ | ⟨w, v, hi, rfl⟩ | ⟨j, v, hi, rfl⟩ | hb
  · exact ⟨.inr (.inl hi), .inr (.inl hi), .inr (.inl hi)⟩
  · obtain ⟨c, p, hw⟩ := s.writeCfgWord_eq w v (cfgWordBytes s.params.xlen)
    rw [hw]
    exact ⟨.inr (.inr ⟨w, v, hi⟩), .inl rfl, .inr (.inr (.inl ⟨w, v, hi⟩))⟩
  · obtain ⟨a, p, hw, -⟩ := s.writeAddr_eq j v
    rw [hw]
    exact ⟨.inl rfl, .inr (.inr ⟨j, v, hi⟩), .inr (.inr (.inr ⟨j, v, hi⟩))⟩
  · exact ⟨.inl hb.pmpcfg, .inl hb.pmpaddr, .inl hb.pmpPerm⟩

/-! ### `MISS` and the walkers -/

/-- What neither a `MISS` nor a walker writes. -/
structure AccessFrame (s0 s : State) : Prop where
  params : s.params = s0.params
  env : s.env = s0.env
  input : s.input = s0.input
  pmpcfg : s.pmpcfg = s0.pmpcfg
  pmpaddr : s.pmpaddr = s0.pmpaddr
  pubKey : s.pubKey = s0.pubKey
  dataMode : s.dataMode = s0.dataMode

theorem AccessFrame.walk {s0 s t : State} (h : AccessFrame s0 s) (f : WalkFrame s t) : AccessFrame s0 t :=
  ⟨f.params.trans h.params, f.env.trans h.env, f.input.trans h.input, f.pmpcfg.trans h.pmpcfg, f.pmpaddr.trans h.pmpaddr,
    f.pubKey.trans h.pubKey, f.dataMode.trans h.dataMode⟩

theorem memoryKeeps_accessFrame (s0 : State) : MemoryKeeps s0 (fun _ => AccessFrame s0) where
  frame _ _ h := ⟨h.params, h.env⟩
  store _ s t hst h := by
    rw [hst]
    exact ⟨h.params, h.env, h.input, h.pmpcfg, h.pmpaddr, h.pubKey, h.dataMode⟩
  read _ s t addr _ h := h.walk (s.memRead_spec t addr _).2.1
  write _ s t addr _ v h := h.walk (s.memWrite_spec t addr _ v).2.1
  check _ s mode req lo hi h := by
    obtain ⟨p, a, he⟩ := s.checkPhysical_eq mode req lo hi
    rw [he]
    exact ⟨h.params, h.env, h.input, h.pmpcfg, h.pmpaddr, h.pubKey, h.dataMode⟩
  beginStage2 _ _ _ h := ⟨h.params, h.env, h.input, h.pmpcfg, h.pmpaddr, h.pubKey, h.dataMode⟩
  endStage2 _ h := ⟨h.params, h.env, h.input, h.pmpcfg, h.pmpaddr, h.pubKey, h.dataMode⟩

theorem exec_accessFrame {s t : State} {i : Instr} (hi : isMiss i ∨ isWalker i) (h : exec i s = .next t) :
    AccessFrame s t :=
  exec_keeps_of_access (memoryKeeps_accessFrame s).access ⟨rfl, rfl, rfl, rfl, rfl, rfl, rfl⟩
    (fun _ _ hu => ⟨hu.params, hu.env, hu.input, hu.pmpcfg, hu.pmpaddr, hu.pubKey, hu.dataMode⟩)
    (fun _ _ hu => ⟨hu.params, hu.env, hu.input, hu.pmpcfg, hu.pmpaddr, hu.pubKey, hu.dataMode⟩) hi h

/-- The stores, the parameters and the inputs are those of `s0`. -/
structure SameStores (s0 s : State) : Prop where
  params : s.params = s0.params
  env : s.env = s0.env
  tlbs : s.tlbs = s0.tlbs
  aliases : s.aliases = s0.aliases

theorem SameStores.walk {s0 s t : State} (h : SameStores s0 s) (f : WalkFrame s t) : SameStores s0 t :=
  ⟨f.params.trans h.params, f.env.trans h.env, f.tlbs.trans h.tlbs, f.aliases.trans h.aliases⟩

theorem lookupKeeps_sameStores (s0 : State) (artifact : Bool) :
    LookupKeeps False s0 artifact (fun _ => False) (SameStores s0) where
  frame _ h := ⟨h.params, h.env⟩
  read s t addr _ h := h.walk (s.memRead_spec t addr _).2.1
  write s t addr _ _ _ _ h _ := h.walk (s.memWrite_spec t addr _ _).2.1
  links h := h.elim
  draw _ _ h := ⟨h.params, h.env, h.tlbs, h.aliases⟩
  delete _ _ _ h := h.elim
  rekey _ _ _ _ h := h.elim
  insert _ _ _ _ _ _ h := h.elim

/-- A walker writes no store while its page tables are reached directly (20_memory.md R81, R95). -/
theorem exec_walker_stores {s t : State} {i : Instr} (hv : s.params.vs1PtwViaS2 = false) (hi : isWalker i)
    (h : exec i s = .next t) : t.tlbs = s.tlbs ∧ t.aliases = s.aliases := by
  obtain ⟨artifact, hrun⟩ := hi.runs h
  have K : MissKeeps False s artifact (fun _ => False) (SameStores s) (SameStores s) :=
    { lookupKeeps_sameStores s artifact with
      inner := lookupKeeps_sameStores s artifact
      beginStage2 := fun _ _ _ h => ⟨h.params, h.env, h.tlbs, h.aliases⟩
      endStage2 := fun _ h => ⟨h.params, h.env, h.tlbs, h.aliases⟩ }
  obtain ⟨u, r, hu, rfl⟩ := walker_keeps K (fun hv' => by rw [hv] at hv'; cases hv')
    (fun _ _ h => ⟨h.params, h.env, h.tlbs, h.aliases⟩) ⟨rfl, rfl, rfl, rfl⟩ t hrun
  exact ⟨hu.tlbs, hu.aliases⟩

end Sys2Proof.Machine

section
open Sys2Proof Sys2Proof.Machine

/-- Settles O12: from the effect of each command, and from what a `MISS` and a walker leave unchanged. -/
theorem onlyNamedCommandsWrite : Obligations.OnlyNamedCommandsWrite := by
  intro i s t h
  have named {α : Type} {x y : α} {p : Prop} (hxy : x = y ∨ p) (hne : x ≠ y) : p := hxy.resolve_left hne
  rcases exec_effect h with hi | hi | he
  · obtain ⟨hp, henv, hin, hc, ha, hk, hd⟩ := exec_accessFrame (.inl hi) h
    exact ⟨hp, henv, hin, (absurd hc ·), (absurd ha ·), (absurd hk ·), (absurd hd ·), fun _ => .inr (.inr (.inl hi)),
      fun _ => .inl hi, fun _ => .inr (.inl hi), fun _ => .inr (.inr (.inr (.inl hi)))⟩
  · obtain ⟨hp, henv, hin, hc, ha, hk, hd⟩ := exec_accessFrame (.inr hi) h
    refine ⟨hp, henv, hin, (absurd hc ·), (absurd ha ·), (absurd hk ·), (absurd hd ·), fun hne => ?_,
      fun _ => .inr hi, fun _ => .inr (.inr hi), fun _ => .inr (.inr (.inr (.inr hi)))⟩
    cases hv : s.params.vs1PtwViaS2 with
    | true => exact .inr (.inr (.inr (.inr (.inr ⟨hi, rfl⟩))))
    | false =>
      obtain ⟨ht, ha⟩ := exec_walker_stores hv hi h
      exact (hne.elim (· ht) (· ha)).elim
  · have f := he.frame
    obtain ⟨hc, ha, hperm⟩ := he.namedBank
    refine ⟨f.params, f.env, f.input, named hc, named ha, named f.pubKey, named f.dataMode, fun hne => ?_,
      (absurd f.mem ·), fun hne => .inl (named f.afault hne), fun hne => ?_⟩
    · rcases f.stores with ⟨ht, hal⟩ | hi | hi | hi | hi
      · exact (hne.elim (· ht) (· hal)).elim
      · exact .inl hi
      · exact .inr (.inl hi)
      · exact .inr (.inr (.inr (.inl hi)))
      · exact .inr (.inr (.inr (.inr (.inl hi))))
    · rcases named hperm hne with hi | hi | hi
      · exact .inl hi
      · exact .inr (.inl hi)
      · exact .inr (.inr (.inl hi))

end
end

section
/-! The bytes of memory a command changes (20_memory.md R82, R87, 40_walker.md R151): those of the page-table writes it records,
and of those the accessed and the dirty bit only. -/

namespace Sys2Proof.Machine

/-! ### Changes of the stores keep memory -/

theorem StoreStep.params {s t : State} (h : StoreStep s t) : t.params = s.params := by rw [h]

theorem StoreStep.env {s t : State} (h : StoreStep s t) : t.env = s.env := by rw [h]

theorem StoreStep.mem {s t : State} (h : StoreStep s t) : t.mem = s.mem := by rw [h]

theorem StoreStep.traffic {s t : State} (h : StoreStep s t) : t.traffic = s.traffic := by rw [h]

/-! ### A byte that keeps all but its accessed and dirty bits -/

/-- The byte `new` is `old` with some of the bits 7:6, the dirty and the accessed bit of an entry's low byte, set. -/
def setsOnlyAD (old new : Byte) : Prop :=
  new &&& 0x3F = old &&& 0x3F ∧ new &&& old = old

theorem setsOnlyAD.refl (b : Byte) : setsOnlyAD b b :=
  ⟨rfl, BitVec.and_self⟩

theorem setsOnlyAD.trans {b c d : Byte} (h : setsOnlyAD b c) (k : setsOnlyAD c d) : setsOnlyAD b d := by
  obtain ⟨hlow, hkept⟩ := h
  obtain ⟨klow, kkept⟩ := k
  refine ⟨klow.trans hlow, ?_⟩
  calc d &&& b = d &&& (c &&& b) := by rw [hkept]
    _ = b := by rw [← BitVec.and_assoc, kkept, hkept]

theorem setsOnlyAD_or (b : Byte) {m : Byte} (hm : m &&& 0x3F = 0) : setsOnlyAD b (b ||| m) := by
  refine ⟨?_, ?_⟩
  · rw [BitVec.and_or_distrib_right, hm]
    exact BitVec.or_zero
  · ext i hi
    simp only [BitVec.getElem_and, BitVec.getElem_or]
    cases b[i] <;> simp

/-- Each byte of `new` is the one of `old` at its place with some of the bits 7:6 set. -/
def bytesSetOnlyAD (old new : List Byte) : Prop :=
  old.length = new.length ∧ ∀ i (h : i < old.length) (h' : i < new.length), setsOnlyAD old[i] new[i]

theorem bytesSetOnlyAD.refl (bs : List Byte) : bytesSetOnlyAD bs bs :=
  ⟨rfl, fun _ _ _ => .refl _⟩

theorem bytesSetOnlyAD.cons {b c : Byte} {bs cs : List Byte} (h : setsOnlyAD b c) (k : bytesSetOnlyAD bs cs) :
    bytesSetOnlyAD (b :: bs) (c :: cs) := by
  obtain ⟨hlen, hbytes⟩ := k
  refine ⟨congrArg (· + 1) hlen, fun i hi hi' => ?_⟩
  cases i with
  | zero => exact h
  | succ i => exact hbytes i (Nat.lt_of_succ_lt_succ hi) (Nat.lt_of_succ_lt_succ hi')

theorem bytesSetOnlyAD.reverse {bs cs : List Byte} (h : bytesSetOnlyAD bs cs) :
    bytesSetOnlyAD bs.reverse cs.reverse := by
  obtain ⟨hlen, hbytes⟩ := h
  refine ⟨by rw [List.length_reverse, List.length_reverse, hlen], fun i hi hi' => ?_⟩
  rw [List.length_reverse] at hi hi'
  rw [List.getElem_reverse, List.getElem_reverse]
  simp only [← hlen]
  exact hbytes _ (by omega) (by omega)

/-! ### The bytes of a value -/

/-- The low bytes of a value do not depend on the bytes above them. -/
theorem leBytes_mod (n k v : Nat) (h : n ≤ k) : leBytes n (v % 256 ^ k) = leBytes n v := by
  induction n generalizing k v with
  | zero => rfl
  | succ n ih =>
    obtain ⟨j, rfl⟩ : ∃ j, k = j + 1 := ⟨k - 1, by omega⟩
    have hhead : BitVec.ofNat 8 (v % 256 ^ (j + 1)) = BitVec.ofNat 8 v :=
      BitVec.eq_of_toNat_eq (Nat.mod_mod_of_dvd v ⟨256 ^ j, Nat.pow_succ'⟩)
    have htail : v % 256 ^ (j + 1) / 256 = v / 256 % 256 ^ j := by
      rw [Nat.pow_succ', Nat.mod_mul_right_div_self]
    rw [leBytes, leBytes, hhead, htail, ih j _ (by omega)]

/-- A value read little-endian has the bytes that stand there. -/
theorem Memory.leBytes_readLE (m : Memory) (n a : Nat) :
    leBytes n (m.readLE n a) = (List.range' a n).map (Memory.readByte · m) := by
  induction n generalizing a with
  | zero => rfl
  | succ n ih =>
    have hb := (Memory.readByte a m).isLt
    have hhead : BitVec.ofNat 8 ((Memory.readByte a m).toNat + 256 * m.readLE n (a + 1)) = Memory.readByte a m :=
      BitVec.eq_of_toNat_eq (by rw [BitVec.toNat_ofNat]; omega)
    have htail : ((Memory.readByte a m).toNat + 256 * m.readLE n (a + 1)) / 256 = m.readLE n (a + 1) := by omega
    rw [Memory.readLE, leBytes, hhead, htail, ih (a + 1), List.range'_succ, List.map_cons]

/-- A value read big-endian after the `k` bytes of `acc` has those bytes and then the bytes that stand there. -/
theorem Memory.leBytes_readBE (m : Memory) (n a k acc : Nat) :
    (leBytes (n + k) (m.readBE n a acc)).reverse
      = (leBytes k acc).reverse ++ (List.range' a n).map (Memory.readByte · m) := by
  induction n generalizing a k acc with
  | zero => simp [Memory.readBE]
  | succ n ih =>
    have hb := (Memory.readByte a m).isLt
    have hhead : BitVec.ofNat 8 (256 * acc + (Memory.readByte a m).toNat) = Memory.readByte a m :=
      BitVec.eq_of_toNat_eq (by rw [BitVec.toNat_ofNat]; omega)
    have htail : (256 * acc + (Memory.readByte a m).toNat) / 256 = acc := by omega
    rw [Memory.readBE, Nat.add_right_comm, Nat.add_assoc, ih (a + 1) (k + 1), leBytes, hhead, htail, List.range'_succ,
      List.map_cons, List.reverse_cons, List.append_assoc, List.singleton_append]

/-- The bytes a write of `v` stores from its address up, in the given byte order (20_memory.md R83). -/
def orderedBytes (big : Bool) (n v : Nat) : List Byte :=
  if big then (leBytes n v).reverse else leBytes n v

theorem Memory.write_eq (m : Memory) (big : Bool) (a n v : Nat) :
    m.write big a n v = Memory.writeBytes a (orderedBytes big n v) m :=
  rfl

theorem Memory.orderedBytes_read (m : Memory) (big : Bool) (a n : Nat) :
    orderedBytes big n (m.read big a n) = (List.range' a n).map (Memory.readByte · m) := by
  cases big
  · exact m.leBytes_readLE n a
  · exact m.leBytes_readBE n a 0 0

/-! ### Writing back an entry (40_walker.md R151) -/

/-- Bytes that stand there, written back with some of their bits 7:6 set, change no other bit of memory. -/
theorem Memory.writeBytes_setsOnlyAD {m : Memory} (hm : m.wf = true) {a n : Nat} {bs : List Byte}
    (h : bytesSetOnlyAD ((List.range' a n).map (Memory.readByte · m)) bs) (x : Nat) :
    setsOnlyAD (Memory.readByte x m) (Memory.readByte x (Memory.writeBytes a bs m)) := by
  obtain ⟨hlen, hbytes⟩ := h
  by_cases hx : a ≤ x ∧ x < a + bs.length
  · obtain ⟨i, rfl⟩ : ∃ i, x = a + i := ⟨x - a, by omega⟩
    have hi : i < bs.length := by omega
    have hb := hbytes i (hlen ▸ hi) hi
    rw [List.getElem_map, List.getElem_range', Nat.one_mul] at hb
    rw [Memory.readByte_writeBytes_inside a bs hm i hi]
    exact hb
  · rw [Memory.readByte_writeBytes_outside a bs m (by omega)]
    exact .refl _

/-- Setting bits 7:6 of a value changes no other bit of its bytes. -/
theorem leBytes_or_setsOnlyAD (n v : Nat) {m : Nat} (hm : m < 256) (hlow : BitVec.ofNat 8 m &&& 0x3F = 0) :
    bytesSetOnlyAD (leBytes n v) (leBytes n (v ||| m)) := by
  cases n with
  | zero => exact .refl _
  | succ n =>
    have hhead : BitVec.ofNat 8 (v ||| m) = BitVec.ofNat 8 v ||| BitVec.ofNat 8 m := BitVec.ofNat_or
    have htail : (v ||| m) / 256 = v / 256 := by
      rw [show 256 = 2 ^ 8 from rfl, Nat.or_div_two_pow, Nat.div_eq_of_lt hm, Nat.or_zero]
    rw [leBytes, leBytes, hhead, htail]
    exact .cons (setsOnlyAD_or _ hlow) (.refl _)

/-- The bits a write-back sets: the accessed one and, with `d`, the dirty one. -/
def adBits (d : Bool) : Nat :=
  if d then 0xC0 else 0x40

theorem adBits_lt (d : Bool) : adBits d < 256 := by
  cases d <;> decide

theorem adBits_low (d : Bool) : BitVec.ofNat 8 (adBits d) &&& 0x3F = 0 := by
  cases d <;> rfl

theorem pteWithAD_toNat (pte : U64) (d : Bool) : (pteWithAD pte true d).toNat = pte.toNat ||| adBits d := by
  have hbits : pteWithAD pte true d = pte ||| BitVec.ofNat 64 (adBits d) := by
    unfold pteWithAD
    rw [BitVec.or_assoc]
    cases d <;> rfl
  rw [hbits, BitVec.toNat_or]
  cases d <;> rfl

/-- An entry of at most eight bytes written back where it was read, with `A` and `D` set, changes no other bit of memory. -/
theorem Memory.write_pteWithAD {m : Memory} (hm : m.wf = true) (big : Bool) (a : Nat) {n : Nat} (hn : n ≤ 8) (d : Bool)
    (x : Nat) :
    setsOnlyAD (Memory.readByte x m)
      (Memory.readByte x (m.write big a n (pteWithAD (BitVec.ofNat 64 (m.read big a n)) true d).toNat)) := by
  have hbits : bytesSetOnlyAD (leBytes n (m.read big a n))
      (leBytes n (pteWithAD (BitVec.ofNat 64 (m.read big a n)) true d).toNat) := by
    rw [pteWithAD_toNat, BitVec.toNat_ofNat, show 2 ^ 64 = 256 ^ 8 from rfl, ← leBytes_mod n 8 (m.read big a n) hn]
    exact leBytes_or_setsOnlyAD n _ (adBits_lt d) (adBits_low d)
  have hordered : bytesSetOnlyAD (orderedBytes big n (m.read big a n))
      (orderedBytes big n (pteWithAD (BitVec.ofNat 64 (m.read big a n)) true d).toNat) := by
    cases big
    · exact hbits
    · exact hbits.reverse
  rw [Memory.orderedBytes_read] at hordered
  rw [Memory.write_eq]
  exact Memory.writeBytes_setsOnlyAD hm hordered x

/-! ### Commands only set accessed and dirty bits -/

/-- Memory is as in `s0` but for accessed and dirty bits set since; the parameters and the inputs are those of `s0`. -/
structure OnlyADSet (s0 s : State) : Prop where
  params : s.params = s0.params
  env : s.env = s0.env
  memory : s.memoryOk
  bytes : ∀ a, setsOnlyAD (Memory.readByte a s0.mem) (Memory.readByte a s.mem)

/-- It is about memory, the parameters and the inputs. -/
theorem OnlyADSet.congr {s0 s t : State} (h : OnlyADSet s0 s) (hp : t.params = s.params) (he : t.env = s.env)
    (hm : t.mem = s.mem) : OnlyADSet s0 t := by
  refine ⟨hp.trans h.params, he.trans h.env, ?_, fun a => hm ▸ h.bytes a⟩
  unfold State.memoryOk
  rw [hm]
  exact h.memory

theorem OnlyADSet.store {s0 s t : State} (h : OnlyADSet s0 s) (hst : StoreStep s t) : OnlyADSet s0 t :=
  h.congr hst.params hst.env hst.mem

/-- A write-back of the entry that stands at its address sets accessed and dirty bits only. -/
theorem OnlyADSet.memWrite {s0 s : State} (h : OnlyADSet s0 s) (t : TlbId) (addr : U64) (fmt : PteFormat) (d : Bool)
    {pte : U64} (hpte : pte = BitVec.ofNat 64 (s.mem.read (s.bigEndian t) addr.toNat (pteBytes fmt))) :
    OnlyADSet s0 (s.memWrite t addr (pteBytes fmt) (pteWithAD pte true d)).2 := by
  obtain ⟨-, f, hm, -⟩ := s.memWrite_spec t addr (pteBytes fmt) (pteWithAD pte true d)
  refine ⟨f.params.trans h.params, f.env.trans h.env, h.memory.memWrite t addr fmt _, fun a => ?_⟩
  rw [hm]
  split
  · subst hpte
    have hn : pteBytes fmt ≤ 8 := by have := pteBytes_eq fmt; omega
    exact (h.bytes a).trans (Memory.write_pteWithAD h.memory.1 _ _ hn d a)
  · exact h.bytes a

theorem lookupKeeps_onlyADSet {s0 : State} (hv : s0.params.vs1PtwViaS2 = false) (artifact : Bool) :
    LookupKeeps False s0 artifact (fun _ => True) (OnlyADSet s0) where
  frame _ h := ⟨h.params, h.env⟩
  read s t addr fmt h := by
    obtain ⟨-, f, hm, -⟩ := s.memRead_spec t addr (pteBytes fmt)
    exact h.congr f.params f.env hm
  write _ t addr fmt _ _ _ h hpte := h.memWrite t addr fmt _ (hpte hv)
  links h := h.elim
  draw s n h := h.store (.draw s n)
  delete s _ l _ h _ := h.store (.deleteAll s l)
  rekey s _ mode e _ h _ := h.store (.rekey s mode e)
  insert s _ _ _ _ e _ h _ := h.store (.tlbInsert s e)

theorem accessKeeps_onlyADSet {s0 : State} (hv : s0.params.vs1PtwViaS2 = false) (artifact : Bool) :
    AccessKeeps False s0 artifact (OnlyADSet s0) (OnlyADSet s0) where
  toLookupKeeps := lookupKeeps_onlyADSet hv artifact
  inner := lookupKeeps_onlyADSet hv artifact
  beginStage2 _ _ _ h := h.congr rfl rfl rfl
  endStage2 _ h := h.congr rfl rfl rfl
  check s mode req lo hi h := by
    obtain ⟨p, a, he⟩ := s.checkPhysical_eq mode req lo hi
    rw [he]
    exact h.congr rfl rfl rfl
  install s _ x _ mode c _ _ h _ := (h.store (.draw s 1)).store (.installChunk _ mode c (s.chunkMapping mode x c))

/-! ### Memory outside the recorded writes -/

/-- The byte at `a` lies outside every successful write in the list. -/
def outsideWrites (l : List PteAccess) (a : Nat) : Prop :=
  ∀ w ∈ l, w.write = true → w.ok = true → a < w.addr.toNat ∨ w.addr.toNat + w.size ≤ a

theorem outsideWrites_append {l k : List PteAccess} {a : Nat} :
    outsideWrites (l ++ k) a ↔ outsideWrites l a ∧ outsideWrites k a :=
  List.forall_mem_append

/-- Every byte outside the recorded writes is as in `s0`; the parameters and the inputs are those of `s0`. -/
structure ChangedInWrites (s0 s : State) : Prop where
  params : s.params = s0.params
  env : s.env = s0.env
  bytes : ∀ a, outsideWrites s.traffic a → Memory.readByte a s.mem = Memory.readByte a s0.mem

/-- It is about memory, the traffic, the parameters and the inputs. -/
theorem ChangedInWrites.congr {s0 s t : State} (h : ChangedInWrites s0 s) (hp : t.params = s.params) (he : t.env = s.env)
    (hm : t.mem = s.mem) (ht : t.traffic = s.traffic) : ChangedInWrites s0 t :=
  ⟨hp.trans h.params, he.trans h.env, fun a ha => hm ▸ h.bytes a (ht ▸ ha)⟩

/-- A page-table write changes no byte outside the access it records. -/
theorem ChangedInWrites.memWrite {s0 s : State} (h : ChangedInWrites s0 s) (t : TlbId) (addr : U64) (n : Nat) (v : U64) :
    ChangedInWrites s0 (s.memWrite t addr n v).2 := by
  obtain ⟨-, f, hm, -, w, ht, hw, haddr, hsize, -, -, -, hok⟩ := s.memWrite_spec t addr n v
  refine ⟨f.params.trans h.params, f.env.trans h.env, fun a ha => ?_⟩
  rw [ht, outsideWrites_append] at ha
  obtain ⟨hold, hnew⟩ := ha
  rw [hm]
  split
  · rename_i hserved
    have hout := hnew w (List.mem_singleton_self w) hw (hok.trans hserved)
    rw [haddr, hsize] at hout
    rw [Memory.readByte_write_outside _ _ _ _ _ hout]
    exact h.bytes a hold
  · exact h.bytes a hold

theorem memoryKeeps_changedInWrites (s0 : State) : MemoryKeeps s0 (fun _ => ChangedInWrites s0) where
  frame _ _ h := ⟨h.params, h.env⟩
  store _ _ _ hst h := h.congr hst.params hst.env hst.mem hst.traffic
  read _ s t addr fmt h := by
    obtain ⟨-, f, hm, -, w, ht, -⟩ := s.memRead_spec t addr (pteBytes fmt)
    refine ⟨f.params.trans h.params, f.env.trans h.env, fun a ha => ?_⟩
    rw [ht, outsideWrites_append] at ha
    rw [hm]
    exact h.bytes a ha.1
  write _ _ t addr fmt v h := h.memWrite t addr (pteBytes fmt) v
  check _ s mode req lo hi h := by
    obtain ⟨p, a, he⟩ := s.checkPhysical_eq mode req lo hi
    rw [he]
    exact h.congr rfl rfl rfl rfl
  beginStage2 _ _ _ h := h.congr rfl rfl rfl rfl
  endStage2 _ h := h.congr rfl rfl rfl rfl

end Sys2Proof.Machine

section
open Sys2Proof Sys2Proof.Machine

/-- Settles O13: the value a walk writes back is the one it read at that address with `A` and `D` set, and nothing else a
command does writes memory. -/
theorem commandsOnlySetAccessedAndDirty : Obligations.CommandsOnlySetAccessedAndDirty := by
  intro i s t hmem hv h
  have start : OnlyADSet s s := ⟨rfl, rfl, hmem, fun _ => .refl _⟩
  have kept : OnlyADSet s t := by
    refine exec_keeps (accessKeeps_onlyADSet hv) start (fun _ _ hu => ?_) (fun _ _ hu => ?_) (fun he => ?_) h
    · exact hu.congr rfl rfl rfl
    · exact hu.congr rfl rfl rfl
    · exact start.congr he.frame.params he.frame.env he.frame.mem
  exact kept.bytes

/-- Settles O14: a page-table write records its address and its width, and nothing else a command does writes memory. The
traffic before the command need not be empty: more recorded writes only leave fewer bytes to claim. -/
theorem memoryChangesOnlyWhereWritten : Obligations.MemoryChangesOnlyWhereWritten := by
  intro i s t _ h
  have start : ChangedInWrites s s := ⟨rfl, rfl, fun _ _ => rfl⟩
  have kept : ChangedInWrites s t := by
    refine exec_keeps (memoryKeeps_changedInWrites s).access start (fun _ _ hu => ?_) (fun _ _ hu => ?_) (fun he => ?_) h
    · exact hu.congr rfl rfl rfl rfl
    · exact hu.congr rfl rfl rfl rfl
    · have f := he.frame
      exact start.congr f.params f.env f.mem f.traffic
  exact kept.bytes

end
end

section
/-! Decoding an encoded instruction (30_encoding.md R109, R113, R115, R130, R131): by what a packet is decoded, kind by kind, and
what its fields read back as. -/

namespace Sys2Proof

/-! ### What a packet is decoded by -/

theorem decode_commandPacket (code : Byte) (operands : List Byte) :
    decode (commandPacket code operands) = decodeCommand code.toNat operands := by
  unfold decode commandPacket
  exact withField_one code operands decodeCommand

theorem decode_walkerPacket (sv : SvMode) (operands : List Byte) :
    decode (walkerPacket sv operands) = decodeWalker sv operands := by
  unfold decode walkerPacket
  cases sv with
  | sv32 => exact withField_one 0x01 operands decodeMode1
  | sv39 => exact withField_one 0x08 operands decodeMode4
  | sv48 => exact withField_one 0x09 operands decodeMode4

theorem decode_pmpcfgPacket (byte : Byte) (i : Nat) :
    decode (pmpcfgPacket byte i) = decodePmpcfg byte [BitVec.ofNat 8 i] := by
  unfold decode pmpcfgPacket
  simp only [withField_one, BitVec.ofNat_toNat, BitVec.setWidth_eq]

theorem decode_ptePacket (pte : U64) (fmt : PteFormat) : decode (ptePacket pte fmt) = decodePte pte fmt := by
  unfold decode ptePacket
  simp only [withField_leBytes, withCode_one, PteFormat.ofCode_code, Machine.u64_back]

/-! ### Fields read back -/

theorem indexByte_toNat {i : Nat} (h : wfIndex i = true) : (BitVec.ofNat 8 i).toNat = i := by
  rw [BitVec.toNat_ofNat, Nat.mod_eq_of_lt (of_decide_eq_true h)]

/-- The bits of a config byte: `L 0 0 A A X W R` (30_encoding.md R115). -/
theorem pmpcfgByte_bits (l : Bool) (a : BitVec 2) (x w r : Bool) :
    (pmpcfgByte l a x w r).getLsbD 7 = l ∧ (pmpcfgByte l a x w r).getLsbD 4 = a.getLsbD 1
      ∧ (pmpcfgByte l a x w r).getLsbD 3 = a.getLsbD 0 ∧ (pmpcfgByte l a x w r).getLsbD 2 = x
      ∧ (pmpcfgByte l a x w r).getLsbD 1 = w ∧ (pmpcfgByte l a x w r).getLsbD 0 = r := by
  revert l a x w r
  decide

/-- The low bits of a page-table entry: `X W R V` (30_encoding.md R107). -/
theorem pteWord_lowBits (upper : BitVec 60) (x w r v : Bool) :
    (pteWord upper x w r v).getLsbD 0 = v ∧ (pteWord upper x w r v).getLsbD 1 = r
      ∧ (pteWord upper x w r v).getLsbD 2 = w ∧ (pteWord upper x w r v).getLsbD 3 = x := by
  simp only [pteWord, BitVec.getLsbD_append]
  simp

theorem pteWord_upperBit (upper : BitVec 60) (x w r v : Bool) (i : Nat) :
    (pteWord upper x w r v).getLsbD (4 + i) = upper.getLsbD i := by
  simp only [pteWord, BitVec.getLsbD_append, if_neg (show ¬4 + i < 1 + (1 + (1 + 1)) by omega), Nat.add_sub_cancel_left]

/-- A field above the low bits is a field of the upper bits. -/
theorem pteWord_upperField (upper : BitVec 60) (x w r v : Bool) (k n : Nat) :
    (pteWord upper x w r v).extractLsb' (4 + k) n = upper.extractLsb' k n := by
  ext i hi
  simp only [BitVec.getElem_extractLsb', Nat.add_assoc, pteWord_upperBit]

/-! ### Decoding what was encoded, kind by kind -/

theorem decode_encode_miss (cls : DomainClass) (mode : Mode5) (req : Priv) (va : U64) {bytes : Nat} (artifact : Bool)
    (hb : wfBytes bytes = true) :
    decode (encode (.miss cls mode req va bytes artifact)) = .ok (.miss cls mode req va bytes artifact) := by
  obtain ⟨-, hlt⟩ : 1 ≤ bytes ∧ bytes < 256 ^ 9 := by simpa [wfBytes] using hb
  refine (decode_commandPacket _ _).trans ?_
  show decodeMiss _ = _
  simp only [decodeMiss, withCode_one, DomainClass.ofCode_code, Mode5.ofCode_code, privOfCode_byte, flagOfCode_byte,
    withField_leBytes, withField_leBytes_end, Machine.u64_back, Nat.mod_eq_of_lt hlt]

theorem decodeRestore_stream {stream : List Byte} (h : wfStream stream = true) :
    decodeRestore (leBytes 4 stream.length ++ stream) = .ok (.vmRestore stream) := by
  have hlt : stream.length < 256 ^ 4 := of_decide_eq_true h
  simp only [decodeRestore, withField_leBytes, Nat.mod_eq_of_lt hlt, Nat.lt_irrefl, if_false, List.take_length]

section
variable (sv : SvMode) (x : U64) (req : Priv) (mode : Mode5) (artifact : Bool)

theorem decode_stage1Packet (reg : Stage1Reg) :
    decode (walkerPacket sv (walkerOperands reg.tlb x req mode artifact))
      = .ok (Machine.stage1Instr sv reg x req mode artifact) := by
  rw [decode_walkerPacket]
  simp only [decodeWalker, walkerOperands, withCode_one, TlbId.ofCode_code, withField_leBytes, privOfCode_byte,
    Mode5.ofCode_code, flagOfCode_byte, Machine.u64_back]
  cases sv <;> cases reg <;> rfl

theorem decode_stage2Packet :
    decode (walkerPacket sv (walkerOperands .vs2 x req mode artifact))
      = .ok (Machine.stage2Instr sv x req mode artifact) := by
  rw [decode_walkerPacket]
  simp only [decodeWalker, walkerOperands, withCode_one, TlbId.ofCode_code, withField_leBytes, privOfCode_byte,
    Mode5.ofCode_code, flagOfCode_byte, Machine.u64_back]
  cases sv <;> rfl

end

/-- The region kind of a mode field (30_encoding.md R115). -/
def regionInstr (a : BitVec 2) (l x w r : Bool) (i : Nat) : Instr :=
  match a.getLsbD 1, a.getLsbD 0 with
  | false, false => .pmpOff l x w r i
  | false, true => .pmpTor l x w r i
  | true, false => .pmpNa4 l x w r i
  | true, true => .pmpNapot l x w r i

theorem decode_regionPacket (a : BitVec 2) (l x w r : Bool) {i : Nat} (hi : wfIndex i = true) :
    decode (pmpcfgPacket (pmpcfgByte l a x w r) i) = .ok (regionInstr a l x w r i) := by
  obtain ⟨h7, h4, h3, h2, h1, h0⟩ := pmpcfgByte_bits l a x w r
  rw [decode_pmpcfgPacket]
  simp only [decodePmpcfg, withField_one, indexByte_toNat hi, h7, h4, h3, h2, h1, h0, regionInstr]
  cases a.getLsbD 1 <;> cases a.getLsbD 0 <;> rfl

/-- The kind of page-table entry of the bits `X W R V` (30_encoding.md R109). -/
def pteInstr (upper : BitVec 60) (x w r v : Bool) (fmt : PteFormat) : Instr :=
  if !v then .pteInvalid x w r upper fmt
  else if !r && w then .pteReserved x upper fmt
  else if r || w || x then .pteLeaf x w r upper fmt
  else .ptePointer upper fmt

theorem decode_ptePacket_pteWord {upper : BitVec 60} {fmt : PteFormat} (h : wfUpper upper fmt = true) (x w r v : Bool) :
    decode (ptePacket (pteWord upper x w r v) fmt) = .ok (pteInstr upper x w r v fmt) := by
  obtain ⟨h0, h1, h2, h3⟩ := pteWord_lowBits upper x w r v
  have hupper : (pteWord upper x w r v).extractLsb' 4 60 = upper := by
    rw [pteWord_upperField upper x w r v 0 60, BitVec.extractLsb'_eq_self]
  rw [decode_ptePacket]
  simp only [decodePte, h0, h1, h2, h3, hupper, h, Bool.not_true, Bool.false_eq_true, if_false, pteInstr]
  cases v with
  | false => rfl
  | true => cases r <;> cases w <;> cases x <;> rfl

/-- The leaf patterns are those that are neither reserved nor a pointer. -/
theorem wfLeaf_iff {x w r : Bool} : wfLeaf x w r = true ↔ (!r && w) = false ∧ (r || w || x) = true := by
  revert x w r
  decide

theorem pteInstr_leaf {x w r : Bool} (h : wfLeaf x w r = true) (upper : BitVec 60) (fmt : PteFormat) :
    pteInstr upper x w r true fmt = .pteLeaf x w r upper fmt := by
  obtain ⟨hnotReserved, hany⟩ := wfLeaf_iff.1 h
  simp only [pteInstr, hnotReserved, hany, Bool.not_true, Bool.false_eq_true, if_false, if_true]

theorem decode_encode {i : Instr} (h : i.wf = true) : decode (encode i) = .ok i := by
  cases i with
  | vmInit | vmFree | invalAll | setAsid | refreshMprv | pmpReset | pmpNew | pmpFree | vmSave | dumpTlb | dumpVs1Tlb
  | dumpVs2Tlb => exact decode_commandPacket _ []
  | miss cls mode req va bytes artifact => exact decode_encode_miss cls mode req va artifact (Bool.and_eq_true_iff.1 h).2
  | vmRestore stream => exact (decode_commandPacket _ _).trans (decodeRestore_stream h)
  | invalAllAsid _ | invalVa _ | invalVaAsid _ _ =>
    simp only [encode, decode_commandPacket, BitVec.reduceToNat, decodeCommand, withField_leBytes,
      withField_leBytes_end, Machine.u64_back]
  | pmpcfgRead _ | pmpcfgWrite _ _ | pmpaddrRead _ | pmpaddrWrite _ _ =>
    simp only [encode, decode_commandPacket, BitVec.reduceToNat, decodeCommand, withField_one, indexByte_toNat h,
      withField_leBytes_end, Machine.u64_back]
  | walkSv32 reg va req mode artifact => exact decode_stage1Packet .sv32 va req mode artifact reg
  | walkSv39 reg va req mode artifact => exact decode_stage1Packet .sv39 va req mode artifact reg
  | walkSv48 reg va req mode artifact => exact decode_stage1Packet .sv48 va req mode artifact reg
  | walkSv32x4 gpa req mode artifact => exact decode_stage2Packet .sv32 gpa req mode artifact
  | walkSv39x4 gpa req mode artifact => exact decode_stage2Packet .sv39 gpa req mode artifact
  | walkSv48x4 gpa req mode artifact => exact decode_stage2Packet .sv48 gpa req mode artifact
  | pmpOff l x w r i => exact decode_regionPacket 0 l x w r h
  | pmpTor l x w r i => exact decode_regionPacket 1 l x w r h
  | pmpNa4 l x w r i => exact decode_regionPacket 2 l x w r h
  | pmpNapot l x w r i => exact decode_regionPacket 3 l x w r h
  | pteInvalid x w r upper fmt => exact decode_ptePacket_pteWord h x w r false
  | pteReserved x upper fmt => exact decode_ptePacket_pteWord h x true false true
  | ptePointer upper fmt => exact decode_ptePacket_pteWord h false false false true
  | pteLeaf x w r upper fmt =>
    obtain ⟨hleaf, hupper⟩ := Bool.and_eq_true_iff.1 h
    rw [encode, decode_ptePacket_pteWord hupper, pteInstr_leaf hleaf]

end Sys2Proof

section
open Sys2Proof Sys2Proof.Machine

/-- Settles O1: each kind of packet is decoded by its selecting bits, and each of its fields reads back. -/
theorem decodeEncodeAgree : Obligations.DecodeEncodeAgree :=
  fun _ h => decode_encode h

/-- Settles O2, by running the decoder on each word. -/
theorem wordsDecode : Obligations.WordsDecode :=
  ⟨rfl, rfl, rfl, rfl, rfl, rfl, rfl, rfl, rfl⟩

end
end

section
/-! The kinds of page-table entry (30_encoding.md R109): what an entry put together from its bits means to a walk. -/

namespace Sys2Proof.Machine

/-- Bits of a page-table entry's `PPN` (30_encoding.md R107, R108). -/
def ppnBits : PteFormat → Nat
  | .pte32 => 22
  | .pte64 => 44

theorem ptePa_pteWord_toNat (fmt : PteFormat) (upper : BitVec 60) (x w r v : Bool) :
    (ptePa fmt (pteWord upper x w r v)).toNat = upper.toNat / 2 ^ 6 % 2 ^ ppnBits fmt * 2 ^ 12 := by
  have ppn_shifted (n : Nat) (hn : n ≤ 44) :
      (field (pteWord upper x w r v) 10 n <<< 12).toNat = upper.toNat / 2 ^ 6 % 2 ^ n * 2 ^ 12 := by
    have hlt : upper.toNat / 2 ^ 6 % 2 ^ n < 2 ^ 44 :=
      Nat.lt_of_lt_of_le (Nat.mod_lt _ (Nat.two_pow_pos n)) (Nat.pow_le_pow_right (by decide) hn)
    rw [field, pteWord_upperField upper x w r v 6 n, BitVec.toNat_shiftLeft, BitVec.toNat_setWidth,
      BitVec.extractLsb'_toNat, Nat.shiftRight_eq_div_pow, Nat.shiftLeft_eq]
    omega
  cases fmt with
  | pte32 => exact ppn_shifted 22 (by decide)
  | pte64 => exact ppn_shifted 44 (by decide)

theorem ptePriv_pteWord (upper : BitVec 60) (x w r v : Bool) :
    (ptePriv (pteWord upper x w r v)).getLsbD 0 = r ∧ (ptePriv (pteWord upper x w r v)).getLsbD 1 = w
      ∧ (ptePriv (pteWord upper x w r v)).getLsbD 2 = x := by
  obtain ⟨-, h1, h2, h3⟩ := pteWord_lowBits upper x w r v
  simp only [ptePriv, BitVec.getLsbD_extractLsb', Nat.reduceAdd, h1, h2, h3, Nat.reduceLT, decide_true, Bool.true_and,
    and_self]

/-- `X W R V` decide the kind; the flags are the lowest upper bits. -/
theorem pteMeaning_pteWord (fmt : PteFormat) (upper : BitVec 60) (x w r v : Bool) :
    pteMeaning fmt (pteWord upper x w r v)
      = if !v then .fails .v0
        else if !r && w then .fails .r0w1
        else if r || w || x then
          .leaf (ptePriv (pteWord upper x w r v)) (upper.getLsbD 0) (upper.getLsbD 1) (upper.getLsbD 2) (upper.getLsbD 3)
            (ptePa fmt (pteWord upper x w r v))
        else .pointer (ptePa fmt (pteWord upper x w r v)) := by
  obtain ⟨h0, h1, h2, h3⟩ := pteWord_lowBits upper x w r v
  have flag := pteWord_upperBit upper x w r v
  simp only [pteMeaning, pteV, pteR, pteW, pteX, pteU, pteG, pteA, pteD, h0, h1, h2, h3, ← flag]

end Sys2Proof.Machine

section
open Sys2Proof Sys2Proof.Machine

/-- Settles O56: the meaning of an entry put together from its bits is decided by `X W R V`, its address is its `PPN`. -/
theorem pteKinds : Obligations.PteKinds := by
  intro s x w r upper fmt
  have answers {m n : PteMeaning} (h : m = n) :
      (Host.Outcome.next (s.respond (.pte m)) : Host.Outcome State Fault Refusal) = .next { s with response := .pte n } := by
    rw [h, State.respond]
  refine ⟨answers (pteMeaning_pteWord fmt upper x w r false), answers (pteMeaning_pteWord fmt upper x true false true),
    ⟨_, answers (pteMeaning_pteWord fmt upper false false false true), ptePa_pteWord_toNat fmt upper false false false true⟩,
    fun hleaf => ?_⟩
  obtain ⟨hr, hw, hx⟩ := ptePriv_pteWord upper x w r true
  obtain ⟨hnotReserved, hany⟩ := wfLeaf_iff.1 hleaf
  refine ⟨_, _, hr, hw, hx, ptePa_pteWord_toNat fmt upper x w r true, answers ?_⟩
  simp only [pteMeaning_pteWord, hnotReserved, hany, Bool.not_true, Bool.false_eq_true, if_false, if_true]

end
end

section
/-! The address checks before a walk's first access (30_encoding.md R102 to R106): a walker that fails one answers `VAEXTEND`
and leaves everything else. -/

namespace Sys2Proof.Machine

/-- An address between the two halves is not its own sign extension (00_scope.md R11). -/
theorem sext_ne_self {n : Nat} (hn : n < 64) {va : U64} (hlo : 2 ^ n ≤ va.toNat) (hhi : va.toNat < 2 ^ 64 - 2 ^ n) :
    sext (n + 1) va ≠ va := by
  intro h
  have hint : (va.setWidth (n + 1)).toInt = va.toInt := by
    rw [← BitVec.toInt_signExtend_of_le (show n + 1 ≤ 64 by omega), ← sext, h]
  have hlt := (va.setWidth (n + 1)).two_mul_toInt_lt
  have hle := (va.setWidth (n + 1)).le_two_mul_toInt
  rw [hint, BitVec.toInt_eq_toNat_cond, Int.pow_succ] at hlt hle
  have hcast : ((2 ^ n : Nat) : Int) = 2 ^ n := by push_cast; rfl
  split at hlt <;> omega

theorem extensionOk_eq_false {sh : WalkShape} {n : Nat} (hfmt : sh.fmt = .pte64) (hext : sh.ext = some (n + 1))
    (hn : n < 64) {va : U64} (hlo : 2 ^ n ≤ va.toNat) (hhi : va.toNat < 2 ^ 64 - 2 ^ n) : extensionOk sh va = false := by
  simp only [extensionOk, hfmt, hext, beq_eq_false_iff_ne]
  exact sext_ne_self hn hlo hhi

/-- A walk that fails before it changes anything only answers: `AFault` is put back (10_state.md R45). -/
theorem answerWalk_failWalk (s : State) (e : WalkErr) :
    answerWalk s.afault (failWalk e (s.setAFault .none)) = .next (s.respond (.walkFailed e .none)) := rfl

theorem walk_badExtension {sh : WalkShape} {va : U64} (h : extensionOk sh va = false) (tr : PteTranslator) (t : TlbId)
    (root : U64) (req : Priv) (mode : Mode5) (artifact : Bool) (s : State) :
    walk tr sh t root va req mode artifact s = failWalk .vaextend s := by
  simp only [walk, h, Bool.not_false, if_true]

theorem walkX4_tooWide {sv : SvMode} {gpa : U64} (h : 2 ^ (x4Bits sv + 2) ≤ gpa.toNat) (req : Priv) (mode : Mode5)
    (artifact : Bool) (s : State) : walkX4 sv gpa req mode artifact s = failWalk .vaextend s := by
  have hextra : 3#64 < gpa >>> x4Bits sv := by
    rw [BitVec.lt_def, BitVec.toNat_ushiftRight, Nat.shiftRight_eq_div_pow]
    refine (Nat.le_div_iff_mul_le (Nat.two_pow_pos _)).2 ?_
    rwa [Nat.pow_add, Nat.mul_comm] at h
  simp only [walkX4, hextra, if_true]

section
variable {s : State} {sv : SvMode} {req : Priv} {mode : Mode5} {artifact : Bool}

theorem runStage1_badExtension {reg : Stage1Reg} {va : U64} (hok : walkOperandsOk s.params reg.tlb mode req = true)
    (hext : extensionOk (shapeOf sv) va = false) :
    runStage1 sv reg va req mode artifact s = .next (s.respond (.walkFailed .vaextend .none)) := by
  rw [runStage1, if_pos hok, walkStage1, walk_badExtension hext, answerWalk_failWalk]

theorem runStage2_tooWide {gpa : U64} (hok : walkOperandsOk s.params .vs2 mode req = true)
    (hwide : 2 ^ (x4Bits sv + 2) ≤ gpa.toNat) :
    runStage2 sv gpa req mode artifact s = .next (s.respond (.walkFailed .vaextend .none)) := by
  rw [runStage2, if_pos hok, walkX4_tooWide hwide, answerWalk_failWalk]

end

end Sys2Proof.Machine

section
open Sys2Proof Sys2Proof.Machine

/-- Settles O26: the check comes before the walk's loop, and nothing is changed before it. -/
theorem badExtensionFailsBeforeAnyAccess : Obligations.BadExtensionFailsBeforeAnyAccess := by
  refine ⟨fun reg va req mode artifact s hok => ⟨fun hlo hhi => ?_, fun hlo hhi => ?_⟩,
    fun gpa req mode artifact s hok => ⟨fun hwide => ?_, fun hwide => ?_, fun hwide => ?_⟩⟩
  · exact runStage1_badExtension (sv := .sv39) hok (extensionOk_eq_false rfl rfl (by decide) hlo hhi)
  · exact runStage1_badExtension (sv := .sv48) hok (extensionOk_eq_false rfl rfl (by decide) hlo hhi)
  · exact runStage2_tooWide (sv := .sv32) hok hwide
  · exact runStage2_tooWide (sv := .sv39) hok hwide
  · exact runStage2_tooWide (sv := .sv48) hok hwide

end
end

section
/-! The equations of a step (30_encoding.md R130, R132, 44_host_ops.md R319), by the next line of the script (log 3, log 25). -/

namespace Sys2Proof.Machine

theorem step_idle {s : State} (h : s.input = []) : step s = .next s := by
  rw [step, h]

theorem step_command {s : State} {p : Packet} {rest : List Input} (h : s.input = .command p :: rest) :
    step s = runPacket p (s.begin rest) := by
  rw [step, h]

theorem step_directive {s : State} {d : Directive} {rest : List Input} (h : s.input = .directive d :: rest) :
    step s = applyDirective d (s.begin rest) := by
  rw [step, h]

theorem runPacket_ok {p : Packet} {i : Instr} (h : decode p = .ok i) (s : State) : runPacket p s = exec i s := by
  rw [runPacket, h]

theorem runPacket_error {p : Packet} {e : DecodeError} (h : decode p = .error e) (s : State) :
    runPacket p s = .next (s.respond .refused) := by
  rw [runPacket, h]

theorem decode_tablePacket {nbits w : Nat} {i : Instr} (h : decodeTableWord nbits w = some i) :
    decode (tablePacket nbits w) = .ok i := by
  unfold decodeTableWord at h
  split at h
  · rename_i j hd
    rw [hd, Option.some.inj h]
  · cases h

end Sys2Proof.Machine

section
open Sys2Proof Sys2Proof.Machine

/-- Settles O3: each kind of line has its equation for `step`, and a table word's packet decodes as the word does. -/
theorem stepRunsTheDecodedInstruction : Obligations.StepRunsTheDecodedInstruction := by
  refine ⟨fun s p rest i hin hd => ?_, fun s p rest e hin hd => ?_, fun _ _ _ hin => step_directive hin,
    fun _ hin => step_idle hin, fun s nbits w i hw => ?_⟩
  · rw [step_command hin, runPacket_ok hd, State.begin]
  · rw [step_command hin, runPacket_error hd, State.begin, State.respond]
  · have hin : (s.withFetchWord nbits w).input = .command (tablePacket nbits w) :: s.input := rfl
    rw [step_command hin, runPacket_ok (decode_tablePacket hw), State.begin, State.withFetchWord]

end
end

section
/-! The walkers against the rule over a snapshot (40_walker.md R140 to R151): a stage-1 walk whose tables are reached without
stage 2 is a direct walk, and each walk's answer and memory are the rule's. -/

namespace Sys2Proof.Machine

theorem WalkFrame.setAFault (s : State) (a : AFault) : WalkFrame s (s.setAFault a) :=
  ⟨rfl, rfl, rfl, rfl, rfl, rfl, rfl, rfl, rfl, rfl, rfl, rfl, rfl, rfl⟩

/-! ### The rule reads the bank, the inputs and memory only -/

section
variable {s t : State} (h : WalkFrame s t) (hm : t.mem = s.mem)
include h hm

theorem State.ruleWalk_frame (sh : WalkShape) (i : TlbId) (root va : U64) (req : Priv) (mode : Mode5) (artifact : Bool) :
    t.ruleWalk sh i root va req mode artifact = s.ruleWalk sh i root va req mode artifact := by
  simp only [State.ruleWalk, State.peekPte_frame h hm, State.leafEntry_frame h, State.permGrants_frame h, h.params]

theorem State.ruleOutcome_frame (sh : WalkShape) (artifact : Bool) (r : Except WalkErr WalkResult) :
    t.ruleOutcome sh artifact r = s.ruleOutcome sh artifact r := by
  simp only [State.ruleOutcome, State.ptwServes_frame h, State.bigEndian_frame h, hm]

theorem State.ruleStage1_frame (sv : SvMode) (reg : Stage1Reg) (va : U64) (req : Priv) (mode : Mode5) (artifact : Bool) :
    t.ruleStage1 sv reg va req mode artifact = s.ruleStage1 sv reg va req mode artifact := by
  have hroot : t.rootBase reg = s.rootBase reg := by
    cases reg <;> simp only [State.rootBase, State.satpPpn, State.vsatpPpn, h.env, h.params]
  simp only [State.ruleStage1, State.ruleOutcome_frame h hm, State.ruleWalk_frame h hm, hroot]

theorem State.ruleStage2_frame (sv : SvMode) (gpa : U64) (req : Priv) (mode : Mode5) (artifact : Bool) :
    t.ruleStage2 sv gpa req mode artifact = s.ruleStage2 sv gpa req mode artifact := by
  simp only [State.ruleStage2, State.ruleOutcome_frame h hm, State.ruleWalk_frame h hm, State.hgatpPpn, h.env, h.params, hm]

end

/-! ### Page tables reached without stage 2 (20_memory.md R81, R95) -/

/-- In every state a walk from `s` passes through, page-table addresses are used as they are. -/
def DirectFrom (s : State) (tr : PteTranslator) : Prop :=
  ∀ a req u, WalkFrame s u → tr a req u = .ok a u

theorem DirectFrom.frame {s t : State} {tr : PteTranslator} (htr : DirectFrom s tr) (f : WalkFrame s t) :
    DirectFrom t tr :=
  fun a req u g => htr a req u (f.trans g)

theorem directFrom_directPte (s : State) : DirectFrom s directPte :=
  fun _ _ _ _ => rfl

theorem DirectFrom.walkLoop {s : State} {tr : PteTranslator} (htr : DirectFrom s tr) (sh : WalkShape) (t : TlbId) (va : U64)
    (n : Nat) (a : U64) : walkLoop tr sh t va n a s = Machine.walkLoop directPte sh t va n a s := by
  induction n generalizing a s with
  | zero => rfl
  | succ n ih =>
    have f := (s.memRead_spec t (a + vpn sh.w n va * BitVec.ofNat 64 (pteBytes sh.fmt)) (pteBytes sh.fmt)).2.1
    simp only [Machine.walkLoop, htr _ _ _ (WalkFrame.refl s), directPte, Res.bind]
    generalize s.memRead t (a + vpn sh.w n va * BitVec.ofNat 64 (pteBytes sh.fmt)) (pteBytes sh.fmt) = r at f
    obtain ⟨o, s2⟩ := r
    cases o with
    | none => rfl
    | some pte =>
      dsimp only
      cases pteMeaning sh.fmt pte with
      | fails e => rfl
      | pointer next => exact ih (htr.frame f) next
      | leaf => rfl

theorem DirectFrom.finishWalk {s : State} {tr : PteTranslator} (htr : DirectFrom s tr) (sh : WalkShape) (t : TlbId) (va : U64)
    (req : Priv) (mode : Mode5) (artifact : Bool) (leaf : FoundLeaf) :
    finishWalk tr sh t va req mode artifact leaf s = Machine.finishWalk directPte sh t va req mode artifact leaf s := by
  simp only [Machine.finishWalk, writeBack, htr _ _ _ (WalkFrame.refl s), directPte]

theorem DirectFrom.walk {s : State} {tr : PteTranslator} (htr : DirectFrom s tr) (sh : WalkShape) (t : TlbId) (root va : U64)
    (req : Priv) (mode : Mode5) (artifact : Bool) :
    walk tr sh t root va req mode artifact s = Machine.walk directPte sh t root va req mode artifact s := by
  obtain ⟨s1, f, -, -, hloop⟩ := walkLoop_direct sh t va sh.levels root s
  rw [Machine.walk, Machine.walk, htr.walkLoop, hloop]
  split
  · rfl
  · cases ruleLeaf (fun x => s.peekPte t x (pteBytes sh.fmt)) sh va sh.levels root with
    | error e => rfl
    | ok leaf => exact (htr.frame f).finishWalk sh t va req mode artifact leaf

theorem State.directTables.directFrom {s : State} {reg : Stage1Reg} (h : s.directTables reg) (va : U64) (mode : Mode5)
    (artifact : Bool) : DirectFrom s (stage1Translator s.params reg va mode artifact) := by
  intro a req u f
  unfold stage1Translator
  cases reg with
  | satp => rfl
  | vsatp =>
    dsimp only
    split
    · rename_i hvia
      have hoff : u.hgatpMode = 0 := by
        rcases h with hreg | hdir | hoff
        · cases hreg
        · rw [hvia] at hdir
          cases hdir
        · rw [← hoff]
          simp only [State.hgatpMode, f.params, f.env]
      rw [pteViaStage2, if_pos hoff]
    · rfl

theorem walkStage1_direct {s : State} {reg : Stage1Reg} (h : s.directTables reg) (sv : SvMode) (va : U64) (req : Priv)
    (mode : Mode5) (artifact : Bool) :
    walkStage1 sv reg va req mode artifact s
      = walk directPte (shapeOf sv) reg.tlb (s.rootBase reg) va req mode artifact s :=
  (h.directFrom va mode artifact).walk (shapeOf sv) reg.tlb (s.rootBase reg) va req mode artifact

/-! ### Walks follow the rule -/

/-- A result of a walk as the rule gives it, in the state the walk leaves. -/
def resultIn (r : Except WalkErr Entry) (u : State) : Res WalkFailure Entry :=
  match r with
  | .ok e => .ok e u
  | .error e => .err { err := e, pteGpa := none } u

/-- A walk from `s` returns what the rule gives, leaves the memory the rule gives, arms `AFault` by its accesses, and changes
nothing else but the permission cache and the traffic. -/
def FollowsRule (s : State) (rule : Except WalkErr Entry × Memory) (r : Res WalkFailure Entry) : Prop :=
  ∃ u, WalkFrame s u ∧ (s.ptwActive = false → u.ptwActive = false) ∧ AFaultFollows s u ∧ u.mem = rule.2
    ∧ r = resultIn rule.1 u

theorem Res.Holds.resultIn {r : Except WalkErr Entry} {u : State} {I : State → Prop} {P : Entry → Prop} {S : Fault → Prop}
    (h : (Machine.resultIn r u).Holds (fun e s => I s ∧ P e) (fun _ s => I s) S) : I u := by
  cases r with
  | ok e => exact h.1
  | error e => exact h

theorem walk_followsRule (sh : WalkShape) (t : TlbId) (root va : U64) (req : Priv) (mode : Mode5) (artifact : Bool)
    (s : State) :
    FollowsRule s (s.ruleOutcome sh artifact (s.ruleWalk sh t root va req mode artifact))
      (walk directPte sh t root va req mode artifact s) := by
  obtain ⟨u, f, hact, hmem, hres⟩ := walk_direct sh t root va req mode artifact s
  have hkept := walk_keeps (walkKeeps_afault s artifact) (S := fun _ => True) (.inl rfl) sh t root va req mode s
    ⟨WalkFrame.refl s, AFaultFollows.refl s⟩
  change _ = resultIn _ u at hres
  rw [hres] at hkept
  exact ⟨u, f, hact, hkept.resultIn.2, hmem, hres⟩

theorem walkStage1_followsRule {s : State} {reg : Stage1Reg} (h : s.directTables reg) (sv : SvMode) (va : U64) (req : Priv)
    (mode : Mode5) (artifact : Bool) :
    FollowsRule s (s.ruleStage1 sv reg va req mode artifact) (walkStage1 sv reg va req mode artifact s) := by
  rw [walkStage1_direct h]
  exact walk_followsRule (shapeOf sv) reg.tlb (s.rootBase reg) va req mode artifact s

/-- The wrapper changes the entry's range only (40_walker.md R145). -/
theorem walkX4_followsRule (sv : SvMode) (gpa : U64) (req : Priv) (mode : Mode5) (artifact : Bool) (s : State) :
    FollowsRule s (s.ruleStage2 sv gpa req mode artifact) (walkX4 sv gpa req mode artifact s) := by
  unfold walkX4 State.ruleStage2
  dsimp only
  split
  · exact ⟨s, WalkFrame.refl s, id, AFaultFollows.refl s, rfl, rfl⟩
  · obtain ⟨u, f, hact, harm, hmem, hres⟩ := walk_followsRule { shapeOf sv with ext := none } .vs2
      ((s.hgatpPpn <<< 12) + (gpa >>> x4Bits sv) * 4096) (gpa &&& lowMask (x4Bits sv)) req mode artifact s
    rw [hres]
    generalize s.ruleOutcome _ artifact _ = rule at hmem
    obtain ⟨r, mem⟩ := rule
    cases r with
    | ok e => exact ⟨u, f, hact, harm, hmem, rfl⟩
    | error e => exact ⟨u, f, hact, harm, hmem, rfl⟩

/-! ### A walker's answer -/

theorem exec_stage1Instr (sv : SvMode) (reg : Stage1Reg) (va : U64) (req : Priv) (mode : Mode5) (artifact : Bool) (s : State) :
    exec (stage1Instr sv reg va req mode artifact) s = runStage1 sv reg va req mode artifact s := by
  cases sv <;> rfl

theorem exec_stage2Instr (sv : SvMode) (gpa : U64) (req : Priv) (mode : Mode5) (artifact : Bool) (s : State) :
    exec (stage2Instr sv gpa req mode artifact) s = runStage2 sv gpa req mode artifact s := by
  cases sv <;> rfl

/-- What a walker answers (40_walker.md R140), `a` the `AFault` its accesses left. -/
def ruleResponse (r : Except WalkErr Entry) (a : AFault) : Response :=
  match r with
  | .ok e => .walked e
  | .error e => .walkFailed e a

theorem State.keepAFault_eq (s : State) (old : AFault) :
    s.keepAFault old = s.setAFault (if s.afault = .pmp then .pmp else old) := by
  unfold State.keepAFault
  split
  · rename_i h
    rw [h]
    rfl
  · rename_i h
    rw [if_pos h, ← h]
    rfl

theorem answerWalk_resultIn (old : AFault) (r : Except WalkErr Entry) (u : State) :
    answerWalk old (resultIn r u) = .next ((u.keepAFault old).respond (ruleResponse r u.afault)) := by
  cases r <;> rfl

/-- A state is known by its frame and the fields a page-table access may change. -/
theorem WalkFrame.eq {s t : State} (f : WalkFrame s t) :
    t = { s with
      mem := t.mem, pmpPerm := t.pmpPerm, afault := t.afault, traffic := t.traffic, ptwActive := t.ptwActive } := by
  obtain ⟨h1, h2, h3, h4, h5, h6, h7, h8, h9, h10, h11, h12, h13, h14⟩ := f
  rw [← h1, ← h2, ← h3, ← h4, ← h5, ← h6, ← h7, ← h8, ← h9, ← h10, ← h11, ← h12, ← h13, ← h14]

/-- A walker whose walk, begun with `AFault` clear, follows a rule answers by it. `AFault` becomes PMP, and is returned, iff
the bank denied one of the accesses, and else keeps its value (10_state.md R45, log 30). -/
theorem FollowsRule.answer {s : State} {rule : Except WalkErr Entry × Memory} {r : Res WalkFailure Entry}
    (h : FollowsRule (s.setAFault .none) rule r) (hq : s.quiet) :
    ∃ t l a, answerWalk s.afault r = .next t
      ∧ t.traffic = s.traffic ++ l ∧ (a = .pmp ↔ s.pmpDenied l) ∧ t.afault = (if a = .pmp then .pmp else s.afault)
      ∧ t.response = ruleResponse rule.1 a ∧ t.mem = rule.2
      ∧ t = { s with
          mem := t.mem, response := t.response, pmpPerm := t.pmpPerm, afault := t.afault, traffic := t.traffic } := by
  obtain ⟨u, f, hact, ⟨l, htraffic, harm⟩, hmem, rfl⟩ := h
  have hptw : u.ptwActive = s.ptwActive := (hact hq.1).trans hq.1.symm
  refine ⟨(u.setAFault (if u.afault = .pmp then .pmp else s.afault)).respond (ruleResponse rule.1 u.afault), l, u.afault,
    ?_, htraffic, ?_, rfl, rfl, hmem, ?_⟩
  · rw [answerWalk_resultIn, State.keepAFault_eq]
  · rw [harm, State.pmpDenied_bank (s := s) (t := s.setAFault .none) rfl rfl rfl]
    simp
  · rw [f.eq, hptw]
    rfl

end Sys2Proof.Machine

section
open Sys2Proof Sys2Proof.Machine

/-- Settles O23: the walk is a direct one, and clearing `AFault` before it does not change the rule. -/
theorem stage1WalkersFollowTheRules : Obligations.Stage1WalkersFollowTheRules := by
  intro sv reg va req mode artifact s hok hdir hq
  have hrule := walkStage1_followsRule (s := s.setAFault .none) hdir sv va req mode artifact
  rw [State.ruleStage1_frame (WalkFrame.setAFault s .none) rfl] at hrule
  rw [exec_stage1Instr, runStage1, if_pos hok]
  exact hrule.answer hq

/-- Settles O24: the wrapper runs a direct walk, and clearing `AFault` before it does not change the rule. -/
theorem stage2WalkersFollowTheRules : Obligations.Stage2WalkersFollowTheRules := by
  intro sv gpa req mode artifact s hok hq
  have hrule := walkX4_followsRule sv gpa req mode artifact (s.setAFault .none)
  rw [State.ruleStage2_frame (WalkFrame.setAFault s .none) rfl] at hrule
  rw [exec_stage2Instr, runStage2, if_pos hok]
  exact hrule.answer hq

end
end

section
/-! The page-table accesses of a walk (40_walker.md R159): at most one read a level and one write-back. -/

namespace Sys2Proof.Machine

/-- From `s` to `t` the traffic grew by at most `reads` reads and `writes` writes of the entry width. -/
def TrafficWithin (fmt : PteFormat) (reads writes : Nat) (s t : State) : Prop :=
  ∃ l, t.traffic = s.traffic ++ l ∧ (l.filter fun a => !a.write).length ≤ reads
    ∧ (l.filter fun a => a.write).length ≤ writes ∧ ∀ a ∈ l, a.size = pteBytes fmt

section
variable {fmt : PteFormat} {reads writes : Nat}

theorem TrafficWithin.refl (s : State) : TrafficWithin fmt reads writes s s :=
  ⟨[], by simp, Nat.zero_le _, Nat.zero_le _, by simp⟩

theorem TrafficWithin.trans {s t u : State} {reads' writes' : Nat} (h : TrafficWithin fmt reads writes s t)
    (k : TrafficWithin fmt reads' writes' t u) : TrafficWithin fmt (reads + reads') (writes + writes') s u := by
  obtain ⟨l, hl, hr, hw, hsize⟩ := h
  obtain ⟨l', hl', hr', hw', hsize'⟩ := k
  refine ⟨l ++ l', by rw [hl', hl, List.append_assoc], ?_, ?_, fun a ha => ?_⟩
  · rw [List.filter_append, List.length_append]
    exact Nat.add_le_add hr hr'
  · rw [List.filter_append, List.length_append]
    exact Nat.add_le_add hw hw'
  · exact (List.mem_append.1 ha).elim (hsize a) (hsize' a)

theorem TrafficWithin.mono {s t : State} {reads' writes' : Nat} (h : TrafficWithin fmt reads writes s t)
    (hr : reads ≤ reads') (hw : writes ≤ writes') : TrafficWithin fmt reads' writes' s t := by
  obtain ⟨l, hl, hreads, hwrites, hsize⟩ := h
  exact ⟨l, hl, Nat.le_trans hreads hr, Nat.le_trans hwrites hw, hsize⟩

theorem State.memRead_traffic (s : State) (t : TlbId) (addr : U64) :
    TrafficWithin fmt 1 0 s (s.memRead t addr (pteBytes fmt)).2 := by
  obtain ⟨-, -, -, -, a, htraffic, hread, -, hsize, -⟩ := s.memRead_spec t addr (pteBytes fmt)
  exact ⟨[a], htraffic, by simp [hread], by simp [hread], by simp [hsize]⟩

theorem State.memWrite_traffic (s : State) (t : TlbId) (addr v : U64) :
    TrafficWithin fmt 0 1 s (s.memWrite t addr (pteBytes fmt) v).2 := by
  obtain ⟨-, -, -, -, a, htraffic, hwrite, -, hsize, -⟩ := s.memWrite_spec t addr (pteBytes fmt) v
  exact ⟨[a], htraffic, by simp [hwrite], by simp [hwrite], by simp [hsize]⟩

end

/-- A result is no stop, and its state is within the bounds from `s`. -/
def Res.Within (fmt : PteFormat) (reads writes : Nat) (s : State) {ε α : Type} (r : Res ε α) : Prop :=
  r.Holds (fun _ u => TrafficWithin fmt reads writes s u) (fun _ u => TrafficWithin fmt reads writes s u) (fun _ => False)

theorem Res.Within.after {fmt : PteFormat} {reads writes reads' writes' : Nat} {s t : State} {ε α : Type} {r : Res ε α}
    (h : r.Within fmt reads' writes' t) (k : TrafficWithin fmt reads writes s t) :
    r.Within fmt (reads + reads') (writes + writes') s :=
  h.mono (fun _ _ => k.trans) (fun _ _ => k.trans) (fun _ => id)

/-- The loop reads one entry a level. -/
theorem walkLoop_within (sh : WalkShape) (t : TlbId) (va : U64) (n : Nat) (a : U64) (s : State) :
    (walkLoop directPte sh t va n a s).Within sh.fmt n 0 s := by
  induction n generalizing a s with
  | zero => exact TrafficWithin.refl s
  | succ n ih =>
    have hread := s.memRead_traffic (fmt := sh.fmt) t (a + vpn sh.w n va * BitVec.ofNat 64 (pteBytes sh.fmt))
    have hlevel := hread.mono (Nat.le_add_left 1 n) (Nat.le_refl 0)
    simp only [walkLoop, directPte, Res.bind]
    generalize s.memRead t (a + vpn sh.w n va * BitVec.ofNat 64 (pteBytes sh.fmt)) (pteBytes sh.fmt) = r at hread hlevel
    obtain ⟨o, s1⟩ := r
    cases o with
    | none => exact hlevel
    | some pte =>
      dsimp only
      cases pteMeaning sh.fmt pte with
      | fails e => exact hlevel
      | leaf => exact hlevel
      | pointer next =>
        rw [Nat.add_comm]
        exact (ih next s1).after hread

/-- Past its loop a walk makes at most the write-back. -/
theorem finishWalk_within (sh : WalkShape) (t : TlbId) (va : U64) (req : Priv) (mode : Mode5) (artifact : Bool)
    (leaf : FoundLeaf) (s : State) : (finishWalk directPte sh t va req mode artifact leaf s).Within sh.fmt 0 1 s := by
  have hnone : TrafficWithin sh.fmt 0 1 s s := TrafficWithin.refl s
  unfold finishWalk
  split
  · exact hnone
  · dsimp only
    split
    · exact hnone
    · split
      · exact hnone
      · rename_i e changed _
        simp only [writeBack, directPte, Res.bind]
        split
        · have hwrite := s.memWrite_traffic (fmt := sh.fmt) t leaf.pteAddr (pteWithAD leaf.pte e.a e.d)
          generalize s.memWrite t leaf.pteAddr (pteBytes sh.fmt) (pteWithAD leaf.pte e.a e.d) = r at hwrite
          obtain ⟨served, s1⟩ := r
          cases served <;> exact hwrite
        · exact hnone

theorem walk_within (sh : WalkShape) (t : TlbId) (root va : U64) (req : Priv) (mode : Mode5) (artifact : Bool) (s : State) :
    (walk directPte sh t root va req mode artifact s).Within sh.fmt sh.levels 1 s := by
  unfold walk
  split
  · exact TrafficWithin.refl s
  · have hloop := (walkLoop_within sh t va sh.levels root s).mono (fun _ _ h => h)
      (fun _ _ h => h.mono (Nat.le_refl _) (Nat.zero_le 1)) (fun _ h => h)
    exact hloop.bind fun leaf s1 h => (finishWalk_within sh t va req mode artifact leaf s1).after h

theorem walkX4_within (sv : SvMode) (gpa : U64) (req : Priv) (mode : Mode5) (artifact : Bool) (s : State) :
    (walkX4 sv gpa req mode artifact s).Within (shapeOf sv).fmt (shapeOf sv).levels 1 s := by
  unfold walkX4
  dsimp only
  split
  · exact TrafficWithin.refl s
  · exact (walk_within { shapeOf sv with ext := none } .vs2 _ _ req mode artifact s).bind fun _ _ h => h

/-- The answer of a walk adds nothing to the traffic. -/
theorem Res.Within.answer {fmt : PteFormat} {reads writes : Nat} {s : State} {r : Res WalkFailure Entry}
    (h : r.Within fmt reads writes s) (old : AFault) :
    ∃ t, answerWalk old r = .next t ∧ TrafficWithin fmt reads writes s t := by
  cases r with
  | ok e u => exact ⟨_, rfl, by rw [State.keepAFault_eq]; exact h⟩
  | err f u => exact ⟨_, rfl, by rw [State.keepAFault_eq]; exact h⟩
  | stuck f => exact h.elim

theorem runStage1_within {s : State} {reg : Stage1Reg} (hdir : s.directTables reg) (sv : SvMode) (va : U64) (req : Priv)
    (mode : Mode5) (artifact : Bool) :
    ∃ t, runStage1 sv reg va req mode artifact s = .next t
      ∧ TrafficWithin (shapeOf sv).fmt (shapeOf sv).levels 1 s t := by
  unfold runStage1
  split
  · rw [walkStage1_direct (s := s.setAFault .none) hdir]
    exact (walk_within (shapeOf sv) reg.tlb _ va req mode artifact (s.setAFault .none)).answer s.afault
  · exact ⟨_, rfl, TrafficWithin.refl s⟩

theorem runStage2_within (sv : SvMode) (gpa : U64) (req : Priv) (mode : Mode5) (artifact : Bool) (s : State) :
    ∃ t, runStage2 sv gpa req mode artifact s = .next t
      ∧ TrafficWithin (shapeOf sv).fmt (shapeOf sv).levels 1 s t := by
  unfold runStage2
  split
  · exact (walkX4_within sv gpa req mode artifact (s.setAFault .none)).answer s.afault
  · exact ⟨_, rfl, TrafficWithin.refl s⟩

end Sys2Proof.Machine

section
open Sys2Proof Sys2Proof.Machine

/-- Settles O25: a read a level in the walk's loop and the write-back after it; a refusal makes no access. -/
theorem walksAreBounded : Obligations.WalksAreBounded := by
  refine ⟨fun sv reg va req mode artifact s hdir => ?_, fun sv gpa req mode artifact s => ?_⟩
  · obtain ⟨t, hrun, l, hl⟩ := runStage1_within hdir sv va req mode artifact
    exact ⟨t, l, (exec_stage1Instr sv reg va req mode artifact s).trans hrun, hl⟩
  · obtain ⟨t, hrun, l, hl⟩ := runStage2_within sv gpa req mode artifact s
    exact ⟨t, l, (exec_stage2Instr sv gpa req mode artifact s).trans hrun, hl⟩

end
end

section
/-! The corners of the permission check (40_walker.md R152, R153): what a user page gives each caller. -/

namespace Sys2Proof.Machine

/-! ### Privilege sets -/

/-- Without privileges nothing that is needed is satisfied. -/
theorem not_satisfies_none {req : Priv} (h : req.isSingleton = true) : satisfies Priv.NONE req = false := by
  revert req
  decide

theorem not_satisfies_execute (p : Priv) : satisfies (p &&& ~~~Priv.X) Priv.X = false := by
  revert p
  decide

theorem satisfies_execute (p : Priv) : satisfies p Priv.X = true ↔ p &&& Priv.X = Priv.X := by
  rw [satisfies, beq_iff_eq]

/-! ### The adjusted privilege -/

/-- Step 1 of the check: `MXR` makes an executable page readable (40_walker.md R152). -/
def State.mxrPriv (s : State) (e : Entry) : Priv :=
  if e.priv &&& Priv.X = Priv.X ∧ s.effMxr e.tlb = true then e.priv ||| Priv.R else e.priv

/-- `MXR` gives a page no execution. -/
theorem State.mxrPriv_execute (s : State) (e : Entry) : s.mxrPriv e &&& Priv.X = e.priv &&& Priv.X := by
  have hR : ∀ p : Priv, (p ||| Priv.R) &&& Priv.X = p &&& Priv.X := by decide
  unfold State.mxrPriv
  split
  · exact hR e.priv
  · rfl

section
variable {s : State} {mode : Mode5} {e : Entry}

/-- A caller treated as user has the privileges of user pages only. -/
theorem State.permEff_asUser (h : asUser mode e.tlb = true) :
    s.permEff mode e = if e.u then s.mxrPriv e else Priv.NONE := by
  rw [State.permEff, if_pos h, State.mxrPriv]

/-- A supervisor on a user page: nothing without `SUM`, no execution from version 1.11 on. -/
theorem State.permEff_userPage (h : asUser mode e.tlb = false) (hu : e.u = true) :
    s.permEff mode e = if s.effSum e.tlb then
        if fromVersion1_11 s.params then s.mxrPriv e &&& ~~~Priv.X else s.mxrPriv e
      else Priv.NONE := by
  rw [State.permEff, if_neg (by simp [h]), if_pos hu, State.mxrPriv]

theorem asUser_supervisor {t : TlbId} (ht : t ≠ .vs2) (hm : baseOf mode = .supervisor) : asUser mode t = false := by
  simp [asUser, ht, hm]

end

end Sys2Proof.Machine

section
open Sys2Proof Sys2Proof.Machine

/-- Settles O27: each corner is a branch of the adjusted privilege. -/
theorem permissionCorners : Obligations.PermissionCorners := by
  intro s mode e req hreq
  refine ⟨fun ht hm hu hp hmxr => ?_, fun ht hm hu hv => ?_, fun ht hm hu hv hsum => ?_, fun ht hm hu hsum => ?_,
    fun ht hu => ?_⟩
  · have heff : s.permEff mode e = Priv.X ||| Priv.R := by
      rw [State.permEff_asUser (by simp [asUser, hm]), if_pos hu, State.mxrPriv,
        if_pos ⟨by rw [hp, BitVec.and_self], by rw [ht]; exact hmxr⟩, hp]
    rw [State.permGrants, heff]
    decide
  · rw [State.permGrants, State.permEff_userPage (asUser_supervisor ht hm) hu, if_pos hv]
    split
    · exact not_satisfies_execute _
    · exact not_satisfies_none (by decide)
  · rw [State.permGrants, State.permEff_userPage (asUser_supervisor ht hm) hu, if_pos hsum, if_neg (by simp [hv]),
      satisfies_execute, State.mxrPriv_execute]
  · rw [State.permGrants, State.permEff_userPage (asUser_supervisor ht hm) hu, if_neg (by simp [hsum])]
    exact not_satisfies_none hreq
  · rw [State.permGrants, State.permEff_asUser (by simp [asUser, ht]), if_neg (by simp [hu])]
    exact not_satisfies_none hreq

end
end

section
/-! The live key field by field (41_tlb.md R193, 30_encoding.md R118). -/

namespace Sys2Proof.Machine

section
variable (s : State)

theorem State.liveKey_asidHs : s.liveKey.extractLsb' 0 16 = s.satpAsid := by
  simp (disch := decide) only [State.liveKey, BitVec.extractLsb'_append_eq_of_add_le, BitVec.extractLsb'_eq_self]

theorem State.liveKey_asidVs : s.liveKey.extractLsb' 16 16 = if s.params.hasH then s.vsatpAsid else 0 := by
  simp (disch := decide) only [State.liveKey, BitVec.extractLsb'_append_eq_of_add_le, BitVec.extractLsb'_append_eq_left]

theorem State.liveKey_vmid : s.liveKey.extractLsb' 32 16 = if s.params.hasH then s.hgatpVmid else 0 := by
  simp (disch := decide) only [State.liveKey, BitVec.extractLsb'_append_eq_of_add_le, BitVec.extractLsb'_append_eq_left]

theorem State.liveKey_reserved : s.liveKey.extractLsb' 54 10 = 0#10 :=
  BitVec.extractLsb'_append_eq_left

theorem State.liveKey_mxrHs : s.liveKey.getLsbD 48 = s.mxrHs := by
  simp only [State.liveKey, BitVec.getLsbD_append, BitVec.getLsbD_ofBool]
  rfl

theorem State.liveKey_sumHs : s.liveKey.getLsbD 49 = s.sumHs := by
  simp only [State.liveKey, BitVec.getLsbD_append, BitVec.getLsbD_ofBool]
  rfl

theorem State.liveKey_mxrVs : s.liveKey.getLsbD 50 = (s.params.hasH && s.mxrVs) := by
  simp only [State.liveKey, BitVec.getLsbD_append, BitVec.getLsbD_ofBool]
  rfl

theorem State.liveKey_sumVs : s.liveKey.getLsbD 51 = (s.params.hasH && s.sumVs) := by
  simp only [State.liveKey, BitVec.getLsbD_append, BitVec.getLsbD_ofBool]
  rfl

theorem State.liveKey_s1 : s.liveKey.getLsbD 52 = (s.params.hasH && decide (s.vsatpMode ≠ 0)) := by
  simp only [State.liveKey, BitVec.getLsbD_append, BitVec.getLsbD_ofBool, bne, Bool.beq_eq_decide_eq, ne_eq,
    decide_not]
  rfl

theorem State.liveKey_s2 : s.liveKey.getLsbD 53 = (s.params.hasH && decide (s.hgatpMode ≠ 0)) := by
  simp only [State.liveKey, BitVec.getLsbD_append, BitVec.getLsbD_ofBool, bne, Bool.beq_eq_decide_eq, ne_eq,
    decide_not]
  rfl

/-- Without guest regimes the four guest flags are zero. -/
theorem State.liveKey_guestFlags (h : s.params.hasH = false) : s.liveKey.extractLsb' 50 4 = 0#4 := by
  have noGuest {b c : Bool} (hb : b = (s.params.hasH && c)) : b = false := by rw [hb, h, Bool.false_and]
  refine BitVec.eq_of_getLsbD_eq fun i hi => ?_
  rw [BitVec.getLsbD_extractLsb', BitVec.getLsbD_zero, Bool.and_eq_false_imp]
  intro _
  match i, hi with
  | 0, _ => exact noGuest s.liveKey_mxrVs
  | 1, _ => exact noGuest s.liveKey_sumVs
  | 2, _ => exact noGuest s.liveKey_s1
  | 3, _ => exact noGuest s.liveKey_s2

end

end Sys2Proof.Machine

section
open Sys2Proof Sys2Proof.Machine

/-- Settles O21: the command stores the live key, whose fields are read off one by one. -/
theorem setAsidPublishesTheLiveKey : Obligations.SetAsidPublishesTheLiveKey := by
  intro s
  refine ⟨(s.setPubKey s.liveKey).respond .noReply, rfl, rfl, s.liveKey_asidHs, s.liveKey_mxrHs, s.liveKey_sumHs,
    s.liveKey_reserved, fun hasH => ?_, fun noH => ?_⟩
  · have guest {b c : Bool} (hb : b = (s.params.hasH && c)) : b = c := by rw [hb, hasH, Bool.true_and]
    exact ⟨s.liveKey_asidVs.trans (if_pos hasH), s.liveKey_vmid.trans (if_pos hasH), guest s.liveKey_mxrVs,
      guest s.liveKey_sumVs, guest s.liveKey_s1, guest s.liveKey_s2⟩
  · have hn : ¬s.params.hasH = true := by rw [noH]; decide
    exact ⟨s.liveKey_asidVs.trans (if_neg hn), s.liveKey_vmid.trans (if_neg hn), s.liveKey_guestFlags noH⟩

end
end

section
/-! The ASID mask covers what the permission check reads of the inputs (41_tlb.md R195, 40_walker.md R152, R153). -/

namespace Sys2Proof.Machine

/-- Words that agree under a mask agree at each bit of the mask. -/
theorem getLsbD_eq_of_and_eq {a b m : U64} (h : a &&& m = b &&& m) {i : Nat} (hi : m.getLsbD i = true) :
    a.getLsbD i = b.getLsbD i := by
  have := congrArg (fun w => w.getLsbD i) h
  simpa only [BitVec.getLsbD_and, hi, Bool.and_true] using this

/-! ### The flags in the mask -/

section
variable {e : Entry} {mode : Mode5}

theorem asidMask_mxrHs : (asidMask e mode).getLsbD 48 = true := by
  have hbit : mMxrHs.getLsbD 48 = true := by decide
  simp only [asidMask, BitVec.getLsbD_or, hbit, Bool.true_or]

theorem asidMask_mxrVs (hv : virtOf mode = true) : (asidMask e mode).getLsbD 50 = true := by
  have hbit : (mVmid ||| mMxrVs ||| mS1 ||| mS2).getLsbD 50 = true := by decide
  rw [asidMask, if_pos hv, BitVec.getLsbD_or, hbit, Bool.or_true]

/-- For a supervisor on a user page the mask names the `SUM` flag of the entry's regime. -/
theorem asidMask_sum (hu : e.u = true) (hm : baseOf mode = .supervisor) (ht : e.tlb ≠ .vs2) {i : Nat}
    (hi : (if e.tlb = .hs then mSumHs else mSumVs).getLsbD i = true) : (asidMask e mode).getLsbD i = true := by
  have hsum : e.u = true ∧ baseOf mode = .supervisor ∧ e.tlb ≠ .vs2 := ⟨hu, hm, ht⟩
  rw [asidMask, if_pos hsum, BitVec.getLsbD_or, BitVec.getLsbD_or, hi, Bool.or_true, Bool.true_or]

theorem asidMask_sumHs (hu : e.u = true) (hm : baseOf mode = .supervisor) (ht : e.tlb = .hs) :
    (asidMask e mode).getLsbD 49 = true :=
  asidMask_sum hu hm (by rw [ht]; decide) (by rw [ht]; decide)

theorem asidMask_sumVs (hu : e.u = true) (hm : baseOf mode = .supervisor) (ht : e.tlb = .vs1) :
    (asidMask e mode).getLsbD 51 = true :=
  asidMask_sum hu hm (by rw [ht]; decide) (by rw [ht]; decide)

end

/-! ### What the check reads of the inputs -/

/-- A supervisor has the privileges of a supervisor page. -/
theorem State.permEff_supervisorPage {s : State} {mode : Mode5} {e : Entry} (h : asUser mode e.tlb = false)
    (hu : e.u = false) : s.permEff mode e = s.mxrPriv e := by
  rw [State.permEff, if_neg (by simp [h]), if_neg (by simp [hu]), State.mxrPriv]

/-- The check reads the effective `MXR`, and the effective `SUM` only for a supervisor on a user page. -/
theorem State.permEff_eq_of_flags {s t : State} {mode : Mode5} {e : Entry} (hp : t.params = s.params)
    (hmxr : s.effMxr e.tlb = t.effMxr e.tlb)
    (hsum : asUser mode e.tlb = false → e.u = true → s.effSum e.tlb = t.effSum e.tlb) :
    s.permEff mode e = t.permEff mode e := by
  have hpriv : s.mxrPriv e = t.mxrPriv e := by rw [State.mxrPriv, State.mxrPriv, hmxr]
  cases hus : asUser mode e.tlb
  · cases hu : e.u
    · rw [State.permEff_supervisorPage hus hu, State.permEff_supervisorPage hus hu, hpriv]
    · rw [State.permEff_userPage hus hu, State.permEff_userPage hus hu, hpriv, hsum hus hu, hp]
  · rw [State.permEff_asUser hus, State.permEff_asUser hus, hpriv]

/-- A caller other than M that is not treated as user is a supervisor on an entry of stage 1. -/
theorem supervisor_of_not_asUser {mode : Mode5} {t : TlbId} (hm : baseOf mode ≠ .machine) (h : asUser mode t = false) :
    baseOf mode = .supervisor ∧ t ≠ .vs2 := by
  simp only [asUser, Bool.or_eq_false_iff, decide_eq_false_iff_not] at h
  refine ⟨?_, h.2⟩
  cases hb : baseOf mode
  · exact absurd hb h.1
  · rfl
  · exact absurd hb hm

section
variable {s t : State} {mode : Mode5} {e : Entry} (hp : t.params = s.params)
  (hkey : s.liveKey &&& asidMask e mode = t.liveKey &&& asidMask e mode)
include hkey

theorem mxrHs_eq_of_key : s.mxrHs = t.mxrHs := by
  rw [← s.liveKey_mxrHs, ← t.liveKey_mxrHs]
  exact getLsbD_eq_of_and_eq hkey asidMask_mxrHs

theorem sumHs_eq_of_key (hu : e.u = true) (hm : baseOf mode = .supervisor) (ht : e.tlb = .hs) : s.sumHs = t.sumHs := by
  rw [← s.liveKey_sumHs, ← t.liveKey_sumHs]
  exact getLsbD_eq_of_and_eq hkey (asidMask_sumHs hu hm ht)

include hp

theorem mxrVs_eq_of_key (hasH : s.params.hasH = true) (hv : virtOf mode = true) : s.mxrVs = t.mxrVs := by
  have h := getLsbD_eq_of_and_eq hkey (asidMask_mxrVs hv)
  rwa [s.liveKey_mxrVs, t.liveKey_mxrVs, hp, hasH, Bool.true_and, Bool.true_and] at h

theorem sumVs_eq_of_key (hasH : s.params.hasH = true) (hu : e.u = true) (hm : baseOf mode = .supervisor)
    (ht : e.tlb = .vs1) : s.sumVs = t.sumVs := by
  have h := getLsbD_eq_of_and_eq hkey (asidMask_sumVs hu hm ht)
  rwa [s.liveKey_sumVs, t.liveKey_sumVs, hp, hasH, Bool.true_and, Bool.true_and] at h

end

end Sys2Proof.Machine

section
open Sys2Proof Sys2Proof.Machine

/-- Settles O22: each flag the check reads of an entry's regime is a field of the live key that the mask names. -/
theorem keyMaskCoversThePermission : Obligations.KeyMaskCoversThePermission := by
  intro s t mode e hp hm hv hH hkey
  have hmxr := mxrHs_eq_of_key hkey
  have sup := fun h => supervisor_of_not_asUser (t := e.tlb) hm h
  cases ht : e.tlb with
  | hs =>
    refine State.permEff_eq_of_flags hp (by rw [ht]; exact hmxr) fun hus hu => ?_
    rw [ht]
    exact sumHs_eq_of_key hkey hu (sup hus).1 ht
  | vs1 =>
    have hasH : s.params.hasH = true := hH.resolve_right (by simp [ht])
    have hmxrVs : s.mxrVs = t.mxrVs := mxrVs_eq_of_key hp hkey hasH (by simp [hv, ht])
    refine State.permEff_eq_of_flags hp (by rw [ht, State.effMxr, State.effMxr, hmxr, hmxrVs]) fun hus hu => ?_
    rw [ht]
    exact sumVs_eq_of_key hp hkey hasH hu (sup hus).1 ht
  | vs2 =>
    exact State.permEff_eq_of_flags hp (by rw [ht]; exact hmxr) fun hus _ => absurd ht (sup hus).2

end
end

section
/-! What an invalidation deletes (41_tlb.md R185 to R192). -/

namespace Sys2Proof.Machine

/-- The entry overlaps the range and satisfies the predicate of the mode: it is the one `TLB_INVALIDATE` deletes. -/
def State.invalidates (s : State) (lo hi : U64) (im : InvalMode) (e : Entry) : Bool :=
  decide (e.lowVA ≤ hi) && decide (lo ≤ e.highVA) && s.invalPred im e

theorem State.tlbInvalidate_eq_foldl (s : State) (t : TlbId) (lo hi : U64) (im : InvalMode) :
    s.tlbInvalidate t lo hi im = ((s.tlb t).filter (s.invalidates lo hi im)).foldl State.tlbDelete s :=
  rfl

/-- Every entry overlaps the range of all addresses. -/
theorem State.invalidates_all (s : State) (im : InvalMode) (e : Entry) :
    s.invalidates 0 (BitVec.allOnes 64) im e = s.invalPred im e := by
  have hlow : e.lowVA ≤ BitVec.allOnes 64 := BitVec.not_lt.1 BitVec.not_allOnes_lt
  have hhigh : 0 ≤ e.highVA := BitVec.not_lt.1 BitVec.not_lt_zero
  simp only [State.invalidates, hlow, hhigh, decide_true, Bool.true_and]

/-- An entry overlaps the range of one address when it contains it. -/
theorem State.invalidates_va (s : State) (va : U64) (im : InvalMode) (e : Entry) :
    s.invalidates va va im e = true ↔ (e.lowVA ≤ va ∧ va ≤ e.highVA) ∧ s.invalPred im e = true := by
  simp only [State.invalidates, Bool.and_eq_true, decide_eq_true_eq]

/-! ### The ASID predicate -/

/-- Under `lowMask n` a word keeps its low `n` bits, whatever `n` is. -/
theorem and_lowMask_toNat (a : U64) (n : Nat) : (a &&& lowMask n).toNat = a.toNat % 2 ^ n := by
  refine Nat.eq_of_testBit_eq fun i => ?_
  rw [Nat.testBit_mod_two_pow, BitVec.testBit_toNat, BitVec.testBit_toNat, BitVec.getLsbD_and, lowMask,
    BitVec.getLsbD_setWidth, BitVec.getLsbD_allOnes]
  by_cases h64 : i < 64
  · simp [h64, Bool.and_comm]
  · simp [h64, BitVec.getLsbD_of_ge a i (Nat.le_of_not_lt h64)]

/-- The operand is compared by its low `ASID_BITS` bits (41_tlb.md R187). -/
theorem entryAsid_eq_operand (e : Entry) (asid : U64) (n : Nat) :
    (entryAsid e).setWidth 64 = asid &&& lowMask n ↔ (entryAsid e).toNat = asid.toNat % 2 ^ n := by
  rw [← BitVec.toNat_inj, and_lowMask_toNat, BitVec.toNat_setWidth_of_le (by decide)]

theorem State.invalPred_asid (s : State) (asid : U64) (e : Entry) :
    s.invalPred (.asid asid) e = true ↔ s.asidScope asid e := by
  unfold State.invalPred State.asidScope
  by_cases h0 : s.params.asidBits = 0
  · simp only [h0, if_true, true_or]
  · simp only [h0, if_false, false_or, Bool.and_eq_true, Bool.or_eq_true, Bool.not_eq_true', beq_iff_eq, decide_eq_true_eq,
      entryAsid_eq_operand, and_assoc]

/-! ### The command -/

/-- An invalidation of a linked store deletes exactly the entries that its range and its mode name. -/
theorem State.tlbInvalidate_deletesExactly {s : State} (h : s.linksOk) (t : TlbId) (lo hi : U64) (im : InvalMode)
    {p : Entry → Prop} (hp : ∀ e, s.invalidates lo hi im e = true ↔ p e) :
    deletesExactly s ((s.tlbInvalidate t lo hi im).respond .noReply) t p where
  target e := by
    change e ∈ (s.tlbInvalidate t lo hi im).tlb t ↔ _
    rw [State.tlbInvalidate_eq_foldl, State.foldl_tlbDelete_linked h, List.mem_filter, ← hp, Bool.not_eq_true',
      Bool.not_eq_true]
  others u hu := State.foldl_tlbDelete_other h t u hu (s.invalidates lo hi im)
  aliases mode a := by
    change a ∈ (s.tlbInvalidate t lo hi im).aliasesOf mode ↔ _
    rw [State.tlbInvalidate_eq_foldl, State.foldl_tlbDelete_aliases, List.mem_filter, List.all_eq_true]
    refine and_congr_right fun _ => ⟨?_, fun hno e he => ?_⟩
    · rintro hkept ⟨e, he, hpe, hmode, hbuilt⟩
      simpa [hmode, hbuilt] using hkept e (List.mem_filter.2 ⟨he, (hp e).2 hpe⟩)
    · obtain ⟨he, hpe⟩ := List.mem_filter.1 he
      rw [Bool.not_eq_true', Bool.and_eq_false_imp, decide_eq_true_eq]
      exact fun hmode => Bool.eq_false_iff.2 fun hbuilt => hno ⟨e, he, (hp e).1 hpe, hmode, hbuilt⟩
  frame := by
    obtain ⟨a, u, he⟩ := s.tlbInvalidate_eq t lo hi im
    rw [he]
    rfl

end Sys2Proof.Machine

section
open Sys2Proof Sys2Proof.Machine

/-- Settles O19: without a condition on the keys an invalidation deletes by range alone. -/
theorem invalidationByAddress : Obligations.InvalidationByAddress := by
  intro s h
  refine ⟨⟨_, rfl, State.tlbInvalidate_deletesExactly h _ _ _ _ fun e => ?_⟩,
    fun va => ⟨_, rfl, State.tlbInvalidate_deletesExactly h _ _ _ _ fun e => ?_⟩⟩
  · rw [State.invalidates_all]
    exact iff_of_true rfl trivial
  · rw [State.invalidates_va]
    exact and_iff_left rfl

/-- Settles O20: an invalidation by ASID deletes those entries in range that the ASID predicate names. -/
theorem invalidationByAsid : Obligations.InvalidationByAsid := by
  intro s asid h
  refine ⟨⟨_, rfl, State.tlbInvalidate_deletesExactly h _ _ _ _ fun e => ?_⟩,
    fun va => ⟨_, rfl, State.tlbInvalidate_deletesExactly h _ _ _ _ fun e => ?_⟩⟩
  · rw [State.invalidates_all, State.invalPred_asid]
  · rw [State.invalidates_va, State.invalPred_asid]

end
end

section
/-! The range of a mapping (42_translate.md R228, R230): the composition of two naturally aligned mappings, and the cut to a
4-GiB window. -/

namespace Sys2Proof.Machine

/-! ### Words and powers of two -/

/-- A word with its `n` low bits cleared is the word less what those bits hold. -/
theorem clear_lowMask_toNat (x : U64) (n : Nat) : (x &&& ~~~(lowMask n)).toNat = x.toNat - x.toNat % 2 ^ n := by
  have hsplit : x &&& ~~~(lowMask n) = x - (x &&& lowMask n) := by
    have hand : (x &&& ~~~(lowMask n)) &&& (x &&& lowMask n) = 0#64 := by
      ext i hi
      simp only [BitVec.getElem_and, BitVec.getElem_not, BitVec.getElem_zero]
      cases x[i] <;> cases (lowMask n)[i] <;> rfl
    have hor : (x &&& ~~~(lowMask n)) ||| (x &&& lowMask n) = x := by
      ext i hi
      simp only [BitVec.getElem_and, BitVec.getElem_or, BitVec.getElem_not]
      cases x[i] <;> cases (lowMask n)[i] <;> rfl
    rw [BitVec.eq_sub_iff_add_eq, BitVec.add_eq_or_of_and_eq_zero _ _ hand, hor]
  have hle : x &&& lowMask n ≤ x := and_toNat_le_left x (lowMask n)
  rw [hsplit, BitVec.toNat_sub_of_le hle, and_lowMask_toNat]

theorem lowMask_toNat {n : Nat} (h : n ≤ 64) : (lowMask n).toNat = 2 ^ n - 1 := by
  have hlt : 2 ^ n - 1 < 2 ^ 64 := by
    have := Nat.pow_le_pow_right (n := 2) (by decide) h
    omega
  rw [lowMask, BitVec.toNat_setWidth, BitVec.toNat_allOnes, Nat.mod_eq_of_lt hlt]

/-! ### The 4-GiB window -/

/-- Both bounds of a capped mapping, as numbers (42_translate.md R230). -/
theorem cap_bounds (m : Mapping) (x : U64) :
    (cap m x).lowVA.toNat = max m.lowVA.toNat (x.toNat / 2 ^ 32 * 2 ^ 32)
      ∧ (cap m x).highVA.toNat = min m.highVA.toNat (x.toNat / 2 ^ 32 * 2 ^ 32 + (2 ^ 32 - 1)) := by
  have hx := x.isLt
  have hlow : (x &&& ~~~(lowMask chunkBits)).toNat = x.toNat / 2 ^ 32 * 2 ^ 32 := by
    rw [clear_lowMask_toNat, chunkBits]
    omega
  have hhigh : ((x &&& ~~~(lowMask chunkBits)) + lowMask chunkBits).toNat = x.toNat / 2 ^ 32 * 2 ^ 32 + (2 ^ 32 - 1) := by
    rw [BitVec.toNat_add, hlow, lowMask_toNat (by decide), chunkBits]
    omega
  refine ⟨?_, ?_⟩
  · change (if _ < _ then _ else _ : U64).toNat = _
    split <;> rename_i h <;> rw [BitVec.lt_def, hlow] at h
    · rw [hlow]
      omega
    · omega
  · change (if _ < _ then _ else _ : U64).toNat = _
    split <;> rename_i h <;> rw [BitVec.lt_def, hhigh] at h
    · rw [hhigh]
      omega
    · omega

theorem cap_image (m : Mapping) (x y : U64) : (cap m x).lowPA + (y - (cap m x).lowVA) = m.lowPA + (y - m.lowVA) := by
  change m.lowPA + ((cap m x).lowVA - m.lowVA) + (y - (cap m x).lowVA) = _
  grind

/-- A mapping whose bounds are in the window of the address is left as it is. -/
theorem cap_eq_self {m : Mapping} {x : U64} (hlow : m.lowVA.toNat / 2 ^ 32 = x.toNat / 2 ^ 32)
    (hhigh : m.highVA.toNat / 2 ^ 32 = x.toNat / 2 ^ 32) : cap m x = m := by
  obtain ⟨hl, hh⟩ := cap_bounds m x
  have el : (cap m x).lowVA = m.lowVA := BitVec.eq_of_toNat_eq (by omega)
  have eh : (cap m x).highVA = m.highVA := BitVec.eq_of_toNat_eq (by omega)
  have ep : (cap m x).lowPA = m.lowPA := by
    change m.lowPA + ((cap m x).lowVA - m.lowVA) = _
    rw [el, BitVec.sub_self, BitVec.add_zero]
  calc cap m x = { m with lowVA := (cap m x).lowVA, highVA := (cap m x).highVA, lowPA := (cap m x).lowPA } := rfl
    _ = m := by rw [el, eh, ep]

theorem le_cap_low {m : Mapping} {x : U64} (h : m.lowVA ≤ x) : (cap m x).lowVA ≤ x := by
  have hl := (cap_bounds m x).1
  rw [BitVec.le_def] at h ⊢
  omega

/-! ### Naturally aligned entries -/

/-- The range of an aligned entry as a block of `2^k` addresses (10_state.md R31). -/
theorem entryAligned.block {e : Entry} (h : entryAligned e) :
    ∃ k < 64, 2 ^ k ∣ e.lowVA.toNat ∧ 2 ^ k ∣ e.pa.toNat ∧ e.highVA.toNat + 1 = e.lowVA.toNat + 2 ^ k := by
  obtain ⟨k, hk, hlow, hpa, hhigh⟩ := h
  have hk64 : k < 64 := by
    simp only [List.mem_cons, List.not_mem_nil, or_false] at hk
    omega
  have hdvd {x : U64} (hx : x &&& lowMask k = 0) : 2 ^ k ∣ x.toNat := by
    rw [Nat.dvd_iff_mod_eq_zero, ← and_lowMask_toNat, hx]
    rfl
  have hroom : e.lowVA.toNat + 2 ^ k ≤ 2 ^ 64 := by
    refine Nat.le_of_lt_add_of_dvd (n := 2 ^ k) (by have := e.lowVA.isLt; omega) ?_ (Nat.pow_dvd_pow 2 (Nat.le_of_lt hk64))
    exact Nat.dvd_add (hdvd hlow) (Nat.dvd_refl _)
  have hpos := Nat.two_pow_pos k
  refine ⟨k, hk64, hdvd hlow, hdvd hpa, ?_⟩
  rw [hhigh, BitVec.toNat_add, lowMask_toNat (Nat.le_of_lt hk64)]
  omega

/-- Of two blocks that share an address, the one whose size divides the other's lies in it. -/
theorem block_subset {m n p q g : Nat} (hmn : m ∣ n) (hp : m ∣ p) (hq : n ∣ q) (hgp : p ≤ g ∧ g < p + m)
    (hgq : q ≤ g ∧ g < q + n) : q ≤ p ∧ p + m ≤ q + n := by
  have hq' : m ∣ q := Nat.dvd_trans hmn hq
  exact ⟨Nat.le_of_lt_add_of_dvd (by omega) hq' hp,
    Nat.le_of_lt_add_of_dvd (n := m) (by omega) (Nat.dvd_add hp (Nat.dvd_refl _)) (Nat.dvd_add hq' hmn)⟩

/-- An aligned entry places the addresses of its range without wrapping (42_translate.md R226). -/
theorem guestPhysical_toNat {e : Entry} {x : U64} (h : entryAligned e) (hlow : e.lowVA ≤ x) (hhigh : x ≤ e.highVA) :
    (guestPhysical x e).toNat = e.pa.toNat + (x.toNat - e.lowVA.toNat) := by
  obtain ⟨k, hk, -, hpa, hsize⟩ := h.block
  rw [BitVec.le_def] at hlow hhigh
  have hroom : e.pa.toNat + 2 ^ k ≤ 2 ^ 64 := by
    refine Nat.le_of_lt_add_of_dvd (n := 2 ^ k) (by have := e.pa.isLt; omega) ?_ (Nat.pow_dvd_pow 2 (Nat.le_of_lt hk))
    exact Nat.dvd_add hpa (Nat.dvd_refl _)
  have hx := x.isLt
  rw [guestPhysical, BitVec.toNat_sub, BitVec.toNat_add]
  omega

/-! ### Composition -/

/-- Of two aligned entries, the second of which contains the image of an address of the first, the composition has the range
of the smaller: it contains the address, and its bounds are those of R228 without wrapping. -/
theorem compose_range {s : State} {mode : Mode5} {e1 e2 : Entry} {x : U64} (h1 : entryAligned e1) (h2 : entryAligned e2)
    (hlow1 : e1.lowVA ≤ x) (hhigh1 : x ≤ e1.highVA) (hlow2 : e2.lowVA ≤ guestPhysical x e1)
    (hhigh2 : guestPhysical x e1 ≤ e2.highVA) :
    let m := compose (s.single mode e1) (s.single mode e2)
    m.lowVA ≤ x ∧ x ≤ m.highVA ∧ (x.toNat : Int) ≤ composedHigh (s.single mode e1) (s.single mode e2)
      ∧ m.highVA.toNat - m.lowVA.toNat
        = min (e1.highVA.toNat - e1.lowVA.toNat) (e2.highVA.toNat - e2.lowVA.toNat) := by
  intro m
  obtain ⟨k1, -, hl1, hp1, hs1⟩ := h1.block
  obtain ⟨k2, -, hl2, -, hs2⟩ := h2.block
  have hgpa := guestPhysical_toNat h1 hlow1 hhigh1
  rw [BitVec.le_def] at hlow1 hhigh1 hlow2 hhigh2
  have hx := x.isLt
  have hh1 := e1.highVA.isLt
  have lowEq : m.lowVA.toNat
      = (max (e1.lowVA.toNat : Int) (e2.lowVA.toNat - (e1.pa.toNat - e1.lowVA.toNat)) % 2 ^ 64).toNat :=
    BitVec.toNat_ofInt _
  have highEq : m.highVA.toNat
      = (min (e1.highVA.toNat : Int) (e2.highVA.toNat - (e1.pa.toNat - e1.lowVA.toNat)) % 2 ^ 64).toNat :=
    BitVec.toNat_ofInt _
  have nested : (e2.lowVA.toNat ≤ e1.pa.toNat ∧ e1.pa.toNat + 2 ^ k1 ≤ e2.lowVA.toNat + 2 ^ k2)
      ∨ (e1.pa.toNat ≤ e2.lowVA.toNat ∧ e2.lowVA.toNat + 2 ^ k2 ≤ e1.pa.toNat + 2 ^ k1) := by
    rcases Nat.le_total k1 k2 with hk | hk
    · exact .inl (block_subset (g := (guestPhysical x e1).toNat) (Nat.pow_dvd_pow 2 hk) hp1 hl2 (by omega) (by omega))
    · exact .inr (block_subset (g := (guestPhysical x e1).toNat) (Nat.pow_dvd_pow 2 hk) hl2 hp1 (by omega) (by omega))
  have hcomposed : composedHigh (s.single mode e1) (s.single mode e2)
      = min (e1.highVA.toNat : Int) (e2.highVA.toNat - (e1.pa.toNat - e1.lowVA.toNat)) := rfl
  rw [hcomposed, BitVec.le_def, BitVec.le_def, lowEq, highEq]
  rcases nested with hn | hn <;> omega

/-- Where the formula of R228 gives an upper bound that reaches the chunk, no bound is left free (log 12). -/
theorem composeAt_eq_compose {c : Nat} {x : U64} {m1 m2 : Mapping} (h : (x.toNat : Int) ≤ composedHigh m1 m2) :
    composeAt c x m1 m2 = compose m1 m2 := by
  rw [composeAt, if_neg (by omega)]

/-- A composition maps an address where its two mappings do one after the other, whatever their ranges. -/
theorem compose_image (m1 m2 : Mapping) (x : U64) :
    (compose m1 m2).lowPA + (x - (compose m1 m2).lowVA) = m2.lowPA + (x + m1.lowPA - m1.lowVA - m2.lowVA) := by
  unfold compose mappingOffset
  dsimp only
  simp only [BitVec.ofInt_add, Int.sub_eq_add_neg, BitVec.ofInt_neg, BitVec.ofInt_natCast,
    BitVec.ofNat_toNat, BitVec.setWidth_eq]
  grind

end Sys2Proof.Machine

section
open Sys2Proof Sys2Proof.Machine

/-- Settles O41: of two aligned ranges that share an address one lies in the other. -/
theorem compositionIsTheSmallerMapping : Obligations.CompositionIsTheSmallerMapping := by
  intro s mode e1 e2 va h1 h2 hlow1 hhigh1 hlow2 hhigh2 m
  obtain ⟨hlow, hhigh, -, hsize⟩ := compose_range (s := s) (mode := mode) h1 h2 hlow1 hhigh1 hlow2 hhigh2
  exact ⟨hlow, hhigh, hsize, compose_image _ _ va, rfl, rfl⟩

/-- Settles O42: the bounds of the capped mapping are those of the mapping and of the window. -/
theorem capKeepsTheWindow : Obligations.CapKeepsTheWindow := by
  intro m va hlow hhigh
  obtain ⟨cl, ch⟩ := cap_bounds m va
  simp only [BitVec.le_def] at hlow hhigh ⊢
  exact ⟨by omega, by omega, by omega, by omega, by omega, by omega, cap_image m va va, rfl, rfl, cap_eq_self⟩

end
end

section
/-! Data-mode selection (42_translate.md R237; log 11 for `MPP = 2`). -/

namespace Sys2Proof.Machine

theorem baseOf_modeOf_virt (b : BaseMode) (v : Bool) : baseOf (modeOf b v) = b := by
  cases b <;> cases v <;> rfl

theorem virtOf_modeOf (b : BaseMode) (v : Bool) : virtOf (modeOf b v) = (v && decide (b ≠ .machine)) := by
  cases b <;> cases v <;> rfl

/-- `MPP` names a base mode but for the reserved value. -/
theorem mppBase_spec (m : BitVec 2) (h : m ≠ 2) :
    ∃ b, mppBase m = some b ∧ (m = 0 ∧ b = .user ∨ m = 1 ∧ b = .supervisor ∨ m = 3 ∧ b = .machine) := by
  have hm : m = 0 ∨ m = 1 ∨ m = 2 ∨ m = 3 := by
    revert m
    decide
  rcases hm with rfl | rfl | rfl | rfl
  · exact ⟨.user, rfl, .inl ⟨rfl, rfl⟩⟩
  · exact ⟨.supervisor, rfl, .inr (.inl ⟨rfl, rfl⟩)⟩
  · exact absurd rfl h
  · exact ⟨.machine, rfl, .inr (.inr ⟨rfl, rfl⟩)⟩

theorem State.mprvEffective_iff (s : State) :
    s.mprvEffective = true ↔ s.mprv = true ∧ (s.env.inDebug = false ∨ s.mprven = true) := by
  simp only [State.mprvEffective, Bool.and_eq_true, Bool.or_eq_true, Bool.not_eq_true']

/-- Without effective `MPRV` the data mode becomes the current mode. -/
theorem execRefreshMprv_ineffective {s : State} (h : s.mprvEffective = false) :
    execRefreshMprv s = .next { s with dataMode := s.env.curMode, response := .noReply } := by
  rw [execRefreshMprv, h]
  rfl

/-- With it, the data mode is made from the base mode `MPP` names. -/
theorem execRefreshMprv_effective {s : State} {b : BaseMode} (h : s.mprvEffective = true) (hb : mppBase s.mpp = some b) :
    execRefreshMprv s = .next { s with
      dataMode := modeOf (raiseToMin s.params b) (s.params.hasH && s.mpv), response := .noReply } := by
  rw [execRefreshMprv, if_pos h, hb]
  rfl

theorem execRefreshMprv_reserved {s : State} (h : s.mprvEffective = true) (hm : s.mpp = 2) :
    execRefreshMprv s = .fault .reservedMpp := by
  rw [execRefreshMprv, if_pos h, hm]
  rfl

end Sys2Proof.Machine

section
open Sys2Proof Sys2Proof.Machine

/-- Settles O43: one equation of `REFRESH_MPRV` for each case of `MPRV` and `MPP`. -/
theorem refreshMprvSelectsTheDataMode : Obligations.RefreshMprvSelectsTheDataMode := by
  intro s
  refine ⟨fun hoff => execRefreshMprv_ineffective ?_, fun hmprv hdebug hmpp => ?_, fun hmprv hdebug hmpp =>
    execRefreshMprv_reserved (s.mprvEffective_iff.2 ⟨hmprv, hdebug⟩) hmpp⟩
  · rcases hoff with h | ⟨hdebug, hmprven⟩
    · rw [State.mprvEffective, h, Bool.false_and]
    · rw [State.mprvEffective, hdebug, hmprven, Bool.not_true, Bool.or_false, Bool.and_false]
  · obtain ⟨b, hb, hcode⟩ := mppBase_spec s.mpp hmpp
    refine ⟨b, _, execRefreshMprv_effective (s.mprvEffective_iff.2 ⟨hmprv, hdebug⟩) hb, hcode, ?_, ?_⟩
    · rw [baseOf_modeOf_virt]
      rfl
    · rw [virtOf_modeOf, baseOf_modeOf_virt]

end
end

section
/-! The equations of a `MISS` (42_translate.md R220 to R222, R236, R239, R240), by the kind of the access. -/

namespace Sys2Proof.Machine

/-! ### The physical check -/

/-- A granted and allowed physical access changes at most the permission cache. -/
theorem State.checkPhysical_allowed {s : State} {mode : Mode5} {req : Priv} {lo hi : Nat}
    (hg : s.pmpGrants mode req lo hi = true) (ha : s.pmaAllows req lo hi = true) :
    ∃ p, s.checkPhysical mode req lo hi = (true, s.setPmpPerm p) := by
  obtain ⟨hok, hgrant, -⟩ := s.checkPhysical_spec mode req lo hi
  obtain ⟨p, hp⟩ := hgrant hg
  exact ⟨p, Prod.ext (by rw [hok, hg, ha]; rfl) hp⟩

/-- A granted access that the PMA hook denies changes at most the permission cache (log 14). -/
theorem State.checkPhysical_pmaDenied {s : State} {mode : Mode5} {req : Priv} {lo hi : Nat}
    (hg : s.pmpGrants mode req lo hi = true) (ha : s.pmaAllows req lo hi = false) :
    ∃ p, s.checkPhysical mode req lo hi = (false, s.setPmpPerm p) := by
  obtain ⟨hok, hgrant, -⟩ := s.checkPhysical_spec mode req lo hi
  obtain ⟨p, hp⟩ := hgrant hg
  exact ⟨p, Prod.ext (by rw [hok, ha, Bool.and_false]) hp⟩

theorem State.checkPhysical_pmpDenied {s : State} {mode : Mode5} {req : Priv} {lo hi : Nat}
    (hg : s.pmpGrants mode req lo hi = false) :
    s.checkPhysical mode req lo hi = (false, s.setAFault .pmp) := by
  obtain ⟨hok, -, hdeny⟩ := s.checkPhysical_spec mode req lo hi
  exact Prod.ext (by rw [hok, hg, Bool.false_and]) (hdeny hg)

/-! ### The kinds of access -/

/-- The answer to an access that is checked as a whole, physical or without a regime: `ok` of the state the check leaves where
it allows the access, else AFAULT (42_translate.md R236, R239). -/
def State.physAnswer (s : State) (mode : Mode5) (req : Priv) (va : U64) (bytes : Nat) (ok : State → State) : State :=
  match s.checkPhysical mode req va.toNat (va.toNat + bytes - 1) with
  | (true, u) => ok u
  | (false, u) => u.respondMiss .afault []

section
variable {mode : Mode5} {req : Priv} {va : U64} {bytes : Nat} {artifact : Bool} {s : State}

theorem execMiss_badSpan (cls : DomainClass) (hv : validSpan va bytes = false) :
    execMiss cls mode req va bytes artifact s = .next s.refuseMiss := by
  unfold execMiss
  rw [hv, Bool.and_false]
  rfl

variable (ho : missOperandsOk s.params mode req = true) (hv : validSpan va bytes = true)
include ho hv

theorem execMiss_other :
    execMiss .other mode req va bytes artifact s = .next ((s.setAFault .none).respondMiss .notMapped []) := by
  rw [execMiss, ho, hv]
  rfl

theorem execMiss_virt :
    execMiss .virt mode req va bytes artifact s = virtMiss mode req va bytes artifact (s.setAFault .none) := by
  rw [execMiss, ho, hv]
  rfl

theorem execMiss_phys {cls : DomainClass} (hc : cls = .phys ∨ cls = .pmp) :
    execMiss cls mode req va bytes artifact s
      = .next ((s.setAFault .none).physAnswer mode req va bytes fun u => u.respondMiss .ok []) := by
  rcases hc with rfl | rfl
  all_goals
    rw [execMiss, ho, hv]
    rfl

theorem execMiss_noRegime (hn : s.activeTlb mode = none) :
    execMiss .virt mode req va bytes artifact s
      = .next ((s.setAFault .none).physAnswer mode req va bytes fun u =>
          (u.draw 2).respondMiss .ok [identityMapping u.choice va bytes]) := by
  rw [execMiss_virt ho hv, virtMiss, show (s.setAFault .none).activeTlb mode = none from hn]
  rfl

theorem execMiss_regime {t1 : TlbId} (ht : s.activeTlb mode = some t1) :
    execMiss .virt mode req va bytes artifact s
      = spanLoop t1 req mode artifact (lastByte va bytes) bytes va [] (s.setAFault .none) := by
  rw [execMiss_virt ho hv, virtMiss, show (s.setAFault .none).activeTlb mode = some t1 from ht]

/-- A physical access, or one without a regime: the check decides between the two answers. -/
theorem execMiss_checked {cls : DomainClass} (hc : cls = .phys ∨ cls = .pmp ∨ (cls = .virt ∧ s.activeTlb mode = none)) :
    ∃ ok, execMiss cls mode req va bytes artifact s = .next ((s.setAFault .none).physAnswer mode req va bytes ok) := by
  rcases hc with hc | hc | ⟨rfl, hn⟩
  · exact ⟨_, execMiss_phys ho hv (.inl hc)⟩
  · exact ⟨_, execMiss_phys ho hv (.inr hc)⟩
  · exact ⟨_, execMiss_noRegime ho hv hn⟩

end

/-! ### Its answers -/

section
variable {s : State} {mode : Mode5} {req : Priv} {va : U64} {bytes : Nat}

theorem State.physAnswer_allowed (hg : s.pmpGrants mode req va.toNat (va.toNat + bytes - 1) = true)
    (ha : s.pmaAllows req va.toNat (va.toNat + bytes - 1) = true) :
    ∃ p, ∀ ok, s.physAnswer mode req va bytes ok = ok (s.setPmpPerm p) := by
  obtain ⟨p, hp⟩ := State.checkPhysical_allowed hg ha
  exact ⟨p, fun ok => by rw [State.physAnswer, hp]⟩

theorem State.physAnswer_pmaDenied (hg : s.pmpGrants mode req va.toNat (va.toNat + bytes - 1) = true)
    (ha : s.pmaAllows req va.toNat (va.toNat + bytes - 1) = false) (ok : State → State) :
    ∃ p, s.physAnswer mode req va bytes ok = (s.setPmpPerm p).respondMiss .afault [] := by
  obtain ⟨p, hp⟩ := State.checkPhysical_pmaDenied hg ha
  exact ⟨p, by rw [State.physAnswer, hp]⟩

theorem State.physAnswer_pmpDenied (hg : s.pmpGrants mode req va.toNat (va.toNat + bytes - 1) = false)
    (ok : State → State) :
    s.physAnswer mode req va bytes ok = (s.setAFault .pmp).respondMiss .afault [] := by
  rw [State.physAnswer, State.checkPhysical_pmpDenied hg]

end

end Sys2Proof.Machine

section
open Sys2Proof Sys2Proof.Machine

/-- Settles O28: the equation of each kind of access, and what the physical check decides. Clearing `AFault` does not change
the bank. -/
theorem missWithoutTranslation : Obligations.MissWithoutTranslation := by
  intro cls mode req va bytes artifact s ho
  have bank (lo hi : Nat) : (s.setAFault .none).pmpGrants mode req lo hi = s.pmpGrants mode req lo hi :=
    State.pmpGrants_bank (s := s) (t := s.setAFault .none) rfl rfl rfl mode req lo hi
  refine ⟨execMiss_badSpan cls, ?_, fun hv hc hg ha => ?_, fun hv hc hg => ?_, fun hv hc hg ha => ?_,
    fun hv hc hn hg ha => ?_⟩
  · rintro hv rfl
    exact execMiss_other (artifact := artifact) ho hv
  · obtain ⟨p, hp⟩ := State.physAnswer_allowed (s := s.setAFault .none) ((bank _ _).trans hg) ha
    exact ⟨_, (execMiss_phys ho hv hc).trans (congrArg _ (hp _)), rfl⟩
  · obtain ⟨ok, hexec⟩ := execMiss_checked (artifact := artifact) ho hv hc
    exact hexec.trans (congrArg _ (State.physAnswer_pmpDenied ((bank _ _).trans hg) ok))
  · obtain ⟨ok, hexec⟩ := execMiss_checked (artifact := artifact) ho hv hc
    obtain ⟨p, hp⟩ := State.physAnswer_pmaDenied (s := s.setAFault .none) ((bank _ _).trans hg) ha ok
    exact ⟨_, hexec.trans (congrArg _ hp), rfl⟩
  · subst hc
    obtain ⟨p, hp⟩ := State.physAnswer_allowed (s := s.setAFault .none) ((bank _ _).trans hg) ha
    exact ⟨_, _, (execMiss_noRegime ho hv hn).trans (congrArg _ (hp _)), rfl, (lastByte_toNat hv).1, rfl, rfl⟩

end
end

section
/-! The ways a `MISS` ends (42_translate.md R220, R234, R238) and what its answers have in common. -/

namespace Sys2Proof.Machine

/-! ### The ways a `MISS` ends -/

/-- A `MISS` in `s` ends in `t`: refused, answered without error, or with the failure of a chunk of the access. -/
inductive MissEnd (mode : Mode5) (req : Priv) (va : U64) (bytes : Nat) (artifact : Bool) (s : State) : State → Prop where
  | refused : MissEnd mode req va bytes artifact s s.refuseMiss
  | answered (u : State) (status : MissStatus) (ms : List Mapping) (inputs : SameInputs s u)
      (noError : status = .ok ∨ status = .afault ∨ status = .notMapped)
      (denied : s.env.pma = [] → status = .afault → u.afault = .pmp) :
      MissEnd mode req va bytes artifact s (u.respondMiss status ms)
  | failed (u : State) (t1 : TlbId) (x : U64) (f : ChunkFailure) (ms : List Mapping) (inputs : SameInputs s u)
      (inside : va ≤ x ∧ x ≤ lastByte va bytes) (fails : ChunkFails t1 x f) :
      MissEnd mode req va bytes artifact s (u.failLookup mode req artifact f ms)

/-- The physical check of a whole access ends a `MISS` when the answer to an allowed one does. -/
theorem MissEnd.physAnswer {mode : Mode5} {req : Priv} {va : U64} {bytes : Nat} {artifact : Bool} {s : State}
    {ok : State → State} (hok : ∀ u, SameInputs s u → MissEnd mode req va bytes artifact s (ok u)) :
    MissEnd mode req va bytes artifact s ((s.setAFault .none).physAnswer mode req va bytes ok) := by
  have hin := (memoryKeeps_inputs s).check false (s.setAFault .none) mode req va.toNat (va.toNat + bytes - 1) ⟨rfl, rfl⟩
  have hden := State.checkPhysical_denied (s := s.setAFault .none) (mode := mode) (req := req) (lo := va.toNat)
    (hi := va.toNat + bytes - 1)
  unfold State.physAnswer
  generalize (s.setAFault .none).checkPhysical mode req va.toNat (va.toNat + bytes - 1) = r at hin hden
  obtain ⟨allowed, u⟩ := r
  cases allowed with
  | true => exact hok u hin
  | false => exact .answered u .afault [] hin (.inr (.inl rfl)) fun hp _ => hden hp rfl

/-- Everything a `MISS` can answer. -/
theorem execMiss_end {cls : DomainClass} {mode : Mode5} {req : Priv} {va : U64} {bytes : Nat} {artifact : Bool} {s t : State}
    (h : execMiss cls mode req va bytes artifact s = .next t) : MissEnd mode req va bytes artifact s t := by
  by_cases hdom : (missOperandsOk s.params mode req && validSpan va bytes) = true
  · obtain ⟨ho, hv⟩ := Bool.and_eq_true_iff.1 hdom
    have ok (u : State) (ms : List Mapping) (hu : SameInputs s u) :
        MissEnd mode req va bytes artifact s (u.respondMiss .ok ms) :=
      .answered u .ok ms hu (.inl rfl) fun _ hst => (nomatch hst)
    have phys (hc : cls = .phys ∨ cls = .pmp) : MissEnd mode req va bytes artifact s t := by
      rw [execMiss_phys ho hv hc] at h
      cases h
      exact .physAnswer fun u => ok u []
    cases cls with
    | other =>
      rw [execMiss_other ho hv] at h
      cases h
      exact .answered _ _ _ ⟨rfl, rfl⟩ (.inr (.inr rfl)) fun _ hst => (nomatch hst)
    | phys => exact phys (.inl rfl)
    | pmp => exact phys (.inr rfl)
    | virt =>
      cases hact : s.activeTlb mode with
      | none =>
        rw [execMiss_noRegime ho hv hact] at h
        cases h
        exact .physAnswer fun u hu => ok (u.draw 2) _ hu
      | some t1 =>
        rw [execMiss_regime ho hv hact] at h
        obtain ⟨hlast, hpos⟩ := lastByte_toNat hv
        obtain ⟨u, hu, hans⟩ := spanLoop_keeps ((memoryKeeps_inputs s).access artifact) hact ho (lastByte va bytes) bytes
          va (le_lastByte hv) (by omega) [] (s.setAFault .none) t ⟨rfl, rfl⟩ h
        rcases hans with ⟨f, x, ms, hlo, hhi, hf, rfl⟩ | ⟨ms, hden, rfl⟩ | ⟨ms, rfl, -⟩
        · exact .failed u t1 x f ms hu ⟨hlo, hhi⟩ hf
        · exact .answered u .afault ms hu (.inr (.inl rfl)) fun hp _ => hden hp
        · exact ok u _ hu
  · unfold execMiss at h
    rw [if_neg hdom] at h
    cases h
    exact .refused

/-- The answer of a failed lookup (42_translate.md R234): the exception, or a probe failure for an artifact access. -/
def State.failAnswer (u : State) (mode : Mode5) (req : Priv) (artifact : Bool) (f : ChunkFailure) (ms : List Mapping) :
    MissResponse where
  status := if artifact then .probeFail else .exc
  err := some f.err
  exc := if artifact then none else some (u.excReport mode req f)
  mappings := ms
  afault := u.afault

theorem State.failLookup_eq (u : State) (mode : Mode5) (req : Priv) (artifact : Bool) (f : ChunkFailure)
    (ms : List Mapping) :
    u.failLookup mode req artifact f ms = u.respond (.miss (u.failAnswer mode req artifact f ms)) := by
  cases artifact <;> rfl

/-! ### `AFault` in the answer -/

/-- An answer that reports a PMP denial comes with AFAULT or a bus error (60_exceptions.md R331, R333). -/
def Response.armsOnDenial (r : Response) : Prop :=
  ∀ m, r = .miss m → m.afault = .pmp → m.status = .afault ∨ ∃ e, m.err = some e ∧ isBusError e = true

/-- An answer given with `AFault` clear, or AFAULT, does. -/
theorem State.respondMiss_armsOnDenial {u : State} {status : MissStatus} (h : u.afault = .none ∨ status = .afault)
    (ms : List Mapping) : (u.respondMiss status ms).response.armsOnDenial := by
  rintro m hm hp
  cases hm
  rcases h with h | h
  · exact (nomatch hp.symm.trans h)
  · exact .inl h

/-- A physical check that allows an access leaves `AFault` alone. -/
theorem State.checkPhysical_allowed_afault {s u : State} {mode : Mode5} {req : Priv} {lo hi : Nat}
    (h : s.checkPhysical mode req lo hi = (true, u)) : u.afault = s.afault := by
  cases hg : s.pmpGrants mode req lo hi with
  | false => exact (nomatch (State.checkPhysical_pmpDenied hg).symm.trans h)
  | true =>
    obtain ⟨p, hp⟩ := (s.checkPhysical_spec mode req lo hi).2.1 hg
    rw [h] at hp
    rw [show u = s.setPmpPerm p from hp]
    rfl

theorem State.physAnswer_armsOnDenial {s : State} (mode : Mode5) (req : Priv) (va : U64) (bytes : Nat)
    {ok : State → State} (hok : ∀ u : State, u.afault = s.afault → (ok u).response.armsOnDenial) :
    (s.physAnswer mode req va bytes ok).response.armsOnDenial := by
  unfold State.physAnswer
  cases hr : s.checkPhysical mode req va.toNat (va.toNat + bytes - 1) with
  | mk allowed u =>
    cases allowed with
    | true => exact hok u (State.checkPhysical_allowed_afault hr)
    | false => exact State.respondMiss_armsOnDenial (.inr rfl) []

/-- The span loop, begun with `AFault` clear, goes on from a chunk only with it clear. -/
theorem spanLoop_armsOnDenial (t1 : TlbId) (req : Priv) (mode : Mode5) (artifact : Bool) (last : U64) (n : Nat) (lo : U64)
    (done : List Mapping) {s t : State} (hs : s.afault = .none)
    (h : spanLoop t1 req mode artifact last n lo done s = .next t) : t.response.armsOnDenial := by
  induction n generalizing lo done s with
  | zero =>
    cases h
    exact State.respondMiss_armsOnDenial (.inl hs) done
  | succ n ih =>
    have harms := lookupChunk_arms t1 lo req mode artifact s hs
    unfold spanLoop at h
    cases hc : lookupChunk t1 lo req mode artifact s with
    | stuck f =>
      rw [hc] at h
      cases h
    | err f u =>
      rw [hc] at h harms
      cases h
      rw [State.failLookup_eq]
      rintro m ⟨⟩ hp
      exact .inr ⟨f.err, rfl, harms hp⟩
    | ok c u =>
      rw [hc] at h harms
      obtain ⟨a, tl, hinst⟩ := (u.draw 1).installChunk_eq mode c (u.chunkMapping mode lo c)
      have hclear : ((u.draw 1).installChunk mode c (u.chunkMapping mode lo c)).afault = .none := by
        rw [hinst]
        exact harms
      dsimp only at h
      unfold finishChunk at h
      dsimp only at h
      split at h
      · cases h
        exact State.respondMiss_armsOnDenial (.inr rfl) done
      · rename_i v hcheck
        have hv := (State.checkPhysical_allowed_afault hcheck).trans hclear
        split at h
        · cases h
          exact State.respondMiss_armsOnDenial (.inl hv) _
        · exact ih _ _ hv h

theorem execMiss_armsOnDenial {cls : DomainClass} {mode : Mode5} {req : Priv} {va : U64} {bytes : Nat} {artifact : Bool}
    {s t : State} (h : execMiss cls mode req va bytes artifact s = .next t) : t.response.armsOnDenial := by
  by_cases hdom : (missOperandsOk s.params mode req && validSpan va bytes) = true
  · obtain ⟨ho, hv⟩ := Bool.and_eq_true_iff.1 hdom
    have phys (hc : cls = .phys ∨ cls = .pmp) : t.response.armsOnDenial := by
      rw [execMiss_phys ho hv hc] at h
      cases h
      exact State.physAnswer_armsOnDenial _ _ _ _ fun u hu => State.respondMiss_armsOnDenial (.inl hu) []
    cases cls with
    | other =>
      rw [execMiss_other ho hv] at h
      cases h
      exact State.respondMiss_armsOnDenial (.inl rfl) []
    | phys => exact phys (.inl rfl)
    | pmp => exact phys (.inr rfl)
    | virt =>
      cases hact : s.activeTlb mode with
      | none =>
        rw [execMiss_noRegime ho hv hact] at h
        cases h
        exact State.physAnswer_armsOnDenial _ _ _ _ fun u hu => State.respondMiss_armsOnDenial (u := u.draw 2) (.inl hu) _
      | some t1 =>
        rw [execMiss_regime ho hv hact] at h
        exact spanLoop_armsOnDenial t1 req mode artifact _ bytes va [] (s := s.setAFault .none) rfl h
  · unfold execMiss at h
    rw [if_neg hdom] at h
    cases h
    rintro m hm hp
    cases hm
    cases hp

/-! ### The report of a failed lookup -/

theorem excKind_of_busError {e : WalkErr} (h : isBusError e = true) (t u : TlbId) (req : Priv) :
    excKind e t req = excKind e u req := by
  rw [excKind, excKind, if_pos h, if_pos h]

/-- A page fault has its ordinary form in both stage-1 regimes. -/
theorem excKind_of_ne_vs2 {t : TlbId} (h : t ≠ .vs2) (e : WalkErr) (req : Priv) : excKind e t req = excKind e .hs req := by
  simp only [excKind, h, if_false, reduceCtorEq]

/-- The fields of a report fit together: the guest-physical address comes with a page fault in its guest form and only then
(60_exceptions.md R331, R342). -/
theorem ChunkFails.report {t1 : TlbId} {x : U64} {f : ChunkFailure} (h : ChunkFails t1 x f) (u : State) (mode : Mode5)
    (req : Priv) :
    let r := u.excReport mode req f
    r.tval = x ∧ (r.gpa.isSome = true → isBusError f.err = false ∧ r.kind = excKind f.err .vs2 req)
      ∧ (r.gpa = none → r.kind = excKind f.err .hs req) := by
  refine ⟨h.tval, ?_⟩
  change ((if isBusError f.err then none else f.gpa).isSome = true → _ ∧ excKind f.err f.tlb req = _)
    ∧ ((if isBusError f.err then none else f.gpa) = none → excKind f.err f.tlb req = _)
  cases hb : isBusError f.err with
  | true => exact ⟨fun hg => (nomatch hg), fun _ => excKind_of_busError hb _ _ req⟩
  | false =>
    refine ⟨fun hg => ⟨rfl, by rw [h.gpa.1 hg]⟩, fun hg => excKind_of_ne_vs2 (fun hvs2 => ?_) f.err req⟩
    have hsome := h.gpa.2 hvs2
    rw [show f.gpa = none from hg] at hsome
    cases hsome

theorem SameInputs.activeTlb {s u : State} (h : SameInputs s u) (mode : Mode5) : u.activeTlb mode = s.activeTlb mode := by
  obtain ⟨hp, he⟩ := h
  have hsatp : u.satpMode = s.satpMode := by rw [State.satpMode, State.satpMode, hp, he]
  have hvsatp : u.vsatpMode = s.vsatpMode := by rw [State.vsatpMode, State.vsatpMode, hp, he]
  have hhgatp : u.hgatpMode = s.hgatpMode := by rw [State.hgatpMode, State.hgatpMode, hp, he]
  simp only [State.activeTlb, hsatp, hvsatp, hhgatp]

theorem SameInputs.gva {s u : State} (h : SameInputs s u) (mode : Mode5) :
    u.gva mode = decide (s.activeTlb mode = some .vs1 ∨ s.activeTlb mode = some .vs2) := by
  rw [State.gva, h.activeTlb, Bool.decide_or]

/-! ### Artifact accesses (42_translate.md R235) -/

/-- What an artifact access keeps: the parameters, the inputs and memory. -/
structure Observes (s0 s : State) : Prop where
  params : s.params = s0.params
  env : s.env = s0.env
  mem : s.mem = s0.mem

theorem Observes.store {s0 s t : State} (h : Observes s0 s) (hst : StoreStep s t) : Observes s0 t :=
  ⟨hst.params.trans h.params, hst.env.trans h.env, hst.mem.trans h.mem⟩

theorem lookupKeeps_observes (s0 : State) : LookupKeeps False s0 true (fun _ => True) (Observes s0) where
  frame _ h := ⟨h.params, h.env⟩
  read s t addr fmt h := by
    obtain ⟨-, f, hm, -⟩ := s.memRead_spec t addr (pteBytes fmt)
    exact ⟨f.params.trans h.params, f.env.trans h.env, hm.trans h.mem⟩
  write _ _ _ _ _ _ hart := (nomatch hart)
  links h := h.elim
  draw s n h := h.store (.draw s n)
  delete s _ l _ h _ := h.store (.deleteAll s l)
  rekey s _ mode e _ h _ := h.store (.rekey s mode e)
  insert s _ _ _ _ e _ h _ := h.store (.tlbInsert s e)

theorem accessKeeps_observes (s0 : State) : AccessKeeps False s0 true (Observes s0) (Observes s0) where
  toLookupKeeps := lookupKeeps_observes s0
  inner := lookupKeeps_observes s0
  beginStage2 _ _ _ h := ⟨h.params, h.env, h.mem⟩
  endStage2 _ h := ⟨h.params, h.env, h.mem⟩
  check s mode req lo hi h := by
    obtain ⟨p, a, he⟩ := s.checkPhysical_eq mode req lo hi
    rw [he]
    exact ⟨h.params, h.env, h.mem⟩
  install s _ x _ mode c _ _ h _ :=
    (h.store (.draw s 1)).store (.installChunk (s.draw 1) mode c (s.chunkMapping mode x c))

end Sys2Proof.Machine

section
open Sys2Proof Sys2Proof.Machine

/-- Settles O38: from the three ways a `MISS` ends; that `AFault` goes with AFAULT or a bus error is a fact of the loop. -/
theorem missAnswersConsistently : Obligations.MissAnswersConsistently := by
  intro cls mode req va bytes artifact s t r h hr
  have harms := execMiss_armsOnDenial h r hr
  cases execMiss_end h with
  | refused =>
    cases hr
    exact ⟨iff_of_false nofun nofun, iff_of_false nofun nofun, fun _ => rfl, nofun, nofun, fun hne => absurd rfl hne,
      fun _ => ⟨rfl, rfl⟩, harms, nofun⟩
  | answered u status ms hin hst hden =>
    cases hr
    have hne : status ≠ .exc ∧ status ≠ .probeFail ∧ status ≠ .refused := by
      rcases hst with rfl | rfl | rfl <;> decide
    obtain ⟨hexc, hprobe, hrefused⟩ := hne
    exact ⟨iff_of_false nofun hexc, iff_of_false nofun (not_or.2 ⟨hexc, hprobe⟩), fun _ => rfl, fun _ => hprobe, hden,
      fun _ => rfl, fun hh => absurd hh hrefused, harms, nofun⟩
  | failed u t1 x f ms hin hx hf =>
    obtain ⟨htval, hgpa, hnoGpa⟩ := hf.report u mode req
    rw [State.failLookup_eq] at hr ⊢
    cases artifact with
    | true =>
      cases hr
      exact ⟨iff_of_false nofun nofun, iff_of_true rfl (.inr rfl), fun _ => rfl, nofun, nofun, fun _ => rfl, nofun, harms,
        nofun⟩
    | false =>
      cases hr
      refine ⟨iff_of_true rfl rfl, iff_of_true rfl (.inl rfl), nofun, nofun, nofun, fun _ => rfl, nofun, harms, ?_⟩
      rintro - - ⟨⟩ ⟨⟩
      exact ⟨hin.gva mode, htval ▸ hx.1, htval ▸ hx.2, hgpa, hnoGpa⟩

/-- Settles O39: no page-table write is made for an artifact access, and its failure answers a probe failure. -/
theorem artifactAccessesObserve : Obligations.ArtifactAccessesObserve := by
  intro cls mode req va bytes s t h
  have hmem : t.mem = s.mem := by
    obtain ⟨u, r, hu, rfl⟩ :=
      execMiss_keeps (accessKeeps_observes s) ⟨rfl, rfl, rfl⟩ ⟨rfl, rfl, rfl⟩ cls mode req va bytes t h
    exact hu.mem
  refine ⟨hmem, fun r hr => ?_⟩
  cases execMiss_end h with
  | refused =>
    cases hr
    exact ⟨rfl, by simp, by simp⟩
  | answered u status ms hin hst =>
    cases hr
    rcases hst with rfl | rfl | rfl
    all_goals exact ⟨rfl, by simp, by simp⟩
  | failed u t1 x f ms =>
    cases hr
    exact ⟨rfl, by simp, by simp⟩

end
end

section
/-! Lookups by what the TLB holds for the address (41_tlb.md R182, 42_translate.md R223, R224): nothing, or one entry. -/

namespace Sys2Proof.Machine

/-! ### The walker of a regime -/

/-- `WalkFor(t, x, …)` (40_walker.md R156). -/
def walkFor (t : TlbId) (x : U64) (req : Priv) (mode : Mode5) (artifact : Bool) : State → Res WalkFailure Entry :=
  match t with
  | .hs => walkForStage1 .satp x req mode artifact
  | .vs1 => walkForStage1 .vsatp x req mode artifact
  | .vs2 => walkForStage2 x req mode artifact

theorem findOrCreate_eq (t : TlbId) (x : U64) (req : Priv) (mode : Mode5) (artifact : Bool) (s : State) :
    findOrCreate t x req mode artifact s = findOrCreateWith (walkFor t x req mode artifact) t x req mode s := by
  cases t <;> rfl

/-! ### The entries that contain an address -/

theorem State.overlapping_of_uncovered {s : State} {t : TlbId} {x : U64} (h : s.uncovered t x) : s.overlapping t x = [] := by
  rw [State.overlapping, List.filter_eq_nil_iff]
  intro e he hc
  exact absurd ((h e he).symm.trans hc) (by decide)

/-- A linked TLB holds no entry twice. -/
theorem State.linksOk.nodup {s : State} (h : s.linksOk) (t : TlbId) : (s.tlb t).Nodup := by
  have hall : s.entries.Nodup :=
    List.Pairwise.of_map (fun e : Entry => e.lutEntry) (fun _ _ hne he => hne (congrArg Entry.lutEntry he)) h.2
  rw [State.entries_tlb] at hall
  obtain ⟨hhs, hguest, -⟩ := List.pairwise_append.1 hall
  obtain ⟨hvs1, hvs2, -⟩ := List.pairwise_append.1 hguest
  cases t
  · exact hhs
  · exact hvs1
  · exact hvs2

theorem State.overlapping_of_soleCover {s : State} (hl : s.linksOk) {t : TlbId} {x : U64} {e : Entry}
    (h : s.soleCover t x e) : s.overlapping t x = [e] := by
  obtain ⟨hmem, hcov, hsole⟩ := h
  refine List.perm_singleton.1 ((List.perm_ext_iff_of_nodup ((hl.nodup t).filter _) (List.pairwise_singleton _ e)).2 fun f => ?_)
  rw [List.mem_filter, List.mem_singleton]
  refine ⟨fun hf => hsole f hf.1 hf.2, ?_⟩
  rintro rfl
  exact ⟨hmem, hcov⟩

/-! ### `TLB_FIND` -/

theorem State.tlbFind_uncovered {s : State} {t : TlbId} {x : U64} (h : s.uncovered t x) : s.tlbFind t x = (none, s) := by
  rw [State.tlbFind, State.overlapping_of_uncovered h]
  rfl

/-- The one entry that contains the address is deleted when it is an artifact entry, else returned when it matches. -/
theorem State.tlbFind_soleCover {s : State} (hl : s.linksOk) {t : TlbId} {x : U64} {e : Entry} (h : s.soleCover t x e) :
    s.tlbFind t x = if e.artifact then (none, (s.draw 1).tlbDelete e)
      else if s.matchEntry e then (some e, s.draw 1) else (none, s.draw 1) := by
  rw [State.tlbFind, State.overlapping_of_soleCover hl h]
  rfl

/-! ### Lookups -/

/-- Walk, and link what the walk gives (42_translate.md R223). -/
def walkAndInsert (t : TlbId) (x : U64) (req : Priv) (mode : Mode5) (artifact : Bool) (s : State) : Res WalkFailure Entry :=
  (walkFor t x req mode artifact s).bind fun e u => .ok (u.tlbInsert e).1 (u.tlbInsert e).2

section
variable {s : State} {t : TlbId} {x : U64} {req : Priv} {mode : Mode5} {artifact : Bool}

theorem findOrCreate_uncovered (h : s.uncovered t x) :
    findOrCreate t x req mode artifact s = walkAndInsert t x req mode artifact s := by
  rw [findOrCreate_eq, findOrCreateWith, State.tlbFind_uncovered h]
  rfl

/-- A sole entry that is an artifact entry, or needs the dirty upgrade, is deleted and the address walked. -/
theorem findOrCreate_rewalks (hl : s.linksOk) {e : Entry} (h : s.soleCover t x e)
    (he : e.artifact = true ∨ (s.matchEntry e = true ∧ e.d = false ∧ needsWrite req = true)) :
    findOrCreate t x req mode artifact s = walkAndInsert t x req mode artifact ((s.draw 1).tlbDelete e) := by
  rw [findOrCreate_eq, findOrCreateWith, State.tlbFind_soleCover hl h]
  cases hart : e.artifact with
  | true => rfl
  | false =>
    obtain ⟨hmatch, hd, hw⟩ := he.resolve_left (by rw [hart]; decide)
    simp only [Bool.false_eq_true, if_false, hmatch, if_true, State.dirtyUpgrade, hw, hd, Bool.not_false, Bool.and_self]
    rfl

/-- A sole entry that matches and needs no dirty upgrade is the answer, re-keyed, where the permission check grants. -/
theorem findOrCreate_hits (hl : s.linksOk) {e : Entry} (h : s.soleCover t x e) (hart : e.artifact = false)
    (hmatch : s.matchEntry e = true) (hd : needsWrite req = true → e.d = true) :
    findOrCreate t x req mode artifact s
      = if s.permGrants mode e req then .ok ((s.draw 1).rekey mode e).1 ((s.draw 1).rekey mode e).2
        else failWalk .priv (s.draw 1) := by
  have hdirty : (needsWrite req && !e.d) = false := by
    cases hw : needsWrite req with
    | false => rfl
    | true => rw [hd hw]; rfl
  have hgrants : (s.draw 1).permGrants mode e req = s.permGrants mode e req := rfl
  rw [findOrCreate_eq, findOrCreateWith, State.tlbFind_soleCover hl h]
  simp only [hart, hmatch, Bool.false_eq_true, if_false, if_true, State.dirtyUpgrade, hdirty, hgrants]
  cases s.permGrants mode e req <;> rfl

end

/-! ### Deletion of the entry -/

/-- A deletion does not look at `AFault` and at the draws. -/
theorem State.tlbDelete_draw (s : State) (e : Entry) (a : AFault) (n : Nat) :
    ((s.setAFault a).draw n).tlbDelete e = ((s.tlbDelete e).draw n).setAFault a := by
  unfold State.tlbDelete
  rw [List.foldl_hom (fun u : State => (u.setAFault a).draw n) (g₁ := fun u mode => u.removeAliases mode e)
    (fun _ _ => rfl)]
  rfl

theorem State.tlbDelete_uncovered {s : State} (hl : s.linksOk) {t : TlbId} {x : U64} {e : Entry} (h : s.soleCover t x e) :
    (s.tlbDelete e).uncovered t x := by
  obtain ⟨hmem, -, hsole⟩ := h
  intro f hf
  rw [State.tlbDelete_tlb, List.mem_filter] at hf
  obtain ⟨hf, hkept⟩ := hf
  rw [Bool.eq_false_iff]
  intro hc
  rw [hsole f hf hc, (hl.1 t e hmem).1] at hkept
  simp at hkept

/-- The span loop looks at the store first through the lookup of its first chunk. -/
theorem spanLoop_congr {t1 : TlbId} {lo : U64} {req : Priv} {mode : Mode5} {artifact : Bool} {s u : State}
    (h : findOrCreate t1 lo req mode artifact s = findOrCreate t1 lo req mode artifact u) (last : U64) {n : Nat}
    (hn : 1 ≤ n) (done : List Mapping) :
    spanLoop t1 req mode artifact last n lo done s = spanLoop t1 req mode artifact last n lo done u := by
  obtain ⟨k, rfl⟩ : ∃ k, n = k + 1 := ⟨n - 1, by omega⟩
  rw [spanLoop, spanLoop, lookupChunk, lookupChunk, h]

end Sys2Proof.Machine

section
open Sys2Proof Sys2Proof.Machine

/-- Settles O34: the lookup of the first chunk deletes the entry and walks, as it does where the entry is not there. -/
theorem missRewalksAfterDeletion : Obligations.MissRewalksAfterDeletion := by
  intro t1 mode req va bytes artifact s e hmiss hl hsole he
  obtain ⟨ho, hv, ht⟩ := hmiss
  have hdel : { s.tlbDelete e with choice := s.choice + 1 } = (s.tlbDelete e).draw 1 := by
    obtain ⟨a, u, h⟩ := s.tlbDelete_eq e
    rw [h]
    rfl
  have hin : SameInputs s ((s.tlbDelete e).draw 1) := by
    obtain ⟨a, u, h⟩ := s.tlbDelete_eq e
    rw [h]
    exact ⟨rfl, rfl⟩
  have hfirst : findOrCreate t1 va req mode artifact (s.setAFault .none)
      = findOrCreate t1 va req mode artifact (((s.tlbDelete e).draw 1).setAFault .none) := by
    rw [findOrCreate_rewalks (s := s.setAFault .none) hl hsole he, State.tlbDelete_draw,
      findOrCreate_uncovered (s := ((s.tlbDelete e).draw 1).setAFault .none) (State.tlbDelete_uncovered hl hsole)]
  rw [hdel]
  calc exec (.miss .virt mode req va bytes artifact) s
      = spanLoop t1 req mode artifact (lastByte va bytes) bytes va [] (s.setAFault .none) := execMiss_regime ho hv ht
    _ = spanLoop t1 req mode artifact (lastByte va bytes) bytes va [] (((s.tlbDelete e).draw 1).setAFault .none) :=
        spanLoop_congr hfirst _ (lastByte_toNat hv).2 []
    _ = exec (.miss .virt mode req va bytes artifact) ((s.tlbDelete e).draw 1) :=
        (execMiss_regime (by rw [hin.1]; exact ho) hv ((hin.activeTlb mode).trans ht)).symm

end
end

section
/-! Walks of the regime a lookup fills, against the rule over a snapshot (42_translate.md R223, 40_walker.md R156): what the
entry is, what is linked, and what is left where the walk fails. -/

namespace Sys2Proof.Machine

/-! ### The rule reads the bank, the inputs and memory only -/

theorem AccessFrame.refl (s : State) : AccessFrame s s :=
  ⟨rfl, rfl, rfl, rfl, rfl, rfl, rfl⟩

theorem AccessFrame.trans {s t u : State} (h : AccessFrame s t) (k : AccessFrame t u) : AccessFrame s u :=
  ⟨k.params.trans h.params, k.env.trans h.env, k.input.trans h.input, k.pmpcfg.trans h.pmpcfg, k.pmpaddr.trans h.pmpaddr,
    k.pubKey.trans h.pubKey, k.dataMode.trans h.dataMode⟩

theorem AccessFrame.sameInputs {s t : State} (h : AccessFrame s t) : SameInputs s t :=
  ⟨h.params, h.env⟩

theorem AccessFrame.setAFault (s : State) (a : AFault) : AccessFrame s (s.setAFault a) :=
  ⟨rfl, rfl, rfl, rfl, rfl, rfl, rfl⟩

theorem AccessFrame.store {s t u : State} (h : AccessFrame s t) (hst : StoreStep t u) : AccessFrame s u :=
  (memoryKeeps_accessFrame s).store false t u hst h

theorem AccessFrame.pmpGrants {s t : State} (h : AccessFrame s t) (mode : Mode5) (req : Priv) (lo hi : Nat) :
    t.pmpGrants mode req lo hi = s.pmpGrants mode req lo hi :=
  State.pmpGrants_bank h.params h.pmpcfg h.pmpaddr mode req lo hi

theorem AccessFrame.pmaAllows {s t : State} (h : AccessFrame s t) (req : Priv) (lo hi : Nat) :
    t.pmaAllows req lo hi = s.pmaAllows req lo hi := by
  rw [State.pmaAllows, State.pmaAllows, h.env]

theorem AccessFrame.pmpDenied {s t : State} (h : AccessFrame s t) (l : List PteAccess) : t.pmpDenied l ↔ s.pmpDenied l :=
  State.pmpDenied_bank h.params h.pmpcfg h.pmpaddr l

section
variable {s t : State} (h : AccessFrame s t)
include h

theorem AccessFrame.ptwServes (req : Priv) (lo hi : Nat) : t.ptwServes req lo hi = s.ptwServes req lo hi := by
  simp only [State.ptwServes, h.pmpGrants, h.pmaAllows, State.responds, h.env]

theorem AccessFrame.bigEndian (i : TlbId) : t.bigEndian i = s.bigEndian i := by
  cases i <;> simp only [State.bigEndian, h.env]

theorem AccessFrame.leafEntry (sh : WalkShape) (i : TlbId) (va : U64) (artifact : Bool) (l : Nat) (pte : U64) :
    t.leafEntry sh i va artifact l pte = s.leafEntry sh i va artifact l pte := by
  simp only [State.leafEntry, h.params, State.liveKey_congr h.params h.env]

variable (hm : t.mem = s.mem)
include hm

theorem AccessFrame.ruleWalk (sh : WalkShape) (i : TlbId) (root va : U64) (req : Priv) (mode : Mode5) (artifact : Bool) :
    t.ruleWalk sh i root va req mode artifact = s.ruleWalk sh i root va req mode artifact := by
  simp only [State.ruleWalk, State.peekPte, h.ptwServes, h.bigEndian, hm, h.leafEntry, h.params,
    State.permGrants_congr h.params h.env mode rfl rfl rfl]

theorem AccessFrame.ruleOutcome (sh : WalkShape) (artifact : Bool) (r : Except WalkErr WalkResult) :
    t.ruleOutcome sh artifact r = s.ruleOutcome sh artifact r := by
  simp only [State.ruleOutcome, h.ptwServes, h.bigEndian, hm]

/-- The walk rule of a regime is the same in states with one bank, one memory and the same inputs. -/
theorem AccessFrame.ruleWalkFor (i : TlbId) (x : U64) (req : Priv) (mode : Mode5) (artifact : Bool) :
    t.ruleWalkFor i x req mode artifact = s.ruleWalkFor i x req mode artifact := by
  have hroot (reg : Stage1Reg) : t.rootBase reg = s.rootBase reg := by
    cases reg <;> simp only [State.rootBase, State.satpPpn, State.vsatpPpn, h.params, h.env]
  cases i <;>
    simp only [State.ruleWalkFor, State.satpMode, State.vsatpMode, State.hgatpMode, State.ruleStage1, State.ruleStage2,
      State.hgatpPpn, h.ruleWalk hm, h.ruleOutcome hm, hroot, h.params, h.env, hm]

end

/-! ### A walk of a regime -/

/-- A walk that fills `TLB[t]` reaches its page tables directly, and a stage-2 walk has the hypervisor regime. -/
def State.walksDirectly (s : State) (t : TlbId) : Prop :=
  match t with
  | .hs => True
  | .vs1 => s.directTables .vsatp
  | .vs2 => s.params.hasH = true

section
variable {s : State} {t : TlbId} {x : U64} {req : Priv} {mode : Mode5} {artifact : Bool}

/-- A walk follows the rule of its regime. -/
theorem walkFor_followsRule {rule : Except WalkErr Entry × Memory} (hd : s.walksDirectly t)
    (h : s.ruleWalkFor t x req mode artifact = some rule) :
    FollowsRule s rule (walkFor t x req mode artifact s) := by
  cases t with
  | hs =>
    obtain ⟨sv, hsv, rfl⟩ := Option.map_eq_some_iff.1 h
    simp only [walkFor, walkForStage1, State.stage1Mode, hsv]
    exact walkStage1_followsRule (.inl rfl) sv x req mode artifact
  | vs1 =>
    obtain ⟨sv, hsv, rfl⟩ := Option.map_eq_some_iff.1 h
    simp only [walkFor, walkForStage1, State.stage1Mode, hsv]
    exact walkStage1_followsRule hd sv x req mode artifact
  | vs2 =>
    obtain ⟨sv, hsv, rfl⟩ := Option.map_eq_some_iff.1 h
    simp only [walkFor, walkForStage2, hsv, show s.params.hasH = true from hd, if_true]
    exact walkX4_followsRule sv x req mode artifact s

/-- What a walk of a regime returns. -/
theorem walkFor_walked (s : State) (t : TlbId) (x : U64) (req : Priv) (mode : Mode5) (artifact : Bool) :
    (walkFor t x req mode artifact s).Holds (fun e _ => WalkedEntry s t x req mode artifact e) (fun _ _ => True)
      (fun _ => True) := by
  have K := ((memoryKeeps_inputs s).access artifact).toMissKeeps
  have stage1 (reg : Stage1Reg) : (walkForStage1 reg x req mode artifact s).Holds
      (fun e _ => WalkedEntry s reg.tlb x req mode artifact e) (fun _ _ => True) (fun _ => True) := by
    unfold walkForStage1
    split
    · exact (walkStage1_keeps K (fun _ => trivial) _ reg x req mode (S := fun _ => True) (fun _ _ _ _ => trivial) s
        ⟨rfl, rfl⟩).mono (fun _ _ h => h.2) (fun _ _ _ => trivial) (fun _ h => h)
    · trivial
  cases t with
  | hs => exact stage1 .satp
  | vs1 => exact stage1 .vsatp
  | vs2 =>
    unfold walkFor walkForStage2
    dsimp only
    split
    · split
      · exact (walkX4_keeps K.toWalkKeeps _ x req mode (S := fun _ => True) s ⟨rfl, rfl⟩).mono (fun _ _ h => h.2)
          (fun _ _ _ => trivial) (fun _ h => h)
      · trivial
    · trivial

theorem walkFor_arms (t : TlbId) (x : U64) (req : Priv) (mode : Mode5) (artifact : Bool) {s : State}
    (h : s.afault = .none) : ArmsOnDenial WalkFailure.err (walkFor t x req mode artifact s) := by
  have stage1 (reg : Stage1Reg) : ArmsOnDenial WalkFailure.err (walkForStage1 reg x req mode artifact s) := by
    unfold walkForStage1
    split
    · exact walkStage1_arms _ reg x req mode artifact s h
    · trivial
  cases t with
  | hs => exact stage1 .satp
  | vs1 => exact stage1 .vsatp
  | vs2 => exact walkForStage2_arms x req mode artifact s h

end

/-- A walk the rule denies leaves memory as it was. -/
theorem State.ruleOutcome_error {s : State} {sh : WalkShape} {artifact : Bool} {r : Except WalkErr WalkResult} {e : WalkErr}
    {mem : Memory} (h : s.ruleOutcome sh artifact r = (.error e, mem)) : mem = s.mem := by
  unfold State.ruleOutcome at h
  dsimp only at h
  split at h
  · cases h
    rfl
  · split at h
    · cases h
    · split at h
      · cases h
      · split at h <;> cases h
        rfl

theorem State.ruleWalkFor_error {s : State} {t : TlbId} {x : U64} {req : Priv} {mode : Mode5} {artifact : Bool}
    {e : WalkErr} {mem : Memory} (h : s.ruleWalkFor t x req mode artifact = some (.error e, mem)) : mem = s.mem := by
  cases t with
  | hs =>
    obtain ⟨sv, -, hr⟩ := Option.map_eq_some_iff.1 h
    exact State.ruleOutcome_error hr
  | vs1 =>
    obtain ⟨sv, -, hr⟩ := Option.map_eq_some_iff.1 h
    exact State.ruleOutcome_error hr
  | vs2 =>
    obtain ⟨sv, -, hr⟩ := Option.map_eq_some_iff.1 h
    unfold State.ruleStage2 at hr
    dsimp only at hr
    split at hr
    · cases hr
      rfl
    · split at hr
      · cases hr
      · rename_i herr
        cases hr
        exact State.ruleOutcome_error herr

/-! ### Lookups that walk -/

/-- From `s` to `v` the entry `f` was linked in `TLB[t]`, and no denial armed `AFault`. -/
structure Linked (s : State) (t : TlbId) (f : Entry) (v : State) : Prop where
  frame : AccessFrame s v
  handle : f.lutEntry = some s.nextHandle
  tlb : ∀ i, v.tlb i = s.tlb i ++ if i = t then [f] else []
  nextHandle : v.nextHandle = s.nextHandle + 1
  aliases : v.aliases = s.aliases
  s2Active : v.s2Active = s.s2Active
  afault : v.afault = .none
  follows : AFaultFollows s v

section
variable {s : State} {t : TlbId} {x : U64} {req : Priv} {mode : Mode5} {artifact : Bool}

/-- A lookup that finds no entry, where the rule gives one, links it. -/
theorem findOrCreate_links {e : Entry} {mem : Memory} (hd : s.walksDirectly t) (hu : s.uncovered t x)
    (h0 : s.afault = .none) (h : s.ruleWalkFor t x req mode artifact = some (.ok e, mem)) :
    ∃ f v, f = { e with lutEntry := some s.nextHandle } ∧ findOrCreate t x req mode artifact s = .ok f v ∧ Linked s t f v
      ∧ WalkedEntry s t x req mode artifact e ∧ v.mem = mem := by
  obtain ⟨u, fr, -, hfollows, hmem, hres⟩ := walkFor_followsRule hd h
  have hwalked := walkFor_walked s t x req mode artifact
  have harms := walkFor_arms t x req mode artifact h0
  rw [hres] at hwalked harms
  have hwalked : WalkedEntry s t x req mode artifact e := hwalked
  refine ⟨(u.tlbInsert e).1, (u.tlbInsert e).2, ?_, ?_, ⟨((AccessFrame.refl s).walk fr).store (.tlbInsert u e), ?_,
    fun i => ?_, ?_, fr.aliases, fr.s2Active, harms, hfollows⟩, hwalked, hmem⟩
  · rw [State.tlbInsert_fst, fr.nextHandle]
  · rw [findOrCreate_uncovered hu, walkAndInsert, hres]
    rfl
  · exact congrArg some fr.nextHandle
  · rw [State.tlbInsert_tlb, State.tlbInsert_fst, hwalked.tlb, State.tlb, fr.tlbs]
    rfl
  · exact congrArg (· + 1) fr.nextHandle

/-- A lookup that finds no entry, where the rule fails, links and writes nothing. -/
theorem findOrCreate_walkFails {e : WalkErr} {mem : Memory} (hd : s.walksDirectly t) (hu : s.uncovered t x)
    (h : s.ruleWalkFor t x req mode artifact = some (.error e, mem)) :
    ∃ u, findOrCreate t x req mode artifact s = .err { err := e, pteGpa := none } u ∧ WalkFrame s u ∧ AFaultFollows s u
      ∧ u.mem = s.mem := by
  obtain ⟨u, f, -, hfollows, hmem, hres⟩ := walkFor_followsRule hd h
  refine ⟨u, ?_, f, hfollows, hmem.trans (State.ruleWalkFor_error h)⟩
  rw [findOrCreate_uncovered hu, walkAndInsert, hres]
  rfl

end

/-! ### The regime of a `MISS` -/

/-- A guest access is admitted with `HAS_H` only. -/
theorem missOperandsOk_hasH {p : Params} {mode : Mode5} {req : Priv} (h : missOperandsOk p mode req = true)
    (hv : virtOf mode = true) : p.hasH = true := by
  simp only [missOperandsOk, modeAllowed, hv, Bool.not_true, Bool.or_false, Bool.and_eq_true] at h
  exact h.2.1

section
variable {s : State} {t1 : TlbId} {mode : Mode5} {req : Priv} {va : U64} {bytes : Nat}

theorem State.missesIn.hasH (h : s.missesIn t1 mode req va bytes) (hne : t1 ≠ .hs) : s.params.hasH = true := by
  obtain ⟨ho, -, ht⟩ := h
  exact missOperandsOk_hasH ho ((State.activeTlb_spec ht).2.2.trans (by simp [hne]))

theorem State.missesIn.walksDirectly (h : s.missesIn t1 mode req va bytes) (hone : s.oneStage t1) : s.walksDirectly t1 := by
  cases t1 with
  | hs => trivial
  | vs1 => exact .inr (.inr (hone rfl))
  | vs2 => exact h.hasH (by decide)

theorem State.missesIn.exec (h : s.missesIn t1 mode req va bytes) (artifact : Bool) :
    exec (.miss .virt mode req va bytes artifact) s
      = spanLoop t1 req mode artifact (lastByte va bytes) bytes va [] (s.setAFault .none) :=
  execMiss_regime h.1 h.2.1 h.2.2

/-- `GVA` is set iff the regime is a guest's (60_exceptions.md R341). -/
theorem State.missesIn.gva (h : s.missesIn t1 mode req va bytes) {u : State} (hu : SameInputs s u) :
    u.gva mode = decide (t1 ≠ .hs) := by
  rw [hu.gva, h.2.2]
  cases t1 <;> rfl

end

end Sys2Proof.Machine
end

section
/-! A virtual `MISS` that one chunk decides (42_translate.md R222, R231 to R234): the state it leaves when the lookups serve
the chunk and when they fail, and what the install of an alias changes. -/

namespace Sys2Proof.Machine

/-! ### A chunk that serves the rest of the access -/

/-- An answer without error, given with `AFault` clear. -/
theorem State.respondMiss_clear {s : State} (h : s.afault = .none) (status : MissStatus) (ms : List Mapping) :
    s.respondMiss status ms = (s.setAFault .none).respond
      (.miss { status := status, err := none, exc := none, mappings := ms, afault := .none }) := by
  rw [State.respondMiss, h, show s.setAFault .none = s.setAFault s.afault by rw [h]]
  rfl

theorem AccessFrame.servedAnswer {s t : State} (h : AccessFrame s t) (mode : Mode5) (req : Priv) (m : Mapping)
    (va last : U64) : t.servedAnswer mode req m va last = s.servedAnswer mode req m va last := by
  simp only [State.servedAnswer, h.pmpGrants, h.pmaAllows]

/-- The last chunk of an access, begun with `AFault` clear: the alias is installed, and the physical access decides the
answer. -/
theorem finishChunk_served {req : Priv} {mode : Mode5} {last lo : U64} {c : Chunk} {m : Mapping} {s : State}
    (h0 : s.afault = .none) (hlast : last ≤ m.highVA)
    (rest : U64 → List Mapping → State → Host.Outcome State Fault Refusal) :
    ∃ p, finishChunk req mode last lo [] c m s rest
      = .next ((((s.installChunk mode c m).setPmpPerm p).setAFault (s.servedAnswer mode req m lo last).afault).respond
          (.miss (s.servedAnswer mode req m lo last))) := by
  have hst := StoreStep.installChunk s mode c m
  have hclear : (s.installChunk mode c m).afault = .none := by
    rw [hst]
    exact h0
  have hhi : (if last < m.highVA then last else m.highVA) = last := by
    split
    · rfl
    · rename_i hle
      exact BitVec.le_antisymm (BitVec.not_lt.1 hle) hlast
  unfold finishChunk
  dsimp only
  rw [hhi, ← ((AccessFrame.refl s).store hst).servedAnswer mode req m lo last]
  generalize s.installChunk mode c m = v at hclear
  rw [show (m.lowPA + (lo - m.lowVA)).toNat = m.image lo from rfl,
    show (m.lowPA + (last - m.lowVA)).toNat = m.image last from rfl]
  cases hg : v.pmpGrants mode req (m.image lo) (m.image last) with
  | false =>
    refine ⟨v.pmpPerm, ?_⟩
    rw [State.checkPhysical_pmpDenied hg, State.servedAnswer, if_pos hg]
    rfl
  | true =>
    cases ha : v.pmaAllows req (m.image lo) (m.image last) with
    | false =>
      obtain ⟨p, hp⟩ := State.checkPhysical_pmaDenied hg ha
      refine ⟨p, ?_⟩
      rw [hp, State.servedAnswer, if_neg (by simp [hg]), if_pos ha]
      exact congrArg _ (State.respondMiss_clear (s := v.setPmpPerm p) hclear .afault [])
    | true =>
      obtain ⟨p, hp⟩ := State.checkPhysical_allowed hg ha
      refine ⟨p, ?_⟩
      rw [hp, State.servedAnswer, if_neg (by simp [hg]), if_neg (by simp [ha])]
      exact (if_pos hlast).trans (congrArg _ (State.respondMiss_clear (s := v.setPmpPerm p) hclear .ok [m]))

/-! ### One chunk, the whole access -/

/-- The install does not look at the draws. -/
theorem State.installChunk_draw (v : State) (n : Nat) (mode : Mode5) (c : Chunk) (m : Mapping) :
    (v.draw n).installChunk mode c m = (v.installChunk mode c m).draw n := by
  unfold State.installChunk
  split
  · rfl
  · split
    · unfold State.installAlias
      split <;> rfl
    · rfl

theorem StoreStep.s2Active {s t : State} (h : StoreStep s t) : t.s2Active = s.s2Active := by rw [h]

/-- A `MISS` of `mode` that began in `s` ended in `t` with the answer `r`, and installed the alias of `m` for the entries of
`c`, which its lookups had given in `v`. -/
structure Answered (s : State) (r : MissResponse) (mode : Mode5) (c : Chunk) (m : Mapping) (v t : State) : Prop where
  response : t.response = .miss r
  afault : t.afault = r.afault
  tlb : ∀ i, t.tlb i = (v.installChunk mode c m).tlb i
  aliases : t.aliases = (v.installChunk mode c m).aliases
  mem : t.mem = v.mem
  traffic : t.traffic = v.traffic
  s2Active : t.s2Active = v.s2Active
  frame : AccessFrame s t

section
variable {s : State} {t1 : TlbId} {mode : Mode5} {req : Priv} {va : U64} {bytes : Nat} {artifact : Bool}

/-- The lookups gave entries whose mapping holds the access: the alias is installed, and the physical access decides. -/
theorem State.missesIn.served (h : s.missesIn t1 mode req va bytes) {c : Chunk} {v : State} {m : Mapping}
    (hc : lookupChunk t1 va req mode artifact (s.setAFault .none) = .ok c v) (hv : AccessFrame s v) (h0 : v.afault = .none)
    (hm : v.chunkMapping mode va c = m) (hlast : lastByte va bytes ≤ m.highVA) :
    ∃ t, Machine.exec (.miss .virt mode req va bytes artifact) s = .next t
      ∧ Answered s (s.servedAnswer mode req m va (lastByte va bytes)) mode c m v t := by
  obtain ⟨k, hk⟩ : ∃ k, bytes = k + 1 := ⟨bytes - 1, by have := (lastByte_toNat h.2.1).2; omega⟩
  have hdraw : AccessFrame s (v.draw 1) := hv.store (.draw v 1)
  obtain ⟨p, hp⟩ := finishChunk_served (req := req) (mode := mode) (lo := va) (c := c) (s := v.draw 1) h0 hlast
    (spanLoop t1 req mode artifact (lastByte va bytes) k)
  have hloop : Machine.exec (.miss .virt mode req va bytes artifact) s
      = finishChunk req mode (lastByte va bytes) va [] c m (v.draw 1)
          (spanLoop t1 req mode artifact (lastByte va bytes) k) := by
    rw [h.exec]
    generalize lastByte va bytes = last
    rw [hk, spanLoop, hc]
    dsimp only
    rw [hm]
  rw [hdraw.servedAnswer, State.installChunk_draw] at hp
  have hexec := hloop.trans hp
  have hst := StoreStep.installChunk v mode c m
  exact ⟨_, hexec, rfl, rfl, fun _ => rfl, rfl, hst.mem, hst.traffic, hst.s2Active,
    exec_accessFrame (.inl ⟨_, _, _, _, _, _, rfl⟩) hexec⟩

/-- The lookups failed: the answer is the failure's, once. -/
theorem State.missesIn.failed (h : s.missesIn t1 mode req va bytes) {f : ChunkFailure} {v : State}
    (hc : lookupChunk t1 va req mode artifact (s.setAFault .none) = .err f v) :
    Machine.exec (.miss .virt mode req va bytes artifact) s
      = .next (v.respond (.miss (v.failAnswer mode req artifact f []))) := by
  obtain ⟨k, hk⟩ : ∃ k, bytes = k + 1 := ⟨bytes - 1, by have := (lastByte_toNat h.2.1).2; omega⟩
  rw [h.exec]
  generalize lastByte va bytes = last
  rw [hk, spanLoop, hc]
  exact congrArg _ (State.failLookup_eq v mode req artifact f [])

/-- The answer of a failed lookup, written out. -/
theorem State.missesIn.failAnswer (h : s.missesIn t1 mode req va bytes) {v : State} (hv : SameInputs s v)
    (f : ChunkFailure) :
    Response.miss (v.failAnswer mode req artifact f [])
      = if artifact then
          .miss { status := .probeFail, err := some f.err, exc := none, mappings := [], afault := v.afault }
        else .miss
          { status := .exc
            err := some f.err
            exc := some { kind := excKind f.err f.tlb req, tval := f.tval, gva := decide (t1 ≠ .hs)
                          gpa := if isBusError f.err then none else f.gpa }
            mappings := []
            afault := v.afault } := by
  cases artifact with
  | true => rfl
  | false => rw [State.failAnswer, State.excReport, h.gva hv]; rfl

end

/-! ### The lookups of one stage -/

theorem SameInputs.hgatpMode {s u : State} (h : SameInputs s u) : u.hgatpMode = s.hgatpMode := by
  rw [State.hgatpMode, State.hgatpMode, h.1, h.2]

section
variable {s u v : State} {t1 : TlbId} {x : U64} {req : Priv} {mode : Mode5} {artifact : Bool}

theorem lookupChunk_oneStage {e : Entry} (h : findOrCreate t1 x req mode artifact u = .ok e v) (hone : v.oneStage t1) :
    lookupChunk t1 x req mode artifact u = .ok { e1 := e, e2 := none } v := by
  rw [lookupChunk, h]
  exact if_neg fun hc => hc.2 (hone hc.1)

theorem lookupChunk_fails {f : WalkFailure} (h : findOrCreate t1 x req mode artifact u = .err f v) :
    lookupChunk t1 x req mode artifact u = .err (firstFailure t1 x f) v := by
  rw [lookupChunk, h]

theorem SameInputs.oneStage (h : SameInputs s u) (hone : s.oneStage t1) : u.oneStage t1 :=
  fun ht => h.hgatpMode.trans (hone ht)

/-- A single mapping does not look at the handle, the key and the mapped set of its entry. -/
theorem SameInputs.single (h : SameInputs s u) (mode : Mode5) {e f : Entry} {l : Option Nat} {k : U64} {mp : BitVec 4}
    (hf : f = { e with lutEntry := l, simASID := k, mapped := mp }) : u.single mode f = s.single mode e := by
  subst hf
  simp only [State.single, State.permEff_congr h.1 h.2 mode (e := e)
    (f := { e with lutEntry := l, simASID := k, mapped := mp }) rfl rfl rfl]
  rfl

end

/-! ### What an install changes -/

/-- The chunk has no artifact entry and its first entry is linked: its alias is installed. -/
theorem State.installChunk_linked {u : State} {mode : Mode5} {c : Chunk} {h1 : Nat} (hart : c.artifact = false)
    (hh : c.e1.lutEntry = some h1) (m : Mapping) :
    u.installChunk mode c m = u.installAlias mode m c.e1.tlb h1 (c.e2.bind fun e => e.lutEntry) := by
  rw [State.installChunk, hart, hh]
  rfl

theorem State.installChunk_artifact {u : State} {mode : Mode5} {c : Chunk} (hart : c.artifact = true) (m : Mapping) :
    u.installChunk mode c m = u :=
  if_pos hart

/-- A kept alias overlaps nothing of the new one. -/
theorem not_aliasOverlaps_iff (a : Alias) (lo hi : U64) :
    (!aliasOverlaps a lo hi) = true ↔ a.highVA < lo ∨ hi < a.lowVA := by
  simp only [aliasOverlaps, Bool.not_eq_true', Bool.and_eq_false_iff, decide_eq_false_iff_not, BitVec.not_le]
  exact or_comm

theorem State.mem_installAlias_aliases {u : State} {mode : Mode5} {m : Mapping} {t1 : TlbId} {h1 : Nat} {h2 : Option Nat}
    (a : Alias) :
    a ∈ (u.installAlias mode m t1 h1 h2).aliasesOf mode ↔
      a = { lowVA := m.lowVA, highVA := m.highVA, lowPA := m.lowPA, priv := m.priv, mask := m.mask
            key := u.liveKey, from1 := h1, from2 := h2 }
        ∨ (a ∈ u.aliasesOf mode ∧ (a.highVA < m.lowVA ∨ m.highVA < a.lowVA)) := by
  rw [State.installAlias_aliases, if_pos rfl, List.mem_cons, List.mem_filter, not_aliasOverlaps_iff]

/-- An install over the aliases of `s`, under its live key. -/
theorem SameInputs.aliasInstalled {s u t : State} (h : SameInputs s u) (hal : u.aliases = s.aliases) {mode : Mode5}
    {m : Mapping} {t1 : TlbId} {h1 : Nat} {h2 : Option Nat} (ht : t.aliases = (u.installAlias mode m t1 h1 h2).aliases) :
    s.aliasInstalled t mode m h1 h2 := by
  have hof (mode' : Mode5) : u.aliasesOf mode' = s.aliasesOf mode' := by
    rw [State.aliasesOf, State.aliasesOf, hal]
  have hnew (mode' : Mode5) : t.aliasesOf mode' = (u.installAlias mode m t1 h1 h2).aliasesOf mode' := by
    rw [State.aliasesOf, State.aliasesOf, ht]
  refine ⟨fun a => ?_, fun other hne => ?_⟩
  · rw [hnew, State.mem_installAlias_aliases, hof, State.liveKey_congr h.1 h.2]
  · rw [hnew, State.installAlias_aliases, if_neg hne, hof]

/-- A linked store has given out no handle from the next one on. -/
theorem State.linksOk.fresh {s : State} (h : s.linksOk) {i : TlbId} {f : Entry} (hf : f ∈ s.tlb i) {n : Nat}
    (hn : s.nextHandle ≤ n) : f.lutEntry ≠ some n := by
  obtain ⟨-, ⟨k, hk, hlt⟩, -⟩ := h.1 i f hf
  rw [hk]
  intro hh
  have := Option.some.inj hh
  omega

/-- The install of the alias of entries linked after `s` was left: it marks them, and no entry of `s`. -/
theorem State.installChunk_tlb_new {s u : State} (hs : s.linksOk) {new : TlbId → List Entry}
    (hu : ∀ i, u.tlb i = s.tlb i ++ new i) {c : Chunk} {artifact : Bool} {h1 : Nat} (hart : c.artifact = artifact)
    (hh : c.e1.lutEntry = some h1) (hn1 : s.nextHandle ≤ h1)
    (hn2 : ∀ h2, (c.e2.bind fun e => e.lutEntry) = some h2 → s.nextHandle ≤ h2)
    (hnew : ∀ i, ∀ f ∈ new i, (i = c.e1.tlb ∧ f.lutEntry = some h1)
      ∨ (i = .vs2 ∧ (c.e2.bind fun e => e.lutEntry) ≠ none ∧ f.lutEntry = c.e2.bind fun e => e.lutEntry))
    (mode : Mode5) (m : Mapping) (i : TlbId) :
    (u.installChunk mode c m).tlb i
      = s.tlb i ++ (new i).map fun f => if artifact then f else { f with mapped := addMapped f.mapped (baseOf mode) } := by
  cases artifact with
  | true =>
    rw [State.installChunk_artifact hart, hu]
    exact congrArg _ (List.map_id _).symm
  | false =>
    rw [State.installChunk_linked hart hh, State.installAlias_tlb, hu, List.map_append]
    refine congr (congrArg _ ((List.map_congr_left fun f hf => if_neg ?_).trans (List.map_id _)))
      (List.map_congr_left fun f hf => if_pos (hnew i f hf))
    rintro (⟨-, hf1⟩ | ⟨-, hne, hf2⟩)
    · exact hs.fresh hf hn1 hf1
    · obtain ⟨h2, hh2⟩ := Option.ne_none_iff_exists'.1 hne
      exact hs.fresh hf (hn2 h2 hh2) (hf2.trans hh2)

/-- What that makes of an entry a walk gave, where it stands. -/
theorem WalkedEntry.map_linkedFor {s : State} {t : TlbId} {x : U64} {req : Priv} {mode : Mode5} {artifact : Bool} {e : Entry}
    (h : WalkedEntry s t x req mode artifact e) {n : Nat} {f : Entry} (hf : f = { e with lutEntry := some n }) (i : TlbId) :
    (if i = t then [f] else []).map
        (fun f => if artifact then f else { f with mapped := addMapped f.mapped (baseOf mode) })
      = if i = t then [e.linkedFor n mode artifact] else [] := by
  subst hf
  by_cases hi : i = t
  · rw [if_pos hi, if_pos hi]
    refine congrArg (fun g => [g]) ?_
    cases artifact with
    | true => rw [Entry.linkedFor, if_pos rfl, ← h.unmapped]; rfl
    | false => rw [Entry.linkedFor, h.unmapped]; rfl
  · rw [if_neg hi, if_neg hi]
    rfl

section
variable {s0 s u : State} {t : TlbId} {x : U64} {req : Priv} {mode : Mode5} {artifact : Bool} {e f : Entry} {n : Nat}

theorem WalkedEntry.chunkArtifact (h : WalkedEntry s0 t x req mode artifact e) (hf : f = { e with lutEntry := some n }) :
    Chunk.artifact { e1 := f, e2 := none } = artifact := by
  subst hf
  exact (Bool.or_false _).trans h.artifact

/-- The TLBs after the install of the alias of one entry that was linked. -/
theorem WalkedEntry.installed_tlb (h : WalkedEntry s0 t x req mode artifact e) (hf : f = { e with lutEntry := some n })
    (hs : s.linksOk) (hn : s.nextHandle ≤ n) (hu : ∀ i, u.tlb i = s.tlb i ++ if i = t then [f] else []) (m : Mapping)
    (i : TlbId) : (u.installChunk mode { e1 := f, e2 := none } m).tlb i
      = s.tlb i ++ if i = t then [e.linkedFor n mode artifact] else [] := by
  have hnew (i : TlbId) (g : Entry) (hg : g ∈ if i = t then [f] else []) : i = f.tlb ∧ g.lutEntry = some n := by
    obtain ⟨hi, hfg⟩ := List.mem_ite_nil_right.1 hg
    rw [List.mem_singleton.1 hfg, hf]
    exact ⟨hi.trans h.tlb.symm, rfl⟩
  rw [State.installChunk_tlb_new hs hu (h.chunkArtifact hf) (congrArg Entry.lutEntry hf) hn (fun _ h => (nomatch h))
    (fun i g hg => .inl (hnew i g hg)), h.map_linkedFor hf]

end

end Sys2Proof.Machine

section
open Sys2Proof Sys2Proof.Machine

/-- Settles O29: the lookup links what the rule gives, and the chunk serves the whole access. -/
theorem missServedByAWalk : Obligations.MissServedByAWalk := by
  intro t1 mode req va bytes artifact s e mem m hmiss hone hlinks huncov hrule hm hlast
  have hin0 := AccessFrame.setAFault s .none
  obtain ⟨f, v, hf, hfind, hlinked, hwalked, hmem⟩ := findOrCreate_links (s := s.setAFault .none) (hmiss.walksDirectly hone)
    huncov rfl ((hin0.ruleWalkFor rfl t1 va req mode artifact).trans hrule)
  have hframe : AccessFrame s v := hin0.trans hlinked.frame
  have hin := hframe.sameInputs
  have hmap : v.chunkMapping mode va { e1 := f, e2 := none } = m :=
    (congrArg (cap · va) (hin.single mode hf)).trans hm.symm
  obtain ⟨t, hexec, hans⟩ := hmiss.served (lookupChunk_oneStage hfind (hin.oneStage hone)) hframe hlinked.afault hmap hlast
  have hart := hwalked.chunkArtifact hf
  have htlb (i : TlbId) : t.tlb i = s.tlb i ++ if i = t1 then [e.linkedFor s.nextHandle mode artifact] else [] :=
    (hans.tlb i).trans (hwalked.installed_tlb hf hlinks (Nat.le_refl _) hlinked.tlb m i)
  refine ⟨t, hexec, hans.response, hans.afault, ?_, fun u hu => ?_, fun hart' => ?_, fun hart' => ?_, hans.mem.trans hmem,
    hans.frame.pmpcfg, hans.frame.pmpaddr, hans.frame.pubKey, hans.frame.dataMode⟩
  · rw [htlb, if_pos rfl]
  · rw [htlb, if_neg hu, List.append_nil]
  · exact hin.aliasInstalled hlinked.aliases
      (hans.aliases.trans (congrArg _ (State.installChunk_linked (hart.trans hart') hlinked.handle m)))
  · rw [hans.aliases, State.installChunk_artifact (hart.trans hart')]
    exact hlinked.aliases

/-- Settles O30: the walk fails, and the lookup's failure is the answer. -/
theorem missReportsAFailedWalk : Obligations.MissReportsAFailedWalk := by
  intro t1 mode req va bytes artifact s err mem hmiss hone huncov hrule
  have hin0 := AccessFrame.setAFault s .none
  obtain ⟨u, hfind, hwalk, ⟨l, htraffic, harmed⟩, hmem⟩ := findOrCreate_walkFails (s := s.setAFault .none)
    (hmiss.walksDirectly hone) huncov ((hin0.ruleWalkFor rfl t1 va req mode artifact).trans hrule)
  have hframe : AccessFrame s u := hin0.walk hwalk
  refine ⟨u.respond _, l, hmiss.failed (lookupChunk_fails hfind), htraffic, ?_, ?_, hwalk.tlbs, hwalk.aliases, hmem,
    hframe.pmpcfg, hframe.pmpaddr, hframe.pubKey, hframe.dataMode⟩
  · exact harmed.trans ((or_iff_right nofun).trans (hin0.pmpDenied l))
  · have hgpa : (if isBusError err then none else if t1 = .vs2 then some va else none)
        = if t1 = .vs2 ∧ isBusError err = false then some va else none := by
      cases isBusError err <;> simp
    rw [← hgpa]
    exact hmiss.failAnswer hframe.sameInputs _

end
end

section
/-! A `MISS` under both stages whose lookups walk (42_translate.md R226 to R228): the stage-1 walk, then the stage-2 walk of
the guest-physical address over the memory stage 1 left. -/

namespace Sys2Proof.Machine

/-! ### The stage-1 walk -/

theorem AccessFrame.beginStage2 {s v : State} (h : AccessFrame s v) (va : U64) : AccessFrame s (v.beginStage2 va) :=
  ⟨h.params, h.env, h.input, h.pmpcfg, h.pmpaddr, h.pubKey, h.dataMode⟩

theorem AccessFrame.endStage2 {s v : State} (h : AccessFrame s v) : AccessFrame s v.endStage2 :=
  ⟨h.params, h.env, h.input, h.pmpcfg, h.pmpaddr, h.pubKey, h.dataMode⟩

/-- A link in one TLB adds no entry to another. -/
theorem Linked.uncovered_ne {s v : State} {t i : TlbId} {f : Entry} (h : Linked s t f v) (hne : i ≠ t) {x : U64}
    (hu : s.uncovered i x) : v.uncovered i x := by
  intro e he
  rw [h.tlb, if_neg hne, List.append_nil] at he
  exact hu e he

theorem range_of_covers {e : Entry} {x : U64} (h : covers e x = true) : e.lowVA ≤ x ∧ x ≤ e.highVA := by
  rwa [covers, Bool.and_eq_true, decide_eq_true_iff, decide_eq_true_iff] at h

theorem WalkedEntry.range {s : State} {t : TlbId} {x : U64} {req : Priv} {mode : Mode5} {artifact : Bool} {e : Entry}
    (h : WalkedEntry s t x req mode artifact e) : entryAligned e ∧ e.lowVA ≤ x ∧ x ≤ e.highVA :=
  ⟨h.walked.1, range_of_covers h.covers⟩

section
variable {s : State} {mode : Mode5} {req : Priv} {va : U64} {artifact : Bool} {e1 : Entry} {mem1 : Memory}

/-- A two-stage `MISS` that finds no stage-1 entry links the one the rule gives, and goes on with the nested lookup. -/
theorem lookupChunk_nested (hs2 : s.hgatpMode ≠ 0) (hvia : s.params.vs1PtwViaS2 = false)
    (hu1 : s.uncovered .vs1 va) (hr1 : s.ruleWalkFor .vs1 va req mode artifact = some (.ok e1, mem1)) :
    ∃ f1 v1, f1 = { e1 with lutEntry := some s.nextHandle }
      ∧ lookupChunk .vs1 va req mode artifact (s.setAFault .none) = lookupNested va f1 req mode artifact v1
      ∧ Linked (s.setAFault .none) .vs1 f1 v1 ∧ WalkedEntry (s.setAFault .none) .vs1 va req mode artifact e1
      ∧ v1.mem = mem1 := by
  have hin0 := AccessFrame.setAFault s .none
  have hdirect : (s.setAFault .none).walksDirectly .vs1 := Or.inr (Or.inl hvia)
  obtain ⟨f1, v1, hf1, hfind, hlinked, hwalked, hmem⟩ := findOrCreate_links hdirect hu1 rfl
    ((hin0.ruleWalkFor rfl .vs1 va req mode artifact).trans hr1)
  refine ⟨f1, v1, hf1, ?_, hlinked, hwalked, hmem⟩
  rw [lookupChunk, hfind]
  exact if_pos ⟨rfl, fun hoff => hs2 ((hin0.trans hlinked.frame).sameInputs.hgatpMode.symm.trans hoff)⟩

/-- The nested lookup follows the rule over the memory stage 1 left. -/
theorem AccessFrame.nestedRule {v1 : State} (h : AccessFrame s v1) (hm : v1.mem = mem1) (gpa : U64) (req : Priv)
    (mode : Mode5) (artifact : Bool) : (v1.beginStage2 va).ruleWalkFor .vs2 gpa req mode artifact
      = (s.setMem mem1).ruleWalkFor .vs2 gpa req mode artifact := by
  have hframe : AccessFrame (s.setMem mem1) (v1.beginStage2 va) :=
    ⟨h.params, h.env, h.input, h.pmpcfg, h.pmpaddr, h.pubKey, h.dataMode⟩
  exact hframe.ruleWalkFor hm .vs2 gpa req mode artifact

end

/-! ### The nested lookup -/

section
variable {va : U64} {f1 : Entry} {req : Priv} {mode : Mode5} {artifact : Bool} {v1 v2 : State}

theorem lookupNested_ok {f2 : Entry}
    (h : findOrCreate .vs2 (guestPhysical va f1) req mode artifact (v1.beginStage2 va) = .ok f2 v2) :
    lookupNested va f1 req mode artifact v1 = .ok { e1 := f1, e2 := some f2 } v2.endStage2 := by
  rw [lookupNested, h]

theorem lookupNested_err {f : WalkFailure}
    (h : findOrCreate .vs2 (guestPhysical va f1) req mode artifact (v1.beginStage2 va) = .err f v2) :
    lookupNested va f1 req mode artifact v1
      = .err { err := f.err, tlb := .vs2, tval := v2.s1VA, gpa := some (guestPhysical va f1) } v2.endStage2 := by
  rw [lookupNested, h]

end

/-- What arms `AFault` over two parts of a command that keep the bank. -/
theorem AccessFrame.afaultFollows {s t u : State} (f : AccessFrame s t) (h : AFaultFollows s t) (k : AFaultFollows t u) :
    AFaultFollows s u := by
  obtain ⟨l, htraffic, harmed⟩ := h
  obtain ⟨l', htraffic', harmed'⟩ := k
  refine ⟨l ++ l', by rw [htraffic', htraffic, List.append_assoc], ?_⟩
  rw [harmed', harmed, f.pmpDenied]
  simp only [State.pmpDenied, List.mem_append, or_and_right, exists_or, or_assoc]

/-- The mapping of a chunk under both stages is the capped composition, where the two entries hold the addresses. -/
theorem State.chunkMapping_two {s u : State} (h : SameInputs s u) (mode : Mode5) {x : U64} {e1 e2 f1 f2 : Entry}
    {l1 l2 : Option Nat} (hf1 : f1 = { e1 with lutEntry := l1 }) (hf2 : f2 = { e2 with lutEntry := l2 })
    (h1 : entryAligned e1 ∧ e1.lowVA ≤ x ∧ x ≤ e1.highVA)
    (h2 : entryAligned e2 ∧ e2.lowVA ≤ guestPhysical x e1 ∧ guestPhysical x e1 ≤ e2.highVA) :
    u.chunkMapping mode x { e1 := f1, e2 := some f2 } = cap (compose (s.single mode e1) (s.single mode e2)) x := by
  obtain ⟨ha1, hl1, hh1⟩ := h1
  obtain ⟨ha2, hl2, hh2⟩ := h2
  obtain ⟨-, -, hreach, -⟩ := compose_range (s := s) (mode := mode) ha1 ha2 hl1 hh1 hl2 hh2
  rw [State.chunkMapping]
  dsimp only
  rw [h.single mode hf1, h.single mode hf2, composeAt_eq_compose hreach]

section
variable {s1 s2 s u : State} {x y : U64} {req : Priv} {mode : Mode5} {artifact : Bool} {e1 e2 f1 f2 : Entry} {n1 n2 : Nat}
  (h1 : WalkedEntry s1 .vs1 x req mode artifact e1) (h2 : WalkedEntry s2 .vs2 y req mode artifact e2)
  (hf1 : f1 = { e1 with lutEntry := some n1 }) (hf2 : f2 = { e2 with lutEntry := some n2 })
include h1 h2 hf1 hf2

theorem WalkedEntry.chunkArtifact_two : Chunk.artifact { e1 := f1, e2 := some f2 } = artifact := by
  subst hf1 hf2
  exact (congr (congrArg or h1.artifact) h2.artifact).trans (Bool.or_self artifact)

/-- The TLBs after the install of the alias of two entries that were linked. -/
theorem WalkedEntry.installed_tlb_two (hs : s.linksOk) (hn1 : s.nextHandle ≤ n1) (hn2 : s.nextHandle ≤ n2)
    (hu : ∀ i, u.tlb i = s.tlb i ++ ((if i = .vs1 then [f1] else []) ++ if i = .vs2 then [f2] else [])) (m : Mapping)
    (i : TlbId) : (u.installChunk mode { e1 := f1, e2 := some f2 } m).tlb i
      = s.tlb i ++ ((if i = .vs1 then [e1.linkedFor n1 mode artifact] else [])
          ++ if i = .vs2 then [e2.linkedFor n2 mode artifact] else []) := by
  have hart := h1.chunkArtifact_two h2 hf1 hf2
  have hl1 : f1.lutEntry = some n1 := congrArg Entry.lutEntry hf1
  have hl2 : f2.lutEntry = some n2 := congrArg Entry.lutEntry hf2
  have hnew (i : TlbId) (g : Entry) (hg : g ∈ (if i = .vs1 then [f1] else []) ++ if i = .vs2 then [f2] else []) :
      (i = f1.tlb ∧ g.lutEntry = some n1) ∨ (i = .vs2 ∧ f2.lutEntry ≠ none ∧ g.lutEntry = f2.lutEntry) := by
    rw [List.mem_append, List.mem_ite_nil_right, List.mem_ite_nil_right, List.mem_singleton, List.mem_singleton] at hg
    rcases hg with ⟨hi, rfl⟩ | ⟨hi, rfl⟩
    · exact .inl ⟨hi.trans (h1.tlb.symm.trans (congrArg Entry.tlb hf1).symm), hl1⟩
    · exact .inr ⟨hi, fun hnone => (nomatch hl2.symm.trans hnone), rfl⟩
  have hfresh (k : Nat) (hk : f2.lutEntry = some k) : s.nextHandle ≤ k := Option.some.inj (hl2.symm.trans hk) ▸ hn2
  rw [State.installChunk_tlb_new hs hu hart hl1 hn1 hfresh hnew, List.map_append, h1.map_linkedFor hf1, h2.map_linkedFor hf2]

end

end Sys2Proof.Machine

section
open Sys2Proof Sys2Proof.Machine

/-- Settles O31: both lookups link what their rules give, and the chunk serves the whole access. -/
theorem missServedByTwoWalks : Obligations.MissServedByTwoWalks := by
  intro mode req va bytes artifact s e1 e2 mem1 mem2 gpa m hmiss hs2 hvia hlinks hu1 hr1 hgpa hu2 hr2 hm hlast
  obtain ⟨f1, v1, hf1, hlookup, hlinked1, hwalked1, hmem1⟩ := lookupChunk_nested hs2 hvia hu1 hr1
  have hframe1 : AccessFrame s v1 := (AccessFrame.setAFault s .none).trans hlinked1.frame
  have hgpa1 : guestPhysical va f1 = gpa := by rw [hf1, hgpa]; rfl
  obtain ⟨f2, v2, hf2, hfind2, hlinked2, hwalked2, hmem2⟩ := findOrCreate_links (s := v1.beginStage2 va) (t := .vs2)
    ((congrArg Params.hasH hframe1.params).trans (hmiss.hasH (by decide))) (hlinked1.uncovered_ne (by decide) hu2)
    hlinked1.afault ((hframe1.nestedRule hmem1 gpa req mode artifact).trans hr2)
  have hhandle2 : (v1.beginStage2 va).nextHandle = s.nextHandle + 1 := hlinked1.nextHandle
  have hframe : AccessFrame s v2.endStage2 := ((hframe1.beginStage2 va).trans hlinked2.frame).endStage2
  have hmap : v2.endStage2.chunkMapping mode va { e1 := f1, e2 := some f2 } = m := by
    have hx : guestPhysical va e1 = gpa := hgpa.symm
    exact (State.chunkMapping_two hframe.sameInputs mode hf1 hf2 hwalked1.range (hx ▸ hwalked2.range)).trans hm.symm
  obtain ⟨t, hexec, hans⟩ := hmiss.served (hlookup.trans (lookupNested_ok (hgpa1 ▸ hfind2))) hframe hlinked2.afault hmap
    hlast
  have hart := hwalked1.chunkArtifact_two hwalked2 hf1 hf2
  have hlinkAll (i : TlbId) : v2.endStage2.tlb i
      = s.tlb i ++ ((if i = .vs1 then [f1] else []) ++ if i = .vs2 then [f2] else []) := by
    rw [← List.append_assoc]
    exact (hlinked2.tlb i).trans (congrArg (· ++ _) (hlinked1.tlb i))
  have htlb (i : TlbId) : t.tlb i
      = s.tlb i ++ ((if i = .vs1 then [e1.linkedFor s.nextHandle mode artifact] else [])
          ++ if i = .vs2 then [e2.linkedFor (s.nextHandle + 1) mode artifact] else []) := by
    rw [hans.tlb, ← hhandle2]
    exact hwalked1.installed_tlb_two hwalked2 hf1 hf2 hlinks (Nat.le_refl _) (hhandle2 ▸ Nat.le_succ _) hlinkAll m i
  refine ⟨t, hexec, hans.response, hans.afault, ?_, ?_, ?_, fun hart' => ?_, fun hart' => ?_, hans.mem.trans hmem2,
    hans.s2Active, hans.frame.pmpcfg, hans.frame.pmpaddr, hans.frame.pubKey, hans.frame.dataMode⟩
  · exact htlb .vs1
  · exact htlb .vs2
  · exact (htlb .hs).trans (List.append_nil _)
  · refine hframe.sameInputs.aliasInstalled (hlinked2.aliases.trans hlinked1.aliases) (t1 := f1.tlb) (hans.aliases.trans ?_)
    rw [State.installChunk_linked (hart.trans hart') hlinked1.handle]
    exact congrArg (fun h2 => (v2.endStage2.installAlias mode m f1.tlb s.nextHandle h2).aliases)
      (hlinked2.handle.trans (congrArg some hhandle2))
  · rw [hans.aliases, State.installChunk_artifact (hart.trans hart')]
    exact hlinked2.aliases.trans hlinked1.aliases

/-- Settles O32: the nested lookup fails after the stage-1 entry was linked. -/
theorem missReportsAFailedStage2 : Obligations.MissReportsAFailedStage2 := by
  intro mode req va bytes artifact s e1 mem1 mem2 gpa err hmiss hs2 hvia hlinks hu1 hr1 hgpa hu2 hr2
  obtain ⟨f1, v1, hf1, hlookup, hlinked, -, hmem1⟩ := lookupChunk_nested hs2 hvia hu1 hr1
  have hin0 := AccessFrame.setAFault s .none
  have hframe1 : AccessFrame s v1 := hin0.trans hlinked.frame
  have hgpa1 : guestPhysical va f1 = gpa := by rw [hf1, hgpa]; rfl
  obtain ⟨u, hfind2, hwalk, hfollows, hmem⟩ := findOrCreate_walkFails (s := v1.beginStage2 va) (t := .vs2)
    ((congrArg Params.hasH hframe1.params).trans (hmiss.hasH (by decide))) (hlinked.uncovered_ne (by decide) hu2)
    ((hframe1.nestedRule hmem1 gpa req mode artifact).trans hr2)
  have hframe : AccessFrame s u.endStage2 := ((hframe1.beginStage2 va).walk hwalk).endStage2
  obtain ⟨l, htraffic, harmed⟩ := (hlinked.frame.beginStage2 va).afaultFollows hlinked.follows hfollows
  have hnested := lookupNested_err (f1 := f1) (hgpa1 ▸ hfind2)
  rw [show u.s1VA = va from hwalk.s1VA, hgpa1] at hnested
  have htlb (i : TlbId) : u.tlb i = s.tlb i ++ if i = .vs1 then [f1] else [] := by
    rw [State.tlb, hwalk.tlbs]
    exact hlinked.tlb i
  refine ⟨u.endStage2.respond _, l, hmiss.failed (hlookup.trans hnested), htraffic, ?_, ?_,
    hf1 ▸ htlb .vs1, (htlb .vs2).trans (List.append_nil _), (htlb .hs).trans (List.append_nil _),
    hwalk.aliases.trans hlinked.aliases, hmem.trans hmem1, rfl, hframe.pmpcfg, hframe.pmpaddr, hframe.pubKey,
    hframe.dataMode⟩
  · exact harmed.trans ((or_iff_right nofun).trans (hin0.pmpDenied l))
  · exact hmiss.failAnswer hframe.sameInputs _

end
end

section
/-! A `MISS` that one entry serves or denies (42_translate.md R223, R225, 41_tlb.md R203): no page table is read, and the
entry is re-keyed where the live key has moved away from its key. -/

namespace Sys2Proof.Machine

/-! ### Re-keying -/

section
variable {s : State} {mode : Mode5} {e : Entry}

theorem State.keyMoved_iff :
    (inMapped e.mapped (baseOf mode) && (s.liveKey &&& asidMask e mode) != (e.simASID &&& asidMask e mode)) = true
      ↔ s.keyMoved mode e := by
  rw [Bool.and_eq_true, bne_iff_ne]

theorem State.rekey_moved (h : s.keyMoved mode e) :
    s.rekey mode e = ({ e with simASID := s.liveKey }, (s.removeAliases mode e).setTlb e.tlb
      (replaceEntry { e with simASID := s.liveKey } ((s.removeAliases mode e).tlb e.tlb))) :=
  if_pos (State.keyMoved_iff.2 h)

theorem State.rekey_kept (h : ¬s.keyMoved mode e) : s.rekey mode e = (e, s) :=
  if_neg fun hc => h (State.keyMoved_iff.1 hc)

theorem State.rekey_key (s : State) (mode : Mode5) (e : Entry) : ∃ k, (s.rekey mode e).1 = { e with simASID := k } :=
  (s.rekey_fst mode e).elim (fun h => ⟨e.simASID, h⟩) (fun h => ⟨_, h⟩)

/-- An alias is built from an entry iff it has its handle. -/
theorem builtFrom_iff {h : Nat} (hh : e.lutEntry = some h) (a : Alias) :
    builtFrom a e = true ↔ a.from1 = h ∨ a.from2 = some h := by
  have hne : (some h : Option Nat) ≠ none := nofun
  rw [builtFrom, hh, Bool.or_eq_true, Bool.and_eq_true, decide_eq_true_iff, decide_eq_true_iff, decide_eq_true_iff,
    and_iff_right hne, Option.some.injEq, eq_comm]

/-- A re-keying removes the aliases of the mode that were built from the entry. -/
theorem State.mem_rekey_aliases {h : Nat} (hh : e.lutEntry = some h) (a : Alias) :
    a ∈ (s.rekey mode e).2.aliasesOf mode
      ↔ a ∈ s.aliasesOf mode ∧ (s.keyMoved mode e → a.from1 ≠ h ∧ a.from2 ≠ some h) := by
  by_cases hk : s.keyMoved mode e
  · rw [State.rekey_moved hk]
    change a ∈ (s.removeAliases mode e).aliasesOf mode ↔ _
    rw [State.removeAliases, State.setAliasesOf_same, List.mem_filter, Bool.not_eq_true', Bool.eq_false_iff, Ne,
      builtFrom_iff hh, not_or]
    exact and_congr_right fun _ => ⟨fun hn _ => hn, fun hn => hn hk⟩
  · rw [State.rekey_kept hk]
    exact (and_iff_left fun hm => absurd hm hk).symm

theorem State.rekey_aliases_other {other : Mode5} (hne : other ≠ mode) :
    (s.rekey mode e).2.aliasesOf other = s.aliasesOf other := by
  by_cases hk : s.keyMoved mode e
  · rw [State.rekey_moved hk]
    exact State.setAliasesOf_ne s mode other _ hne
  · rw [State.rekey_kept hk]

/-- In a linked store, a re-keying gives the entry the live key and changes no other. -/
theorem State.rekey_tlb_linked (hs : s.linksOk) {t : TlbId} (he : e ∈ s.tlb t) (i : TlbId) :
    (s.rekey mode e).2.tlb i = (s.tlb i).map fun f =>
      if f.lutEntry = e.lutEntry then { f with simASID := if s.keyMoved mode e then s.liveKey else f.simASID } else f := by
  by_cases hk : s.keyMoved mode e
  · rw [State.rekey_moved hk]
    by_cases hi : i = e.tlb
    · subst hi
      rw [State.setTlb_tlb_same]
      refine List.map_congr_left fun f hf => ?_
      by_cases hh : f.lutEntry = e.lutEntry
      · rw [if_pos hh, if_pos hk, if_pos hh, State.linksOk_unique hs hf he hh]
      · rw [if_neg hh, if_neg hh]
    · rw [State.setTlb_tlb_ne _ _ _ _ hi]
      refine (List.map_id _).symm.trans (List.map_congr_left fun f hf => (if_neg fun hh => hi ?_).symm)
      exact (hs.1 i f hf).1.symm.trans (congrArg Entry.tlb (State.linksOk_unique hs hf he hh))
  · rw [State.rekey_kept hk]
    refine (List.map_id _).symm.trans (List.map_congr_left fun f _ => ?_)
    rw [if_neg hk]
    exact (ite_self f).symm

/-- The hit entry after its re-keying and the install of its alias: mapped for the caller, under the live key
where it had moved. -/
theorem State.hit_tlb (hs : s.linksOk) {t : TlbId} {e : Entry} (he : e ∈ s.tlb t) {h : Nat} (hh : e.lutEntry = some h)
    (m : Mapping) (i : TlbId) :
    ((s.rekey mode e).2.installAlias mode m e.tlb h none).tlb i = (s.tlb i).map fun f =>
      if f.lutEntry = some h then
        { f with
          mapped := addMapped f.mapped (baseOf mode)
          simASID := if s.keyMoved mode e then s.liveKey else f.simASID }
      else f := by
  rw [State.installAlias_tlb, State.rekey_tlb_linked hs he, List.map_map]
  refine List.map_congr_left fun f hf => ?_
  rw [Function.comp_apply, hh]
  by_cases hf' : f.lutEntry = some h
  · have hi : i = e.tlb :=
      (hs.1 i f hf).1.symm.trans (congrArg Entry.tlb (State.linksOk_unique hs hf he (hf'.trans hh.symm)))
    rw [if_pos hf', if_pos hf']
    exact if_pos (.inl ⟨hi, hf'⟩)
  · rw [if_neg hf', if_neg hf']
    exact if_neg fun hc => hc.elim (fun h => hf' h.2) (fun h => h.2.1 rfl)

end

end Sys2Proof.Machine

section
open Sys2Proof Sys2Proof.Machine

/-- Settles O33: the lookup denies, or re-keys the entry and the chunk serves the whole access. -/
theorem missServedByAHit : Obligations.MissServedByAHit := by
  intro t1 mode req va bytes artifact s e hmiss hone hlinks hsole hart hmatch hdirty
  have hfind := findOrCreate_hits (mode := mode) (artifact := artifact) (s := s.setAFault .none) hlinks hsole hart hmatch
    hdirty
  rw [show (s.setAFault .none).permGrants mode e req = s.permGrants mode e req from rfl] at hfind
  obtain ⟨u, hu⟩ : ∃ u, u = (s.setAFault .none).draw 1 := ⟨_, rfl⟩
  have hframe : AccessFrame s u := hu ▸ (AccessFrame.setAFault s .none).store (.draw _ 1)
  rw [← hu] at hfind
  refine ⟨fun hdeny => ?_, fun m hgrant hm hlast => ?_⟩
  · rw [hdeny] at hfind
    subst hu
    exact ⟨_, hmiss.failed (lookupChunk_fails hfind), hmiss.failAnswer hframe.sameInputs _, rfl⟩
  · rw [hgrant] at hfind
    obtain ⟨-, ⟨h, hh, -⟩, -⟩ := hlinks.1 t1 e hsole.1
    obtain ⟨k, hk⟩ := u.rekey_key mode e
    have hst : StoreStep (s.setAFault .none) (u.rekey mode e).2 := hu ▸ StoreStep.rekey _ mode e
    have hin := (hframe.store (.rekey u mode e)).sameInputs
    have hmap : (u.rekey mode e).2.chunkMapping mode va { e1 := (u.rekey mode e).1, e2 := none } = m :=
      (congrArg (cap · va) (hin.single mode hk)).trans hm.symm
    have hinst : (u.rekey mode e).2.installChunk mode { e1 := (u.rekey mode e).1, e2 := none } m
        = (u.rekey mode e).2.installAlias mode m e.tlb h none := by
      rw [hk]
      exact State.installChunk_linked (c := { e1 := { e with simASID := k }, e2 := none }) ((Bool.or_false _).trans hart) hh
        m
    obtain ⟨t, hexec, hans⟩ := hmiss.served (lookupChunk_oneStage hfind (hin.oneStage hone))
      (hframe.store (.rekey u mode e)) (congrArg State.afault hst) hmap hlast
    have hal (i : Mode5) : t.aliasesOf i = ((u.rekey mode e).2.installAlias mode m e.tlb h none).aliasesOf i := by
      rw [State.aliasesOf, State.aliasesOf, hans.aliases, hinst]
    refine ⟨t, h, hexec, hh, hans.response, hans.afault, fun a => ?_, fun other hne => ?_, fun i => ?_,
      hans.traffic.trans hst.traffic, hans.mem.trans hst.mem, hans.frame.pmpcfg, hans.frame.pmpaddr, hans.frame.pubKey,
      hans.frame.dataMode⟩
    · rw [hal, State.mem_installAlias_aliases, State.mem_rekey_aliases hh, State.liveKey_congr hin.1 hin.2]
      subst hu
      exact or_congr_right ⟨fun ⟨⟨ha, hm⟩, ho⟩ => ⟨ha, ho, hm⟩, fun ⟨ha, ho, hm⟩ => ⟨⟨ha, hm⟩, ho⟩⟩
    · rw [hal, State.installAlias_aliases, if_neg hne, State.rekey_aliases_other hne]
      subst hu
      rfl
    · rw [hans.tlb, hinst]
      subst hu
      exact State.hit_tlb (s := (s.setAFault .none).draw 1) hlinks hsole.1 hh m i

end
end

section
/-! The mappings of an OK answer (42_translate.md R238, R229, R233): in a linked store whose entries are as walks leave them,
each covers its chunk of the access and grants the required privilege. -/

namespace Sys2Proof.Machine

/-! ### Stores of walked entries -/

/-- A linked store of entries as walks leave them, with the parameters, inputs and published key of `s0`. -/
structure WalkedStore (s0 s : State) : Prop where
  params : s.params = s0.params
  env : s.env = s0.env
  pubKey : s.pubKey = s0.pubKey
  links : s.linksOk
  entries : ∀ t, ∀ e ∈ s.tlb t, entryWalked s0.params t e

section
variable {s0 s t : State}

theorem WalkedStore.congr (h : WalkedStore s0 s) (hp : t.params = s.params) (he : t.env = s.env) (hk : t.pubKey = s.pubKey)
    (ht : t.tlbs = s.tlbs) (hn : t.nextHandle = s.nextHandle) : WalkedStore s0 t := by
  have htlb (i : TlbId) : t.tlb i = s.tlb i := congrArg (·.get i) ht
  have hlinks : t.linksOk := by
    rw [State.linksOk, State.entries_tlb, hn, htlb .hs, htlb .vs1, htlb .vs2, ← State.entries_tlb]
    exact ⟨fun i e hi => h.links.1 i e (htlb i ▸ hi), h.links.2⟩
  exact ⟨hp.trans h.params, he.trans h.env, hk.trans h.pubKey, hlinks, fun i e hi => h.entries i e (htlb i ▸ hi)⟩

theorem WalkedStore.walk (h : WalkedStore s0 s) (f : WalkFrame s t) : WalkedStore s0 t :=
  h.congr f.params f.env f.pubKey f.tlbs f.nextHandle

/-- A change of the stores that keeps them linked, and every entry the one of `s` but for its mapped set and key. -/
theorem WalkedStore.store (h : WalkedStore s0 s) (hst : StoreStep s t) (hlinks : t.linksOk)
    (hent : ∀ i, ∀ e ∈ t.tlb i, ∃ f ∈ s.tlb i, e = { f with mapped := e.mapped, simASID := e.simASID }) :
    WalkedStore s0 t := by
  refine ⟨hst.params.trans h.params, hst.env.trans h.env, (congrArg State.pubKey hst).trans h.pubKey, hlinks,
    fun i e he => ?_⟩
  obtain ⟨f, hf, hfe⟩ := hent i e he
  rw [hfe]
  exact h.entries i f hf

theorem WalkedStore.deleteAll (h : WalkedStore s0 s) (l : List Entry) : WalkedStore s0 (l.foldl State.tlbDelete s) := by
  refine h.store (.deleteAll s l) (State.linksOk_deleteAll h.links l) fun i e he => ⟨e, ?_, rfl⟩
  rw [State.foldl_tlbDelete_tlb] at he
  exact (List.mem_filter.1 he).1

theorem WalkedStore.rekey (h : WalkedStore s0 s) {i : TlbId} {e : Entry} (he : e ∈ s.tlb i) (mode : Mode5) :
    WalkedStore s0 (s.rekey mode e).2 := by
  refine h.store (.rekey s mode e) (State.linksOk_rekey h.links he mode) fun i f hf => ?_
  rw [State.rekey_tlb_linked h.links he, List.mem_map] at hf
  obtain ⟨g, hg, rfl⟩ := hf
  refine ⟨g, hg, ?_⟩
  split <;> rfl

theorem WalkedStore.insert (h : WalkedStore s0 s) {i : TlbId} {x : U64} {req : Priv} {mode : Mode5} {artifact : Bool}
    {e : Entry} (hw : WalkedEntry s0 i x req mode artifact e) : WalkedStore s0 (s.tlbInsert e).2 := by
  refine ⟨h.params, h.env, h.pubKey, State.linksOk_insert h.links hw.unmapped, fun j f hf => ?_⟩
  rw [State.tlbInsert_tlb, List.mem_append, List.mem_ite_nil_right, List.mem_singleton] at hf
  rcases hf with hf | ⟨hj, rfl⟩
  · exact h.entries j f hf
  · exact hj.trans hw.tlb ▸ hw.walked

end

theorem lookupKeeps_walkedStore (s0 : State) (artifact : Bool) :
    LookupKeeps True s0 artifact (fun _ => True) (WalkedStore s0) where
  frame _ h := ⟨h.params, h.env⟩
  read s t addr fmt h := h.walk (s.memRead_spec t addr (pteBytes fmt)).2.1
  write s t addr fmt _ _ _ h _ := h.walk (s.memWrite_spec t addr (pteBytes fmt) _).2.1
  links _ _ h := h.links
  draw _ _ h := h.congr rfl rfl rfl rfl rfl
  delete _ _ l _ h _ := h.deleteAll l
  rekey _ _ mode _ _ h he := h.rekey (he trivial) mode
  insert _ _ _ _ _ _ _ h hw := h.insert hw

theorem accessKeeps_walkedStore (s0 : State) (artifact : Bool) :
    AccessKeeps True s0 artifact (WalkedStore s0) (WalkedStore s0) where
  toLookupKeeps := lookupKeeps_walkedStore s0 artifact
  inner := lookupKeeps_walkedStore s0 artifact
  beginStage2 _ _ _ h := h.congr rfl rfl rfl rfl rfl
  endStage2 _ h := h.congr rfl rfl rfl rfl rfl
  check s mode req lo hi h := by
    obtain ⟨p, a, he⟩ := s.checkPhysical_eq mode req lo hi
    rw [he]
    exact h.congr rfl rfl rfl rfl rfl
  install s t1 x req mode c hA _ h hc :=
    WalkedStore.store (s := s.draw 1) (h.congr rfl rfl rfl rfl rfl) (.installChunk _ _ _ _)
      (State.linksOk_installChunk (s := s.draw 1) (h.congr (t := s.draw 1) rfl rfl rfl rfl rfl).links hA (hc.draw 1) _)
      (State.installChunk_entries _ mode c _)

/-! ### What a chunk's mapping covers and grants -/

/-- Withholding `W` keeps what a read or a fetch needs. -/
theorem withhold_write (p req : Priv) (hs : req.isSingleton = true) (hw : needsWrite req = false) (h : p &&& req = req) :
    (p &&& ~~~Priv.W) &&& req = req := by
  revert p req
  decide

section
variable {s0 s : State} {t : TlbId} {x : U64} {req : Priv} {mode : Mode5} {artifact : Bool}

/-- The mapping of an entry that serves a lookup grants the required privilege (42_translate.md R229). -/
theorem Served.single_grants {e : Entry} (h : Served True s0 t x req mode artifact e s) (hin : SameInputs s0 s)
    (hreq : req.isSingleton = true) : (s.single mode e).priv &&& req = req := by
  have hgrants : s.permEff mode e &&& req = req := by
    rw [State.permEff_congr hin.1 hin.2 mode (e := e) rfl rfl rfl]
    exact eq_of_beq h.grants
  rw [State.single]
  dsimp only
  cases hd : e.d with
  | true => exact hgrants
  | false =>
    refine withhold_write _ _ hreq (Bool.eq_false_iff.2 fun hw => ?_) hgrants
    exact absurd ((h.dirty hw).symm.trans hd) (by decide)

theorem Served.range {e : Entry} (h : Served True s0 t x req mode artifact e s) : e.lowVA ≤ x ∧ x ≤ e.highVA :=
  range_of_covers h.covers

/-- The mapping of a served chunk begins at or below the chunk's address, and grants the required privilege. -/
theorem ChunkServed.mapping {c : Chunk} (h : ChunkServed True s0 t x req mode artifact c s) (hs : WalkedStore s0 s)
    (hreq : req.isSingleton = true) :
    (s.chunkMapping mode x c).lowVA ≤ x ∧ (s.chunkMapping mode x c).priv &&& req = req := by
  have hin : SameInputs s0 s := ⟨hs.params, hs.env⟩
  have hgrants1 := h.first.single_grants hin hreq
  obtain ⟨hlow1, hhigh1⟩ := h.first.range
  unfold State.chunkMapping
  cases he2 : c.e2 with
  | none => exact ⟨le_cap_low hlow1, hgrants1⟩
  | some e2 =>
    obtain ⟨-, -, h2⟩ := h.second e2 he2
    obtain ⟨hlow2, hhigh2⟩ := h2.range
    have haligned1 := (hs.entries _ _ (h.first.stored trivial)).1
    have haligned2 := (hs.entries _ _ (h2.stored trivial)).1
    obtain ⟨hlow, -, hreach, -⟩ := compose_range (s := s) (mode := mode) haligned1 haligned2 hlow1 hhigh1 hlow2 hhigh2
    dsimp only
    rw [composeAt_eq_compose hreach]
    refine ⟨le_cap_low hlow, ?_⟩
    change ((s.single mode c.e1).priv &&& (s.single mode e2).priv) &&& req = req
    rw [BitVec.and_assoc, h2.single_grants hin hreq, hgrants1]

end

/-! ### The alias of the last chunk -/

/-- A chunk served without an artifact entry gets its alias. -/
theorem ChunkServed.aliased {s0 s : State} {t1 : TlbId} {x : U64} {req : Priv} {mode : Mode5} {c : Chunk}
    (h : ChunkServed True s0 t1 x req mode false c s) (hs : WalkedStore s0 s) (m : Mapping) :
    ∃ a ∈ (s.installChunk mode c m).aliasesOf mode,
      a.lowVA = m.lowVA ∧ a.highVA = m.highVA ∧ a.priv = m.priv ∧ a.key = s0.liveKey := by
  obtain ⟨-, ⟨h1, hh, -⟩, -⟩ := hs.links.1 _ _ (h.first.stored trivial)
  have hart : c.artifact = false := by
    rw [Chunk.artifact, h.first.artifact rfl, Bool.false_or]
    cases he2 : c.e2 with
    | none => rfl
    | some e2 => exact (h.second e2 he2).2.2.artifact rfl
  rw [State.installChunk_linked hart hh]
  exact ⟨_, (State.mem_installAlias_aliases _).2 (.inl rfl), rfl, rfl, rfl, State.liveKey_congr hs.params hs.env⟩

/-- What an OK answer of a `MISS` in a regime reports, and what its last chunk leaves. -/
theorem State.missesIn.ok {s t : State} {t1 : TlbId} {mode : Mode5} {req : Priv} {va : U64} {bytes : Nat} {artifact : Bool}
    {r : MissResponse} (h : s.missesIn t1 mode req va bytes) (hl : s.linksOk) (he : s.entriesOk)
    (hx : Machine.exec (.miss .virt mode req va bytes artifact) s = .next t) (hr : t.response = .miss r)
    (hok : r.status = .ok) :
    (∀ m ∈ r.mappings, m.priv &&& req = req)
      ∧ (∀ x : U64, va ≤ x → x ≤ lastByte va bytes → ∃ m ∈ r.mappings, m.lowVA ≤ x ∧ x ≤ m.highVA)
      ∧ t.pubKey = s.pubKey
      ∧ (artifact = false → ∃ init m, r.mappings = init ++ [m] ∧ ∃ a ∈ t.aliasesOf mode,
          a.lowVA = m.lowVA ∧ a.highVA = m.highVA ∧ a.priv = m.priv ∧ a.key = s.liveKey) := by
  have hreq : req.isSingleton = true := (Bool.and_eq_true_iff.1 h.1).1
  obtain ⟨hlast, hpos⟩ := lastByte_toNat h.2.1
  rw [h.exec] at hx
  obtain ⟨u, hu, hans⟩ := spanLoop_keeps (accessKeeps_walkedStore s artifact) h.2.2 h.1 (lastByte va bytes) bytes va
    (le_lastByte h.2.1) (by omega) [] (s.setAFault .none) t ⟨rfl, rfl, rfl, hl, he⟩ hx
  rcases hans with ⟨f, x, ms, -, -, -, rfl⟩ | ⟨ms, -, rfl⟩
    | ⟨ms, rfl, hserved, hcover, init, m, x, c, v, a, b, hms, hv, hc, hm, hu'⟩
  · rw [State.failLookup_eq] at hr
    cases hr
    cases artifact <;> exact (nomatch hok)
  · cases hr
    exact (nomatch hok)
  · cases hr
    refine ⟨fun m hm => ?_, fun y hlo hhi => ?_, hu.pubKey, fun hart => ⟨init, m, hms, ?_⟩⟩
    · obtain ⟨x, c, v, hv, hc, rfl, -⟩ := hserved m hm
      exact (hc.mapping hv hreq).2
    · obtain ⟨m, hm, x, ⟨c, v, hv, hc, rfl, -⟩, hxy, hyh⟩ := hcover y hlo hhi
      exact ⟨_, hm, BitVec.le_trans (hc.mapping hv hreq).1 hxy, hyh⟩
    · subst hart
      obtain ⟨p, f, heq⟩ := State.checkPhysical_eq ((v.draw 1).installChunk mode c m) mode req a b
      rw [hu', heq, State.installChunk_draw]
      exact hc.aliased hv m

/-- Where an alias holds every byte of an access, grants it and has the published key, the access hits (41_tlb.md R202). -/
theorem State.accessHits_of_alias {s : State} {mode : Mode5} {va : U64} {bytes : Nat} {req : Priv} {a : Alias}
    (hv : validSpan va bytes = true) (ha : a ∈ s.aliasesOf mode) (hkey : a.key = s.pubKey) (hpriv : a.priv &&& req = req)
    (hrange : ∀ x : U64, va ≤ x → x ≤ lastByte va bytes → a.lowVA ≤ x ∧ x ≤ a.highVA) :
    s.accessHits mode va bytes req = true := by
  rw [State.accessHits, List.all_eq_true]
  intro k hk
  have hk := List.mem_range.1 hk
  obtain ⟨hlast, -⟩ := lastByte_toNat hv
  have hx : (va + BitVec.ofNat 64 k).toNat = va.toNat + k := by
    have := (lastByte va bytes).isLt
    rw [BitVec.toNat_add, BitVec.toNat_ofNat]
    omega
  obtain ⟨hlow, hhigh⟩ := hrange (va + BitVec.ofNat 64 k) (by rw [BitVec.le_def]; omega) (by rw [BitVec.le_def]; omega)
  have hserves : s.aliasServes a (va + BitVec.ofNat 64 k) req = true := by
    rw [State.aliasServes, satisfies, hpriv, hkey]
    simp [hlow, hhigh]
  have hfound : ((s.aliasesOf mode).find? fun a => s.aliasServes a (va + BitVec.ofNat 64 k) req).isSome = true :=
    List.find?_isSome.2 ⟨a, ha, hserves⟩
  obtain ⟨b, hb⟩ := Option.isSome_iff_exists.1 hfound
  rw [State.aliasHit, hb]
  rfl

end Sys2Proof.Machine

section
open Sys2Proof Sys2Proof.Machine

/-- Settles O36: each chunk's mapping begins at or below its address and reaches the next chunk's. -/
theorem okMappingsCoverTheAccess : Obligations.OkMappingsCoverTheAccess := by
  intro t1 mode req va bytes artifact s t r hmiss hlinks hentries hexec hresponse hok
  obtain ⟨hgrants, hcover, -⟩ := State.missesIn.ok hmiss hlinks hentries hexec hresponse hok
  exact ⟨hgrants, hcover⟩

/-- Settles O37: the one mapping is the last chunk's, whose alias the `MISS` leaves. -/
theorem accessHitsAfterAMiss : Obligations.AccessHitsAfterAMiss := by
  intro t1 mode req va bytes s t r m hmiss hlinks hentries hkey hexec hresponse hok hone
  obtain ⟨hgrants, hcover, hpub, halias⟩ := State.missesIn.ok hmiss hlinks hentries hexec hresponse hok
  obtain ⟨init, m', hms, a, ha, hlow, hhigh, hpriv, hlive⟩ := halias rfl
  obtain rfl : m = m' := by simpa [hone] using congrArg List.getLast? hms
  have hm (n : Mapping) : n ∈ r.mappings ↔ n = m := by rw [hone, List.mem_singleton]
  refine State.accessHits_of_alias hmiss.2.1 ha (hlive.trans (hkey.symm.trans hpub.symm))
    (hpriv ▸ hgrants m ((hm m).2 rfl)) fun x hlo hhi => ?_
  obtain ⟨n, hn, hin⟩ := hcover x hlo hhi
  rw [hlow, hhigh, ← (hm n).1 hn]
  exact hin

end
end

section
/-! The region that decides a byte (43_pmp.md R285): what refinement answers at a byte it decides, and that the refined range of
a byte reaches exactly as far as the same region, or none, decides (R286 to R289). -/

namespace Sys2Proof.Machine

/-! ### The deciding region -/

theorem Region.not_holds_iff {r : Region} {x : Nat} :
    ¬r.holds x ↔ ∀ lo hi, r = .active lo hi → ¬(lo ≤ x ∧ x ≤ hi) :=
  ⟨fun h lo hi hr hin => h ⟨lo, hi, hr, hin⟩, fun h ⟨lo, hi, hr, hin⟩ => h lo hi hr hin⟩

theorem State.decides_none_iff {s : State} {pa : Nat} :
    s.decides pa none ↔ ∀ j, j < s.params.pmpN → ¬(s.region j).holds pa := by
  simp only [Region.not_holds_iff]
  rfl

theorem State.decides_some_iff {s : State} {pa i : Nat} :
    s.decides pa (some i)
      ↔ i < s.params.pmpN ∧ (s.region i).holds pa ∧ ∀ j, j < i → ¬(s.region j).holds pa := by
  simp only [Region.not_holds_iff]
  rfl

/-- Of the numbers below a bound, a first one has a property or none has it. -/
theorem exists_first_or_none (P : Nat → Prop) (n : Nat) :
    (∃ i, i < n ∧ P i ∧ ∀ j, j < i → ¬P j) ∨ ∀ j, j < n → ¬P j := by
  induction n with
  | zero => exact .inr fun j hj => absurd hj (Nat.not_lt_zero j)
  | succ n ih =>
    rcases ih with ⟨i, hi, hfirst⟩ | hnone
    · exact .inl ⟨i, Nat.lt_succ_of_lt hi, hfirst⟩
    · rcases Classical.em (P n) with hn | hn
      · exact .inl ⟨n, Nat.lt_succ_self n, hn, hnone⟩
      · refine .inr fun j hj => ?_
        rcases Nat.lt_succ_iff_lt_or_eq.1 hj with hlt | rfl
        · exact hnone j hlt
        · exact hn

/-- Some region decides a byte, or none does: the first that contains it. -/
theorem State.exists_decides (s : State) (pa : Nat) : ∃ hit, s.decides pa hit := by
  rcases exists_first_or_none (fun i => (s.region i).holds pa) s.params.pmpN with ⟨i, hfirst⟩ | hnone
  · exact ⟨some i, State.decides_some_iff.2 hfirst⟩
  · exact ⟨none, State.decides_none_iff.2 hnone⟩

/-! ### What refinement answers at a byte -/

/-- The bounds the loop starts from: nothing contains the byte yet. -/
def Bounds.start (machine : Bool) : Bounds where
  lowMap := 0
  highMap := maxU64
  priv := if machine then Priv.RWX else Priv.NONE
  hit := none

theorem State.refineBounds_eq (s : State) (mode : Mode5) (pa : Nat) :
    s.refineBounds mode pa = s.refineLoop (decide (baseOf mode = .machine)) pa s.params.pmpN
      (Bounds.start (decide (baseOf mode = .machine))) :=
  rfl

/-- A region that does not contain the byte is not the hit. -/
theorem refineRegion_hit_of_not_holds (machine : Bool) {x : Nat} {r : Region} (h : ¬r.holds x) (c : Byte) (i : Nat)
    (b : Bounds) : (refineRegion machine x r c i b).hit = b.hit := by
  cases r with
  | inactive => rfl
  | active lo hi =>
    simp only [refineRegion, if_neg (Region.not_holds_iff.1 h lo hi rfl)]
    split <;> split <;> rfl

/-- A region that contains the byte is the hit. -/
theorem refineRegion_hit_of_holds (machine : Bool) {x : Nat} {r : Region} (h : r.holds x) (c : Byte) (i : Nat)
    (b : Bounds) : (refineRegion machine x r c i b).hit = some i := by
  obtain ⟨lo, hi, rfl, hin⟩ := h
  simp only [refineRegion, if_pos hin]

/-- Regions that do not contain the byte leave the hit and its privilege. -/
theorem State.refineLoop_of_not_holds (s : State) (machine : Bool) (x n : Nat) (b : Bounds)
    (h : ∀ j, j < n → ¬(s.region j).holds x) :
    (s.refineLoop machine x n b).hit = b.hit ∧ (s.refineLoop machine x n b).priv = b.priv := by
  induction n generalizing b with
  | zero => exact ⟨rfl, rfl⟩
  | succ n ih =>
    have hn := h n (Nat.lt_succ_self n)
    obtain ⟨hhit, hpriv⟩ := ih (refineRegion machine x (s.region n) (s.cfg n) n b) fun j hj => h j (by omega)
    exact ⟨hhit.trans (refineRegion_hit_of_not_holds machine hn _ _ _),
      hpriv.trans (refineRegion_priv_of_not_holds machine hn _ _ _)⟩

/-- The loop comes to every region of the bank, and then to those before it. -/
theorem State.refineLoop_comes_to (s : State) (machine : Bool) (x : Nat) {n i : Nat} (hi : i < n) (b : Bounds) :
    ∃ d, s.refineLoop machine x n b
      = s.refineLoop machine x i (refineRegion machine x (s.region i) (s.cfg i) i d) := by
  induction n generalizing b with
  | zero => omega
  | succ n ih =>
    rcases Nat.lt_succ_iff_lt_or_eq.1 hi with hlt | rfl
    · exact ih hlt _
    · exact ⟨b, rfl⟩

/-- Refinement reports the deciding region and the privilege it gives the mode (43_pmp.md R285, R288, R289). -/
theorem State.refineBounds_of_decides {s : State} {pa : Nat} {hit : Option Nat} (h : s.decides pa hit) (mode : Mode5) :
    (s.refineBounds mode pa).hit = hit ∧ (s.refineBounds mode pa).priv = s.decidedPriv mode hit := by
  rw [State.refineBounds_eq]
  cases hit with
  | none =>
    obtain ⟨hhit, hpriv⟩ := s.refineLoop_of_not_holds (decide (baseOf mode = .machine)) pa s.params.pmpN (Bounds.start _)
      (State.decides_none_iff.1 h)
    exact ⟨hhit, hpriv.trans (by simp [Bounds.start, State.decidedPriv])⟩
  | some i =>
    obtain ⟨hn, hholds, hfirst⟩ := State.decides_some_iff.1 h
    obtain ⟨d, hd⟩ := s.refineLoop_comes_to (decide (baseOf mode = .machine)) pa hn (Bounds.start _)
    obtain ⟨hhit, hpriv⟩ := s.refineLoop_of_not_holds (decide (baseOf mode = .machine)) pa i
      (refineRegion (decide (baseOf mode = .machine)) pa (s.region i) (s.cfg i) i d) hfirst
    rw [hd]
    refine ⟨hhit.trans (refineRegion_hit_of_holds _ hholds _ _ _), ?_⟩
    rw [hpriv, refineRegion_priv_of_holds _ hholds, State.decidedPriv]
    by_cases hm : baseOf mode = .machine <;> cases hl : cfgL (s.cfg i) <;> simp [hm, hl, State.locked]

/-! ### How far the refined range reaches -/

/-- A region with no byte from the access' position to `hi` leaves `hi` in the bounds. -/
theorem refineRegion_contains_last (machine : Bool) {pa hi : Nat} (hle : pa ≤ hi) {r : Region}
    (hr : ∀ lo hi, r = .active lo hi → lo ≤ hi) (hout : ∀ y, pa ≤ y → y ≤ hi → ¬r.holds y) (c : Byte) (i : Nat)
    {b : Bounds} (h : b.contains hi) : (refineRegion machine pa r c i b).contains hi := by
  cases r with
  | inactive => exact h
  | active rlo rhi =>
    have hrange := hr rlo rhi rfl
    have hpa := Region.not_holds_iff.1 (hout pa (Nat.le_refl pa) hle) rlo rhi rfl
    obtain ⟨hlow, hhigh⟩ := h
    simp only [refineRegion, if_neg hpa]
    split
    · rename_i habove
      have hstart : hi < rlo := by
        refine Nat.lt_of_not_le fun hin => ?_
        exact hout rlo (Nat.le_of_lt habove) (by omega) ⟨rlo, rhi, rfl, Nat.le_refl rlo, hrange⟩
      split
      · exact ⟨hlow, show hi ≤ rlo - 1 by omega⟩
      · exact ⟨hlow, hhigh⟩
    · split
      · exact ⟨show rhi + 1 ≤ hi by omega, hhigh⟩
      · exact ⟨hlow, hhigh⟩

theorem State.refineLoop_contains_last (s : State) (machine : Bool) {pa hi : Nat} (hle : pa ≤ hi) (n : Nat) {b : Bounds}
    (hout : ∀ y, pa ≤ y → y ≤ hi → ∀ j, j < n → ¬(s.region j).holds y) (h : b.contains hi) :
    (s.refineLoop machine pa n b).contains hi := by
  induction n generalizing b with
  | zero => exact h
  | succ n ih =>
    refine ih (fun y hlo hhi j hj => hout y hlo hhi j (by omega)) ?_
    exact refineRegion_contains_last machine hle (s.region_le n) (fun y hlo hhi => hout y hlo hhi n (by omega)) _ _ h

/-- The refined range reaches the last byte of an access that one region, or none, decides throughout. -/
theorem State.refineBounds_contains_last {s : State} {lo hi : Nat} {hit : Option Nat} (hle : lo ≤ hi) (hmax : hi ≤ maxU64)
    (h : ∀ y, lo ≤ y → y ≤ hi → s.decides y hit) (mode : Mode5) : (s.refineBounds mode lo).contains hi := by
  rw [State.refineBounds_eq]
  cases hit with
  | none =>
    exact s.refineLoop_contains_last _ hle _ (fun y hlo hhi => State.decides_none_iff.1 (h y hlo hhi))
      ⟨Nat.zero_le hi, hmax⟩
  | some i =>
    obtain ⟨hn, ⟨rlo, rhi, hr, hfirst⟩, -⟩ := State.decides_some_iff.1 (h lo (Nat.le_refl lo) hle)
    obtain ⟨-, ⟨rlo', rhi', hr', hlast⟩, -⟩ := State.decides_some_iff.1 (h hi hle (Nat.le_refl hi))
    obtain ⟨rfl, rfl⟩ : rlo' = rlo ∧ rhi' = rhi := by simpa [hr] using hr'.symm
    obtain ⟨d, hd⟩ := s.refineLoop_comes_to (decide (baseOf mode = .machine)) lo hn (Bounds.start _)
    rw [hd]
    refine s.refineLoop_contains_last _ hle _ (fun y hlo hhi => (State.decides_some_iff.1 (h y hlo hhi)).2.2) ?_
    rw [hr]
    simp only [refineRegion, if_pos hfirst]
    exact ⟨hlast.1, Nat.le_min.2 ⟨hlast.2, hmax⟩⟩

/-- Every byte of the refined range is decided as its first byte is. -/
theorem State.decides_of_contains {s : State} {mode : Mode5} {pa y : Nat} {hit : Option Nat} (h : s.decides pa hit)
    (hy : y ≤ maxU64) (hin : (s.refineBounds mode pa).contains y) : s.decides y hit := by
  obtain ⟨hit', h'⟩ := s.exists_decides y
  have hsame : hit' = hit := by
    rw [← (State.refineBounds_of_decides h' mode).1, s.refineBounds_uniform mode hy hin,
      (State.refineBounds_of_decides h mode).1]
  exact hsame ▸ h'

/-- The refined range contains the byte it was refined for. -/
theorem State.refineBounds_contains (s : State) (mode : Mode5) {pa : Nat} (h : pa ≤ maxU64) :
    (s.refineBounds mode pa).contains pa :=
  s.refineLoop_contains _ pa h _ _ ⟨Nat.zero_le pa, h⟩

/-- Refinement grants iff there is no bank, or the deciding privilege suffices and one region, or none, decides the whole
access. -/
theorem State.pmpGrants_iff {s : State} {lo hi : Nat} {hit : Option Nat} (hle : lo ≤ hi) (hmax : hi ≤ maxU64)
    (h : s.decides lo hit) (mode : Mode5) (req : Priv) :
    s.pmpGrants mode req lo hi = true
      ↔ s.params.pmpN = 0
        ∨ (s.decidedPriv mode hit &&& req = req ∧ ∀ y, lo ≤ y → y ≤ hi → s.decides y hit) := by
  have hfirst := s.refineBounds_contains mode (Nat.le_trans hle hmax)
  simp only [State.pmpGrants, boundsGrant, satisfies, (State.refineBounds_of_decides h mode).2, Bool.or_eq_true,
    Bool.and_eq_true, decide_eq_true_eq, beq_iff_eq, and_assoc]
  refine or_congr_right (and_congr_right fun _ => ⟨fun ⟨hlow, hhigh⟩ y hlo hhi => ?_, fun huniform => ?_⟩)
  · exact State.decides_of_contains h (Nat.le_trans hhi hmax) ⟨Nat.le_trans hlow hlo, Nat.le_trans hhi hhigh⟩
  · exact ⟨hfirst.1, (State.refineBounds_contains_last hle hmax huniform mode).2⟩

end Sys2Proof.Machine

section
open Sys2Proof Sys2Proof.Machine

/-- Settles O52: the loop runs from the last region to the first, and a region that does not contain the byte leaves the
hit. -/
theorem lowestRegionDecides : Obligations.LowestRegionDecides :=
  fun _ mode _ _ _ h => State.refineBounds_of_decides h mode

/-- Settles O53: the refined range of the first byte reaches as far as the region that decides it, or none, decides. -/
theorem refinementGrantsUniformAccesses : Obligations.RefinementGrantsUniformAccesses :=
  fun _ mode req _ _ _ hle hmax h => State.pmpGrants_iff hle hmax h mode req

end
end

section
/-! For modes other than M the permission cache lets no access through that refinement would deny (43_pmp.md R297): a refined
access guards its range, and a register write cuts the old and the new range of each region it affects (R291, R294, R295). -/

namespace Sys2Proof.Machine

/-! ### What the cache lets through -/

/-- The map an access of a privilege looks at. -/
def accessKind (req : Priv) : AccessKind :=
  if req = Priv.X then .code else .data

theorem State.cacheGrants_iff {s : State} {mode : Mode5} {req : Priv} {lo hi : Nat} :
    s.cacheGrants mode req lo hi = true
      ↔ ∀ x, lo ≤ x → x ≤ hi →
          satisfies (PermMap.lookup x (s.pmpPerm.get (baseOf mode) (accessKind req))) req = true := by
  simp only [State.cacheGrants, List.all_eq_true, List.mem_range]
  refine ⟨fun h x hlo hhi => ?_, fun h j hj => h (lo + j) (by omega) (by omega)⟩
  have hx := h (x - lo) (by omega)
  rwa [Nat.add_sub_cancel' hlo] at hx

/-- What a grant gives, a larger one gives. -/
theorem satisfies_of_subset {p q req : Priv} (h : p &&& ~~~q = 0) (hp : satisfies p req = true) : satisfies q req = true := by
  revert p q req
  decide

/-! ### A refined access -/

/-- The grant `Protect` puts in a map: the access kind's part of the privilege when code and data are distinct (43_pmp.md
R295). -/
def splitGrant (p : Params) (k : AccessKind) (g : Priv) : Priv :=
  if p.splitCodeData then g &&& (match k with | .data => Priv.R ||| Priv.W | .code => Priv.X) else g

theorem splitGrant_subset (p : Params) (k : AccessKind) (g : Priv) : splitGrant p k g &&& ~~~g = 0 := by
  unfold splitGrant
  split
  · exact Priv.and_subset _ _
  · exact Priv.subset_refl _

/-- Everything `Protect` does to the grants (43_pmp.md R295): the range gets the split privilege, the bytes next to it lose their
grants, and every other grant stays. -/
theorem State.protect_spec {s : State} (h : s.permsOk) (mode : Mode5) {lo hi : Nat} (hle : lo ≤ hi) (g : Priv) :
    (∀ k x, lo ≤ x → x ≤ hi →
        PermMap.lookup x ((s.protect mode lo hi g).pmpPerm.get (baseOf mode) k) = splitGrant s.params k g)
      ∧ (∀ k x, isGuard lo hi x → PermMap.lookup x ((s.protect mode lo hi g).pmpPerm.get (baseOf mode) k) = Priv.NONE)
      ∧ ∀ c k x, c ≠ baseOf mode ∨ (¬(lo ≤ x ∧ x ≤ hi) ∧ ¬isGuard lo hi x) →
          PermMap.lookup x ((s.protect mode lo hi g).pmpPerm.get c k) = PermMap.lookup x (s.pmpPerm.get c k) := by
  obtain ⟨hwf, dataOther, dataIn, dataGuard, dataOut⟩ :=
    PmpPerm.protectMap_spec s.pmpPerm (baseOf mode) .data lo hi (splitGrant s.params .data g) h hle
  obtain ⟨-, codeOther, codeIn, codeGuard, codeOut⟩ :=
    PmpPerm.protectMap_spec _ (baseOf mode) .code lo hi (splitGrant s.params .code g) hwf hle
  have perms : (s.protect mode lo hi g).pmpPerm = (s.pmpPerm.protectMap (baseOf mode) .data lo hi
      (splitGrant s.params .data g)).protectMap (baseOf mode) .code lo hi (splitGrant s.params .code g) := rfl
  rw [perms]
  have data (c : BaseMode) (x : Nat) := codeOther c .data x (fun hc => nomatch hc.2)
  have code (c : BaseMode) (x : Nat) := dataOther c .code x (fun hc => nomatch hc.2)
  refine ⟨fun k x hlo hhi => ?_, fun k x hx => ?_, fun c k x hx => ?_⟩
  · cases k with
    | data => rw [data, dataIn x hlo hhi]
    | code => exact codeIn x hlo hhi
  · cases k with
    | data => rw [data, dataGuard x hx]
    | code => exact codeGuard x hx
  · by_cases hc : c = baseOf mode
    · subst hc
      obtain ⟨hout, hguard⟩ := hx.resolve_left (fun hne => hne rfl)
      cases k with
      | data => rw [data, dataOut x hout hguard]
      | code => rw [codeOut x hout hguard, code]
    · rw [codeOther c k x (fun hh => hc hh.1), dataOther c k x (fun hh => hc hh.1)]

/-- The grants after `Protect`, whatever the bounds: none, old, or in the range. -/
theorem State.protect_grants {s : State} (h : s.permsOk) (mode : Mode5) (lo hi : Nat) (g : Priv) (c : BaseMode)
    (k : AccessKind) (x : Nat) :
    PermMap.lookup x ((s.protect mode lo hi g).pmpPerm.get c k) = Priv.NONE
      ∨ PermMap.lookup x ((s.protect mode lo hi g).pmpPerm.get c k) = PermMap.lookup x (s.pmpPerm.get c k)
      ∨ (c = baseOf mode ∧ lo ≤ x ∧ x ≤ hi) := by
  obtain ⟨hwf, data⟩ := PmpPerm.protectMap_grants h (baseOf mode) .data lo hi (splitGrant s.params .data g)
  obtain ⟨-, code⟩ := PmpPerm.protectMap_grants hwf (baseOf mode) .code lo hi (splitGrant s.params .code g)
  rcases code c k x with hnone | hkept | ⟨hc, hlo, hhi, -⟩
  · exact .inl hnone
  · rcases data c k x with hnone | hold | ⟨hc, hlo, hhi, -⟩
    · exact .inl (hkept.trans hnone)
    · exact .inr (.inl (hkept.trans hold))
    · exact .inr (.inr ⟨hc, hlo, hhi⟩)
  · exact .inr (.inr ⟨hc, hlo, hhi⟩)

/-- An access that touches a range but neither of the guards next to it lies in the range. -/
theorem inside_of_no_guard {low high lo hi x : Nat} (hlo : lo ≤ x) (hhi : x ≤ hi) (hx : low ≤ x ∧ x ≤ high)
    (hmax : hi ≤ maxU64) (h : ∀ y, lo ≤ y → y ≤ hi → ¬isGuard low high y) : low ≤ lo ∧ hi ≤ high := by
  constructor
  · refine Nat.le_of_not_lt fun hbelow => ?_
    exact h (low - 1) (by omega) (by omega) (.inl ⟨by omega, rfl⟩)
  · refine Nat.le_of_not_lt fun habove => ?_
    exact h (high + 1) (by omega) (by omega) (.inr ⟨by omega, rfl⟩)

/-- Being confined is about the bank and the cache. -/
theorem State.cacheConfined.congr {s t : State} (h : s.cacheConfined) (hb : SameBank s t) : t.cacheConfined := by
  intro mode req lo hi hmode hreq hle hmax hgrants
  rw [State.pmpGrants_bank hb.params hb.pmpcfg hb.pmpaddr]
  refine h mode req lo hi hmode hreq hle hmax ?_
  rw [State.cacheGrants, ← hb.pmpPerm]
  exact hgrants

/-- A refined access leaves no way past its range: an access that touches it stays inside its guards, where refinement
gives the whole range the privilege the cache gives it. -/
theorem State.cacheConfined.protect {s : State} (hp : s.permsOk) (h : s.cacheConfined) (mode : Mode5) (pa : Nat) :
    (s.protect mode (s.refineBounds mode pa).lowMap (s.refineBounds mode pa).highMap
      (s.refineBounds mode pa).priv).cacheConfined := by
  intro caller req lo hi hcaller hreq hle hmax hgrants
  rw [State.cacheGrants_iff] at hgrants
  have hbank : (s.protect mode (s.refineBounds mode pa).lowMap (s.refineBounds mode pa).highMap
      (s.refineBounds mode pa).priv).pmpGrants caller req lo hi = s.pmpGrants caller req lo hi := by
    refine State.pmpGrants_bank ?_ ?_ ?_ _ _ _ _ <;> rfl
  rw [hbank]
  by_cases htouch : baseOf caller = baseOf mode
      ∧ ∃ x, (lo ≤ x ∧ x ≤ hi) ∧ (s.refineBounds mode pa).contains x
  · obtain ⟨hbase, x, ⟨hlo, hhi⟩, hxlow, hxhigh⟩ := htouch
    rw [hbase] at hgrants
    obtain ⟨inside, guards, -⟩ := State.protect_spec hp mode (Nat.le_trans hxlow hxhigh) (s.refineBounds mode pa).priv
    obtain ⟨hlow, hhigh⟩ := inside_of_no_guard hlo hhi ⟨hxlow, hxhigh⟩ hmax fun y hylo hyhi hguard => by
      have hy := hgrants y hylo hyhi
      rw [guards _ y hguard, not_satisfies_none hreq] at hy
      cases hy
    have hbounds : s.refineBounds caller lo = s.refineBounds mode pa := by
      rw [← State.refineBounds_base s caller, hbase, State.refineBounds_base]
      exact s.refineBounds_uniform mode (Nat.le_trans hle hmax) ⟨hlow, Nat.le_trans hle hhigh⟩
    have hpriv : satisfies (s.refineBounds mode pa).priv req = true := by
      have hfirst := hgrants lo (Nat.le_refl lo) hle
      rw [inside _ lo hlow (Nat.le_trans hle hhigh)] at hfirst
      exact satisfies_of_subset (splitGrant_subset _ _ _) hfirst
    simp only [State.pmpGrants, boundsGrant, hbounds, hpriv, hlow, hhigh, decide_true, Bool.and_true, Bool.or_true]
  · refine h caller req lo hi hcaller hreq hle hmax (State.cacheGrants_iff.2 fun x hlo hhi => ?_)
    have hx := hgrants x hlo hhi
    rcases State.protect_grants hp mode (s.refineBounds mode pa).lowMap (s.refineBounds mode pa).highMap
      (s.refineBounds mode pa).priv (baseOf caller) (accessKind req) x with hnone | hold | ⟨hbase, hin⟩
    · rw [hnone, not_satisfies_none hreq] at hx
      cases hx
    · rwa [hold] at hx
    · exact absurd ⟨hbase, x, ⟨hlo, hhi⟩, hin⟩ htouch

theorem State.cacheConfined.pmpRefine {s : State} (hp : s.permsOk) (h : s.cacheConfined) (mode : Mode5) (req : Priv)
    (lo hi : Nat) : (s.pmpRefine mode req lo hi).2.cacheConfined := by
  rcases s.pmpRefine_cases mode req lo hi with ⟨-, e⟩ | ⟨-, -, e⟩ | ⟨-, -, e⟩ <;> rw [e]
  · exact h
  · exact h.protect hp mode lo
  · exact h.congr ⟨rfl, rfl, rfl, rfl⟩

/-! ### A cut bank -/

section
variable {s t : State} {x j : Nat} {hit : Option Nat}

/-- Where a region is cut for modes other than M, it contains the byte in the new bank when it did in the old one. -/
theorem RegionCut.holds_iff (h : RegionCut s t false x j) : (t.region j).holds x ↔ (s.region j).holds x := by
  rcases h with ⟨hregion, -⟩ | ⟨hold, hnew⟩
  · rw [hregion]
  · exact ⟨fun ht => (nomatch (hnew ht).1), fun hs => (nomatch (hold hs).1)⟩

theorem RegionCut.cfg_eq (h : RegionCut s t false x j) (hs : (s.region j).holds x) : t.cfg j = s.cfg j := by
  rcases h with ⟨-, hcfg⟩ | ⟨hold, -⟩
  · exact hcfg
  · exact nomatch (hold hs).1

/-- The cut bank decides the byte as the old one did. -/
theorem State.decides_of_regionCut (hp : t.params = s.params) (hcut : ∀ j, RegionCut s t false x j) :
    t.decides x hit ↔ s.decides x hit := by
  cases hit with
  | none => simp only [State.decides_none_iff, hp, (hcut _).holds_iff]
  | some i => simp only [State.decides_some_iff, hp, (hcut _).holds_iff]

theorem State.decidedPriv_of_regionCut (hcut : ∀ j, RegionCut s t false x j) (h : s.decides x hit) (mode : Mode5) :
    t.decidedPriv mode hit = s.decidedPriv mode hit := by
  cases hit with
  | none => rfl
  | some i =>
    have hcfg := (hcut i).cfg_eq (State.decides_some_iff.1 h).2.1
    unfold State.decidedPriv State.locked
    dsimp only
    rw [hcfg]

/-- For modes other than M the grants of `t` are none, or those of `s` at bytes of no region that changed. -/
structure CacheRecut (s t : State) : Prop where
  params : t.params = s.params
  grants : ∀ b k x, b ≠ .machine → x ≤ maxU64 → PermMap.lookup x (t.pmpPerm.get b k) = Priv.NONE
    ∨ (PermMap.lookup x (t.pmpPerm.get b k) = PermMap.lookup x (s.pmpPerm.get b k) ∧ ∀ j, RegionCut s t false x j)

/-- An access the recut cache lets through touches no region that changed, so that refinement decides it as before. -/
theorem State.cacheConfined.recut (h : s.cacheConfined) (hcut : CacheRecut s t) : t.cacheConfined := by
  intro mode req lo hi hmode hreq hle hmax hgrants
  rw [State.cacheGrants_iff] at hgrants
  have kept (y : Nat) (hlo : lo ≤ y) (hhi : y ≤ hi) :
      satisfies (PermMap.lookup y (s.pmpPerm.get (baseOf mode) (accessKind req))) req = true
        ∧ ∀ j, RegionCut s t false y j := by
    have hy := hgrants y hlo hhi
    rcases hcut.grants (baseOf mode) (accessKind req) y hmode (Nat.le_trans hhi hmax) with hnone | ⟨hold, hregions⟩
    · rw [hnone, not_satisfies_none hreq] at hy
      cases hy
    · exact ⟨hold ▸ hy, hregions⟩
  have hs := h mode req lo hi hmode hreq hle hmax (State.cacheGrants_iff.2 fun y hlo hhi => (kept y hlo hhi).1)
  have hfirst := (kept lo (Nat.le_refl lo) hle).2
  obtain ⟨hit, hdecides⟩ := s.exists_decides lo
  rw [State.pmpGrants_iff hle hmax ((State.decides_of_regionCut hcut.params hfirst).2 hdecides), hcut.params,
    State.decidedPriv_of_regionCut hfirst hdecides]
  refine ((State.pmpGrants_iff hle hmax hdecides mode req).1 hs).imp_right fun ⟨hpriv, huniform⟩ =>
    ⟨hpriv, fun y hlo hhi => ?_⟩
  exact (State.decides_of_regionCut hcut.params (kept y hlo hhi).2).2 (huniform y hlo hhi)

/-- A register write recuts the cache when the regions it affects are cut from the cache of `s` before it, which leaves `v`,
and from that of the new bank `u` after it, which leaves `t`. -/
theorem CacheRecut.of_cutGrants {C : Nat → Prop} {v u : State} (hv : CutGrants C s v) (htu : ∃ q, t = u.setPmpPerm q)
    (ht : CutGrants C u t) (huv : u.pmpPerm = v.pmpPerm) (hp : u.params = s.params)
    (hsame : ∀ j, ¬C j → u.region j = s.region j ∧ u.cfg j = s.cfg j) : CacheRecut s t := by
  obtain ⟨q, rfl⟩ := htu
  refine ⟨hp, fun b k x hb hx => ?_⟩
  rcases ht b k x hx with hnone | ⟨hkept, hnew⟩
  · exact .inl hnone
  · rw [hkept, huv]
    refine (hv b k x hx).imp_right fun ⟨hold, hcut⟩ => ⟨hold, fun j => ?_⟩
    have hregion : (u.setPmpPerm q).region j = u.region j := State.region_bank rfl rfl rfl j
    rw [RegionCut, hregion]
    by_cases hj : C j
    · exact .inr ⟨fun hs => absurd (hcut j hj hs).1 hb, fun hu => absurd (hnew j hj hu).1 hb⟩
    · exact .inl (hsame j hj)

end

/-! ### Register writes (43_pmp.md R263, R265) -/

theorem State.permsOk.cutGrants_pmpInvalidate {s : State} (h : s.permsOk) (i : Nat) :
    CutGrants (· = i) s (s.pmpInvalidate i) := fun b k _ hx =>
  (State.pmpInvalidate_grant h i b k hx).imp_right fun ⟨hkept, hcut⟩ => ⟨hkept, fun _ hj => hj ▸ hcut⟩

theorem State.cacheConfined.writeCfgByte {s : State} (hw : s.permsOk) (h : s.cacheConfined) (i : Nat) (new : Byte) :
    (s.writeCfgByte i new).cacheConfined := by
  unfold State.writeCfgByte
  dsimp only
  split
  · exact h
  split
  · exact h
  have hv := hw.cutGrants_pmpInvalidate i
  have hw1 := hw.pmpInvalidate i
  obtain ⟨p, he⟩ := s.pmpInvalidate_eq i
  rw [he] at hv hw1 ⊢
  have hcfg (j : Nat) (hj : j ≠ i) :
      ((s.setPmpPerm p).setPmpcfg (s.pmpcfg.set i (canonCfg s.params (s.cfg i) new))).cfg j = s.cfg j := by
    simp only [State.cfg, State.setPmpcfg_params, State.setPmpPerm_params, State.setPmpcfg_pmpcfg, getD_set_of_ne _ hj]
  refine h.recut (.of_cutGrants hv (State.pmpInvalidate_eq _ i) (State.permsOk.cutGrants_pmpInvalidate ?_ i) rfl rfl
    fun j hj => ⟨?_, hcfg j hj⟩)
  · exact hw1
  · exact State.region_congr s _ j rfl (hcfg j hj) rfl rfl

theorem State.cacheConfined.writeCfgWord {s : State} (hw : s.permsOk) (h : s.cacheConfined) (w : Nat) (value : U64)
    (k : Nat) : (s.writeCfgWord w value k).cacheConfined := by
  induction k generalizing s with
  | zero => exact h
  | succ k ih =>
    unfold State.writeCfgWord
    split
    · exact ih (hw.writeCfgByte _ _) (h.writeCfgByte hw _ _)
    · exact ih hw h

theorem State.cacheConfined.writeAddr {s : State} (hw : s.permsOk) (h : s.cacheConfined) (i : Nat) (value : U64) :
    (s.writeAddr i value).cacheConfined := by
  unfold State.writeAddr
  dsimp only
  split
  · exact h
  split
  · exact h
  split
  · exact h
  have hv : CutGrants (s.torOf i) s (s.invalidateWithTor i) := fun b k x hx => State.invalidateWithTor_grant hw i b k hx
  have hw1 := hw.invalidateWithTor i
  obtain ⟨p, he⟩ := s.invalidateWithTor_eq i
  rw [he] at hv hw1 ⊢
  have haddr (j : Nat) (hj : j ≠ i) :
      ((s.setPmpPerm p).setPmpaddr (s.pmpaddr.set i (canonAddr s.params value))).addr j = s.addr j := by
    simp only [State.addr, State.setPmpaddr_params, State.setPmpPerm_params, State.setPmpaddr_pmpaddr, getD_set_of_ne _ hj]
  refine h.recut (.of_cutGrants hv (State.invalidateWithTor_eq _ i)
    (fun b k x hx => State.invalidateWithTor_grant ?_ i b k hx) rfl rfl fun j hj => ⟨?_, rfl⟩)
  · exact hw1
  · have hji : j ≠ i := fun hh => hj (.inl hh)
    by_cases hsucc : j = i + 1
    · exact State.region_congr_notTor rfl rfl (haddr j hji) fun hA => hj (.inr ⟨hsucc, hA⟩)
    · exact State.region_congr s _ j rfl rfl (haddr j hji) (haddr _ (by omega))

/-! ### Every step -/

/-- The bank is that of `s0`, and the cache is canonical and confined by it. -/
structure ConfinedAt (s0 s : State) : Prop where
  params : s.params = s0.params
  env : s.env = s0.env
  pmpcfg : s.pmpcfg = s0.pmpcfg
  pmpaddr : s.pmpaddr = s0.pmpaddr
  perms : s.permsOk
  confined : s.cacheConfined

/-- Refinement, and whatever has its effect on the cache and leaves the bank, keeps it. -/
theorem ConfinedAt.refined {s0 s t : State} (h : ConfinedAt s0 s) {mode : Mode5} {req : Priv} {lo hi : Nat}
    (he : t.env = s.env) (hb : SameBank (s.pmpRefine mode req lo hi).2 t) : ConfinedAt s0 t := by
  obtain ⟨f, -, -⟩ := s.pmpRefine_frame mode req lo hi
  refine ⟨hb.params.trans (f.params.trans h.params), he.trans h.env, hb.pmpcfg.trans (f.pmpcfg.trans h.pmpcfg),
    hb.pmpaddr.trans (f.pmpaddr.trans h.pmpaddr), ?_, (h.confined.pmpRefine h.perms mode req lo hi).congr hb⟩
  unfold State.permsOk
  rw [hb.pmpPerm]
  exact h.perms.pmpRefine mode req lo hi

theorem ConfinedAt.congr {s0 s t : State} (h : ConfinedAt s0 s) (he : t.env = s.env) (hb : SameBank s t) :
    ConfinedAt s0 t := by
  refine ⟨hb.params.trans h.params, he.trans h.env, hb.pmpcfg.trans h.pmpcfg, hb.pmpaddr.trans h.pmpaddr, ?_,
    h.confined.congr hb⟩
  unfold State.permsOk
  rw [hb.pmpPerm]
  exact h.perms

/-- A page-table access keeps it: its effect on the cache is that of its refinement. -/
theorem ConfinedAt.access {s0 s t : State} (h : ConfinedAt s0 s) (f : WalkFrame s t) {req : Priv} {lo hi : Nat}
    (hp : t.pmpPerm = ((s.setPtwActive true).pmpRefine .supervisor req lo hi).2.pmpPerm) : ConfinedAt s0 t := by
  have hactive : ConfinedAt s0 (s.setPtwActive true) := h.congr rfl ⟨rfl, rfl, rfl, rfl⟩
  obtain ⟨g, -, -⟩ := (s.setPtwActive true).pmpRefine_frame .supervisor req lo hi
  exact hactive.refined f.env
    ⟨f.params.trans g.params.symm, f.pmpcfg.trans g.pmpcfg.symm, f.pmpaddr.trans g.pmpaddr.symm, hp⟩

theorem memoryKeeps_confined (s0 : State) : MemoryKeeps s0 (fun _ => ConfinedAt s0) where
  frame _ _ h := ⟨h.params, h.env⟩
  store _ s t hst h := by
    rw [hst]
    exact h.congr rfl ⟨rfl, rfl, rfl, rfl⟩
  read _ s t addr fmt h := h.access (s.memRead_spec t addr _).2.1 (s.memRead_pmpPerm t addr _)
  write _ s t addr fmt v h := h.access (s.memWrite_spec t addr _ v).2.1 (s.memWrite_pmpPerm t addr _ v)
  check _ s mode req lo hi h := h.refined (s.pmpRefine_frame mode req lo hi).1.env ⟨rfl, rfl, rfl, rfl⟩
  beginStage2 s va _ h := h.congr rfl ⟨rfl, rfl, rfl, rfl⟩
  endStage2 s h := h.congr rfl ⟨rfl, rfl, rfl, rfl⟩

theorem CommandEffect.cacheConfined {s t : State} {i : Instr} (he : CommandEffect s i t) (hw : s.permsOk)
    (h : s.cacheConfined) : t.cacheConfined := by
  rcases he.bank with ⟨-, rfl⟩ | ⟨w, v, -, rfl⟩ | ⟨j, v, -, rfl⟩ | hb
  · exact State.cacheConfined_of_empty rfl
  · exact (h.writeCfgWord hw w v _).congr ⟨rfl, rfl, rfl, rfl⟩
  · exact (h.writeAddr hw j v).congr ⟨rfl, rfl, rfl, rfl⟩
  · exact h.congr hb

/-- Every command keeps the cache confined: lookups and checks guard what they record, register writes cut the cache. -/
theorem State.cacheConfined.exec {s t : State} (h : s.cacheConfined) (hw : s.permsOk) {i : Instr}
    (he : Machine.exec i s = .next t) : t.cacheConfined := by
  have start : ConfinedAt s s := ⟨rfl, rfl, rfl, rfl, hw, h⟩
  have access (hi : isMiss i ∨ isWalker i) : ConfinedAt s t :=
    exec_keeps_of_access (memoryKeeps_confined s).access start (fun _ _ hu => hu.congr rfl ⟨rfl, rfl, rfl, rfl⟩)
      (fun _ _ hu => hu.congr rfl ⟨rfl, rfl, rfl, rfl⟩) hi he
  rcases exec_effect he with hm | hwalk | heffect
  · exact (access (.inl hm)).confined
  · exact (access (.inr hwalk)).confined
  · exact heffect.cacheConfined hw h

/-- Every step keeps the cache canonical and confined. -/
theorem State.cacheConfined.step {s t : State} (h : s.cacheConfined) (hblock : s.BlockInv)
    (hstep : Machine.step s = .next t) : t.cacheConfined := by
  have congr {u v : State} (hu : u.permsOk ∧ u.cacheConfined) (hb : SameBank u v) : v.permsOk ∧ v.cacheConfined :=
    ⟨by unfold State.permsOk; rw [hb.pmpPerm]; exact hu.1, hu.2.congr hb⟩
  have kept : t.permsOk ∧ t.cacheConfined :=
    step_keeps (P := fun u => u.permsOk ∧ u.cacheConfined) ⟨hblock.perms, h⟩ (fun _ hu => congr hu ⟨rfl, rfl, rfl, rfl⟩)
      (fun _ hu => congr hu ⟨rfl, rfl, rfl, rfl⟩) (fun _ _ hu => congr hu ⟨rfl, rfl, rfl, rfl⟩)
      (fun _ _ _ _ _ hu => congr hu ⟨rfl, rfl, rfl, rfl⟩)
      (fun _ _ _ _ _ hu he => ⟨(hblock.step hstep).perms, hu.2.exec hu.1 he⟩) hstep
  exact kept.2

end Sys2Proof.Machine

section
open Sys2Proof Sys2Proof.Machine

/-- Settles O11: an access the cache lets through lies inside the guards of a refined range, or touches no region that
changed. -/
theorem cacheConfinedKept : Obligations.CacheConfinedKept :=
  fun _ _ hblock h hstep => h.step hblock hstep

end
end

section
/-! The PMP registers (43_pmp.md R261 to R267): the word a config read answers, what a write stores in each byte and word, and
that no write changes a locked one. -/

namespace Sys2Proof.Machine

/-! ### Reading a config word (43_pmp.md R261) -/

theorem State.cfg_of_outside {s : State} {i : Nat} (h : s.params.pmpN ≤ i) : s.cfg i = 0 :=
  if_neg (by omega)

/-- Bit `i` of the config word is bit `i % 8` of its byte `i / 8`. -/
theorem State.cfgWord_getLsbD (s : State) (w : Nat) {n : Nat} (hn : n ≤ 8) (i : Nat) :
    (s.cfgWord w n).getLsbD i = (decide (i < 8 * n) && (s.cfg (4 * w + i / 8)).getLsbD (i % 8)) := by
  induction n with
  | zero => simp [State.cfgWord]
  | succ n ih =>
    rw [State.cfgWord, BitVec.getLsbD_or, ih (by omega), BitVec.getLsbD_shiftLeft, BitVec.getLsbD_setWidth]
    by_cases hbelow : i < 8 * n
    · have hlt : i < 8 * (n + 1) := by omega
      simp [hbelow, hlt]
    · by_cases hin : i < 8 * (n + 1)
      · have h64 : i < 64 := by omega
        have hoff : i % 8 < 64 := by omega
        have hbyte : n = i / 8 := by omega
        have hbit : i - 8 * n = i % 8 := by omega
        simp only [hbelow, hin, h64, hbit, hoff, ← hbyte, decide_true, decide_false, Bool.false_and, Bool.true_and,
          Bool.not_false, Bool.false_or]
      · have hout : 8 ≤ i - 8 * n := by omega
        simp [hbelow, hin, BitVec.getLsbD_of_ge _ _ hout]

theorem State.cfgWord_byte (s : State) (w : Nat) {n k : Nat} (hn : n ≤ 8) (hk : k < n) :
    (s.cfgWord w n).extractLsb' (8 * k) 8 = s.cfg (4 * w + k) := by
  refine BitVec.eq_of_getLsbD_eq fun i hi => ?_
  have hlt : 8 * k + i < 8 * n := by omega
  have hbyte : (8 * k + i) / 8 = k := by omega
  have hbit : (8 * k + i) % 8 = i := by omega
  rw [BitVec.getLsbD_extractLsb', s.cfgWord_getLsbD w hn, hbyte, hbit]
  simp [hi, hlt]

theorem State.cfgWord_toNat_lt (s : State) (w : Nat) {n : Nat} (hn : n ≤ 8) : (s.cfgWord w n).toNat < 2 ^ (8 * n) := by
  refine Nat.lt_pow_two_of_testBit _ fun i hi => ?_
  rw [BitVec.testBit_toNat, s.cfgWord_getLsbD w hn, decide_eq_false (Nat.not_lt.2 hi), Bool.false_and]

theorem cfgWordBytes_le (x : XLen) : cfgWordBytes x ≤ 8 := by
  cases x <;> decide

theorem cfgWordOk_iff (x : XLen) (w : Nat) : cfgWordOk x w = true ↔ w < 16 ∧ (x = .x64 → w % 2 = 0) := by
  cases x <;> simp [cfgWordOk]

theorem not_cfgWordOk {x : XLen} {w : Nat} (h : 16 ≤ w ∨ (x = .x64 ∧ w % 2 = 1)) : ¬cfgWordOk x w = true := by
  rw [cfgWordOk_iff]
  rintro ⟨hlt, heven⟩
  rcases h with hge | ⟨hx, hodd⟩
  · omega
  · have := heven hx
    omega

/-! ### Writing config bytes (43_pmp.md R262, R263) -/

/-- Clearing bits 6:5 leaves the fields of a config byte. -/
theorem cfg_clearReserved (new : Byte) :
    cfgL (new &&& 0x9F) = cfgL new ∧ cfgPriv (new &&& 0x9F) = cfgPriv new ∧ cfgA (new &&& 0x9F) = cfgA new := by
  revert new
  decide

/-- Keeping the old mode leaves the written lock and privilege. -/
theorem cfg_keepMode (new old : Byte) :
    cfgL ((new &&& 0xE7) ||| (old &&& 0x18)) = cfgL new ∧ cfgPriv ((new &&& 0xE7) ||| (old &&& 0x18)) = cfgPriv new := by
  constructor
  · simp [cfgL]
  · unfold cfgPriv
    ext i hi
    have : i = 0 ∨ i = 1 ∨ i = 2 := by omega
    rcases this with rfl | rfl | rfl <;> simp

/-- The byte a write stores has the written lock, privilege and mode, but for NA4, which with `G ≥ 1` leaves the old mode. -/
theorem canonCfg_fields (p : Params) (old new : Byte) :
    cfgL (canonCfg p old new) = cfgL new ∧ cfgPriv (canonCfg p old new) = cfgPriv new
      ∧ cfgA (canonCfg p old new) = if 1 ≤ p.pmpG ∧ cfgA new = aNa4 then cfgA old else cfgA new := by
  obtain ⟨hlock, hpriv, hmode⟩ := cfg_clearReserved new
  unfold canonCfg
  dsimp only
  rw [hmode]
  split
  · obtain ⟨hlock', hpriv'⟩ := cfg_keepMode (new &&& 0x9F) old
    exact ⟨hlock'.trans hlock, hpriv'.trans hpriv, cfgA_keepMode _ _⟩
  · exact ⟨hlock, hpriv, hmode⟩

theorem getD_set_self {α : Type} {l : List α} {i : Nat} (h : i < l.length) (v d : α) : (l.set i v).getD i d = v := by
  rw [List.getD_eq_getElem?_getD, List.getElem?_set_self h, Option.getD_some]

theorem State.writeCfgByte_params (s : State) {i : Nat} (hi : i < s.params.pmpN) (new : Byte) :
    (s.writeCfgByte i new).params = s.params := by
  obtain ⟨p, he⟩ := s.writeCfgByte_eq i new hi
  rw [he]
  rfl

/-- A config byte write stores the canonical byte in an unlocked region, and nothing else. -/
theorem State.writeCfgByte_cfg {s : State} (h : s.bankOk) {i : Nat} (hi : i < s.params.pmpN) (new : Byte) (j : Nat) :
    (s.writeCfgByte i new).cfg j
      = if j = i ∧ s.locked i = false then canonCfg s.params (s.cfg i) new else s.cfg j := by
  obtain ⟨hlen, -⟩ := h
  obtain ⟨p, he⟩ := s.writeCfgByte_eq i new hi
  rw [he]
  cases hl : s.locked i with
  | true => simp [State.cfg]
  | false =>
    by_cases hj : j = i
    · subst hj
      simp only [State.cfg, State.setPmpPerm_params, State.setPmpPerm_pmpcfg, State.setPmpcfg_params,
        State.setPmpcfg_pmpcfg, if_pos hi, Bool.false_eq_true, if_false, getD_set_self (hlen ▸ hi), and_self, if_true]
    · simp only [State.cfg, State.setPmpPerm_params, State.setPmpPerm_pmpcfg, State.setPmpcfg_params,
        State.setPmpcfg_pmpcfg, Bool.false_eq_true, if_false, getD_set_of_ne _ hj, hj, false_and]

/-- A config word write stores the canonical bytes in the unlocked regions of the word, and nothing else. -/
theorem State.writeCfgWord_cfg {s : State} (h : s.bankOk) (w : Nat) (value : U64) (n j : Nat) :
    (s.writeCfgWord w value n).cfg j
      = if (4 * w ≤ j ∧ j < 4 * w + n) ∧ j < s.params.pmpN ∧ s.locked j = false then
          canonCfg s.params (s.cfg j) (value.extractLsb' (8 * (j - 4 * w)) 8)
        else s.cfg j := by
  induction n generalizing s with
  | zero => rw [if_neg (by omega), State.writeCfgWord]
  | succ n ih =>
    unfold State.writeCfgWord
    dsimp only
    split
    · rename_i hn
      rw [ih (h.writeCfgByte hn _), s.writeCfgByte_params hn]
      by_cases hj : j = 4 * w + n
      · subst hj
        have hoff : 4 * w + n - 4 * w = n := by omega
        rw [if_neg (by omega), State.writeCfgByte_cfg h hn]
        simp [hn, hoff]
      · have hlt : j < 4 * w + n ↔ j < 4 * w + (n + 1) := by omega
        have hcfg : (s.writeCfgByte (4 * w + n) (value.extractLsb' (8 * n) 8)).cfg j = s.cfg j := by
          rw [State.writeCfgByte_cfg h hn, if_neg (fun hh => hj hh.1)]
        have hlocked : (s.writeCfgByte (4 * w + n) (value.extractLsb' (8 * n) 8)).locked j = s.locked j :=
          congrArg cfgL hcfg
        simp only [hcfg, hlocked, hlt]
    · rename_i hn
      rw [ih h]
      by_cases hj : j = 4 * w + n
      · subst hj
        simp [hn]
      · have hlt : j < 4 * w + n ↔ j < 4 * w + (n + 1) := by omega
        simp only [hlt]

/-- A locked region keeps its config byte. -/
theorem State.writeCfgWord_cfg_locked {s : State} (h : s.bankOk) (w : Nat) (value : U64) (n : Nat) {j : Nat}
    (hl : s.locked j = true) : (s.writeCfgWord w value n).cfg j = s.cfg j := by
  rw [State.writeCfgWord_cfg h, if_neg]
  simp [hl]

/-! ### Address words (43_pmp.md R264, R265) -/

theorem grainAddr_toNat (p : Params) (a : U64) : (grainAddr p a).toNat = a.toNat / 2 ^ p.pmpG * 2 ^ p.pmpG := by
  unfold grainAddr
  split
  · rw [clear_lowMask_toNat, Nat.div_mul_self_eq_mod_sub_self]
  · rename_i hG
    have hG0 : p.pmpG = 0 := by omega
    rw [hG0, Nat.pow_zero, Nat.div_one, Nat.mul_one]

theorem napotAddr_toNat {p : Params} (hG : p.pmpG ≤ 62) (a : U64) :
    (napotAddr p a).toNat = a.toNat ||| (2 ^ (p.pmpG - 1) - 1) := by
  unfold napotAddr
  split
  · rw [BitVec.toNat_or, lowMask_toNat (by omega)]
  · have hG0 : p.pmpG - 1 = 0 := by omega
    rw [hG0, Nat.pow_zero, Nat.sub_self, Nat.or_zero]

theorem Params.wf_bounds {p : Params} (h : p.wf = true) : p.pmpG ≤ 62 ∧ p.paBits ≤ 64 := by
  simp only [Params.wf, Bool.and_eq_true, decide_eq_true_eq] at h
  omega

theorem mod_two_pow_mod_two_pow (a m n : Nat) : a % 2 ^ m % 2 ^ n = a % 2 ^ min m n := by
  refine Nat.eq_of_testBit_eq fun i => ?_
  simp only [Nat.testBit_mod_two_pow, Nat.lt_min, Bool.decide_and]
  rw [← Bool.and_assoc, Bool.and_comm (decide (i < n))]

/-- `EXT_MASK` is the mask of the low `PA_BITS - 2` bits (30_encoding.md R117). -/
theorem extMask_eq_lowMask {p : Params} (h : p.paBits ≤ 64) : extMask p = lowMask (p.paBits - 2) := by
  refine BitVec.eq_of_toNat_eq ?_
  rw [extMask, BitVec.toNat_ushiftRight, lowMask_toNat h, lowMask_toNat (by omega), Nat.shiftRight_eq_div_pow]
  rcases Nat.lt_or_ge p.paBits 2 with hsmall | hlarge
  · have hbits : p.paBits = 0 ∨ p.paBits = 1 := by omega
    rcases hbits with hbits | hbits <;> rw [hbits] <;> rfl
  · obtain ⟨n, hn⟩ := Nat.exists_eq_add_of_le' hlarge
    rw [hn, Nat.add_sub_cancel, Nat.pow_add]
    omega

theorem canonAddr_toNat {p : Params} (h : p.paBits ≤ 64) (value : U64) :
    (canonAddr p value).toNat
      = value.toNat % 2 ^ min (p.paBits - 2) (addrWordBits p.xlen) / 2 ^ (p.pmpG - 1) * 2 ^ (p.pmpG - 1) := by
  have hmasked : (value &&& extMask p &&& lowMask (addrWordBits p.xlen)).toNat
      = value.toNat % 2 ^ min (p.paBits - 2) (addrWordBits p.xlen) := by
    rw [extMask_eq_lowMask h, and_lowMask_toNat, and_lowMask_toNat, mod_two_pow_mod_two_pow]
  unfold canonAddr
  dsimp only
  split
  · rw [clear_lowMask_toNat, hmasked, Nat.div_mul_self_eq_mod_sub_self]
  · have hG0 : p.pmpG - 1 = 0 := by omega
    rw [hmasked, hG0, Nat.pow_zero, Nat.div_one, Nat.mul_one]

theorem State.addrLocked_iff {s : State} {i : Nat} :
    s.addrLocked i = true
      ↔ s.locked i = true ∨ (i + 1 < s.params.pmpN ∧ s.locked (i + 1) = true ∧ cfgA (s.cfg (i + 1)) = aTor) := by
  simp only [State.addrLocked, Bool.or_eq_true, Bool.and_eq_true, decide_eq_true_eq, and_assoc]

/-- A write outside the bank or to a locked word changes nothing. -/
theorem State.writeAddr_of_locked {s : State} {i : Nat} (h : s.params.pmpN ≤ i ∨ s.addrLocked i = true) (value : U64) :
    s.writeAddr i value = s := by
  unfold State.writeAddr
  rcases h with hout | hlocked
  · rw [if_pos (by omega)]
  · rw [if_pos hlocked, ite_self]

/-- A write to an unlocked word of the bank stores the masked value, and cuts the permission cache. -/
theorem State.writeAddr_of_unlocked {s : State} {i : Nat} (hi : i < s.params.pmpN) (hl : s.addrLocked i = false)
    (value : U64) :
    ∃ p, s.writeAddr i value = (s.setPmpaddr (s.pmpaddr.set i (canonAddr s.params value))).setPmpPerm p := by
  unfold State.writeAddr
  rw [if_neg (not_not_intro hi), if_neg (by rw [hl]; decide)]
  dsimp only
  split
  · rename_i hsame
    have hset : s.pmpaddr.set i (canonAddr s.params value) = s.pmpaddr := by
      rw [hsame, State.addr, if_pos hi]
      by_cases hlen : i < s.pmpaddr.length
      · rw [List.getD_eq_getElem?_getD, List.getElem?_eq_getElem hlen, Option.getD_some, List.set_getElem_self]
      · exact List.set_eq_of_length_le (by omega)
    exact ⟨s.pmpPerm, by rw [hset]; rfl⟩
  · obtain ⟨p, hp⟩ := s.invalidateWithTor_eq i
    rw [hp]
    exact State.invalidateWithTor_eq ((s.setPmpPerm p).setPmpaddr (s.pmpaddr.set i (canonAddr s.params value))) i

/-- An address write stores the masked value in the unlocked word it names, and nothing else. -/
theorem State.writeAddr_addr {s : State} (h : s.bankOk) (i : Nat) (value : U64) (j : Nat) :
    (s.writeAddr i value).addr j
      = if j = i ∧ i < s.params.pmpN ∧ s.addrLocked i = false then canonAddr s.params value else s.addr j := by
  obtain ⟨-, hlen, -⟩ := h
  by_cases hopen : i < s.params.pmpN ∧ s.addrLocked i = false
  · obtain ⟨hi, hl⟩ := hopen
    obtain ⟨p, he⟩ := State.writeAddr_of_unlocked hi hl value
    rw [he]
    simp only [State.addr, State.setPmpPerm_params, State.setPmpPerm_pmpaddr, State.setPmpaddr_params,
      State.setPmpaddr_pmpaddr]
    by_cases hj : j = i
    · subst hj
      simp only [getD_set_self (hlen ▸ hi), hi, hl, and_self, if_true]
    · simp only [getD_set_of_ne _ hj, hj, false_and, if_false]
  · rw [if_neg (fun hh => hopen hh.2), State.writeAddr_of_locked]
    by_cases hi : i < s.params.pmpN
    · exact .inr (by simpa [hi] using hopen)
    · exact .inl (by omega)

/-! ### Locks (43_pmp.md R267) -/

/-- A region outside the bank is not locked. -/
theorem State.lt_of_locked {s : State} {j : Nat} (h : s.locked j = true) : j < s.params.pmpN := by
  refine Nat.lt_of_not_le fun hout => ?_
  rw [State.locked_of_cfg_zero (State.cfg_of_outside hout)] at h
  cases h

theorem State.cfg_bank {s t : State} (hp : t.params = s.params) (hc : t.pmpcfg = s.pmpcfg) (i : Nat) :
    t.cfg i = s.cfg i := by
  simp only [State.cfg, hp, hc]

theorem State.addr_bank {s t : State} (hp : t.params = s.params) (ha : t.pmpaddr = s.pmpaddr) (i : Nat) :
    t.addr i = s.addr i := by
  simp only [State.addr, hp, ha]

/-- No command but those that empty the bank writes the config byte of a locked region or a locked address word. -/
theorem exec_keeps_locked {i : Instr} {s t : State} (hbank : s.bankOk) (h : exec i s = .next t) (hclear : ¬clearsBank i) :
    (∀ j, s.locked j = true → t.cfg j = s.cfg j) ∧ ∀ j, s.addrLocked j = true → t.addr j = s.addr j := by
  have same (hp : t.params = s.params) (hc : t.pmpcfg = s.pmpcfg) (ha : t.pmpaddr = s.pmpaddr) :
      (∀ j, s.locked j = true → t.cfg j = s.cfg j) ∧ ∀ j, s.addrLocked j = true → t.addr j = s.addr j :=
    ⟨fun j _ => State.cfg_bank hp hc j, fun j _ => State.addr_bank hp ha j⟩
  rcases exec_effect h with hi | hi | he
  · have f := exec_accessFrame (.inl hi) h
    exact same f.params f.pmpcfg f.pmpaddr
  · have f := exec_accessFrame (.inr hi) h
    exact same f.params f.pmpcfg f.pmpaddr
  · rcases he.bank with ⟨hi, -⟩ | ⟨w, v, -, rfl⟩ | ⟨k, v, -, rfl⟩ | hb
    · exact absurd hi hclear
    · refine ⟨fun j hl => State.writeCfgWord_cfg_locked hbank w v _ hl, fun j _ => State.addr_bank he.frame.params ?_ j⟩
      obtain ⟨c, p, hw⟩ := s.writeCfgWord_eq w v (cfgWordBytes s.params.xlen)
      rw [hw]
      rfl
    · refine ⟨fun j _ => State.cfg_bank he.frame.params ?_ j, fun j hl => ?_⟩
      · obtain ⟨a, p, hw, -⟩ := s.writeAddr_eq k v
        rw [hw]
        rfl
      · refine (State.writeAddr_addr hbank k v j).trans (if_neg ?_)
        rintro ⟨rfl, -, hopen⟩
        rw [hl] at hopen
        cases hopen
    · exact same hb.params hb.pmpcfg hb.pmpaddr

end Sys2Proof.Machine

section
open Sys2Proof Sys2Proof.Machine

/-- Settles O16: a register write passes over what is locked, and refinement answers the own bits of the locked region that
decides a byte. -/
theorem locksHold : Obligations.LocksHold := by
  refine ⟨fun i s t j hbank h hclear hlocked => ?_, fun s pa j _ hdecides hlocked => ?_⟩
  · obtain ⟨hcfg, haddr⟩ := exec_keeps_locked hbank h hclear
    refine ⟨hcfg j hlocked, haddr j (State.addrLocked_iff.2 (.inl hlocked)), fun htor hj => ?_⟩
    obtain ⟨k, rfl⟩ := Nat.exists_eq_add_of_le' hj
    exact haddr k (State.addrLocked_iff.2 (.inr ⟨State.lt_of_locked hlocked, hlocked, htor⟩))
  · rw [(State.refineBounds_of_decides hdecides .machine).2, State.decidedPriv, if_neg (by simp [hlocked])]

/-- Settles O44: the word is put together from its bytes. -/
theorem pmpcfgReadGivesTheWord : Obligations.PmpcfgReadGivesTheWord := by
  intro s w
  refine ⟨fun hw heven => ⟨s.cfgWord w (cfgWordBytes s.params.xlen), if_pos ((cfgWordOk_iff _ _).2 ⟨hw, heven⟩),
    fun k hk => s.cfgWord_byte w (cfgWordBytes_le _) hk, fun hx => ?_⟩, fun hbad => if_neg (not_cfgWordOk hbad),
    fun i => State.cfg_of_outside⟩
  rw [hx]
  exact s.cfgWord_toNat_lt w (by decide)

/-- Settles O45: the bytes of the word are written one by one, each in its canonical form. -/
theorem pmpcfgWriteStoresTheCanonicalBytes : Obligations.PmpcfgWriteStoresTheCanonicalBytes := by
  intro s w value hbank
  refine ⟨fun hw heven => ⟨(s.writeCfgWord w value (cfgWordBytes s.params.xlen)).respond .noReply,
    if_pos ((cfgWordOk_iff _ _).2 ⟨hw, heven⟩), ?_, fun i => ⟨fun hkept => ?_, fun k hi hk hin hopen => ?_⟩⟩,
    fun hbad => if_neg (not_cfgWordOk hbad)⟩
  · obtain ⟨c, p, he⟩ := s.writeCfgWord_eq w value (cfgWordBytes s.params.xlen)
    rw [he]
    rfl
  · refine (State.writeCfgWord_cfg hbank w value _ i).trans (if_neg ?_)
    rintro ⟨⟨hlo, hhi⟩, hin, hopen⟩
    rcases hkept with h | h | h | h
    · omega
    · exact absurd hhi (Nat.not_lt.2 h)
    · omega
    · rw [h] at hopen
      cases hopen
  · subst hi
    have hcfg : ((s.writeCfgWord w value (cfgWordBytes s.params.xlen)).respond .noReply).cfg (4 * w + k)
        = canonCfg s.params (s.cfg (4 * w + k)) (value.extractLsb' (8 * k) 8) := by
      refine (State.writeCfgWord_cfg hbank w value _ _).trans ?_
      rw [if_pos ⟨⟨by omega, Nat.add_lt_add_left hk _⟩, hin, hopen⟩, Nat.add_sub_cancel_left]
    obtain ⟨hlock, hpriv, hmode⟩ := canonCfg_fields s.params (s.cfg (4 * w + k)) (value.extractLsb' (8 * k) 8)
    rw [hcfg]
    exact ⟨hlock, hpriv, canonCfg_reserved _, hmode⟩

/-- Settles O46: the two grain masks, as numbers. -/
theorem pmpaddrReadGivesTheEffectiveAddress : Obligations.PmpaddrReadGivesTheEffectiveAddress := by
  intro s i hwf
  refine ⟨if i < s.params.pmpN then s.effAddr i else 0, rfl, fun hout => if_neg (by omega), fun hin hnapot => ?_,
    fun hin hother => ?_⟩
  · rw [if_pos hin, State.effAddr, if_pos hnapot, napotAddr_toNat (Params.wf_bounds hwf).1]
  · rw [if_pos hin, State.effAddr, if_neg hother, grainAddr_toNat]

/-- Settles O47: an unlocked word takes the masked value, a locked one stays. -/
theorem pmpaddrWriteStoresTheMaskedValue : Obligations.PmpaddrWriteStoresTheMaskedValue := by
  intro s i value hwf hbank
  refine ⟨(s.writeAddr i value).respond .noReply, rfl, ?_, fun j hj => ?_, fun hkept => ?_, fun hin hopen hbase => ?_⟩
  · obtain ⟨a, p, he, -⟩ := s.writeAddr_eq i value
    rw [he]
    rfl
  · exact (State.writeAddr_addr hbank i value j).trans (if_neg fun hh => hj hh.1)
  · rw [State.writeAddr_of_locked (hkept.imp_right State.addrLocked_iff.2)]
    exact ⟨rfl, rfl⟩
  · have hunlocked : s.addrLocked i = false := by
      rw [← Bool.not_eq_true, State.addrLocked_iff, hopen]
      exact fun h => h.elim (fun h => nomatch h) hbase
    have haddr : ((s.writeAddr i value).respond .noReply).addr i = canonAddr s.params value :=
      (State.writeAddr_addr hbank i value i).trans (if_pos ⟨rfl, hin, hunlocked⟩)
    rw [haddr]
    exact canonAddr_toNat (Params.wf_bounds hwf).2 value

/-- Settles O48: each of the three clears the bank. -/
theorem bankIsEmptied : Obligations.BankIsEmptied := by
  intro i s hi
  have hcleared : exec i s = .next (s.clearBank.respond .noReply) := by
    rcases hi with rfl | rfl | rfl <;> rfl
  have hcfg (j : Nat) : (s.clearBank.respond .noReply).cfg j = 0 := State.cfg_of_zero rfl j
  exact ⟨s.clearBank.respond .noReply, hcleared, rfl,
    fun j => ⟨hcfg j, State.addr_of_zero rfl j, State.region_of_cfg_zero (hcfg j), State.locked_of_cfg_zero (hcfg j)⟩,
    PmpPerm.lookup_empty⟩

end
end

section
/-! Region geometry (43_pmp.md R280 to R284): the answers of the four region kinds, in unbounded numbers. -/

namespace Sys2Proof.Machine

/-- The bits of a region kind's operand in the answered privilege (30_encoding.md R115). -/
theorem privOfBits_bits (x w r : Bool) :
    (privOfBits x w r).getLsbD 0 = r ∧ (privOfBits x w r).getLsbD 1 = w ∧ (privOfBits x w r).getLsbD 2 = x := by
  revert x w r
  decide

/-- A region kind answers for an index in the bank. -/
theorem State.next_answerRegion {s : State} {i : Nat} (h : i < s.params.pmpN) (r : Region) (p : Priv) (l : Bool) :
    (.next (s.answerRegion i r p l) : Host.Outcome State Fault Refusal) = .next (s.respond (.region r p l)) :=
  congrArg Host.Outcome.next (if_pos h)

/-! ### TOR and NA4 (43_pmp.md R282, R283) -/

theorem State.regionTor_eq (s : State) (i : Nat) :
    s.regionTor i
      = (let low := if i = 0 then 0 else 4 * ((s.addr (i - 1)).toNat / 2 ^ s.params.pmpG * 2 ^ s.params.pmpG)
         let top := 4 * ((s.addr i).toNat / 2 ^ s.params.pmpG * 2 ^ s.params.pmpG)
         if top ≤ low then .inactive else .active low (top - 1)) := by
  unfold State.regionTor
  dsimp only
  rw [grainAddr_toNat, grainAddr_toNat, Nat.shiftLeft_eq, Nat.shiftLeft_eq]
  generalize hlow : (s.addr (i - 1)).toNat / 2 ^ s.params.pmpG * 2 ^ s.params.pmpG = low
  generalize htop : (s.addr i).toNat / 2 ^ s.params.pmpG * 2 ^ s.params.pmpG = top
  by_cases hi : i = 0
  · simp only [hi, if_true]
    by_cases hempty : 4 * top ≤ 0
    · rw [if_pos hempty, if_pos (by omega)]
    · rw [if_neg hempty, if_neg (by omega)]
      congr 1
      omega
  · simp only [hi, if_false]
    by_cases hempty : 4 * top ≤ 4 * low
    · rw [if_pos hempty, if_pos (by omega)]
    · rw [if_neg hempty, if_neg (by omega)]
      congr 1 <;> omega

theorem State.regionNa4_eq (s : State) (i : Nat) :
    s.regionNa4 i = .active (4 * (s.addr i).toNat) (4 * (s.addr i).toNat + 3) := by
  rw [State.regionNa4, Nat.shiftLeft_eq, Nat.mul_comm]

/-! ### NAPOT (43_pmp.md R284) -/

/-- The lowest clear bit of a number that has one in the bits looked at. -/
theorem lowestClear_spec (n x : Nat) (h : x < 2 ^ n) :
    (∀ j, j < lowestClear n x → x.testBit j = true) ∧ x.testBit (lowestClear n x) = false := by
  induction n generalizing x with
  | zero =>
    obtain rfl : x = 0 := by omega
    exact ⟨fun j hj => absurd hj (Nat.not_lt_zero j), Nat.zero_testBit _⟩
  | succ n ih =>
    unfold lowestClear
    split
    · rename_i heven
      refine ⟨fun j hj => absurd hj (Nat.not_lt_zero j), ?_⟩
      rw [Nat.testBit_zero, heven]
      rfl
    · rename_i hodd
      obtain ⟨hbelow, hclear⟩ := ih (x / 2) (by omega)
      refine ⟨fun j hj => ?_, (Nat.testBit_succ ..).trans hclear⟩
      cases j with
      | zero => simp only [Nat.testBit_zero, decide_eq_true_eq]; omega
      | succ j => exact (Nat.testBit_succ ..).trans (hbelow j (by omega))

/-- A clear bit lies above low bits that are all set. -/
theorem le_of_testBit_false {x k n : Nat} (hk : x.testBit k = false) (hset : ∀ j, j < n → x.testBit j = true) :
    n ≤ k := by
  refine Nat.le_of_not_lt fun hlt => ?_
  rw [hset k (by omega)] at hk
  cases hk

/-- The number a NAPOT word stands for, `(EffAddr << 2) | 3`. -/
def State.napotCode (s : State) (i : Nat) : Nat :=
  4 * ((s.addr i).toNat ||| (2 ^ (s.params.pmpG - 1) - 1)) + 3

theorem State.napotCode_eq {s : State} (hG : s.params.pmpG ≤ 62) (i : Nat) :
    ((napotAddr s.params (s.addr i)).toNat <<< 2) ||| 3 = s.napotCode i := by
  rw [napotAddr_toNat hG, State.napotCode, ← Nat.shiftLeft_add_eq_or_of_lt (by decide), Nat.shiftLeft_eq, Nat.mul_comm]

theorem State.napotCode_lt {s : State} (hG : s.params.pmpG ≤ 62) (i : Nat) : s.napotCode i < 2 ^ 67 := by
  have := (napotAddr s.params (s.addr i)).isLt
  rw [napotAddr_toNat hG] at this
  unfold State.napotCode
  omega

/-- The two bits below the word and, with `G ≥ 2`, the `G - 1` bits the grain sets are ones. -/
theorem State.napotCode_low (s : State) (i j : Nat) (h : j < 2 ∨ (2 ≤ s.params.pmpG ∧ j < s.params.pmpG + 1)) :
    (s.napotCode i).testBit j = true := by
  unfold State.napotCode
  generalize hword : (s.addr i).toNat ||| (2 ^ (s.params.pmpG - 1) - 1) = word
  match j with
  | 0 => rw [Nat.testBit_zero, decide_eq_true_eq]; omega
  | 1 => rw [Nat.testBit_succ, Nat.testBit_zero, decide_eq_true_eq]; omega
  | j + 2 =>
    have hhalves : (4 * word + 3) / 2 / 2 = word := by omega
    have hj : j < s.params.pmpG - 1 := by omega
    rw [Nat.testBit_succ, Nat.testBit_succ, hhalves, ← hword, Nat.testBit_or, Nat.testBit_two_pow_sub_one]
    simp only [hj, decide_true, Bool.or_true]

theorem State.regionNapot_eq {s : State} (hG : s.params.pmpG ≤ 62) (i : Nat) :
    s.regionNapot i
      = (let k := lowestClear 67 (s.napotCode i)
         let base := s.napotCode i / 2 ^ (k + 1) * 2 ^ (k + 1)
         .active base (base + (2 ^ (k + 1) - 1))) := by
  unfold State.regionNapot
  dsimp only
  rw [State.napotCode_eq hG, Nat.shiftRight_eq_div_pow, Nat.shiftLeft_eq]

end Sys2Proof.Machine

section
open Sys2Proof Sys2Proof.Machine

/-- Settles O49: the three kinds answer their region, whose bounds are computed with the grain masked. -/
theorem offTorNa4Geometry : Obligations.OffTorNa4Geometry := by
  intro l x w r i s hi _
  obtain ⟨hr, hw, hx⟩ := privOfBits_bits x w r
  have answer (region : Region) := State.next_answerRegion hi region (privOfBits x w r) l
  refine ⟨privOfBits x w r, hr, hw, hx, answer _, ?_, fun hG => ?_⟩
  · have hregion := s.regionTor_eq i
    dsimp only at hregion ⊢
    rw [← hregion]
    exact answer _
  · rw [← State.regionNa4_eq]
    exact (if_pos hG).trans (answer _)

/-- Settles O50: the low bits of the effective word are set, so the lowest clear bit lies above them. -/
theorem napotGeometry : Obligations.NapotGeometry := by
  intro l x w r i s hi hG
  obtain ⟨hr, hw, hx⟩ := privOfBits_bits x w r
  obtain ⟨hbelow, hclear⟩ := lowestClear_spec 67 (s.napotCode i) (State.napotCode_lt hG i)
  refine ⟨privOfBits x w r, lowestClear 67 (s.napotCode i), s.napotCode i, hr, hw, hx, rfl, hbelow, hclear,
    le_of_testBit_false hclear fun j hj => s.napotCode_low i j (.inl hj),
    fun h2 => le_of_testBit_false hclear fun j hj => s.napotCode_low i j (.inr ⟨h2, hj⟩), ?_⟩
  have hregion := State.regionNapot_eq hG i
  dsimp only at hregion
  rw [← hregion]
  exact State.next_answerRegion hi _ _ l

end
end

section
/-! Refinement and invalidation as operations on the permission cache (43_pmp.md R286, R287, R291, R295, R296). -/

namespace Sys2Proof.Machine

/-! ### Refinement -/

section
variable {s : State} {mode : Mode5} {req : Priv} {lo hi : Nat}

/-- A denial arms `AFault` and changes nothing else (43_pmp.md R287). -/
theorem State.pmpRefine_denied (h : s.pmpGrants mode req lo hi = false) :
    s.pmpRefine mode req lo hi = (false, s.setAFault .pmp) := by
  have hfst := s.pmpRefine_fst mode req lo hi
  rcases s.pmpRefine_cases mode req lo hi with ⟨-, e⟩ | ⟨-, -, e⟩ | ⟨-, -, e⟩
  · rw [e, h] at hfst
    cases hfst
  · rw [e, h] at hfst
    cases hfst
  · exact e

/-- A grant under a bank lies in the refined range and protects it (43_pmp.md R286, R287). -/
theorem State.pmpRefine_granted (h : s.pmpGrants mode req lo hi = true) (hn : s.params.pmpN ≠ 0) :
    ((s.refineBounds mode lo).lowMap ≤ lo ∧ hi ≤ (s.refineBounds mode lo).highMap)
      ∧ s.pmpRefine mode req lo hi
        = (true, s.protect mode (s.refineBounds mode lo).lowMap (s.refineBounds mode lo).highMap
            (s.refineBounds mode lo).priv) := by
  have hfst := s.pmpRefine_fst mode req lo hi
  rcases s.pmpRefine_cases mode req lo hi with ⟨h0, -⟩ | ⟨-, hbounds, e⟩ | ⟨-, -, e⟩
  · exact absurd h0 hn
  · simp only [boundsGrant, Bool.and_eq_true, decide_eq_true_eq] at hbounds
    obtain ⟨⟨-, hlow⟩, hhigh⟩ := hbounds
    exact ⟨⟨hlow, hhigh⟩, e⟩
  · rw [e, h] at hfst
    cases hfst

end

/-! ### Invalidation -/

theorem State.pmpInvalidate_of_inactive {s : State} {i : Nat} (h : s.region i = .inactive) : s.pmpInvalidate i = s := by
  unfold State.pmpInvalidate
  rw [h]

theorem State.lockedAtOrBelow_iff {s : State} {i : Nat} :
    s.lockedAtOrBelow i = true ↔ s.locked i = true ∨ ∃ j, i < j ∧ j < s.params.pmpN ∧ s.locked j = true := by
  simp only [State.lockedAtOrBelow, Bool.or_eq_true, List.any_eq_true, List.mem_range, Bool.and_eq_true, decide_eq_true_eq]
  refine or_congr_right (exists_congr fun j => ?_)
  rw [← and_assoc, and_comm (a := j < _), and_assoc]

/-- Everything an invalidation does to the grants (43_pmp.md R291, R296): those in the widened range go, for machine mode only
at or above a lock, and every other grant stays. -/
theorem State.pmpInvalidate_spec {s : State} (h : s.permsOk) {i lo hi lo' hi' : Nat} (hr : s.region i = .active lo hi)
    (hlo : lo' = if s.params.unaligned = true ∨ s.params.wideRegs = true then lo - 1 else lo)
    (hhi : hi' = if s.params.unaligned = true ∨ s.params.wideRegs = true then min (hi + 1) maxU64 else hi) :
    ∃ p, s.pmpInvalidate i = s.setPmpPerm p ∧ ∀ b k x, PermMap.lookup x (p.get b k)
      = if (lo' ≤ x ∧ x ≤ hi') ∧ (b = .machine → s.lockedAtOrBelow i = true) then Priv.NONE
        else PermMap.lookup x (s.pmpPerm.get b k) := by
  obtain ⟨w1, supervisor⟩ := PmpPerm.remove_spec s.pmpPerm .supervisor lo' hi' h
  obtain ⟨w2, user⟩ := PmpPerm.remove_spec _ .user lo' hi' w1
  obtain ⟨-, machine⟩ := PmpPerm.remove_spec _ .machine lo' hi' w2
  unfold State.pmpInvalidate
  rw [hr]
  simp only [Bool.or_eq_true, ← hlo, ← hhi]
  refine ⟨_, rfl, fun b k x => ?_⟩
  cases hl : s.lockedAtOrBelow i with
  | true =>
    rw [if_pos rfl, machine, user, supervisor]
    by_cases hin : lo' ≤ x ∧ x ≤ hi' <;> cases b <;> simp [hin]
  | false =>
    rw [if_neg (by decide), user, supervisor]
    by_cases hin : lo' ≤ x ∧ x ≤ hi' <;> cases b <;> simp [hin]

end Sys2Proof.Machine

section
open Sys2Proof Sys2Proof.Machine

/-- Settles O54: the grant protects the refined range, which contains the access. -/
theorem refinementRecordsItsGrant : Obligations.RefinementRecordsItsGrant := by
  intro s mode req lo hi hperms hle _
  refine ⟨State.pmpRefine_denied, fun hgrant hn => ?_⟩
  obtain ⟨⟨hlow, hhigh⟩, hrefine⟩ := State.pmpRefine_granted hgrant hn
  obtain ⟨inside, guards, outside⟩ :=
    State.protect_spec hperms mode (Nat.le_trans hlow (Nat.le_trans hle hhigh)) (s.refineBounds mode lo).priv
  refine ⟨_, hrefine, hlow, hhigh, fun x hxlow hxhigh => ⟨inside .data x hxlow hxhigh, inside .code x hxlow hxhigh⟩,
    fun k x hx => guards k x ?_, fun c k x hx => outside c k x (hx.imp_right fun hout => ?_)⟩
  · rcases hx with hbelow | ⟨habove, hmax⟩
    · exact .inl ⟨by omega, by omega⟩
    · exact .inr ⟨hmax, habove⟩
  · unfold isGuard
    omega

/-- Settles O55: the range is removed from the maps of each mode the invalidation reaches. -/
theorem regionInvalidationCutsTheCache : Obligations.RegionInvalidationCutsTheCache := by
  refine ⟨fun s i => State.pmpInvalidate_of_inactive, fun s i lo hi lo' hi' hperms hr hlo hhi => ?_⟩
  obtain ⟨p, he, hgrants⟩ := State.pmpInvalidate_spec hperms hr hlo hhi
  refine ⟨p, he, fun b k x => ?_⟩
  have hcut : (lo' ≤ x ∧ x ≤ hi') ∧ (b = .machine → s.lockedAtOrBelow i = true)
      ↔ lo' ≤ x ∧ x ≤ hi'
        ∧ (b ≠ .machine ∨ s.locked i = true ∨ ∃ j, i < j ∧ j < s.params.pmpN ∧ s.locked j = true) := by
    rw [State.lockedAtOrBelow_iff, Decidable.imp_iff_not_or, and_assoc]
  exact ⟨fun h => (hgrants b k x).trans (if_pos (hcut.2 h)), fun h => (hgrants b k x).trans (if_neg (mt hcut.1 h))⟩

end
end

section
/-! The host's operations on the TLBs (44_host_ops.md R310 to R316): what the lifecycle commands leave, what a restore makes of
a stream of records, and what ends it. -/

namespace Sys2Proof

/-! ### Fields and codes (30_encoding.md R120, R122) -/

/-- The number a little-endian field holds. -/
def leValue : List Byte → Nat
  | [] => 0
  | b :: bs => b.toNat + 256 * leValue bs

/-- A field reads when its bytes are there. -/
theorem takeLE_eq (n : Nat) (bs : List Byte) :
    takeLE n bs = if n ≤ bs.length then some (leValue (bs.take n), bs.drop n) else none := by
  induction n generalizing bs with
  | zero => simp [takeLE, leValue]
  | succ n ih =>
    cases bs with
    | nil => simp [takeLE]
    | cons b bs =>
      rw [takeLE, ih]
      by_cases hlen : n ≤ bs.length
      · simp [hlen, leValue]
      · simp [hlen]

/-- A one-byte field is its byte. -/
theorem leValue_take_one (bs : List Byte) : leValue (bs.take 1) = (bs.getD 0 0).toNat := by
  cases bs <;> simp [leValue]

theorem TlbId.le_of_ofCode {n : Nat} {t : TlbId} (h : TlbId.ofCode n = some t) : n ≤ 2 := by
  refine Nat.le_of_not_lt fun hn => ?_
  rw [TlbId.ofCode, if_neg (by omega), if_neg (by omega), if_neg (by omega)] at h
  cases h

namespace Machine

/-! ### Emptying the block (44_host_ops.md R310, R311) -/

/-- Two stores with the same aliases in every mode are one. -/
theorem AliasStore.ext_get {x y : AliasStore} (h : ∀ mode, x.get mode = y.get mode) : x = y := by
  obtain ⟨xu, xs, xm, xvu, xvs⟩ := x
  obtain ⟨yu, ys, ym, yvu, yvs⟩ := y
  have hu : xu = yu := h .user
  have hs : xs = ys := h .supervisor
  have hm : xm = ym := h .machine
  have hvu : xvu = yvu := h .vu
  have hvs : xvs = yvs := h .vs
  rw [hu, hs, hm, hvu, hvs]

/-- Deleting every entry of a TLB is its ANY-mode invalidation over all addresses. -/
theorem State.clearTlb_eq_freeTlb (s : State) (t : TlbId) : s.clearTlb t = s.freeTlb t := by
  have hall : (s.tlb t).filter (s.invalidates 0 (BitVec.allOnes 64) .any) = s.tlb t :=
    List.filter_eq_self.2 fun e _ => s.invalidates_all .any e
  rw [State.clearTlb, State.tlbInvalidate_eq_foldl, hall, State.freeTlb]

/-- Clearing the TLBs of a linked block empties both stores and changes nothing else. -/
theorem State.clearTlbs_eq_empty {s : State} (h : s.LinkInv) :
    s.clearTlbs = { s with tlbs := Tlbs.empty, aliases := AliasStore.empty } := by
  obtain ⟨a, u, hframe⟩ := s.clearTlbs_eq
  obtain ⟨hentries, haliases⟩ := State.clearTlbs_empty h
  rw [hframe] at hentries haliases ⊢
  obtain rfl : u = Tlbs.empty := Tlbs.ext_get _ _ fun t => (hentries t).trans (State.tlb_of_empty (s := s.initVm) rfl t).symm
  obtain rfl : a = AliasStore.empty :=
    AliasStore.ext_get fun mode => (haliases mode).trans (State.aliasesOf_of_empty (s := s.initVm) rfl mode).symm
  rfl

/-- `VM_FREE` clears the TLBs. -/
theorem exec_vmFree (s : State) : exec .vmFree s = .next (s.clearTlbs.respond .noReply) := by
  rw [State.clearTlbs, State.clearTlb_eq_freeTlb, State.clearTlb_eq_freeTlb, State.clearTlb_eq_freeTlb]
  rfl

/-! ### A restore of records (44_host_ops.md R313) -/

/-- Clearing links changes neither which entries name a TLB nor what is saved of them. -/
theorem unlinked_filter_unlinked (es : List Entry) (i : TlbId) :
    ((es.map Entry.unlinked).filter fun e => decide (e.tlb = i)).map Entry.unlinked
      = (es.filter fun e => decide (e.tlb = i)).map Entry.unlinked := by
  rw [List.filter_map, List.map_map]
  rfl

/-- A stream holds at least a byte for each of its entries. -/
theorem length_le_length_records (es : List Entry) : es.length ≤ (es.flatMap entryRecord).length := by
  induction es with
  | nil => exact Nat.le_refl _
  | cons e es ih =>
    have hrecord : 0 < (entryRecord e).length := Nat.succ_pos _
    rw [List.flatMap_cons, List.length_append, List.length_cons]
    omega

/-- `t` is `u` after a restore that cleared the TLBs and inserted `es`, in their order, as they are saved. -/
structure Restored (u t : State) (es : List Entry) : Prop where
  entries : ∀ i, (t.tlb i).map Entry.unlinked = (es.filter fun e => decide (e.tlb = i)).map Entry.unlinked
  unmapped : ∀ i, ∀ e ∈ t.tlb i, e.mapped = 0
  aliases : ∀ mode, t.aliasesOf mode = []
  frame : t = { u with tlbs := t.tlbs, aliases := t.aliases, nextHandle := t.nextHandle, response := t.response }

/-- Inserting saved entries into a linked block whose TLBs were cleared. -/
theorem Restored.insertAll {u : State} (h : u.LinkInv) (es : List Entry) (r : Response) :
    Restored u ((u.clearTlbs.insertAll (es.map Entry.unlinked)).respond r) es := by
  obtain ⟨hentries, haliases⟩ := State.clearTlbs_empty h
  obtain ⟨_, _, hclear⟩ := u.clearTlbs_eq
  obtain ⟨_, _, hinsert⟩ := State.insertAll_eq (es.map Entry.unlinked) u.clearTlbs
  have htlb (i : TlbId) := State.insertAll_tlb (es.map Entry.unlinked) u.clearTlbs i
  refine ⟨fun i => ?_, fun i e he => ?_, fun mode => ?_, ?_⟩
  · obtain ⟨l, hl, hsaved, -⟩ := htlb i
    rw [hentries, List.nil_append] at hl
    exact (congrArg (List.map Entry.unlinked) hl).trans (hsaved.trans (unlinked_filter_unlinked es i))
  · obtain ⟨l, hl, -, hunmapped⟩ := htlb i
    rw [hentries, List.nil_append] at hl
    refine hunmapped (fun f hf => ?_) e (hl ▸ he)
    obtain ⟨g, -, rfl⟩ := List.mem_map.1 hf
    rfl
  · rw [hinsert]
    exact haliases mode
  · rw [hinsert, hclear]
    rfl

/-- A restore of records inserts their entries and answers by what becomes of the bytes after them. -/
theorem exec_vmRestore_records {u : State} (h : u.LinkInv) (es : List Entry) {tail : List Byte} {reached : Bool}
    (htail : ∀ n s, restoreLoop (n + 1) tail s = (reached, s)) :
    ∃ t, exec (.vmRestore (es.flatMap entryRecord ++ tail)) u = .next t
      ∧ t.response = (if reached then .noReply else .restoreRefused) ∧ Restored u t es := by
  have hlen : es.length ≤ (es.flatMap entryRecord ++ tail).length := by
    rw [List.length_append]
    exact Nat.le_add_right_of_le (length_le_length_records es)
  obtain ⟨n, hfuel⟩ := Nat.exists_eq_add_of_le hlen
  have hrun : u.restore (es.flatMap entryRecord ++ tail)
      = (reached, u.clearTlbs.insertAll (es.map Entry.unlinked)) := by
    rw [State.restore, hfuel, show es.length + n + 1 = n + 1 + es.length by omega, restoreLoop_records, htail]
  refine ⟨_, rfl, ?_, ?_⟩
  · rw [hrun]
    rfl
  · rw [hrun]
    exact Restored.insertAll h es _

theorem restoreLoop_terminator (n : Nat) (s : State) : restoreLoop (n + 1) terminator s = (true, s) :=
  rfl

theorem restoreLoop_of_parseRecord_none {bs : List Byte} (h : parseRecord bs = none) (n : Nat) (s : State) :
    restoreLoop (n + 1) bs s = (false, s) := by
  rw [restoreLoop, h]

/-! ### The saved entries (44_host_ops.md R312) -/

/-- In a linked block the saved entries that name a TLB are the entries of that TLB. -/
theorem State.saveOrder_filter {s : State} (h : s.linksOk) (i : TlbId) :
    (s.saveOrder.filter fun e => decide (e.tlb = i)).Perm (s.tlb i) := by
  have part (c : Nat) (t : TlbId) :
      (((s.draw c).listing t).filter fun e => decide (e.tlb = i)).Perm (if t = i then s.tlb i else []) := by
    refine (((s.draw c).listing_perm t).filter _).trans ?_
    have hnames (e : Entry) (he : e ∈ s.tlb t) : e.tlb = t := (h.1 t e he).1
    split
    · rename_i hti
      subst hti
      exact List.Perm.of_eq (List.filter_eq_self.2 fun e he => decide_eq_true (hnames e he))
    · rename_i hti
      exact List.Perm.of_eq (List.filter_eq_nil_iff.2 fun e he => by simpa [hnames e he] using hti)
  have hall := (part 0 .hs).append ((part (s.listing .hs).length .vs1).append
    (part ((s.listing .hs).length + ((s.draw (s.listing .hs).length).listing .vs1).length) .vs2))
  rw [← List.filter_append, ← List.filter_append] at hall
  refine hall.trans (List.Perm.of_eq ?_)
  cases i <;> simp

/-! ### What is no record (44_host_ops.md R313) -/

/-- A payload that reads has 44 bytes, and a `tlb` code of a TLB (30_encoding.md R122). -/
theorem parseEntry_some {bs rest : List Byte} {e : Entry} (h : parseEntry bs = some (e, rest)) :
    44 ≤ bs.length ∧ (bs.getD 32 0).toNat ≤ 2 := by
  simp only [parseEntry, takeLE_eq, leValue_take_one, Option.bind_eq_bind, Option.bind_eq_some_iff,
    Option.ite_none_right_eq_some, Option.some.injEq, List.drop_drop, List.length_drop, exists_and_left, exists_eq_left',
    and_assoc] at h
  obtain ⟨_, _, _, _, _, _, _, _, _, t, hcode, -⟩ := h
  have htlb := TlbId.le_of_ofCode hcode
  rw [List.getD_eq_getElem?_getD, List.getElem?_drop] at htlb
  exact ⟨by omega, by rwa [List.getD_eq_getElem?_getD]⟩

/-- A record with the tag is read by its size (30_encoding.md R122). -/
theorem parseRecord_size {n : Nat} (h : n < 2 ^ 32) (rest : List Byte) :
    parseRecord (saveTag ++ (leBytes 4 n ++ rest))
      = if n = 0 then some .terminator
        else if n = 44 then (parseEntry rest).map fun r => .entry r.1 r.2
        else none := by
  have htag : (saveTag ++ (leBytes 4 n ++ rest)).take 9 = saveTag := rfl
  have hbody : (saveTag ++ (leBytes 4 n ++ rest)).drop 9 = leBytes 4 n ++ rest := rfl
  rw [parseRecord, if_pos htag, hbody, takeLE_leBytes, Nat.mod_eq_of_lt (show n < 256 ^ 4 from h)]

theorem parseRecord_malformed {bs : List Byte} (h : malformed bs) : parseRecord bs = none := by
  rcases h with htag | hshort | ⟨n, rest, hn, h0, h44, rfl⟩ | ⟨rest, rfl, hpayload⟩
  · rw [parseRecord, if_neg htag]
  · have hsize : takeLE 4 (bs.drop 9) = none := by
      rw [takeLE_eq, List.length_drop, if_neg (by omega)]
    rw [parseRecord, hsize, ite_self]
  · rw [parseRecord_size hn, if_neg h0, if_neg h44]
  · have hentry : parseEntry rest = none := by
      refine Option.eq_none_iff_forall_ne_some.2 fun r hr => ?_
      obtain ⟨hlen, hcode⟩ := parseEntry_some hr
      omega
    rw [parseRecord_size (by decide), if_neg (by decide), if_pos rfl, hentry, Option.map_none]

end Machine
end Sys2Proof

section
open Sys2Proof Sys2Proof.Machine

/-- Settles O58: the terminator ends the restore, and the saved entries that name a TLB are that TLB's. -/
theorem saveRestoreRoundTrip : Obligations.SaveRestoreRoundTrip := by
  intro s u hs hu
  obtain ⟨t, hexec, hresponse, ht⟩ := exec_vmRestore_records hu s.saveOrder restoreLoop_terminator
  have hframe := ht.frame
  rw [hresponse] at hframe
  refine ⟨_, _, t, rfl, rfl, hexec, fun i => ⟨?_, ht.unmapped i⟩, ht.aliases, hframe⟩
  rw [ht.entries]
  exact (State.saveOrder_filter hs i).map _

/-- Settles O18: in a linked block clearing the TLBs empties both stores, as `VM_INIT` does, and the flags were false. -/
theorem vmFreeEmptiesEverything : Obligations.VmFreeEmptiesEverything := by
  intro s h hquiet
  obtain ⟨hptw, hs2⟩ := hquiet
  refine ⟨_, _, exec_vmFree s, rfl, ?_⟩
  rw [State.clearTlbs_eq_empty h, State.initVm]
  simp only [State.respond, hptw, hs2]

/-- Settles O57: each listing is its TLB in ascending order. -/
theorem saveStreamsTheTlbs : Obligations.SaveStreamsTheTlbs :=
  fun s =>
    let hs := s.listing .hs
    let vs1 := (s.draw hs.length).listing .vs1
    let vs2 := (s.draw (hs.length + vs1.length)).listing .vs2
    ⟨hs, vs1, vs2, _, State.listing_perm _ _, State.listing_perm _ _, State.listing_perm _ _, State.listing_ascending _ _,
      State.listing_ascending _ _, State.listing_ascending _ _, rfl⟩

/-- Settles O60: each dump writes out the listing of its TLB. -/
theorem dumpsListTheTlbs : Obligations.DumpsListTheTlbs :=
  fun s => ⟨⟨_, _, s.listing_perm .hs, s.listing_ascending .hs, rfl⟩, ⟨_, _, s.listing_perm .vs1, s.listing_ascending .vs1, rfl⟩,
    ⟨_, _, s.listing_perm .vs2, s.listing_ascending .vs2, rfl⟩⟩

/-- Settles O59: a malformed record does not parse, so the restore stops there and is refused. -/
theorem malformedStreamStopsTheRestore : Obligations.MalformedStreamStopsTheRestore := by
  intro u es bad hu hbad
  obtain ⟨t, hexec, hresponse, ht⟩ :=
    exec_vmRestore_records hu es (restoreLoop_of_parseRecord_none (parseRecord_malformed hbad))
  exact ⟨t, hexec, hresponse, ht.entries, ht.aliases, ht.frame⟩

/-- Settles O17: the state after `VM_INIT` is the old one with the translation part reset. -/
theorem vmInitResetsTranslation : Obligations.VmInitResetsTranslation :=
  fun _ => ⟨_, rfl, State.tlb_of_empty rfl, State.aliasesOf_of_empty rfl, rfl, rfl, rfl, rfl, rfl, rfl⟩

end
end

section
/-! Operands outside their domain (44_host_ops.md R319): which command packets do not decode, and which operations refuse to
run. -/

namespace Sys2Proof

theorem decodeCommand_unknown {code : Nat} (h : code = 0 ∨ 0x15 < code) (bs : List Byte) :
    decodeCommand code bs = .error .unknownCommand := by
  rcases h with rfl | h
  · rfl
  · obtain ⟨n, rfl⟩ := Nat.exists_eq_add_of_le' h
    rfl

theorem DomainClass.ofCode_eq_none {n : Nat} (h : 3 < n) : DomainClass.ofCode n = none := by
  rw [DomainClass.ofCode, if_neg (by omega), if_neg (by omega), if_neg (by omega), if_neg (by omega)]

theorem Mode5.ofCode_eq_none {n : Nat} (h : n = 2 ∨ 5 < n) : Mode5.ofCode n = none := by
  rw [Mode5.ofCode, if_neg (by omega), if_neg (by omega), if_neg (by omega), if_neg (by omega), if_neg (by omega)]

theorem decodeMiss_badClass {c : Byte} (h : 3 < c.toNat) (more : List Byte) :
    decodeMiss (c :: more) = .error .badClass := by
  rw [decodeMiss, withCode_one, DomainClass.ofCode_eq_none h]

/-- A `MISS` with a mode code of no mode does not decode, whatever its class code is. -/
theorem decodeMiss_badMode {d : Byte} (h : d.toNat = 2 ∨ 5 < d.toNat) (c : Byte) (more : List Byte) :
    ∃ e, decodeMiss (c :: d :: more) = .error e := by
  rw [decodeMiss, withCode_one]
  cases DomainClass.ofCode c.toNat with
  | none => exact ⟨_, rfl⟩
  | some cls =>
    refine ⟨.badMode, ?_⟩
    dsimp only
    rw [withCode_one, Mode5.ofCode_eq_none h]

theorem decode_cmd8 (code : Byte) (operands : List Byte) :
    decode { format := .cmd8, bytes := code :: operands } = decodeCommand code.toNat operands :=
  withField_one code operands decodeCommand

namespace Machine

/-! ### Operands the operations check -/

/-- The operands of a `MISS` outside their domain, case by case. -/
theorem missOperandsOk_eq_false {p : Params} {mode : Mode5} {req : Priv}
    (h : (req ≠ Priv.R ∧ req ≠ Priv.W ∧ req ≠ Priv.X) ∨ (virtOf mode = true ∧ p.hasH = false)
      ∨ baseNum (baseOf mode) < baseNum p.minMode) : missOperandsOk p mode req = false := by
  rw [missOperandsOk, Bool.and_eq_false_iff]
  rcases h with ⟨hr, hw, hx⟩ | ⟨hvirt, hnoH⟩ | hlow
  · left
    rw [Priv.isSingleton, beq_false_of_ne hr, beq_false_of_ne hw, beq_false_of_ne hx]
    rfl
  · right
    simp [modeAllowed, hvirt, hnoH]
  · right
    simp [modeAllowed, hlow]

theorem execMiss_badOperands {cls : DomainClass} {mode : Mode5} {req : Priv} {va : U64} {bytes : Nat} {artifact : Bool}
    {s : State} (h : missOperandsOk s.params mode req = false) :
    execMiss cls mode req va bytes artifact s = .next s.refuseMiss := by
  unfold execMiss
  rw [h]
  rfl

section
variable {sv : SvMode} {reg : Stage1Reg} {x : U64} {req : Priv} {mode : Mode5} {artifact : Bool} {s : State}

theorem exec_stage1Instr_refused (h : walkOperandsOk s.params reg.tlb mode req = false) :
    exec (stage1Instr sv reg x req mode artifact) s = .next (s.respond .refused) := by
  rw [exec_stage1Instr, runStage1, h]
  rfl

theorem exec_stage2Instr_refused (h : walkOperandsOk s.params .vs2 mode req = false) :
    exec (stage2Instr sv x req mode artifact) s = .next (s.respond .refused) := by
  rw [exec_stage2Instr, runStage2, h]
  rfl

end

/-- A walker checks the operands a `MISS` does (log 22). -/
theorem walkOperandsOk_eq_false {p : Params} {mode : Mode5} {req : Priv} (h : missOperandsOk p mode req = false) (t : TlbId) :
    walkOperandsOk p t mode req = false := by
  rw [walkOperandsOk, h, Bool.false_and]

/-- Without `HAS_H` no walker fills a guest TLB (log 22). -/
theorem walkOperandsOk_guest_eq_false {p : Params} (h : p.hasH = false) {t : TlbId} (ht : t ≠ .hs) (mode : Mode5) (req : Priv) :
    walkOperandsOk p t mode req = false := by
  rw [walkOperandsOk, h, decide_eq_false ht, Bool.or_false, Bool.and_false]

/-- A region kind refuses an index outside the bank (log 22). -/
theorem State.next_answerRegion_refused {s : State} {i : Nat} (h : s.params.pmpN ≤ i) (r : Region) (p : Priv) (l : Bool) :
    (.next (s.answerRegion i r p l) : Host.Outcome State Fault Refusal) = .next (s.respond .refused) :=
  congrArg Host.Outcome.next (if_neg (Nat.not_lt.2 h))

/-- NA4 is refused for an index outside the bank and where the grain makes it unselectable (43_pmp.md R270; log 22). -/
theorem execPmpNa4_refused {s : State} {i : Nat} (h : s.params.pmpN ≤ i ∨ 1 ≤ s.params.pmpG) (l x w r : Bool) :
    execPmpNa4 l x w r i s = .next (s.respond .refused) := by
  unfold execPmpNa4
  split
  · rename_i hG
    exact State.next_answerRegion_refused (by omega) _ _ _
  · rfl

end Machine
end Sys2Proof

section
open Sys2Proof Sys2Proof.Machine

/-- Settles O51: a packet that does not decode is refused by the step, and each operation checks its operands first. -/
theorem operandsOutsideTheirDomainRefused : Obligations.OperandsOutsideTheirDomainRefused := by
  refine ⟨fun code operands rest s hin hbad => ?_, fun mode req s hbad => ?_, fun sv va req mode artifact s hnoH => ?_,
    fun l x w r i s => ⟨fun hi => ?_, fun hna4 => execPmpNa4_refused hna4 l x w r⟩⟩
  · obtain ⟨e, hdecode⟩ : ∃ e, decodeCommand code.toNat operands = .error e := by
      rcases hbad with rfl | hcode | ⟨rfl, c, more, rfl, hclass⟩ | ⟨rfl, c, d, more, rfl, hmode⟩
      · exact ⟨_, decodeCommand_unknown (.inl rfl) operands⟩
      · exact ⟨_, decodeCommand_unknown (.inr hcode) operands⟩
      · exact ⟨_, decodeMiss_badClass hclass more⟩
      · exact decodeMiss_badMode (hmode.imp_left (congrArg BitVec.toNat)) c more
    rw [step_command hin, runPacket_error ((decode_cmd8 code operands).trans hdecode)]
    rfl
  · have hops := missOperandsOk_eq_false hbad
    exact ⟨fun cls va bytes artifact => execMiss_badOperands hops,
      fun sv reg va artifact => exec_stage1Instr_refused (walkOperandsOk_eq_false hops _),
      fun sv gpa artifact => exec_stage2Instr_refused (walkOperandsOk_eq_false hops _)⟩
  · exact ⟨exec_stage1Instr_refused (walkOperandsOk_guest_eq_false hnoH (by decide) _ _),
      exec_stage2Instr_refused (walkOperandsOk_guest_eq_false hnoH (by decide) _ _)⟩
  · exact ⟨State.next_answerRegion_refused hi _ _ _, State.next_answerRegion_refused hi _ _ _,
      State.next_answerRegion_refused hi _ _ _⟩

end
end

section
/-! From walker error to cause code (60_exceptions.md R331, R332): a table row for each form of fault. -/

namespace Sys2Proof.Machine

/-- The two bus errors are those of the page-table accesses; the other eight errors are page faults. -/
theorem isBusError_iff {e : WalkErr} : isBusError e = true ↔ e = .read ∨ e = .write := by
  cases e <;> decide

variable {e : WalkErr}

theorem excKind_code_accessFault (h : isBusError e = true) (t : TlbId) :
    (excKind e t Priv.R).code = 5 ∧ (excKind e t Priv.W).code = 7 ∧ (excKind e t Priv.X).code = 1 := by
  simp only [excKind, if_pos h]
  decide

theorem excKind_code_guestPageFault (h : isBusError e = false) :
    (excKind e .vs2 Priv.R).code = 21 ∧ (excKind e .vs2 Priv.W).code = 23 ∧ (excKind e .vs2 Priv.X).code = 20 := by
  simp only [excKind, h]
  decide

theorem excKind_code_pageFault {t : TlbId} (h : isBusError e = false) (ht : t ≠ .vs2) :
    (excKind e t Priv.R).code = 13 ∧ (excKind e t Priv.W).code = 15 ∧ (excKind e t Priv.X).code = 12 := by
  simp only [excKind, h, if_neg ht]
  decide

end Sys2Proof.Machine

section
open Sys2Proof Sys2Proof.Machine

/-- Settles O40: a bus error has the access-fault row whatever the TLB, and a page fault the row of its TLB. -/
theorem exceptionTable : Obligations.ExceptionTable := fun _ t =>
  ⟨fun hbus => excKind_code_accessFault hbus t,
    fun hpage hvs2 => hvs2 ▸ excKind_code_guestPageFault hpage,
    excKind_code_pageFault,
    isBusError_iff⟩

end
end

section
/-! Reset in command terms (70_reset_and_hazards.md R370): one command clears the bank, `VM_INIT` the rest. -/

namespace Sys2Proof.Machine

/-- `VM_INIT` brings a block whose bank and permission cache are clear to its reset values. -/
theorem State.initVm_atReset {s : State} (hcfg : s.pmpcfg = List.replicate s.params.pmpN 0)
    (haddr : s.pmpaddr = List.replicate s.params.pmpN 0) (hperm : s.pmpPerm = PmpPerm.empty) :
    (s.initVm.respond .noReply).AtReset where
  cfg := State.cfg_of_zero hcfg
  addr := State.addr_of_zero haddr
  regions i := ⟨State.region_of_cfg_zero (State.cfg_of_zero hcfg i), State.locked_of_cfg_zero (State.cfg_of_zero hcfg i)⟩
  cache b k x := (congrArg (fun perms => PermMap.lookup x (perms.get b k)) hperm).trans (PmpPerm.lookup_empty b k x)
  tlbs := State.tlb_of_empty rfl
  aliases := State.aliasesOf_of_empty rfl
  key := rfl
  flags := ⟨rfl, rfl⟩
  afault := rfl
  dataMode := rfl

end Sys2Proof.Machine

section
open Sys2Proof Sys2Proof.Machine

/-- Settles O5: either first command clears the bank and the cache, which `VM_INIT` leaves as they are. -/
theorem resetSequenceGivesResetValues : Obligations.ResetSequenceGivesResetValues := by
  intro s first hfirst
  have hcleared : exec first s = .next (s.clearBank.respond .noReply) := by
    rcases hfirst with rfl | rfl <;> rfl
  exact ⟨s.clearBank.respond .noReply, _, hcleared, rfl, State.initVm_atReset rfl rfl rfl, rfl, rfl, rfl⟩

end
end
